-- ==== Sys2Proof/Word.lean ====
section
/-! DEFINITION. The widths of the JS420: bytes, 16-, 32- and 64-bit fields and the 6-bit link sequence. -/

namespace Sys2Proof

/-- The least unit of DRAM, of a frame and of a maintenance transaction. -/
abbrev Byte := BitVec 8

abbrev W16 := BitVec 16

/-- Sequence numbers, epochs, generations and counters (00, 3.5). -/
abbrev W32 := BitVec 32

/-- Stream positions (00, 3.5). -/
abbrev W64 := BitVec 64

/-- Link transmit sequences and acknowledgements, 0 to 63 (07, Table 7-1). -/
abbrev Seq := BitVec 6

end Sys2Proof
end

