-- ==== Sys2Proof/Config.lean ====
section
/-! DEFINITION. The fixed figures of the part (00, Table 5) and the free values the spec leaves open. -/

namespace Sys2Proof.Config

/-- 2 GiB (R140). -/
abbrev dramBytes : Nat := 2147483648
/-- A segment: one row of all 16 banks (08, 8.1). -/
abbrev segmentBytes : Nat := 65536
abbrev burstBytes : Nat := 64
abbrev granuleBytes : Nat := 8
/-- The last segment (R11). -/
abbrev lastSegment : Nat := 32767
/-- The least segment count of a region (R11). -/
abbrev minSegments : Nat := 16
/-- The longest payload (R27, check 5). -/
abbrev maxPayload : Nat := 65536
/-- Payload bytes of one DATA or RDATA frame (R31, R76). -/
abbrev maxFrameData : Nat := 256
/-- The longest READ (R73, check 5). -/
abbrev maxRead : Nat := 4096
/-- The longest payload of a link frame (R185). -/
abbrev maxFramePayload : Nat := 512
/-- Open appends of one session (R26). -/
abbrev maxOpenAppends : Nat := 4
/-- Request tags in flight (R112). -/
abbrev maxTags : Nat := 16
abbrev requestPlaces : Nat := 8
abbrev responsePlaces : Nat := 32
abbrev notifyPlaces : Nat := 32
/-- The largest drop count (R94). -/
abbrev maxDrops : Nat := 255
abbrev replayEntries : Nat := 16
abbrev replayLimit : Nat := 8
/-- LINK_RESET frames sent before the part listens (R123). -/
abbrev resetFrames : Nat := 8
/-- Good IDLE frames from SYNC to UP (R124). -/
abbrev syncFrames : Nat := 8
/-- Credits each side holds at entry to UP (R125). -/
abbrev linkCredits : Nat := 8
abbrev accessPlaces : Nat := 64
/-- Places that ORDINARY accesses may take (R141). -/
abbrev ordinaryPlaces : Nat := 55
/-- Times an access may be passed over (R145). -/
abbrev bypassLimit : Nat := 4
/-- The largest refresh debt (R149). -/
abbrev debtLimit : Nat := 8
/-- The sequence that PAD records carry and no other (R5). -/
abbrev lastSequence : W32 := 0xFFFFFFFF#32
/-- The last epoch (R3). -/
abbrev lastEpoch : W32 := 0xFFFFFFFF#32

/-- Defaults of Table 10-2. -/
abbrev defaultIdle : Byte := 20#8
abbrev defaultGrace : W16 := 2000#16
abbrev defaultUrgent : Byte := 6#8
abbrev defaultWatermark : Byte := 75#8

/-- FREE VALUE. The bytes that the n-th missed refresh leaves changed in DRAM, each with what it then holds:
R149 says the engine does not find out which bytes, if any, were lost (log 8). -/
opaque lostBytes : Nat → List Host.Cell

/-- FREE VALUE. The byte returned on the n-th byte clocked for a transaction that is not taken: R176 gives none (log 48). -/
opaque untakenByte : Nat → Byte

end Sys2Proof.Config
end

