-- ==== Sys2Proof/Syntax.lean ====
section
/-! DEFINITION. The commands of the JS420: one constructor of `Instr` for each row of spec/opcode_table.json. -/

namespace Sys2Proof

/-- P0 to P3. -/
abbrev Port := Fin 4
/-- J0 to J7. -/
abbrev JournalId := Fin 8
/-- One of the twelve append slots (R24). -/
abbrev SlotId := Fin 12
/-- One of the eight read contexts, two a port: contexts 2n and 2n + 1 are those of port n (R71). -/
abbrev ReadId := Fin 8

/-- An item of the directory (01, Table 1-4). -/
inductive Item where
  | journal (j : JournalId)
  | header
deriving DecidableEq, Repr

/-- The two copies of an item of the directory. -/
inductive Copy where
  | a
  | b
deriving DecidableEq, Repr

/-- What an append slot's write carries (08, Table 8-2). -/
inductive SlotWrite where
  | pad
  | payload
  | header
deriving DecidableEq, Repr

/-- Who handed an access to the memory engine (08, Tables 8-1 and 8-2). The copies that are written outside the
directory writers (R22, R23, R170) have clients of their own. -/
inductive Client where
  | slot (n : SlotId) (w : SlotWrite)
  | readCtx (r : ReadId)
  | trim (j : JournalId)
  | dirWriter (i : Item)
  | load (i : Item) (c : Copy)
  | coldWrite (i : Item) (c : Copy)
  | rewrite (i : Item) (c : Copy)
  | formatWrite (i : Item) (c : Copy)
deriving DecidableEq, Repr

/-- The sequenced frame types (07, Table 7-2). -/
inductive SeqType where
  | req
  | data
  | rsp
  | rdata
  | ntf
deriving DecidableEq, Repr

/-- The header fields of a good frame received (07, 7.2): transmit sequence, acknowledgement, NAK flag, credit return. -/
structure Header where
  seq : Seq
  ack : Seq
  nak : Bool
  credit : BitVec 4
deriving DecidableEq, Repr

/-- A good LINK_RESET frame received: the port it came in on, and its header. -/
structure ResetFrame where
  port : Port
  header : Header
deriving DecidableEq, Repr

/-- The commands. A request command takes the frame at the head of its port's request buffer (R110); a completion
command ends the operation in flight on the DRAM command path (R142, R143). -/
inductive Instr where
  -- requests and DATA frames taken by the intake
  | attach (p : Port)
  | detach (p : Port)
  | status (p : Port)
  | subscribe (p : Port)
  | unsubscribe (p : Port)
  | claim (p : Port)
  | release (p : Port)
  | takeover (p : Port)
  | append (p : Port)
  | read (p : Port)
  | trim (p : Port)
  | unknownRequest (p : Port)
  | data (p : Port)
  -- appends, journals and the directory
  | idleTimerExpiry (n : SlotId)
  | holdGraceExpiry (j : JournalId)
  | appendWriteComplete
  | frontierAdvance (j : JournalId)
  | directoryWriteStart (i : Item)
  | directoryWriteComplete
  | appendDoneRelease (n : SlotId)
  | deviceHeaderWriteComplete
  | transferComplete (j : JournalId)
  | trimCheckComplete
  | trimHeadAdvance (j : JournalId)
  | trimComplete (j : JournalId)
  | readBurstComplete
  | readFrameQueued (r : ReadId)
  | readResponseQueued (r : ReadId)
  | appendDoneQueued (p : Port)
  | waitingResponseQueued (p : Port)
  | formatExecute
  | formatWritesComplete
  -- the port link
  | transmitSelect (p : Port)
  | sendIdle (p : Port)
  | sendLinkReset (p : Port)
  | replaySend (p : Port)
  | goodSequencedFrame (p : Port) (t : SeqType) (h : Header) (payload : List Byte)
  | idleFrame (p : Port) (h : Header)
  | linkResetFrame (f : ResetFrame)
  | frameCheckFail (p : Port)
  | replayTimerExpiry (p : Port)
  | silenceTimerExpiry (p : Port)
  -- the memory engine
  | accessAdmit (c : Client)
  | refreshTimerExpiry
  | refreshComplete
  | initialiseComplete
  | selfRefreshEntryComplete
  | selfRefreshExitComplete
  -- cold start, restore, quiesce and power
  | coldStartWriteComplete
  | coldStartDone
  | headerLoadComplete
  | entryLoadComplete
  | directoryRewriteComplete
  | restoreComplete
  | quiesceDrainDone
  | pfailNFall
  | pfailNRise
  | mainDomainStart
  | mainPowerOn
  | mainPowerLoss
  | rstNLow
  | rstNRelease
  | retentionPowerOn
  -- the maintenance port
  | readStatus
  | readJournal (j : Byte)
  | setLayout (j : Byte) (base count : W16)
  | clearLayout (j : Byte)
  | setParam (param journal : Byte) (value : W16)
  | forceRelease (j : Byte)
  | saveAndHalt
  | resume
  | format
  | readCounters (block index : Byte)
  | clearCounters
  | ackAttention (mask : BitVec 24)
  | setAttentionMask (mask : BitVec 24)
  | badCommand (command : Byte)
  | spiCutShort (received : List Byte)
deriving DecidableEq, Repr

end Sys2Proof
end

