-- ==== Sys2Proof/Decode.lean ====
section
/-! DEFINITION. The command a table word spells (no row of spec/opcode_table.json gives bits, so none), and the
maintenance command bytes of 11, Table 11-8. -/

namespace Sys2Proof

/-- No row of the table gives bits: no word spells a command. -/
def decodeTableWord (_nbits _w : Nat) : Option Instr := none

/-- Parameter bytes of each maintenance command byte (Table 11-8); none for an unknown byte. -/
def maintenanceParams (command : Byte) : Option Nat :=
  match command.toNat with
  | 0x01 => some 0
  | 0x02 => some 1
  | 0x03 => some 5
  | 0x04 => some 1
  | 0x05 => some 4
  | 0x06 => some 1
  | 0x07 => some 0
  | 0x08 => some 0
  | 0x09 => some 0
  | 0x0A => some 2
  | 0x0B => some 0
  | 0x0C => some 3
  | 0x0D => some 3
  | _ => none

/-- Whether chip select rises before the parameter phase ends, when `received` are the bytes clocked in by then
(R176): no byte at all, or a known command byte with fewer parameter bytes than it has. -/
def cutShort (received : List Byte) : Bool :=
  match received with
  | [] => true
  | c :: params =>
    match maintenanceParams c with
    | some n => decide (params.length < n)
    | none => false

end Sys2Proof
end

