-- ==== Sys2Proof/WellFormed.lean ====
section
/-! DEFINITION. The checks an operand must pass for a command to be the event its row names. -/

namespace Sys2Proof

/-- A GOOD_SEQUENCED_FRAME has a payload the length test of R185 lets through; a BAD_COMMAND byte is unknown (R176);
the bytes of an SPI_CUT_SHORT end before their parameter phase does (R176). Every other operand is well formed by its type. -/
def Instr.wellFormed : Instr → Bool
  | .goodSequencedFrame _ _ _ payload => decide (payload.length ≤ Config.maxFramePayload)
  | .badCommand c => (maintenanceParams c).isNone
  | .spiCutShort received => cutShort received
  | _ => true

end Sys2Proof
end

