-- ==== Sys2Proof/Machine/State.lean ====
section
/-! DEFINITION. The state of the JS420, block by block (00, Table 1), the reasons a step can stop, and the state
after reset. -/

namespace Sys2Proof.Machine

/-! ## Names the spec gives to values -/

/-- Device mode (09, Table 9-2). -/
inductive Mode where
  | initializing
  | restoring
  | serving
  | quiescing
  | halted
  | retaining
deriving DecidableEq, Repr

/-- Why the present quiesce began (09, Table 9-1). -/
inductive QuiesceCause where
  | pfail
  | saveAndHalt
deriving DecidableEq, Repr

inductive StartKind where
  | cold
  | warm
deriving DecidableEq, Repr

/-- Why a session ends (06, 6.2). -/
inductive EndCause where
  | detach
  | linkLoss
  | quiesce
deriving DecidableEq, Repr

/-- The five journal states (01, Table 1-1). -/
inductive JournalState where
  | unconfigured
  | unassigned
  | owned
  | held
  | transferring
deriving DecidableEq, Repr

/-- Port statuses in the order of 06, Table 6-5, which is their encoding. -/
inductive Status where
  | ok
  | voided
  | noSession
  | tagBusy
  | tagInUse
  | badRequest
  | badJournal
  | badPosition
  | notOwner
  | notOwned
  | staleEpoch
  | fenced
  | busy
  | noSlot
  | journalFull
  | tooLong
  | streamExhausted
  | trimmed
  | notABoundary
  | heldGrace
  | appendsOpen
  | notServing
  | overrun
deriving DecidableEq, Repr

/-- Maintenance statuses (R176). -/
inductive MaintStatus where
  | ok
  | accepted
  | busy
  | badValue
  | badLayout
  | notServing
  | badCommand
deriving DecidableEq, Repr

/-- Void reasons (R8). -/
inductive VoidReason where
  | offsetError
  | lengthError
  | checkMismatch
  | abandoned
  | fenced
  | sessionEnded
deriving DecidableEq, Repr

/-- Record kinds (01, 1.3). -/
inductive RecordKind where
  | record
  | void
  | pad
deriving DecidableEq, Repr

/-- A session as the blocks identify it: by port and session generation (R102). -/
structure SessionId where
  port : Port
  gen : W32
deriving DecidableEq, Repr

/-! ## Frames queued for a master -/

/-- The values of an RSP frame after its flags byte (11, Table 11-4). -/
inductive Values where
  | none
  | mode (m : Mode)
  | attach (port : Port) (gen : W32) (m : Mode)
  | detach (gen : W32)
  | statusConfigured (state : JournalState) (subscribed : Bool) (tag : Option W32) (epoch : W32)
      (head durable : W64) (durableSeq : W32) (size free : Nat)
  | statusUnconfigured (epoch : W32)
  | statusDevice (m : Mode) (states : List JournalState) (port : Port) (gen : W32)
  | subscribe (state : JournalState) (tag : Option W32) (epoch : W32) (lastSeq : W32) (durable : W64)
  | epoch (e : W32)
  | appendDone (reason : Option VoidReason) (seq : W32) (position : W64)
  | read (bytes : Nat) (position : W64)
  | trim (epoch : W32) (head : W64)
deriving DecidableEq, Repr

/-- An RSP frame: an answer, a refusal or a REJECT. -/
structure Rsp where
  code : Byte
  tag : Byte
  status : Status
  atFrontier : Bool := false
  values : Values := .none
deriving DecidableEq, Repr

/-- A frame of a response queue (R115). -/
inductive RespFrame where
  | rsp (r : Rsp)
  | rdata (tag : Byte) (position : W64) (bytes : List Byte)
deriving DecidableEq, Repr

/-- A notification entry (05, Table 5-1). -/
inductive Ntf where
  | frontier (j : JournalId) (lastSeq : W32) (durable : W64)
  | owner (j : JournalId) (state : JournalState) (epoch : W32) (tag : Option W32)
  | fill (j : JournalId) (level size : Nat)
  | layout (j : JournalId)
  | mode (m : Mode)
  | overflow (drops : Nat)
deriving DecidableEq, Repr

/-! ## Link unit (07, Table 7-1) -/

inductive LinkState where
  | down
  | sync
  | up
deriving DecidableEq, Repr

inductive DownCause where
  | start
  | syncSilence
  | linkReset
  | silence
  | replayLimit
deriving DecidableEq, Repr

inductive NakState where
  | none
  | pending
  | sent
deriving DecidableEq, Repr

/-- The frame types the part sends as sequenced frames. -/
inductive TxType where
  | rsp
  | rdata
  | ntf
deriving DecidableEq, Repr

structure ReplayEntry where
  seq : Seq
  ftype : TxType
  payload : List Byte
deriving DecidableEq, Repr

/-- R139, in its order. -/
structure LinkCounters where
  good : W32 := 0
  checkFailures : W32 := 0
  sequenceDiscards : W32 := 0
  unexpected : W32 := 0
  naksSent : W32 := 0
  replays : W32 := 0
  overruns : W32 := 0
  lateData : W32 := 0
  downReset : W32 := 0
  downSilence : W32 := 0
  downReplay : W32 := 0
deriving DecidableEq, Repr

/-- One link unit. The field defaults are the values of R120 at a start of the main domain; the sequence, credit and
report fields hold the values of entry to UP (R125; log 10). -/
structure LinkUnit where
  state : LinkState := .down
  /-- Present in DOWN only. -/
  cause : Option DownCause := some .start
  resets : Nat := 0
  syncCount : Nat := 0
  nextSeq : Seq := 0
  expected : Seq := 0
  nak : NakState := .none
  replayBuf : List ReplayEntry := []
  /-- Idle, or running with the place in `replayBuf` of the next entry to resend. -/
  replay : Option Nat := none
  replayCount : Nat := 0
  replayTimer : Bool := false
  silenceTimer : Bool := false
  freePlaces : Nat := 8
  report : Nat := 8
  /-- The transmit lane: the last frame sent, byte for byte. -/
  lane : Option (List Byte) := none
  cnt : LinkCounters := {}
deriving DecidableEq, Repr

/-! ## Request layer (06) -/

/-- A frame of a request buffer: a REQ or a DATA frame with its payload (R108). -/
structure BufFrame where
  isData : Bool
  payload : List Byte
deriving DecidableEq, Repr

/-- The session record (06, Table 6-1). -/
structure Session where
  active : Bool := false
  tag : Option W32 := none
  gen : W32 := 0
  openAppends : Nat := 0
deriving DecidableEq, Repr

/-- The two sources of the transmit selector (R117). -/
inductive Source where
  | responses
  | notifications
deriving DecidableEq, Repr

/-- R119, in its order. -/
structure RequestCounters where
  reqTaken : W32 := 0
  dataTaken : W32 := 0
  refused : W32 := 0
  rejects : W32 := 0
  rejectsSuppressed : W32 := 0
  attaches : W32 := 0
  endsDetach : W32 := 0
  endsLinkLoss : W32 := 0
  endsQuiesce : W32 := 0
deriving DecidableEq, Repr

/-- One request layer, with its transmit selector; the defaults are those of R102. -/
structure RequestLayer where
  session : Session := {}
  buffer : List BufFrame := []
  tags : List Byte := []
  respQ : List RespFrame := []
  prefers : Source := .responses
  cnt : RequestCounters := {}
deriving DecidableEq, Repr

/-! ## Notification unit (05) -/

/-- One port's notification state (05, Table 5-2). -/
structure NotifyPort where
  queue : List Ntf := []
  overflow : Bool := false
  drops : Nat := 0
  modeRetained : Bool := false
deriving DecidableEq, Repr

/-- R101, in its order. -/
structure NotifyCounters where
  queued : W32 := 0
  folded : W32 := 0
  dropped : W32 := 0
  overflows : W32 := 0
  removed : W32 := 0
  layoutReplaced : W32 := 0
deriving DecidableEq, Repr

/-! ## Journal manager (01, 03, 04) -/

/-- The hold-grace timer (R65); running holds the period it was started with, in ms. -/
inductive Grace where
  | stopped
  | running (ms : W16)
  | expired
deriving DecidableEq, Repr

/-- The claimant of a transfer: its session and the tag of its TAKEOVER (R57, R52). -/
structure Claimant where
  session : SessionId
  reqTag : Byte
deriving DecidableEq, Repr

/-- The ownership of a configured journal; each constructor holds the fields that Table 1-2 gives its state. -/
inductive Ownership where
  | unassigned
  | owned (owner : SessionId) (tag : W32)
  | held (tag : W32) (grace : Grace)
  | transferring (owner : Option SessionId) (tag : W32) (claimant : Option Claimant)
deriving DecidableEq, Repr

/-- Phases of a pending trim (04, Table 4-4). -/
inductive TrimPhase where
  | checking
  | held
  | advanced
deriving DecidableEq, Repr

structure PendingTrim where
  target : W64
  session : SessionId
  reqTag : Byte
  phase : TrimPhase
deriving DecidableEq, Repr

/-- What a configured journal holds beside its epoch, watermark and directory state (01, Table 1-1, R1). -/
structure Conf where
  own : Ownership
  base : W16
  count : W16
  head : W64
  persistedHead : W64
  durable : W64
  frontier : W64
  reserve : W64
  nextSeq : W32
  frontierSeq : W32
  durableSeq : W32
  openSlots : Nat
  trim : Option PendingTrim
  pins : List W64
  subs : List Port
  armed : Bool
deriving DecidableEq, Repr

/-- What a directory write records of a configured journal (R18). -/
structure SnapConf where
  state : JournalState
  base : W16
  count : W16
  tag : Option W32
  head : W64
  frontier : W64
  frontierSeq : W32
deriving DecidableEq, Repr

/-- The snapshot of a directory write; `conf` is absent for an UNCONFIGURED journal. -/
structure Snapshot where
  epoch : W32
  conf : Option SnapConf
deriving DecidableEq, Repr

/-- The state of one item's directory writer (01, Table 1-1, R18, R21). `copiesLeft` counts the copies of a rewrite
outside the writer (cold start, FORMAT, restore) that have not completed (R22, R23, R170). -/
structure DirWriter where
  dirty : Bool := false
  inFlight : Bool := false
  snapshot : Option Snapshot := none
  newest : Copy := .a
  gen : W32 := 0
  copiesLeft : Nat := 0
deriving DecidableEq, Repr

/-- A response bound to a directory write (R20): an answer on a port, or the FORCE_RELEASE result. -/
inductive Bound where
  | answer (session : SessionId) (r : Rsp)
  | forceRelease
deriving DecidableEq, Repr

/-- One entry of the journal table; UNCONFIGURED has no `conf`. -/
structure Journal where
  conf : Option Conf := none
  epoch : W32 := 0
  watermark : Byte := Config.defaultWatermark
  dir : DirWriter := {}
  /-- Responses bound to the first write that starts from now on. -/
  boundNext : List Bound := []
  /-- Responses bound to the write in flight. -/
  boundFlight : List Bound := []
deriving DecidableEq, Repr

/-- The device header: the layout generation, absent until a cold start or restore has set it (R179), and its writer. -/
structure DeviceHeader where
  layoutGen : Option W32 := none
  dir : DirWriter := {}
deriving DecidableEq, Repr

/-- A response released to a port that has no free response-queue frame (R45, R52). -/
inductive Waiting where
  | appendDone (n : SlotId)
  | answer (r : Rsp)
deriving DecidableEq, Repr

/-! ## Append engine (02) -/

/-- The states of a slot that is not FREE (02, Table 2-2). -/
inductive SlotState where
  | receiving
  | landing
  | voiding
  | landed
  | voided
  | committed
deriving DecidableEq, Repr

inductive SlotOutcome where
  | landed
  | voided
deriving DecidableEq, Repr

/-- An append slot that is not FREE (02, Table 2-1). -/
structure Slot where
  state : SlotState
  session : SessionId
  reqTag : Byte
  journal : JournalId
  epoch : W32
  seq : W32
  position : W64
  length : Nat
  occupancy : Nat
  received : Nat
  carry : List Byte
  /-- The running check, before its final inversion (R187). -/
  check : W32
  declared : W32
  recordTag : W16
  outstanding : Nat
  /-- Stopped, or running with the timeout in ms it was started with. -/
  idle : Option Byte
  outcome : Option SlotOutcome
  reason : Option VoidReason
deriving DecidableEq, Repr

/-- R47, in its order. -/
structure AppendCounters where
  accepted : W32 := 0
  landed : W32 := 0
  voidOffset : W32 := 0
  voidLength : W32 := 0
  voidCheck : W32 := 0
  voidAbandoned : W32 := 0
  voidFenced : W32 := 0
  voidSession : W32 := 0
  noSlot : W32 := 0
  journalFull : W32 := 0
  exhausted : W32 := 0
deriving DecidableEq, Repr

/-! ## Read service (04) -/

/-- The states of a read context that is not FREE (R72). -/
inductive ReadState where
  | fetching
  | holding
  | closing
  | draining
deriving DecidableEq, Repr

/-- The frame being built; bytes not yet fetched hold 00h (log 33). -/
structure Staged where
  position : W64
  bytes : List Byte
deriving DecidableEq, Repr

/-- A read context that is not FREE (04, Table 4-1); its port is that of its number. -/
structure ReadCtx where
  state : ReadState
  gen : W32
  reqTag : Byte
  journal : JournalId
  start : W64
  length : Nat
  frontierEnd : Bool
  nextPos : W64
  staged : Option Staged
  outstanding : Nat
deriving DecidableEq, Repr

/-- R89, in its order. -/
structure ReadCounters where
  accepted : W32 := 0
  bytes : W32 := 0
  atFrontier : W32 := 0
  trimmed : W32 := 0
  cancelled : W32 := 0
  trims : W32 := 0
  notABoundary : W32 := 0
deriving DecidableEq, Repr

/-! ## Memory engine (08) -/

inductive AccessKind where
  | read
  | fullWrite
  | maskedWrite
deriving DecidableEq, Repr

inductive AccessClass where
  | ordinary
  | directory
deriving DecidableEq, Repr

/-- An access (08, Table 8-1). Its arrival is its place in the access queue (log 34). -/
structure Access where
  kind : AccessKind
  cls : AccessClass
  addr : Nat
  mask : BitVec 8
  data : List Byte
  client : Client
  bypass : Nat
deriving DecidableEq, Repr

inductive RefreshKind where
  | urgent
  | opportunistic
deriving DecidableEq, Repr

/-- An operation of the DRAM command path (08, 8.3). -/
inductive Op where
  | access (a : Access)
  | refresh (k : RefreshKind)
  | entry
  | exit
  | initialise
deriving DecidableEq, Repr

/-- DRAM condition (08, Table 8-5). -/
inductive DramCond where
  | uninitialised
  | active
  | selfRefresh
deriving DecidableEq, Repr

/-- One entry of the bank table with the bank's counters (R146, R159). `openRow` is absent in IDLE. -/
structure Bank where
  openRow : Option Nat := none
  activations : W32 := 0
  rowHits : W32 := 0
  fullWrites : W32 := 0
  maskedWrites : W32 := 0
deriving DecidableEq, Repr

/-- The device counters of R159, in its order. -/
structure MemCounters where
  opportunistic : W32 := 0
  urgent : W32 := 0
  missed : W32 := 0
deriving DecidableEq, Repr

/-- The memory engine; the defaults are those of R153. -/
structure MemEngine where
  cond : DramCond := .uninitialised
  queue : List Access := []
  /-- Accesses their clients hold because the queue had no room, in handing order (R141). -/
  held : List Access := []
  op : Option Op := none
  entryWaiting : Bool := false
  banks : Vector Bank 16 := Vector.replicate 16 {}
  debt : Nat := 0
  refreshTimer : Bool := false
  postExit : Bool := false
  missedFlag : Bool := false
  cnt : MemCounters := {}
  /-- The model's own: how many refreshes were missed, to which the free value `Config.lostBytes` is applied (log 8). -/
  missCount : Nat := 0
deriving DecidableEq, Repr

/-! ## Retention controller (09) -/

/-- The retention domain (09, Table 9-1, R160) and the board's lines and supplies. -/
structure Retention where
  mode : Mode
  flag : Bool
  cause : Option QuiesceCause
  pfailHigh : Bool
  startKind : StartKind
  /-- The DRAM is recorded as in self-refresh. -/
  selfRefresh : Bool
  retentionPower : Bool
  mainPower : Bool
  rstHigh : Bool
  /-- The main domain has started and has not stopped. -/
  running : Bool
deriving DecidableEq, Repr

/-- How far the work of INITIALIZING (R162) or RESTORING (R169, R170) has come. -/
inductive Work where
  | idle
  | coldExit
  | coldInit
  | coldWrites
  | restoreExit
  | headerLoad
  | entryLoad
  | entryRewrite
  | headerRewrite
deriving DecidableEq, Repr

/-- A load read that has completed (R169). -/
structure Loaded where
  item : Item
  copy : Copy
  bytes : List Byte
deriving DecidableEq, Repr

/-- R175, in its order. -/
structure RetentionCounters where
  quiescePfail : W32 := 0
  quiesceSave : W32 := 0
  warmRestores : W32 := 0
  coldStarts : W32 := 0
  abandoned : W32 := 0
  itemsLost : W32 := 0
deriving DecidableEq, Repr

/-- What the retention controller keeps of the work in hand, in the main domain. -/
structure Control where
  work : Work := .idle
  /-- PFAIL_N has abandoned the mode's work (R173). -/
  abandoned : Bool := false
  /-- The entry order of the present quiesce has been given (R165). -/
  drainOrdered : Bool := false
  loaded : List Loaded := []
  rebuilt : List JournalId := []
  cnt : RetentionCounters := {}
deriving DecidableEq, Repr

/-! ## Maintenance port (10) -/

inductive RowPolicy where
  | openPage
  | closePage
deriving DecidableEq, Repr

/-- The live parameter set (10, Table 10-2); the fill watermarks stand in the journal table. -/
structure Params where
  idle : Byte := Config.defaultIdle
  grace : W16 := Config.defaultGrace
  urgent : Byte := Config.defaultUrgent
  rowPolicy : RowPolicy := .openPage
deriving DecidableEq, Repr

/-- The commands that finish after their transaction (R178). -/
inductive DeferredCommand where
  | forceRelease (j : JournalId)
  | format
deriving DecidableEq, Repr

/-- The deferred result record (R178). -/
inductive Deferred where
  | none
  | waiting (c : DeferredCommand)
  | done (c : DeferredCommand) (result : MaintStatus)
deriving DecidableEq, Repr

/-- R182, the port's own counters in their order. -/
structure MaintCounters where
  completed : W32 := 0
  cutShort : W32 := 0
  badCommand : W32 := 0
  raised : W32 := 0
deriving DecidableEq, Repr

/-- The progress of the present SPI transaction (R176). -/
inductive SpiProgress where
  /-- The port waits for a fall of chip select: as at each start of the main domain, and after each rise. -/
  | waiting
  /-- Chip select has fallen and the parameter phase has not ended: the command phase while no byte has been received, the
  parameter phase after the first. -/
  | receiving (received : List Byte)
  /-- The response phase, with the number of bytes returned in it. -/
  | responding (returned : Nat)
deriving DecidableEq, Repr

/-- The maintenance port; the defaults are those of R176, R178, R180, R183. Attention sets use the bits of 11.6. -/
structure Maint where
  params : Params := {}
  deferred : Deferred := .none
  pending : BitVec 16 := 0
  mask : BitVec 16 := 0xFFFF#16
  /-- The response of the present transaction: the status byte and what follows it. -/
  response : List Byte := []
  spi : SpiProgress := .waiting
  cnt : MaintCounters := {}
deriving DecidableEq, Repr

/-- What the SPI pins bring (11, Table 11-9): a fall or a rise of chip select, or a byte clocked in. -/
inductive SpiEvent where
  | fall
  | clock (b : Byte)
  | rise
deriving DecidableEq, Repr

/-- The SPI pins: what they have still to bring, the byte returned on the last byte clocked, and the model's own count of
bytes clocked for transactions not taken, to which the free value is applied (log 48). -/
structure SpiPins where
  wire : List SpiEvent := []
  out : Option Byte := none
  untaken : Nat := 0
deriving DecidableEq, Repr

/-! ## The part -/

/-- All the state the spec gives the part. -/
structure Part where
  ret : Retention
  ctl : Control := {}
  links : Vector LinkUnit 4 := Vector.replicate 4 {}
  reqs : Vector RequestLayer 4 := Vector.replicate 4 {}
  ntfs : Vector NotifyPort 4 := Vector.replicate 4 {}
  ntfCnt : NotifyCounters := {}
  journals : Vector Journal 8 := Vector.replicate 8 {}
  header : DeviceHeader := {}
  formatPending : Bool := false
  /-- Responses waiting for a response-queue frame, per port, in order of release. -/
  waiting : Vector (List Waiting) 4 := Vector.replicate 4 []
  slots : Vector (Option Slot) 12 := Vector.replicate 12 none
  appendCnt : AppendCounters := {}
  reads : Vector (Option ReadCtx) 8 := Vector.replicate 8 none
  readCnt : ReadCounters := {}
  mem : MemEngine := {}
  /-- The DRAM's contents, in the canonical form of `Memory.wf`. -/
  dram : List Host.Cell := []
  maint : Maint := {}
deriving DecidableEq, Repr

/-- The machine: the part, the commands that wait, first in, first out, and the SPI pins. -/
structure State where
  pending : List Instr
  part : Part
  pins : SpiPins := {}
deriving DecidableEq, Repr

/-- Why the machine stops. -/
inductive Fault where
  /-- Raised when an operation of the command path completes whose burst lies outside the 2 GiB of DRAM (08, 8.1: no
  such address exists). Safe: no layout that R11 or R171 accepts leads there (log 26). -/
  | addressOutsideDram
deriving DecidableEq, Repr

/-- Why a command has no meaning. -/
inductive Refusal where
  /-- Raised by `exec` for a command whose meaning is still to be written. Safe. -/
  | notModelled (mnemonic : String)
deriving DecidableEq, Repr

/-- The retention domain when the retention supply has just been applied (R160), with main power present, RST_N high
and PFAIL_N high (log 10), and the main domain started by it (R161): INITIALIZING, a cold start. -/
def Retention.reset : Retention where
  mode := .initializing
  flag := false
  cause := none
  pfailHigh := true
  startKind := .cold
  selfRefresh := false
  retentionPower := true
  mainPower := true
  rstHigh := true
  running := true

/-- Right after reset: every main-domain block at its start values, the cold start waiting for the initialise
operation that the arbiter chose at once (R161, R162 step 2, R153; log 1). -/
def State.reset : State where
  pending := []
  part :=
    { ret := Retention.reset
      ctl := { work := .coldInit }
      mem := { op := some .initialise } }

end Sys2Proof.Machine
end

