-- ==== Sys2Proof/Machine/Operands.lean ====
section
/-! DEFINITION. The operand forms: byte order, the two checks, frames, requests, record headers, directory items and
the addresses that positions map to (chapter 11, R4, R33, R76, R140). -/

namespace Sys2Proof.Machine

/-! ## Byte order (11: multi-byte fields are little-endian) -/

/-- The `n` bytes of a value, least significant first. -/
def leBytes : Nat → Nat → List Byte
  | 0, _ => []
  | n + 1, v => BitVec.ofNat 8 v :: leBytes n (v / 256)

/-- The value of bytes, least significant first. -/
def leNat : List Byte → Nat
  | [] => 0
  | b :: bs => b.toNat + 256 * leNat bs

/-- The value of the `n` bytes at offset `off`. -/
def field (bs : List Byte) (off n : Nat) : Nat := leNat ((bs.drop off).take n)

/-- The byte at offset `off`, 00h past the end. -/
def byteAt (bs : List Byte) (off : Nat) : Byte := bs.getD off 0#8

def zeros (n : Nat) : List Byte := List.replicate n 0#8

def presence (b : Bool) : Byte := if b then 1#8 else 0#8

/-! ## Checks (R121, R187) -/

def crc16Bits : Nat → W16 → W16
  | 0, c => c
  | n + 1, c => crc16Bits n (if c.msb then (c <<< 1) ^^^ 0x1021#16 else c <<< 1)

def crc16Byte (c : W16) (b : Byte) : W16 := crc16Bits 8 (c ^^^ (b.setWidth 16 <<< 8))

/-- The CRC-16 of R121: seed FFFFh, no reflection, no final inversion. -/
def crc16 (bs : List Byte) : W16 := bs.foldl crc16Byte 0xFFFF#16

def crc32Bits : Nat → W32 → W32
  | 0, c => c
  | n + 1, c => crc32Bits n (if c.getLsbD 0 then (c >>> 1) ^^^ 0xEDB88320#32 else c >>> 1)

def crc32Byte (c : W32) (b : Byte) : W32 := crc32Bits 8 (c ^^^ b.setWidth 32)

/-- The seed of the running check (R187). -/
def crc32Seed : W32 := 0xFFFFFFFF#32

/-- The running check advanced over bytes (R32). -/
def crc32Run (c : W32) (bs : List Byte) : W32 := bs.foldl crc32Byte c

/-- The CRC-32 of R187, with its final inversion. -/
def crc32 (bs : List Byte) : W32 := ~~~ crc32Run crc32Seed bs

/-! ## Value encodings (11, Table 11-1) -/

def JournalState.code : JournalState → Byte
  | .unconfigured => 0#8
  | .unassigned => 1#8
  | .owned => 2#8
  | .held => 3#8
  | .transferring => 4#8

def Mode.code : Mode → Byte
  | .initializing => 0#8
  | .restoring => 1#8
  | .serving => 2#8
  | .quiescing => 3#8
  | .halted => 4#8
  | .retaining => 5#8

def RecordKind.code : RecordKind → Byte
  | .record => 1#8
  | .void => 2#8
  | .pad => 3#8

def VoidReason.code : VoidReason → Byte
  | .offsetError => 1#8
  | .lengthError => 2#8
  | .checkMismatch => 3#8
  | .abandoned => 4#8
  | .fenced => 5#8
  | .sessionEnded => 6#8

/-- 00h for no void reason. -/
def reasonCode (r : Option VoidReason) : Byte := (r.map VoidReason.code).getD 0#8

/-- The port statuses in the order of Table 6-5: OK 00h to OVERRUN 16h. -/
def Status.code : Status → Byte
  | .ok => 0x00#8
  | .voided => 0x01#8
  | .noSession => 0x02#8
  | .tagBusy => 0x03#8
  | .tagInUse => 0x04#8
  | .badRequest => 0x05#8
  | .badJournal => 0x06#8
  | .badPosition => 0x07#8
  | .notOwner => 0x08#8
  | .notOwned => 0x09#8
  | .staleEpoch => 0x0A#8
  | .fenced => 0x0B#8
  | .busy => 0x0C#8
  | .noSlot => 0x0D#8
  | .journalFull => 0x0E#8
  | .tooLong => 0x0F#8
  | .streamExhausted => 0x10#8
  | .trimmed => 0x11#8
  | .notABoundary => 0x12#8
  | .heldGrace => 0x13#8
  | .appendsOpen => 0x14#8
  | .notServing => 0x15#8
  | .overrun => 0x16#8

def MaintStatus.code : MaintStatus → Byte
  | .ok => 0#8
  | .accepted => 1#8
  | .busy => 2#8
  | .badValue => 3#8
  | .badLayout => 4#8
  | .notServing => 5#8
  | .badCommand => 6#8

def LinkState.code : LinkState → Byte
  | .down => 0#8
  | .sync => 1#8
  | .up => 2#8

def RowPolicy.code : RowPolicy → Byte
  | .openPage => 0#8
  | .closePage => 1#8

def portCode (p : Port) : Byte := BitVec.ofNat 8 p.val

def journalCode (j : JournalId) : Byte := BitVec.ofNat 8 j.val

/-! ## Link frames (11, Table 11-2) -/

def typeIdle : Byte := 0x00#8
def typeLinkReset : Byte := 0x01#8

def TxType.code : TxType → Byte
  | .rsp => 0x20#8
  | .rdata => 0x21#8
  | .ntf => 0x22#8

/-- A frame as it is sent: header, payload and frame check, its zero bits written as zero (R122, R185). -/
def frameBytes (ftype : Byte) (seq ack : Seq) (nak : Bool) (credit : Nat) (payload : List Byte) : List Byte :=
  let body :=
    [ftype, seq.setWidth 8, ack.setWidth 8, (if nak then 0x80#8 else 0#8) ||| BitVec.ofNat 8 credit]
      ++ leBytes 2 payload.length ++ payload
  body ++ leBytes 2 (crc16 body).toNat

/-- The header fields of a received frame; the zero bits are not examined (R185). -/
def frameHeader (bs : List Byte) : Header where
  seq := (byteAt bs 1).setWidth 6
  ack := (byteAt bs 2).setWidth 6
  nak := (byteAt bs 3).msb
  credit := (byteAt bs 3).setWidth 4

/-- Which receive command the raw bytes of a frame are: good when the check matches, the type is one of Table 7-2 and
the payload length is one R185 allows for it (R121). Bytes too few for a header and a check, and a payload length field that
is not the number of payload bytes, are taken as a check failure (log 44). -/
def frameCommand (p : Port) (bs : List Byte) : Instr :=
  let body := bs.take (bs.length - 2)
  let payload := body.drop 6
  let sequenced := fun t =>
    if payload.length ≤ Config.maxFramePayload then Instr.goodSequencedFrame p t (frameHeader bs) payload
    else .frameCheckFail p
  if bs.length < 8 ∨ field body 4 2 ≠ payload.length ∨ leNat (bs.drop (bs.length - 2)) ≠ (crc16 body).toNat then
    .frameCheckFail p
  else
    match (byteAt bs 0).toNat with
    | 0x00 => if payload.length = 0 then .idleFrame p (frameHeader bs) else .frameCheckFail p
    | 0x01 => if payload.length = 0 then .linkResetFrame ⟨p, frameHeader bs⟩ else .frameCheckFail p
    | 0x10 => sequenced .req
    | 0x11 => sequenced .data
    | 0x20 => sequenced .rsp
    | 0x21 => sequenced .rdata
    | 0x22 => sequenced .ntf
    | _ => .frameCheckFail p

/-! ## Maintenance transactions (11, Table 11-8) -/

/-- Which maintenance command a transaction is, `bs` being the bytes received from its command byte on (R176): cut short
when chip select rises before the parameter phase ends, else the command of the command byte with its parameter bytes,
or an unknown command byte. Bytes beyond the parameter phase are ignored. -/
def transactionCommand (bs : List Byte) : Instr :=
  if cutShort bs then .spiCutShort bs
  else
    match (byteAt bs 0).toNat with
    | 0x01 => .readStatus
    | 0x02 => .readJournal (byteAt bs 1)
    | 0x03 => .setLayout (byteAt bs 1) (BitVec.ofNat 16 (field bs 2 2)) (BitVec.ofNat 16 (field bs 4 2))
    | 0x04 => .clearLayout (byteAt bs 1)
    | 0x05 => .setParam (byteAt bs 1) (byteAt bs 2) (BitVec.ofNat 16 (field bs 3 2))
    | 0x06 => .forceRelease (byteAt bs 1)
    | 0x07 => .saveAndHalt
    | 0x08 => .resume
    | 0x09 => .format
    | 0x0A => .readCounters (byteAt bs 1) (byteAt bs 2)
    | 0x0B => .clearCounters
    | 0x0C => .ackAttention (BitVec.ofNat 24 (field bs 1 3))
    | 0x0D => .setAttentionMask (BitVec.ofNat 24 (field bs 1 3))
    | _ => .badCommand (byteAt bs 0)

/-! ## Requests (11, Table 11-3) -/

def codeAttach : Byte := 0x01#8
def codeDetach : Byte := 0x02#8
def codeStatus : Byte := 0x03#8
def codeSubscribe : Byte := 0x04#8
def codeUnsubscribe : Byte := 0x05#8
def codeClaim : Byte := 0x06#8
def codeRelease : Byte := 0x07#8
def codeTakeover : Byte := 0x08#8
def codeAppend : Byte := 0x09#8
def codeRead : Byte := 0x0A#8
def codeTrim : Byte := 0x0B#8

/-- The parameter length of a request code; none for an unknown code. -/
def requestLength (code : Byte) : Option Nat :=
  match code.toNat with
  | 0x01 => some 5
  | 0x02 => some 0
  | 0x03 => some 1
  | 0x04 => some 1
  | 0x05 => some 1
  | 0x06 => some 1
  | 0x07 => some 5
  | 0x08 => some 5
  | 0x09 => some 15
  | 0x0A => some 11
  | 0x0B => some 13
  | _ => none

/-- A REQ frame's payload taken apart: its code, its tag and its parameters (R185). -/
structure Req where
  code : Byte
  tag : Byte
  params : List Byte
deriving DecidableEq, Repr

/-- The request of a REQ payload; a payload shorter than 2 bytes gives code 00h and tag 00h (R185). -/
def Req.ofPayload (payload : List Byte) : Req :=
  match payload with
  | c :: t :: params => ⟨c, t, params⟩
  | _ => ⟨0#8, 0#8, []⟩

/-- The journal byte, the first parameter of most requests. -/
def Req.journal (r : Req) : Byte := byteAt r.params 0

/-- The epoch of RELEASE, TAKEOVER, APPEND and TRIM. -/
def Req.epoch (r : Req) : W32 := BitVec.ofNat 32 (field r.params 1 4)

def Req.attachTag (r : Req) : W32 := BitVec.ofNat 32 (field r.params 0 4)
def Req.revision (r : Req) : Byte := byteAt r.params 4
def Req.payloadLength (r : Req) : Nat := field r.params 5 4
def Req.payloadCheck (r : Req) : W32 := BitVec.ofNat 32 (field r.params 9 4)
def Req.recordTag (r : Req) : W16 := BitVec.ofNat 16 (field r.params 13 2)
def Req.readPosition (r : Req) : W64 := BitVec.ofNat 64 (field r.params 1 8)
def Req.readLength (r : Req) : Nat := field r.params 9 2
def Req.trimPosition (r : Req) : W64 := BitVec.ofNat 64 (field r.params 5 8)

/-- A REQ payload with this code and the parameter length the code requires. -/
def isRequest (code : Byte) (payload : List Byte) : Bool :=
  decide (2 ≤ payload.length) && decide (byteAt payload 0 = code)
    && decide (requestLength code = some (payload.length - 2))

/-- An ATTACH payload, whatever its parameter length: ATTACH judges the length itself (R103, check 2). -/
def isAttach (payload : List Byte) : Bool :=
  decide (2 ≤ payload.length) && decide (byteAt payload 0 = codeAttach)

/-- A REQ payload that is too short, of an unknown code, or of a wrong parameter length (R111, R185). -/
def isUnknown (payload : List Byte) : Bool :=
  decide (payload.length < 2)
    || (decide (byteAt payload 0 ≠ codeAttach)
      && decide (requestLength (byteAt payload 0) ≠ some (payload.length - 2)))

/-- A DATA payload taken apart: request tag, offset and bytes; none when it is shorter than 6 bytes (R185). -/
def dataFields (payload : List Byte) : Option (Byte × Nat × List Byte) :=
  if payload.length < 6 then none
  else some (byteAt payload 0, field payload 2 4, payload.drop 6)

/-! ## Responses and notifications (11, Tables 11-4 and 11-5) -/

def tagBytes (tag : Option W32) : List Byte := leBytes 4 ((tag.map BitVec.toNat).getD 0)

def Values.bytes : Values → List Byte
  | .none => []
  | .mode m => [m.code]
  | .attach port gen m => portCode port :: leBytes 4 gen.toNat ++ [m.code]
  | .detach gen => leBytes 4 gen.toNat
  | .statusConfigured state subscribed tag ep head durable durableSeq size free =>
      [state.code, presence subscribed, presence tag.isSome] ++ leBytes 4 ep.toNat ++ tagBytes tag
        ++ leBytes 8 head.toNat ++ leBytes 8 durable.toNat ++ leBytes 4 durableSeq.toNat
        ++ leBytes 4 size ++ leBytes 4 free
  | .statusUnconfigured ep => JournalState.unconfigured.code :: leBytes 4 ep.toNat
  | .statusDevice m states port gen =>
      [m.code] ++ states.map JournalState.code ++ [portCode port] ++ leBytes 4 gen.toNat
  | .subscribe state tag ep lastSeq durable =>
      [state.code, presence tag.isSome] ++ leBytes 4 ep.toNat ++ tagBytes tag
        ++ leBytes 4 lastSeq.toNat ++ leBytes 8 durable.toNat
  | .epoch e => leBytes 4 e.toNat
  | .appendDone reason seq position =>
      reasonCode reason :: leBytes 4 seq.toNat ++ leBytes 8 position.toNat
  | .read bytes position => leBytes 2 bytes ++ leBytes 8 position.toNat
  | .trim ep head => leBytes 4 ep.toNat ++ leBytes 8 head.toNat

def RespFrame.ftype : RespFrame → TxType
  | .rsp _ => .rsp
  | .rdata _ _ _ => .rdata

def RespFrame.payload : RespFrame → List Byte
  | .rsp r => [r.code, r.tag, r.status.code, presence r.atFrontier] ++ r.values.bytes
  | .rdata tag position bytes => [tag, 0#8] ++ leBytes 8 position.toNat ++ bytes

/-- The 24 bytes of a notification entry (Table 11-5). -/
def Ntf.bytes : Ntf → List Byte
  | .frontier j lastSeq durable =>
      [0x01#8, journalCode j, 0#8, 0#8] ++ leBytes 4 lastSeq.toNat ++ zeros 4 ++ leBytes 8 durable.toNat ++ zeros 4
  | .owner j state epoch tag =>
      [0x02#8, journalCode j, state.code, presence tag.isSome] ++ leBytes 4 epoch.toNat ++ tagBytes tag ++ zeros 12
  | .fill j level size => [0x03#8, journalCode j, 0#8, 0#8] ++ zeros 8 ++ leBytes 8 level ++ leBytes 4 size
  | .layout j => [0x04#8, journalCode j, JournalState.unconfigured.code, 0#8] ++ zeros 20
  | .mode m => [0x05#8, 0xFF#8, m.code, 0#8] ++ zeros 20
  | .overflow drops => [0x06#8, 0xFF#8, BitVec.ofNat 8 drops, 0#8] ++ zeros 20

/-! ## Record headers (11, Table 11-6; R7, R8, R9) -/

/-- A 32-byte record header with its header check. -/
def recordHeader (kind : RecordKind) (port : Port) (reason : Option VoidReason) (seq : W32) (length : Nat)
    (epoch : W32) (position : W64) (check : W32) (tag : W16) : List Byte :=
  let body :=
    [kind.code, 1#8, portCode port, reasonCode reason] ++ leBytes 4 seq.toNat ++ leBytes 4 length
      ++ leBytes 4 epoch.toNat ++ leBytes 8 position.toNat ++ leBytes 4 check.toNat ++ leBytes 2 tag.toNat
  body ++ leBytes 2 (crc16 body).toNat

/-- The header of a slot's record: RECORD without a void reason (R7), VOID with one (R8). -/
def Slot.header (s : Slot) : List Byte :=
  recordHeader (if s.reason.isSome then .void else .record) s.session.port s.reason s.seq s.length s.epoch
    s.position s.declared s.recordTag

/-- The PAD header before a record (R9): `pad` is the pad's occupancy. -/
def padHeader (port : Port) (epoch : W32) (position : W64) (pad : Nat) : List Byte :=
  recordHeader .pad port none Config.lastSequence (pad - 32) epoch position 0#32 0#16

/-- Whether the 32 bytes at a trim target are a record boundary (R84). -/
def isBoundary (header : List Byte) (target : W64) : Bool :=
  decide (leNat ((header.drop 30).take 2) = (crc16 (header.take 30)).toNat)
    && decide (byteAt header 0 ∈ [RecordKind.record.code, RecordKind.void.code, RecordKind.pad.code])
    && decide (field header 16 8 = target.toNat)

/-! ## Occupancy, regions and addresses (R4, R13, R140) -/

/-- A length rounded up to a multiple of 32. -/
def round32 (n : Nat) : Nat := (n + 31) / 32 * 32

/-- Header plus rounded payload (R7). -/
def occupancyOf (length : Nat) : Nat := 32 + round32 length

/-- Region size in bytes (01, Table 1-1). -/
def Conf.size (c : Conf) : Nat := c.count.toNat * Config.segmentBytes

/-- The DRAM address of a stream position (R4). -/
def Conf.address (c : Conf) (p : Nat) : Nat := c.base.toNat * Config.segmentBytes + p % c.size

/-- The bytes from the reserve to the end of the region (R13). -/
def Conf.room (c : Conf) : Nat := c.size - c.reserve.toNat % c.size

/-- The occupancy of the pad a reservation places: none, or the room (R13). -/
def Conf.padFor (c : Conf) (occupancy : Nat) : Option Nat :=
  if occupancy ≤ c.room then none else some c.room

/-- The need of a record of this occupancy (R13). -/
def Conf.need (c : Conf) (occupancy : Nat) : Nat := (c.padFor occupancy).getD 0 + occupancy

/-- Free space for reservation, measured from the persisted head (R14). -/
def Conf.freeSpace (c : Conf) : Nat := c.size - (c.reserve.toNat - c.persistedHead.toNat)

/-- The fill level, reserve − head (R16). -/
def Conf.fill (c : Conf) : Nat := c.reserve.toNat - c.head.toNat

/-- The watermark level L (R16). -/
def Conf.level (c : Conf) (watermark : Byte) : Nat := c.size * watermark.toNat / 100

def bankOf (addr : Nat) : Fin 16 := ⟨addr / 4096 % 16, Nat.mod_lt _ (by decide)⟩
def rowOf (addr : Nat) : Nat := addr / Config.segmentBytes
def columnOf (addr : Nat) : Nat := addr % 4096 / Config.burstBytes
def granuleOf (addr : Nat) : Nat := addr % Config.burstBytes / Config.granuleBytes

/-- The address of the burst that holds an address (R140). -/
def burstOf (addr : Nat) : Nat := addr / Config.burstBytes * Config.burstBytes

/-- The mask that names the granules from offset `off`, `len` bytes on, of one burst. -/
def granuleMask (off len : Nat) : BitVec 8 :=
  (List.range 8).foldl (fun m g => if off ≤ 8 * g ∧ 8 * g < off + len then m ||| (1#8 <<< g) else m) 0#8

/-- The bytes of one burst from address `addr`, `chunk` bytes on, as a write: full when the mask names all eight
granules, masked otherwise (R33, R10). -/
def burstWrite (client : Client) (addr : Nat) (chunk : List Byte) : Access :=
  let off := addr % Config.burstBytes
  let mask := granuleMask off chunk.length
  { kind := if mask = 0xFF#8 then .fullWrite else .maskedWrite
    cls := .ordinary
    addr := burstOf addr
    mask := mask
    data := zeros off ++ chunk ++ zeros (Config.burstBytes - off - chunk.length)
    client := client
    bypass := 0 }

/-- The writes of a run of bytes, one for each burst it covers, in position order (R33). The fuel is the run's length. -/
def runWrites (client : Client) : Nat → Nat → List Byte → List Access
  | 0, _, _ => []
  | fuel + 1, addr, bytes =>
    if bytes = [] then []
    else
      let n := Config.burstBytes - addr % Config.burstBytes
      burstWrite client addr (bytes.take n) :: runWrites client fuel (addr + n) (bytes.drop n)

/-- A list without the repeats that follow one another. -/
def dropRepeats : List Nat → List Nat
  | [] => []
  | [a] => [a]
  | a :: b :: rest => if a = b then dropRepeats (b :: rest) else a :: dropRepeats (b :: rest)

/-- The bursts that hold the `n` bytes from position `p`, in position order (R76). -/
def Conf.bursts (c : Conf) (p n : Nat) : List Nat :=
  dropRepeats ((List.range n).map fun i => burstOf (c.address (p + i)))

/-- A read burst handed by a client (R76, R84, R169). -/
def readAccess (client : Client) (addr : Nat) : Access :=
  { kind := .read, cls := .ordinary, addr := burstOf addr, mask := 0#8, data := [], client := client, bypass := 0 }

/-! ## Directory items (11, Table 11-7; 01, Table 1-4) -/

def otherCopy : Copy → Copy
  | .a => .b
  | .b => .a

/-- Where a copy of an item lies (01, Table 1-4). -/
def itemAddr (i : Item) (c : Copy) : Nat :=
  (match c with | .a => 0 | .b => 0x1000)
    + (match i with | .header => 0 | .journal j => 0x40 + 0x40 * j.val)

/-- The format identity 41h, 53h, 4Ah, 31h. -/
def formatIdentity : List Byte := [0x41#8, 0x53#8, 0x4A#8, 0x31#8]

/-- Sixty bytes closed by their CRC-32 (R186). -/
def withCrc32 (body : List Byte) : List Byte := body ++ leBytes 4 (crc32 body).toNat

/-- A directory copy of journal j built from a snapshot (R18, R186). -/
def entryBytes (j : JournalId) (snap : Snapshot) (gen : W32) : List Byte :=
  let fields :=
    match snap.conf with
    | none => [JournalState.unconfigured.code] ++ zeros 10 ++ leBytes 4 snap.epoch.toNat ++ zeros 20
    | some c =>
      [c.state.code, presence c.tag.isSome, 0#8] ++ leBytes 2 c.base.toNat ++ leBytes 2 c.count.toNat
        ++ tagBytes c.tag ++ leBytes 4 snap.epoch.toNat ++ leBytes 8 c.head.toNat ++ leBytes 8 c.frontier.toNat
        ++ leBytes 4 c.frontierSeq.toNat
  withCrc32 (formatIdentity ++ [journalCode j] ++ fields ++ zeros 16 ++ leBytes 4 gen.toNat)

/-- A copy of the device header (R21, Table 11-7). -/
def headerBytes (layoutGen : W32) (p : Params) (watermarks : List Byte) (gen : W32) : List Byte :=
  withCrc32
    (formatIdentity ++ [0xFF#8, 1#8, 0#8, 0#8] ++ leBytes 4 layoutGen.toNat
      ++ [p.idle, p.urgent, p.rowPolicy.code, 0#8] ++ leBytes 2 p.grace.toNat ++ zeros 2
      ++ watermarks ++ zeros 28 ++ leBytes 4 gen.toNat)

/-- The tests every directory copy passes: its CRC-32, its identity and the item its address holds (R186). -/
def copyValid (i : Item) (bs : List Byte) : Bool :=
  decide (field bs 60 4 = (crc32 (bs.take 60)).toNat) && decide (bs.take 4 = formatIdentity)
    && decide (byteAt bs 4 = match i with | .header => 0xFF#8 | .journal j => journalCode j)

def copyGeneration (bs : List Byte) : W32 := BitVec.ofNat 32 (field bs 56 4)

/-- The ranges of Table 10-2. -/
def idleInRange (v : Nat) : Bool := decide (1 ≤ v ∧ v ≤ 255)
def graceInRange (v : Nat) : Bool := decide (v ≤ 60000)
def urgentInRange (v : Nat) : Bool := decide (4 ≤ v ∧ v ≤ 8)
def watermarkInRange (v : Nat) : Bool := decide (50 ≤ v ∧ v ≤ 100)

/-- The row policy of a byte or value; none but for 0 and 1. -/
def rowPolicyOf (v : Nat) : Option RowPolicy :=
  match v with
  | 0 => some .openPage
  | 1 => some .closePage
  | _ => none

/-- What a device header records. -/
structure HeaderRecord where
  layoutGen : W32
  params : Params
  watermarks : List Byte
deriving DecidableEq, Repr

/-- The record of a valid device header copy; none when the copy is not valid (R186). -/
def headerRecord (bs : List Byte) : Option HeaderRecord :=
  let watermarks := (bs.drop 20).take 8
  match rowPolicyOf (field bs 14 1) with
  | none => none
  | some policy =>
    if copyValid .header bs && decide (byteAt bs 5 = 1#8) && idleInRange (field bs 12 1) && urgentInRange (field bs 13 1)
        && graceInRange (field bs 16 2) && watermarks.all (fun b => watermarkInRange b.toNat) then
      some
        { layoutGen := BitVec.ofNat 32 (field bs 8 4)
          params :=
            { idle := byteAt bs 12, grace := BitVec.ofNat 16 (field bs 16 2), urgent := byteAt bs 13, rowPolicy := policy }
          watermarks := watermarks }
    else none

/-- What a journal entry records; `state` is none when its byte is no state of Table 1-1. -/
structure EntryRecord where
  state : Option JournalState
  tag : Option W32
  base : W16
  count : W16
  epoch : W32
  head : W64
  frontier : W64
  frontierSeq : W32
deriving DecidableEq, Repr

def journalStateOf (v : Nat) : Option JournalState :=
  match v with
  | 0 => some .unconfigured
  | 1 => some .unassigned
  | 2 => some .owned
  | 3 => some .held
  | 4 => some .transferring
  | _ => none

/-- The fields of a journal entry copy; a presence byte of 01h records the owner tag (R186). -/
def entryRecord (bs : List Byte) : EntryRecord where
  state := journalStateOf (byteAt bs 5).toNat
  tag := if byteAt bs 6 = 1#8 then some (BitVec.ofNat 32 (field bs 12 4)) else none
  base := BitVec.ofNat 16 (field bs 8 2)
  count := BitVec.ofNat 16 (field bs 10 2)
  epoch := BitVec.ofNat 32 (field bs 16 4)
  head := BitVec.ofNat 64 (field bs 20 8)
  frontier := BitVec.ofNat 64 (field bs 28 8)
  frontierSeq := BitVec.ofNat 32 (field bs 36 4)

/-- Whether generation `g` is newer than `h`: it exceeds it by 1 to 7FFFFFFFh, modulo 2^32 (R18). -/
def newerGen (g h : W32) : Bool := decide (1 ≤ (g - h).toNat ∧ (g - h).toNat ≤ 0x7FFFFFFF)

/-- The copy a restore chooses, and its bytes (R170): the newer of two valid ones, copy A when neither is newer, the
valid one of two, none when no copy is valid. -/
def chooseCopy (valid : List Byte → Bool) (a b : List Byte) : Option (Copy × List Byte) :=
  match valid a, valid b with
  | true, true => if newerGen (copyGeneration b) (copyGeneration a) then some (.b, b) else some (.a, a)
  | true, false => some (.a, a)
  | false, true => some (.b, b)
  | false, false => none

end Sys2Proof.Machine
end

