-- ==== Sys2Proof/Machine/Flags.lean ====
section
/-! DEFINITION. Counters, attention causes, the watermark, the link's flags and counts, and the arbiter's tests: what is
computed from one record alone. -/

namespace Sys2Proof.Machine

/-! ## Counters (32 bits, stopping at FFFFFFFFh) -/

/-- A counter raised by `n`. -/
def satAdd (c : W32) (n : Nat) : W32 :=
  if c.toNat + n < 4294967296 then c + BitVec.ofNat 32 n else 0xFFFFFFFF#32

/-- A counter raised by 1. -/
def satInc (c : W32) : W32 := satAdd c 1

/-! ## Attention causes (11.6) -/

def causeModeChanged : BitVec 16 := 0x0001#16
def causeColdStart : BitVec 16 := 0x0002#16
def causeDirectoryLost : BitVec 16 := 0x0004#16
def causeRefreshMissed : BitVec 16 := 0x0008#16
def causeLinkDown (p : Port) : BitVec 16 := 1#16 <<< (4 + p.val)
def causeJournalHeld (j : JournalId) : BitVec 16 := 1#16 <<< (8 + j.val)

/-- A cause raised: it joins the set; the counter of raises rises when it was not pending (R182, R183). -/
def Maint.raise (m : Maint) (cause : BitVec 16) : Maint :=
  if m.pending &&& cause = cause then m
  else { m with pending := m.pending ||| cause, cnt := { m.cnt with raised := satInc m.cnt.raised } }

/-- ATTN_N is low (R184): an enabled cause is pending while the main domain runs; high without it (log 30). -/
def Part.attnLow (p : Part) : Bool := p.ret.running && decide (p.maint.pending &&& p.maint.mask ≠ 0#16)

/-- The byte the maintenance port returns on the next byte clocked (R176): FFh while the main domain does not run (log 30),
00h in the command and parameter phases, the bytes of the response and then 00h in the response phase. For a transaction
that is not taken it is the free value, `untaken` being the bytes clocked for such transactions so far (log 48). -/
def Part.spiByte (p : Part) (untaken : Nat) : Byte :=
  if p.ret.running then
    match p.maint.spi with
    | .waiting => Config.untakenByte untaken
    | .receiving _ => 0#8
    | .responding k => byteAt p.maint.response k
  else 0xFF#8

/-! ## Fill watermark (R16) -/

/-- The check after a reservation finds the level reached. -/
def Conf.watermarkReached (c : Conf) (watermark : Byte) : Bool :=
  c.armed && decide (watermark.toNat < 100) && decide (c.level watermark ≤ c.fill)

/-- The armed flag after an advance of head, and after a restore: the level is not reached. -/
def Conf.belowLevel (c : Conf) (watermark : Byte) : Bool := decide (c.fill < c.level watermark)

/-! ## Ownership (01, Table 1-2) -/

def Conf.state (c : Conf) : JournalState :=
  match c.own with
  | .unassigned => .unassigned
  | .owned _ _ => .owned
  | .held _ _ => .held
  | .transferring _ _ _ => .transferring

def Conf.ownerTag (c : Conf) : Option W32 :=
  match c.own with
  | .unassigned => none
  | .owned _ t => some t
  | .held t _ => some t
  | .transferring _ t _ => some t

def Journal.state (e : Journal) : JournalState := (e.conf.map Conf.state).getD .unconfigured

def Journal.ownerTag (e : Journal) : Option W32 := e.conf.bind Conf.ownerTag

/-- The session is the owner of an OWNED journal. -/
def Conf.ownedBy (c : Conf) (s : SessionId) : Bool :=
  match c.own with
  | .owned o _ => decide (o = s)
  | _ => false

/-- The session is the fenced owner of a TRANSFERRING journal. -/
def Conf.fencedFor (c : Conf) (s : SessionId) : Bool :=
  match c.own with
  | .transferring (some o) _ _ => decide (o = s)
  | _ => false

/-- A hold-grace timer as it starts (R65). -/
def graceStart (ms : W16) : Grace := if ms = 0#16 then .expired else .running ms

/-! ## Link unit -/

/-- The distance (a − b) mod 64 of R129 and R130. -/
def seqDistance (a b : Seq) : Nat := (a - b).toNat

/-- How a good sequenced frame stands to the expected sequence (R129). -/
inductive FrameOrder where
  | inOrder
  | ahead
  | duplicate
deriving DecidableEq, Repr

def frameOrder (d : Nat) : FrameOrder :=
  if d = 0 then .inOrder else if d ≤ 47 then .ahead else .duplicate

/-- A NAK made due (R130). -/
def NakState.due : NakState → NakState
  | .none => .pending
  | x => x

/-- The master credit (R136). -/
def LinkUnit.masterCredit (u : LinkUnit) : Nat := u.report - u.replayBuf.length

/-- The link unit is ready for a new sequenced frame (R132). -/
def LinkUnit.ready (u : LinkUnit) : Bool :=
  decide (u.state = .up) && u.replay.isNone && decide (u.replayBuf.length < Config.replayEntries)
    && decide (0 < u.masterCredit)

/-- The down causes after which the part sends LINK_RESET (R123). -/
def LinkUnit.ownCause (u : LinkUnit) : Bool :=
  decide (u.cause = some .silence) || decide (u.cause = some .replayLimit)

/-! ## Memory engine -/

/-- Two clients are one block that hands its accesses in its own order: the writes of one append slot are of one client. -/
def sameClient : Client → Client → Bool
  | .slot n _, .slot m _ => decide (n = m)
  | a, b => decide (a = b)

/-- The access queue has room for an access of the class (R141). -/
def MemEngine.room (m : MemEngine) (c : AccessClass) : Bool :=
  decide (m.queue.length < Config.accessPlaces)
    && (match c with
      | .directory => true
      | .ordinary =>
        decide ((m.queue.filter fun a => decide (a.cls = .ordinary)).length < Config.ordinaryPlaces))

/-- No older queued access to the same burst holds back the access at place `i` (R144). -/
def MemEngine.eligible (m : MemEngine) (c : AccessClass) (i : Nat) : Bool :=
  match m.queue[i]? with
  | none => false
  | some a => decide (a.cls = c) && (m.queue.take i).all fun b => decide (b.addr ≠ a.addr)

/-- The access finds its row open (R140). -/
def MemEngine.rowHit (m : MemEngine) (a : Access) : Bool :=
  decide ((m.banks.get (bankOf a.addr)).openRow = some (rowOf a.addr))

def MemEngine.rowHitAt (m : MemEngine) (i : Nat) : Bool := (m.queue[i]?.map m.rowHit).getD false

/-- What the arbiter takes from the queue: the place, and whether older accesses are passed over. -/
structure Pick where
  place : Nat
  passes : Bool
deriving DecidableEq, Repr

/-- The ordinary access chosen (R145). -/
def MemEngine.pickOrdinary (m : MemEngine) : Option Pick :=
  match (List.range m.queue.length).find? (m.eligible .ordinary) with
  | none => none
  | some h =>
    if Config.bypassLimit ≤ (m.queue[h]?.map Access.bypass).getD 0 ∨ m.rowHitAt h = true then some ⟨h, false⟩
    else
      match (List.range m.queue.length).find? fun i => m.eligible .ordinary i && m.rowHitAt i with
      | some r => some ⟨r, true⟩
      | none => some ⟨h, false⟩

/-- Lines 2 and 3 of Table 8-3. -/
def MemEngine.pick (m : MemEngine) : Option Pick :=
  match (List.range m.queue.length).find? (m.eligible .directory) with
  | some i => some ⟨i, false⟩
  | none => m.pickOrdinary

/-- The queue with the bypass counts of the passed-over accesses raised (R145, rule 2; the count stops at its limit). -/
def MemEngine.passOver (m : MemEngine) (r : Nat) : List Access :=
  m.queue.mapIdx fun i a =>
    if i < r ∧ m.eligible .ordinary i = true then { a with bypass := min Config.bypassLimit (a.bypass + 1) } else a

/-- An access taken from the queue and put in flight. -/
def MemEngine.take (m : MemEngine) (k : Pick) : MemEngine :=
  match (if k.passes then m.passOver k.place else m.queue)[k.place]? with
  | none => m
  | some a =>
    { m with queue := (if k.passes then m.passOver k.place else m.queue).eraseIdx k.place, op := some (.access a) }

/-- The arbiter's choice, when the command path is free (R143, Table 8-3). -/
def MemEngine.arbitrate (m : MemEngine) (urgent : Nat) : MemEngine :=
  if m.op.isSome ∨ m.cond ≠ .active then m
  else if m.postExit = true ∨ urgent ≤ m.debt then { m with op := some (.refresh .urgent) }
  else
    match m.pick with
    | some k => m.take k
    | none =>
      if m.entryWaiting then { m with op := some .entry, entryWaiting := false }
      else if 0 < m.debt then { m with op := some (.refresh .opportunistic) }
      else m

end Sys2Proof.Machine
end

