-- ==== Sys2Proof/Machine/Ops.lean ====
section
/-! DEFINITION. The named operations over the part's registers, over DRAM, over the memory engine's queue, and over the
queues that carry frames to the masters. -/

namespace Sys2Proof.Machine

/-- What a command answers. -/
abbrev Result := Host.Outcome State Fault Refusal

/-- The state with its part changed; the queue of commands stands. -/
def State.onPart (s : State) (f : Part → Part) : State := { s with part := f s.part }

/-! ## Indexed blocks -/

def putAt {α : Type} {n : Nat} (v : Vector α n) (i : Fin n) (x : α) : Vector α n := v.set i.val x i.isLt

def allPorts : List Port := [0, 1, 2, 3]
def allJournals : List JournalId := [0, 1, 2, 3, 4, 5, 6, 7]
def allSlots : List SlotId := [0, 1, 2, 3, 4, 5, 6, 7, 8, 9, 10, 11]
def allReads : List ReadId := [0, 1, 2, 3, 4, 5, 6, 7]
def allItems : List Item := allJournals.map Item.journal ++ [Item.header]

def Part.link (p : Part) (i : Port) : LinkUnit := p.links.get i
def Part.req (p : Part) (i : Port) : RequestLayer := p.reqs.get i
def Part.ntf (p : Part) (i : Port) : NotifyPort := p.ntfs.get i
def Part.journal (p : Part) (j : JournalId) : Journal := p.journals.get j
def Part.waits (p : Part) (i : Port) : List Waiting := p.waiting.get i
def Part.slot (p : Part) (n : SlotId) : Option Slot := p.slots.get n
def Part.readCtx (p : Part) (r : ReadId) : Option ReadCtx := p.reads.get r

def Part.modLink (p : Part) (i : Port) (f : LinkUnit → LinkUnit) : Part :=
  { p with links := putAt p.links i (f (p.link i)) }
def Part.modReq (p : Part) (i : Port) (f : RequestLayer → RequestLayer) : Part :=
  { p with reqs := putAt p.reqs i (f (p.req i)) }
def Part.modNtf (p : Part) (i : Port) (f : NotifyPort → NotifyPort) : Part :=
  { p with ntfs := putAt p.ntfs i (f (p.ntf i)) }
def Part.modJournal (p : Part) (j : JournalId) (f : Journal → Journal) : Part :=
  { p with journals := putAt p.journals j (f (p.journal j)) }
def Part.setWaits (p : Part) (i : Port) (w : List Waiting) : Part := { p with waiting := putAt p.waiting i w }
def Part.setSlot (p : Part) (n : SlotId) (s : Option Slot) : Part := { p with slots := putAt p.slots n s }
def Part.setRead (p : Part) (r : ReadId) (c : Option ReadCtx) : Part := { p with reads := putAt p.reads r c }
def Part.modMem (p : Part) (f : MemEngine → MemEngine) : Part := { p with mem := f p.mem }
def Part.modMaint (p : Part) (f : Maint → Maint) : Part := { p with maint := f p.maint }
def Part.modRet (p : Part) (f : Retention → Retention) : Part := { p with ret := f p.ret }
def Part.modCtl (p : Part) (f : Control → Control) : Part := { p with ctl := f p.ctl }
def Part.modHeader (p : Part) (f : DeviceHeader → DeviceHeader) : Part := { p with header := f p.header }

/-- A configured journal's entry changed; an UNCONFIGURED one has none. -/
def Part.modConf (p : Part) (j : JournalId) (f : Conf → Conf) : Part :=
  p.modJournal j fun e => { e with conf := e.conf.map f }

def Part.modSlot (p : Part) (n : SlotId) (f : Slot → Slot) : Part := p.setSlot n ((p.slot n).map f)
def Part.modRead (p : Part) (r : ReadId) (f : ReadCtx → ReadCtx) : Part := p.setRead r ((p.readCtx r).map f)

/-- An item's directory writer. -/
def Part.dirOf (p : Part) : Item → DirWriter
  | .journal j => (p.journal j).dir
  | .header => p.header.dir

def Part.modDir (p : Part) (i : Item) (f : DirWriter → DirWriter) : Part :=
  match i with
  | .journal j => p.modJournal j fun e => { e with dir := f e.dir }
  | .header => p.modHeader fun h => { h with dir := f h.dir }

/-- An entry or the header marked dirty (R17, R21). -/
def Part.markDirty (p : Part) (i : Item) : Part := p.modDir i fun d => { d with dirty := true }

/-- An attention cause raised (R183). -/
def Part.raise (p : Part) (cause : BitVec 16) : Part := p.modMaint fun m => m.raise cause

/-- A change of the device mode; made while the main domain runs it raises MODE_CHANGED (R160). -/
def Part.setMode (p : Part) (m : Mode) : Part :=
  let q := p.modRet fun r => { r with mode := m }
  if q.ret.running then q.raise causeModeChanged else q

/-- The journal a request byte names, with its entry; none above 7 or in UNCONFIGURED. -/
def journalOf (b : Byte) : Option JournalId := if h : b.toNat < 8 then some ⟨b.toNat, h⟩ else none

def Part.configured (p : Part) (b : Byte) : Option (JournalId × Conf) :=
  match journalOf b with
  | none => none
  | some j => (p.journal j).conf.map fun c => (j, c)

/-! ## DRAM -/

namespace Memory

/-- The byte at an address; an unlisted byte reads 00h (log 7). -/
def read : List Host.Cell → Nat → Byte
  | [], _ => 0#8
  | (k, v) :: rest, a => if a = k then v else read rest a

/-- One byte written; the list stays in canonical form. -/
def write : List Host.Cell → Nat → Byte → List Host.Cell
  | [], a, b => if b = 0#8 then [] else [(a, b)]
  | (k, v) :: rest, a, b =>
    if a < k then (if b = 0#8 then (k, v) :: rest else (a, b) :: (k, v) :: rest)
    else if a = k then (if b = 0#8 then rest else (a, b) :: rest)
    else (k, v) :: write rest a b

/-- The canonical form: addresses strictly rising, and no entry that reads as an unlisted byte does. -/
abbrev wf (m : List Host.Cell) : Prop := m.Pairwise (fun x y => x.1 < y.1) ∧ ∀ c ∈ m, c.2 ≠ 0#8

/-- Bytes written at rising addresses. -/
def writeBytes (m : List Host.Cell) : Nat → List Byte → List Host.Cell
  | _, [] => m
  | a, b :: bs => writeBytes (write m a b) (a + 1) bs

/-- `n` bytes from an address. -/
def readBytes (m : List Host.Cell) (a n : Nat) : List Byte := (List.range n).map fun i => read m (a + i)

/-- Cells written one after the other, those outside DRAM left out. -/
def writeCells (m : List Host.Cell) (cells : List Host.Cell) : List Host.Cell :=
  cells.foldl (fun m c => if c.1 < Config.dramBytes then write m c.1 c.2 else m) m

/-- The granules of a mask written with their bytes of the burst's data (R148). -/
def writeMasked (m : List Host.Cell) (addr : Nat) (mask : BitVec 8) (data : List Byte) : List Host.Cell :=
  (List.range 8).foldl
    (fun m g => if mask.getLsbD g then writeBytes m (addr + 8 * g) ((data.drop (8 * g)).take 8) else m) m

end Memory

/-- What an access does to DRAM (R142, R148). -/
def Access.store (a : Access) (m : List Host.Cell) : List Host.Cell :=
  match a.kind with
  | .read => m
  | .fullWrite => Memory.writeMasked m a.addr 0xFF#8 a.data
  | .maskedWrite => Memory.writeMasked m a.addr a.mask a.data

/-! ## The memory engine -/

/-- The arbiter makes a choice if it can (R143), with the urgent threshold in force. -/
def Part.arbitrate (p : Part) : Part := p.modMem fun m => m.arbitrate p.maint.params.urgent.toNat

/-- A read burst handed over is counted as outstanding by its context (R76). -/
def Part.countHanded (p : Part) : Client → Part
  | .readCtx r => p.modRead r fun c => { c with outstanding := c.outstanding + 1 }
  | _ => p

/-- An access joins the queue (R141), and the arbiter chooses if the path is free. -/
def Part.enqueue (p : Part) (a : Access) : Part :=
  ((p.countHanded a.client).modMem fun m => { m with queue := m.queue ++ [a] }).arbitrate

/-- A client hands an access: it is admitted when there is room and the client holds no earlier one (R141). -/
def Part.hand (p : Part) (a : Access) : Part :=
  if p.mem.room a.cls && !(p.mem.held.any fun h => sameClient h.client a.client) then p.enqueue a
  else p.modMem fun m => { m with held := m.held ++ [a] }

def Part.handAll (p : Part) (as : List Access) : Part := as.foldl Part.hand p

/-- The bank table and its counters when an access has been carried out (R146, R147, R159). -/
def MemEngine.carryOut (m : MemEngine) (a : Access) (policy : RowPolicy) : MemEngine :=
  let b := bankOf a.addr
  let k := m.banks.get b
  let hit := m.rowHit a
  let full := decide (a.kind = .fullWrite) || (decide (a.kind = .maskedWrite) && decide (a.mask = 0xFF#8))
  let masked := decide (a.kind = .maskedWrite) && !full
  { m with
    op := none
    banks := putAt m.banks b
      { openRow := match policy with | .openPage => some (rowOf a.addr) | .closePage => none
        activations := if hit then k.activations else satInc k.activations
        rowHits := if hit then satInc k.rowHits else k.rowHits
        fullWrites := if full then satInc k.fullWrites else k.fullWrites
        maskedWrites := if masked then satInc k.maskedWrites else k.maskedWrites } }

/-- Every OPEN bank closed. -/
def MemEngine.closeBanks (m : MemEngine) : MemEngine :=
  { m with banks := m.banks.map fun b => { b with openRow := none } }

/-- The access in flight is carried out: DRAM and banks change, and the arbiter chooses again (R142, R143; log 12). -/
def Part.carryOut (p : Part) (a : Access) : Part :=
  ({ p with dram := a.store p.dram, mem := p.mem.carryOut a p.maint.params.rowPolicy }).arbitrate

/-! ## Sessions and their frames -/

/-- The session is ACTIVE on its port with its generation. -/
def Part.live (p : Part) (s : SessionId) : Bool :=
  (p.req s.port).session.active && decide ((p.req s.port).session.gen = s.gen)

/-- The session of a port as the blocks identify it. -/
def Part.sessionOf (p : Part) (i : Port) : SessionId := ⟨i, (p.req i).session.gen⟩

/-- The response queue has a free frame. -/
def Part.respRoom (p : Part) (i : Port) : Bool := decide ((p.req i).respQ.length < Config.responsePlaces)

/-- A frame put into a free place of the response queue (R115). -/
def Part.queueResp (p : Part) (i : Port) (f : RespFrame) : Part :=
  if p.respRoom i then p.modReq i fun r => { r with respQ := r.respQ ++ [f] } else p

def Part.enterTag (p : Part) (i : Port) (t : Byte) : Part :=
  p.modReq i fun r => { r with tags := if t ∈ r.tags then r.tags else r.tags ++ [t] }

def Part.leaveTag (p : Part) (i : Port) (t : Byte) : Part :=
  p.modReq i fun r => { r with tags := r.tags.filter fun x => decide (x ≠ t) }

/-- An answer given at once; a status other than OK is counted (R119). -/
def Part.answer (p : Part) (i : Port) (r : Rsp) : Part :=
  let q := p.queueResp i (.rsp r)
  if r.status = .ok then q
  else q.modReq i fun l => { l with cnt := { l.cnt with refused := satInc l.cnt.refused } }

/-- A deferred answer queued: its tag leaves the tag table (R112). -/
def Part.queueDeferred (p : Part) (i : Port) (r : Rsp) : Part := (p.queueResp i (.rsp r)).leaveTag i r.tag

/-- A deferred answer released to its session (R52, R86): queued, or waiting behind the port's earlier waiting ones when
no frame is free, or discarded when the session has ended. -/
def Part.releaseAnswer (p : Part) (s : SessionId) (r : Rsp) : Part :=
  if p.live s then
    if p.respRoom s.port && (p.waits s.port).isEmpty then p.queueDeferred s.port r
    else p.setWaits s.port (p.waits s.port ++ [.answer r])
  else p

/-! ## Notifications (05) -/

def Ntf.isFrontierOf (j : JournalId) : Ntf → Bool
  | .frontier k _ _ => decide (k = j)
  | _ => false

def Ntf.isMode : Ntf → Bool
  | .mode _ => true
  | _ => false

def Part.countNtf (p : Part) (f : NotifyCounters → NotifyCounters) : Part := { p with ntfCnt := f p.ntfCnt }

/-- Cases 2 and 3 of R94: the entry joins the tail, or is dropped. -/
def Part.joinNtf (p : Part) (i : Port) (e : Ntf) : Part :=
  if (p.ntf i).queue.length < Config.notifyPlaces then
    (p.modNtf i fun n => { n with queue := n.queue ++ [e] }).countNtf fun c => { c with queued := satInc c.queued }
  else
    (p.modNtf i fun n => { n with drops := min Config.maxDrops (n.drops + 1), overflow := true }).countNtf
      fun c => { c with dropped := satInc c.dropped }

/-- An entry for a port with an ACTIVE session (R94, R95). -/
def Part.placeNtf (p : Part) (i : Port) (e : Ntf) : Part :=
  match e with
  | .frontier j lastSeq durable =>
    if (p.ntf i).queue.any (Ntf.isFrontierOf j) then
      (p.modNtf i fun n =>
        { n with queue := n.queue.map fun x => if x.isFrontierOf j then .frontier j lastSeq durable else x }).countNtf
          fun c => { c with folded := satInc c.folded }
    else p.joinNtf i e
  | .layout j =>
    if (p.ntf i).queue.any (Ntf.isFrontierOf j) then
      (p.modNtf i fun n => { n with queue := n.queue.filter (fun x => !x.isFrontierOf j) ++ [e] }).countNtf
        fun c => { c with queued := satInc c.queued, layoutReplaced := satInc c.layoutReplaced }
    else p.joinNtf i e
  | _ => p.joinNtf i e

/-- A producer hands an entry for a port (R93): discarded without an ACTIVE session, and while a MODE entry is retained. -/
def Part.notify (p : Part) (e : Ntf) (i : Port) : Part :=
  if (p.req i).session.active && !(p.ntf i).modeRetained then p.placeNtf i e else p

def Part.notifyAll (p : Part) (e : Ntf) (ports : List Port) : Part := ports.foldl (fun p i => p.notify e i) p

/-- The head entry leaves; a set overflow flag then queues an OVERFLOW in the freed place (R96), and a MODE entry that
leaves clears the retained mark (R97). -/
def Part.takeNtf (p : Part) (i : Port) : Part :=
  match (p.ntf i).queue with
  | [] => p
  | e :: rest =>
    let retained := (p.ntf i).modeRetained && !e.isMode
    if (p.ntf i).overflow then
      (p.modNtf i fun n =>
        { queue := rest ++ [.overflow n.drops], overflow := false, drops := 0, modeRetained := retained }).countNtf
          fun c => { c with queued := satInc c.queued, overflows := satInc c.overflows }
    else p.modNtf i fun n => { n with queue := rest, modeRetained := retained }

/-- The entries that `keep` lets stay; the others are removed and counted, and drops and overflow are cleared (R98, R99). -/
def Part.clearNtf (p : Part) (i : Port) (keep : Ntf → Bool) : Part :=
  let gone := ((p.ntf i).queue.filter fun x => !keep x).length
  (p.modNtf i fun n => { n with queue := n.queue.filter keep, drops := 0, overflow := false }).countNtf
    fun c => { c with removed := satAdd c.removed gone }

/-! ## The entry a change of ownership reports (R66) -/

def Part.ownerEntry (p : Part) (j : JournalId) : Ntf :=
  .owner j (p.journal j).state (p.journal j).epoch (p.journal j).ownerTag

def Part.subscribers (p : Part) (j : JournalId) : List Port := ((p.journal j).conf.map Conf.subs).getD []

/-- OWNER to the journal's subscribers, and to one port more when it is no subscriber (R66: one entry a port). -/
def Part.notifyOwner (p : Part) (j : JournalId) (other : Option Port) : Part :=
  p.notifyAll (p.ownerEntry j)
    (allPorts.filter fun i => decide (i ∈ p.subscribers j) || decide (other = some i))

end Sys2Proof.Machine
end

