-- ==== Sys2Proof/Machine/Journals.lean ====
section
/-! DEFINITION. What the journal manager, the append engine and the read service do to their state, shared by the
commands: directory writes, slots, the frontier, transfers, trims and reads. -/

namespace Sys2Proof.Machine

/-! ## Directory writers (R18, R21) -/

/-- The values a directory write records (R18). -/
def Journal.snap (e : Journal) : Snapshot where
  epoch := e.epoch
  conf := e.conf.map fun c =>
    { state := c.state, base := c.base, count := c.count, tag := c.ownerTag, head := c.head, frontier := c.frontier
      frontierSeq := c.frontierSeq }

def Part.watermarks (p : Part) : List Byte := p.journals.toList.map Journal.watermark

/-- A copy of an item built from the live values, with a generation (R18, R21, R186). -/
def Part.itemBytes (p : Part) (i : Item) (gen : W32) : List Byte :=
  match i with
  | .journal j => entryBytes j (p.journal j).snap gen
  | .header => headerBytes (p.header.layoutGen.getD 0) p.maint.params p.watermarks gen

/-- One copy as a full 64-byte write of class DIRECTORY. -/
def directoryWrite (client : Client) (i : Item) (c : Copy) (bytes : List Byte) : Access :=
  { kind := .fullWrite, cls := .directory, addr := itemAddr i c, mask := 0xFF#8, data := bytes, client := client
    bypass := 0 }

/-- The responses bound to the first write that starts now belong to this one (R20). -/
def Part.bindFlight (p : Part) : Item → Part
  | .journal j => p.modJournal j fun e => { e with boundFlight := e.boundNext, boundNext := [] }
  | .header => p

/-- The start of a directory write, when the item is dirty and no write of it is in flight (R18). -/
def Part.startWrite (p : Part) (i : Item) : Part :=
  let d := p.dirOf i
  if d.dirty && !d.inFlight then
    let access := directoryWrite (.dirWriter i) i (otherCopy d.newest) (p.itemBytes i (d.gen + 1))
    let snap := match i with
      | .journal j => some (p.journal j).snap
      | .header => none
    ((p.modDir i fun d => { d with dirty := false, inFlight := true, snapshot := snap }).bindFlight i).hand access
  else p

/-- Step 1 of R19: the written copy is the newest. -/
def DirWriter.written (d : DirWriter) : DirWriter := { d with newest := otherCopy d.newest, gen := d.gen + 1 }

/-- Step 5 of R19, but for the next start. -/
def DirWriter.landed (d : DirWriter) : DirWriter := { d with inFlight := false, snapshot := none }

/-- One copy of a rewrite outside the writer has completed (R22, R23, R170). -/
def DirWriter.copyDone (d : DirWriter) : DirWriter :=
  { d with copiesLeft := d.copiesLeft - 1, inFlight := decide (1 < d.copiesLeft) }

/-- The writer of an item whose two copies are written afresh: copy A, generation 1, becomes the newest (R22, R170). -/
def freshWriter : DirWriter where
  dirty := false
  inFlight := true
  snapshot := none
  newest := .a
  gen := 1
  copiesLeft := 2

/-- Both copies of an item handed outside its writer, A with generation 1 and B with generation 0 (R22, R170). -/
def Part.rewriteItem (client : Item → Copy → Client) (p : Part) (i : Item) : Part :=
  ((p.modDir i fun _ => freshWriter).hand (directoryWrite (client i .a) i .a (p.itemBytes i 1))).hand
    (directoryWrite (client i .b) i .b (p.itemBytes i 0))

/-! ## Writes of an append slot -/

/-- Bytes at a stream position of a journal, handed as the writes of one client (R33, R10). -/
def Part.handRun (p : Part) (client : Client) (j : JournalId) (pos : Nat) (bytes : List Byte) : Part :=
  match (p.journal j).conf with
  | none => p
  | some c => p.handAll (runWrites client bytes.length (c.address pos) bytes)

/-- The slots that a test holds of, in their order. -/
def Part.slotsWith (p : Part) (f : Slot → Bool) : List SlotId := allSlots.filter fun n => (p.slot n).any f

def Part.countAppend (p : Part) (f : AppendCounters → AppendCounters) : Part := { p with appendCnt := f p.appendCnt }

/-- The counter of a void reason (R47). -/
def AppendCounters.void (c : AppendCounters) : VoidReason → AppendCounters
  | .offsetError => { c with voidOffset := satInc c.voidOffset }
  | .lengthError => { c with voidLength := satInc c.voidLength }
  | .checkMismatch => { c with voidCheck := satInc c.voidCheck }
  | .abandoned => { c with voidAbandoned := satInc c.voidAbandoned }
  | .fenced => { c with voidFenced := satInc c.voidFenced }
  | .sessionEnded => { c with voidSession := satInc c.voidSession }

/-- A slot after the steps of R36. -/
def Slot.voided (s : Slot) (reason : VoidReason) : Slot :=
  { s with reason := some reason, idle := none, carry := [], outstanding := s.outstanding + 1, state := .voiding }

/-- Voiding (R36): acts on a slot in RECEIVING only. -/
def Part.voidSlot (p : Part) (n : SlotId) (reason : VoidReason) : Part :=
  match p.slot n with
  | none => p
  | some s =>
    if s.state = .receiving then
      ((p.setSlot n (some (s.voided reason))).countAppend fun c => c.void reason).handRun (.slot n .header) s.journal
        s.position.toNat (s.voided reason).header
    else p

/-- Slots voided at one event (R39, R40), in the order of the list (log 41). -/
def Part.voidAll (p : Part) (ns : List SlotId) (reason : VoidReason) : Part :=
  ns.foldl (fun p n => p.voidSlot n reason) p

/-- The fencing of an owner session (R39). -/
def Part.fence (p : Part) (j : JournalId) (s : SessionId) : Part :=
  p.voidAll (p.slotsWith fun x => decide (x.journal = j) && decide (x.session = s)) .fenced

/-! ## The commit frontier (R42) -/

/-- The resolved slot that holds the journal's frontier sequence. -/
def Part.frontierSlot (p : Part) (j : JournalId) : Option SlotId :=
  match (p.journal j).conf with
  | none => none
  | some c =>
    allSlots.find? fun n =>
      (p.slot n).any fun s =>
        decide (s.journal = j) && decide (s.seq = c.frontierSeq)
          && (decide (s.state = .landed) || decide (s.state = .voided))

/-- One advance. -/
def Part.passSlot (p : Part) (j : JournalId) (n : SlotId) : Part :=
  match p.slot n with
  | none => p
  | some s =>
    (p.modConf j fun c =>
      { c with frontier := s.position + BitVec.ofNat 64 s.occupancy, frontierSeq := c.frontierSeq + 1 }).setSlot n
        (some { s with state := .committed })

def Part.passSlots : Nat → Part → JournalId → Part
  | 0, p, _ => p
  | k + 1, p, j =>
    match p.frontierSlot j with
    | none => p
    | some n => Part.passSlots k (p.passSlot j n) j

/-- The repeated advance of R42 over at most the twelve slots; at least one advance marks the entry dirty. -/
def Part.frontierAdvance (p : Part) (j : JournalId) : Part :=
  match p.frontierSlot j with
  | none => p
  | some _ => (Part.passSlots 12 p j).markDirty (.journal j)

/-! ## Transfers (R59, R60) -/

/-- The FORCE_RELEASE response of the journal waits and is not bound yet. -/
def Part.forceDue (p : Part) (j : JournalId) : Bool :=
  decide (p.maint.deferred = .waiting (.forceRelease j))
    && !((p.journal j).boundNext ++ (p.journal j).boundFlight).any fun b => decide (b = .forceRelease)

/-- The port of the old owner, if its session is still attached (R66). -/
def Part.attachedPort (p : Part) (s : Option SessionId) : Option Port :=
  match s with
  | some s => if p.live s then some s.port else none
  | none => none

/-- A new ownership with its epoch (R50), and responses bound to the first write that starts after it (R20). -/
def Journal.change (e : Journal) (own : Ownership) (epoch : W32) (bound : List Bound) : Journal :=
  { e with conf := e.conf.map fun c => { c with own := own }, epoch := epoch, boundNext := e.boundNext ++ bound }

/-- The OK of an ownership request, with the journal's epoch after the change (R52). -/
def ownershipAnswer (code tag : Byte) (epoch : W32) : Rsp where
  code := code
  tag := tag
  status := .ok
  values := .epoch epoch

/-- The ownership a completed transfer leaves, with the response it binds (R60). -/
def Part.transferred (p : Part) (j : JournalId) (claimant : Option Claimant) : Ownership × List Bound :=
  match claimant with
  | some cl =>
    (.owned cl.session ((p.req cl.session.port).session.tag.getD 0),
      [.answer cl.session (ownershipAnswer codeTakeover cl.reqTag ((p.journal j).epoch + 1))])
  | none => (.unassigned, if p.forceDue j then [.forceRelease] else [])

/-- The two ways a transfer completes (R60). -/
def Part.completeTransfer (p : Part) (j : JournalId) (owner : Option SessionId) (claimant : Option Claimant) : Part :=
  let c := p.transferred j claimant
  ((p.modJournal j fun e => e.change c.1 (e.epoch + 1) c.2).markDirty (.journal j)).notifyOwner j
    (p.attachedPort owner)

/-- The completion check (R59). -/
def Part.transferCheck (p : Part) (j : JournalId) : Part :=
  match (p.journal j).conf with
  | none => p
  | some c =>
    match c.own with
    | .transferring owner _ claimant => if c.openSlots = 0 then p.completeTransfer j owner claimant else p
    | _ => p

/-! ## Release of slots (R44, R45, R46) -/

/-- A slot returns to FREE: its journal's open-slot count falls, and the completion check follows (R24, R44). -/
def Part.freeSlot (p : Part) (n : SlotId) : Part :=
  match p.slot n with
  | none => p
  | some s =>
    ((p.setSlot n none).modConf s.journal fun c => { c with openSlots := c.openSlots - 1 }).transferCheck s.journal

/-- The APPEND_DONE of a slot (R46). -/
def Slot.appendDone (s : Slot) : Rsp where
  code := codeAppend
  tag := s.reqTag
  status := if s.outcome = some .voided then .voided else .ok
  values := .appendDone s.reason s.seq s.position

/-- APPEND_DONE queued on the session's port: the tag leaves, the session's open-append count falls, the slot becomes FREE
(R44). -/
def Part.queueDone (p : Part) (i : Port) (n : SlotId) (s : Slot) : Part :=
  ((p.queueDeferred i s.appendDone).modReq i fun r =>
    { r with session := { r.session with openAppends := r.session.openAppends - 1 } }).freeSlot n

/-- A durable COMMITTED slot released: answered, left waiting for a frame (R45), or freed when its session has ended. -/
def Part.releaseSlot (p : Part) (n : SlotId) : Part :=
  match p.slot n with
  | none => p
  | some s =>
    if p.live s.session then
      if p.respRoom s.session.port && (p.waits s.session.port).isEmpty then p.queueDone s.session.port n s
      else p.setWaits s.session.port (p.waits s.session.port ++ [.appendDone n])
    else p.freeSlot n

/-- The end of a slot's record. -/
def Slot.recordEnd (s : Slot) : Nat := s.position.toNat + s.occupancy

/-- The slot is COMMITTED on the journal, durable (R44), and does not wait yet. -/
def Part.releasable (p : Part) (j : JournalId) (durable : W64) (n : SlotId) : Bool :=
  (p.slot n).any fun s =>
    decide (s.state = .committed) && decide (s.journal = j) && decide (s.recordEnd ≤ durable.toNat)
      && !(p.waits s.session.port).any fun w => decide (w = .appendDone n)

def Part.seqOf (p : Part) (n : SlotId) : Nat := ((p.slot n).map fun s => s.seq.toNat).getD 0

def insertBySeq (p : Part) (n : SlotId) : List SlotId → List SlotId
  | [] => [n]
  | m :: rest => if p.seqOf n ≤ p.seqOf m then n :: m :: rest else m :: insertBySeq p n rest

/-- The slots to release at a completion, in sequence order. -/
def Part.durableSlots (p : Part) (j : JournalId) : List SlotId :=
  match (p.journal j).conf with
  | none => []
  | some c => (allSlots.filter (p.releasable j c.durable)).foldr (insertBySeq p) []

/-! ## Trims (R85, R86) -/

def Part.countRead (p : Part) (f : ReadCounters → ReadCounters) : Part := { p with readCnt := f p.readCnt }

/-- Head takes the target, and the watermark is armed again below its level (R85, R16). -/
def Conf.headTo (c : Conf) (t : PendingTrim) (watermark : Byte) : Conf :=
  let d := { c with head := t.target, trim := some { t with phase := .advanced } }
  { d with armed := c.armed || d.belowLevel watermark }

/-- The head-advance check of a pending trim in HELD (R85). -/
def Part.headAdvance (p : Part) (j : JournalId) : Part :=
  match (p.journal j).conf with
  | none => p
  | some c =>
    match c.trim with
    | none => p
    | some t =>
      if t.phase = .held ∧ (c.pins.all fun x => decide (t.target.toNat ≤ x.toNat)) = true then
        ((p.modConf j fun c => c.headTo t (p.journal j).watermark).markDirty (.journal j)).countRead
          fun n => { n with trims := satInc n.trims }
      else p

/-- An ADVANCED trim whose target the persisted head has reached ends (R86). -/
def Part.trimEnd (p : Part) (j : JournalId) : Part :=
  match (p.journal j).conf with
  | none => p
  | some c =>
    match c.trim with
    | none => p
    | some t =>
      if t.phase = .advanced ∧ t.target.toNat ≤ c.persistedHead.toNat then
        (p.modConf j fun c => { c with trim := none }).releaseAnswer t.session
          { code := codeTrim, tag := t.reqTag, status := .ok, values := .trim (p.journal j).epoch c.head }
      else p

/-! ## Completion of a journal's directory write (R19) -/

/-- The FORCE_RELEASE or FORMAT response placed in the deferred result record (R178). -/
def Part.deferredDone (p : Part) : Part :=
  p.modMaint fun m =>
    { m with deferred := match m.deferred with
        | .waiting c => .done c .ok
        | d => d }

/-- A bound response released (R20). -/
def Part.releaseBound (p : Part) : Bound → Part
  | .answer s r => p.releaseAnswer s r
  | .forceRelease => p.deferredDone

/-- Step 2 of R19. -/
def Part.takeSnapshot (p : Part) (j : JournalId) : Part :=
  match (p.journal j).dir.snapshot with
  | some ⟨_, some x⟩ =>
    p.modConf j fun c =>
      { c with persistedHead := x.head, durable := x.frontier, durableSeq := x.frontierSeq }
  | _ => p

/-- Step 3 of R19: durable slots in sequence order, then a trim, then the bound responses. The order of the three kinds, and
that the responses bound to one and the same write are released in the order in which they were bound, are the model's
choices (log 17). -/
def Part.releaseAll (p : Part) (j : JournalId) : Part :=
  let q := ((p.durableSlots j).foldl Part.releaseSlot p).trimEnd j
  (p.journal j).boundFlight.foldl Part.releaseBound (q.modJournal j fun e => { e with boundFlight := [] })

/-- Step 4 of R19. -/
def Part.notifyFrontier (p : Part) (j : JournalId) (before : W64) : Part :=
  match (p.journal j).conf with
  | none => p
  | some c =>
    if before.toNat < c.durable.toNat then
      p.notifyAll (.frontier j (c.durableSeq - 1) c.durable) (allPorts.filter fun i => decide (i ∈ c.subs))
    else p

/-- The five steps of R19. -/
def Part.journalWritten (p : Part) (j : JournalId) : Part :=
  let before := ((p.journal j).conf.map Conf.durable).getD 0
  let p1 := p.modDir (.journal j) DirWriter.written
  let p2 := p1.takeSnapshot j
  let p3 := p2.releaseAll j
  let p4 := p3.notifyFrontier j before
  (p4.modDir (.journal j) DirWriter.landed).startWrite (.journal j)

/-! ## Reads (04) -/

def portOfRead (r : ReadId) : Port := ⟨r.val / 2, by omega⟩

/-- The next frame of a read staged, its bursts handed (R76). -/
def Part.stage (p : Part) (r : ReadId) : Part :=
  match p.readCtx r with
  | none => p
  | some c =>
    match (p.journal c.journal).conf with
    | none => p
    | some g =>
      let n := min Config.maxFrameData (c.start.toNat + c.length - c.nextPos.toNat)
      (p.setRead r (some { c with state := .fetching, staged := some ⟨c.nextPos, zeros n⟩ })).handAll
        ((g.bursts c.nextPos.toNat n).map (readAccess (.readCtx r)))

/-- The requested bytes of a completed burst put at their places (R76). -/
def Staged.fill (g : Conf) (st : Staged) (addr : Nat) (burst : List Byte) : Staged :=
  { st with
    bytes := st.bytes.mapIdx fun i b =>
      let a := g.address (st.position.toNat + i)
      if burstOf a = addr then byteAt burst (a - addr) else b }

/-- Bursts of the context wait to be handed. -/
def Part.holdsBursts (p : Part) (r : ReadId) : Bool := p.mem.held.any fun a => decide (a.client = .readCtx r)

/-- Completion of a read burst (R76, R79). -/
def Part.burstArrived (p : Part) (r : ReadId) (addr : Nat) (burst : List Byte) : Part :=
  match p.readCtx r with
  | none => p
  | some c =>
    let left := c.outstanding - 1
    match c.state with
    | .fetching =>
      let staged := match (p.journal c.journal).conf with
        | some g => c.staged.map fun st => st.fill g addr burst
        | none => c.staged
      p.setRead r
        (some { c with
          outstanding := left
          staged := staged
          state := if left = 0 ∧ p.holdsBursts r = false then .holding else .fetching })
    | .draining => p.setRead r (if left = 0 then none else some { c with outstanding := left })
    | _ => p.setRead r (some { c with outstanding := left })

/-- One instance of a position leaves the read pin set, and the head-advance check follows (R78, R79). -/
def Part.removePin (p : Part) (j : JournalId) (pos : W64) : Part :=
  (p.modConf j fun c => { c with pins := c.pins.erase pos }).headAdvance j

/-- A read cancelled (R79): its waiting bursts are not handed, and it drains or is freed. -/
def Part.cancelRead (p : Part) (r : ReadId) : Part :=
  match p.readCtx r with
  | none => p
  | some c =>
    let p1 := p.modMem fun m => { m with held := m.held.filter fun a => decide (a.client ≠ .readCtx r) }
    let p2 := p1.setRead r (if c.outstanding = 0 then none else some { c with state := .draining, staged := none })
    (p2.countRead fun n => { n with cancelled := satInc n.cancelled }).removePin c.journal c.start

/-- The reads of a session that hold a pin. -/
def Part.readsOf (p : Part) (s : SessionId) : List ReadId :=
  allReads.filter fun r =>
    decide (portOfRead r = s.port)
      && (p.readCtx r).any fun c => decide (c.gen = s.gen) && decide (c.state ≠ .draining)

end Sys2Proof.Machine
end

