-- ==== Sys2Proof/Machine/Sessions.lean ====
section
/-! DEFINITION. The end of a session in every block (R106, Table 6-2), the loss of a link (R126, R107, R99), and the
frames a link unit sends (R122, R132, R134). -/

namespace Sys2Proof.Machine

/-! ## Session end -/

/-- Request credits returned to the link unit (R108, R136). -/
def Part.returnCredits (p : Part) (i : Port) (n : Nat) : Part :=
  p.modLink i fun u => { u with freePlaces := min Config.requestPlaces (u.freePlaces + n) }

/-- The counter of the cause (R119). -/
def RequestCounters.ended (c : RequestCounters) : EndCause → RequestCounters
  | .detach => { c with endsDetach := satInc c.endsDetach }
  | .linkLoss => { c with endsLinkLoss := satInc c.endsLinkLoss }
  | .quiesce => { c with endsQuiesce := satInc c.endsQuiesce }

/-- The request layer at a session end (R106): the record is NONE with its generation kept, and the tag table, the
response queue and the request buffer are empty. -/
def RequestLayer.closed (r : RequestLayer) (cause : EndCause) : RequestLayer :=
  { r with
    session := { active := false, tag := none, gen := r.session.gen, openAppends := 0 }
    buffer := []
    tags := []
    respQ := []
    cnt := r.cnt.ended cause }

def Part.closeRequests (p : Part) (i : Port) (cause : EndCause) : Part :=
  let q := p.modReq i fun r => r.closed cause
  if cause = .linkLoss then q else q.returnCredits i (p.req i).buffer.length

/-- The port leaves every subscriber set (R98). -/
def Part.unsubscribeAll (p : Part) (i : Port) : Part :=
  allJournals.foldl (fun p j => p.modConf j fun c => { c with subs := c.subs.filter fun q => decide (q ≠ i) }) p

/-- The ownership of a journal at the end of a session (R63, R64). -/
def Conf.sessionEnded (c : Conf) (s : SessionId) (graceMs : W16) : Conf :=
  match c.own with
  | .owned o t => if o = s then { c with own := .held t (graceStart graceMs) } else c
  | .transferring o t cl =>
    { c with
      own := .transferring (if o = some s then none else o) t (if cl.any fun x => decide (x.session = s) then none else cl) }
  | _ => c

/-- The journal at the end of a session: HELD is a change that marks the entry dirty, is notified, and raises
JOURNAL_HELD (R63); a transfer goes on (R64). -/
def Part.leaveJournal (p : Part) (s : SessionId) (j : JournalId) : Part :=
  let q := p.modConf j fun c => c.sessionEnded s p.maint.params.grace
  if (p.journal j).conf.any fun c => c.ownedBy s then
    ((q.markDirty (.journal j)).notifyOwner j none).raise (causeJournalHeld j)
  else q

/-- A response that waits at a session end is discarded; the slot of a waiting APPEND_DONE becomes FREE (R45, R52). -/
def Part.dropWaiting (p : Part) : Waiting → Part
  | .appendDone n => p.freeSlot n
  | .answer _ => p

/-- The end of the ACTIVE session on a port, in every block (R106, Table 6-2; order: log 27). -/
def Part.endSession (p : Part) (i : Port) (cause : EndCause) : Part :=
  let s := p.sessionOf i
  let p1 := p.closeRequests i cause
  let p2 := (p1.unsubscribeAll i).clearNtf i fun e => (p.ntf i).modeRetained && e.isMode
  let p3 := p2.voidAll (p2.slotsWith fun x => decide (x.session = s)) .sessionEnded
  let p4 := (p3.readsOf s).foldl Part.cancelRead p3
  let p5 := allJournals.foldl (fun q j => q.leaveJournal s j) p4
  (p5.waits i).foldl Part.dropWaiting (p5.setWaits i [])

/-! ## Link loss -/

/-- The link-down counter of a cause (R139). -/
def LinkCounters.down (c : LinkCounters) : DownCause → LinkCounters
  | .linkReset => { c with downReset := satInc c.downReset }
  | .silence => { c with downSilence := satInc c.downSilence }
  | .replayLimit => { c with downReplay := satInc c.downReplay }
  | _ => c

/-- The link unit as it leaves UP (R126). -/
def LinkUnit.down (u : LinkUnit) (cause : DownCause) : LinkUnit :=
  { u with
    state := .down, cause := some cause, resets := 0, syncCount := 0, nak := .none, replayBuf := [], replay := none
    replayTimer := false, silenceTimer := false, cnt := u.cnt.down cause }

/-- The link leaves UP (R126): LINK_DOWN is raised, the request buffer and the response queue are discarded and the
session ends (R107), and the notification queue is emptied (R99). -/
def Part.linkDown (p : Part) (i : Port) (cause : DownCause) : Part :=
  let p1 := (p.modLink i fun u => u.down cause).raise (causeLinkDown i)
  let p2 := p1.modReq i fun r => { r with buffer := [], respQ := [] }
  let p3 := if (p2.req i).session.active then p2.endSession i .linkLoss else p2
  (p3.clearNtf i fun _ => false).modNtf i fun n => { n with modeRetained := false }

/-! ## Frames sent -/

/-- The lane with a frame of DOWN or SYNC (R122). -/
def LinkUnit.sendIdleForm (u : LinkUnit) (ftype : Byte) : LinkUnit :=
  { u with lane := some (frameBytes ftype 0 63 false 0 []) }

/-- The lane with a frame of UP; a pending NAK goes with it and is counted (R122, R139). -/
def LinkUnit.sendUp (u : LinkUnit) (ftype : Byte) (seq : Seq) (payload : List Byte) : LinkUnit :=
  let due := decide (u.nak = .pending)
  { u with
    lane := some (frameBytes ftype seq (u.expected - 1) due u.freePlaces payload)
    nak := if due then .sent else u.nak
    cnt := if due then { u.cnt with naksSent := satInc u.cnt.naksSent } else u.cnt }

/-- A new sequenced frame accepted, held for replay and sent (R132). -/
def LinkUnit.accept (u : LinkUnit) (t : TxType) (payload : List Byte) : LinkUnit :=
  let v : LinkUnit :=
    { u with
      nextSeq := u.nextSeq + 1
      replayBuf := u.replayBuf ++ [⟨u.nextSeq, t, payload⟩]
      replayTimer := true }
  v.sendUp t.code u.nextSeq payload

/-- The entry in turn sent again; the replay ends after the last (R134). -/
def LinkUnit.resend (u : LinkUnit) (k : Nat) : LinkUnit :=
  match u.replayBuf[k]? with
  | none => { u with replay := none }
  | some e =>
    let v : LinkUnit := { u with replay := if k + 1 < u.replayBuf.length then some (k + 1) else none }
    v.sendUp e.ftype.code e.seq e.payload

/-- A replay starts (R134). -/
def LinkUnit.startReplay (u : LinkUnit) : LinkUnit :=
  { u with
    replay := some 0, replayCount := u.replayCount + 1, replayTimer := true
    cnt := { u.cnt with replays := satInc u.cnt.replays } }

/-- A replay trigger (R134, R135). -/
def Part.replayTrigger (p : Part) (i : Port) : Part :=
  let u := p.link i
  if u.replayBuf = [] ∨ u.replay.isSome = true then p
  else if u.replayCount < Config.replayLimit then p.modLink i LinkUnit.startReplay
  else p.linkDown i .replayLimit

/-! ## Headers received in UP (R131) -/

/-- Entries released by an acknowledgement. -/
def LinkUnit.release (u : LinkUnit) (k : Nat) : LinkUnit :=
  { u with
    replayBuf := u.replayBuf.drop k
    replay := if u.replayBuf.drop k = [] then none else u.replay.map fun x => x - k
    replayCount := 0
    replayTimer := !(u.replayBuf.drop k).isEmpty }

/-- The acknowledgement of a header. -/
def LinkUnit.takeAck (u : LinkUnit) (a : Seq) : LinkUnit :=
  match u.replayBuf with
  | [] => u
  | e :: _ =>
    if seqDistance a e.seq + 1 ≤ u.replayBuf.length then u.release (seqDistance a e.seq + 1) else u

/-- The credit return of a header, above 8 taken as 8 (R185). -/
def LinkUnit.takeCredit (u : LinkUnit) (c : BitVec 4) : LinkUnit := { u with report := min Config.linkCredits c.toNat }

/-- The three header fields of a good frame in UP; a set NAK flag is a replay trigger, taken last. -/
def Part.takeHeader (p : Part) (i : Port) (h : Header) : Part :=
  let q := p.modLink i fun u => (u.takeAck h.ack).takeCredit h.credit
  if h.nak then q.replayTrigger i else q

end Sys2Proof.Machine
end

