-- ==== Sys2Proof/Machine/Control.lean ====
section
/-! DEFINITION. The retention controller (09): starts and stops of the main domain, orders to the memory engine, cold
start, FORMAT, restore, quiesce; and what comes due at the end of an event. -/

namespace Sys2Proof.Machine

/-! ## Starts and stops -/

/-- The counters of the retention controller (R175). -/
def Part.countRet (p : Part) (f : RetentionCounters → RetentionCounters) : Part :=
  p.modCtl fun c => { c with cnt := f c.cnt }

/-- Every main-domain block at its start values (R24, R71, R102, R120, R153, R180, R183), with this retention domain and
this DRAM; the DRAM condition follows the self-refresh record, and the model's count of missed refreshes goes on (log 8). -/
def Part.fresh (ret : Retention) (dram : List Host.Cell) (missed : Nat) : Part :=
  { ret := ret
    mem := { cond := if ret.selfRefresh then .selfRefresh else .uninitialised, missCount := missed }
    dram := dram }

/-- The main domain stops (R158, R174): a DRAM in self-refresh keeps its contents and the flag stands; else the contents
are lost (log 9) and the flag is cleared. Where it does not run, the state it held is lost all the same and the flag is
unchanged (R99, R138, R167, Table 9-4). -/
def Part.stopMain (p : Part) : Part :=
  if p.ret.running then
    if p.ret.selfRefresh = true ∧ p.mem.op ≠ some .exit then Part.fresh { p.ret with running := false } p.dram p.mem.missCount
    else Part.fresh { p.ret with running := false, flag := false, selfRefresh := false } [] p.mem.missCount
  else Part.fresh p.ret (if p.ret.selfRefresh then p.dram else []) p.mem.missCount

/-- The mode becomes RETAINING: the main domain is treated as off (R167). -/
def Part.retain (p : Part) : Part := (p.setMode .retaining).modRet fun r => { r with running := false }

/-! ## Orders to the memory engine -/

/-- A self-refresh exit order (R156): chosen at once in SELF_REFRESH. -/
def Part.giveExit (p : Part) : Part :=
  p.modMem fun m => if m.cond = .selfRefresh ∧ m.op = none then { m with op := some .exit } else m

/-- An initialise order (R153): chosen at once in UNINITIALISED. -/
def Part.giveInitialise (p : Part) : Part :=
  p.modMem fun m => if m.cond = .uninitialised ∧ m.op = none then { m with op := some .initialise } else m

/-- Entry to RESTORING and the exit order of R169, step 1. -/
def Part.enterRestoring (p : Part) : Part :=
  ((p.setMode .restoring).modCtl fun c =>
    { c with work := .restoreExit, abandoned := false, drainOrdered := false, loaded := [], rebuilt := [] }).giveExit

/-- Steps 1 and 2 of a cold start (R162). -/
def Part.beginCold (p : Part) : Part :=
  if p.mem.cond = .selfRefresh then (p.modCtl fun c => { c with work := .coldExit }).giveExit
  else (p.modCtl fun c => { c with work := .coldInit }).giveInitialise

/-- The blocks of a start of the main domain and the start kind (R161): a cold start stays in INITIALIZING, a warm one
goes to RESTORING at once. -/
def Part.startBlocks (p : Part) : Part :=
  let q := Part.fresh { p.ret with mode := .initializing, cause := none, running := true } p.dram p.mem.missCount
  if q.ret.flag then (q.modRet fun r => { r with startKind := .warm }).setMode .restoring
  else q.modRet fun r => { r with startKind := .cold }

/-- A start with PFAIL_N high (R161). -/
def Part.startHigh (p : Part) : Part :=
  let q := p.startBlocks
  if q.ret.flag then (q.modCtl fun c => { c with work := .restoreExit }).giveExit else q.beginCold

/-- A start with PFAIL_N low (R161, R173): the work is abandoned before it begins; the DRAM runs nowhere, so the entry
order completes at once (R154) and the mode becomes RETAINING. -/
def Part.startLow (p : Part) : Part :=
  ((p.startBlocks.countRet fun c => { c with abandoned := satInc c.abandoned }).modCtl fun c =>
    { c with abandoned := true }).retain

/-- What a start of the main domain needs (09, 9.2; 11, 11.7). -/
def Retention.mayStart (r : Retention) : Bool := r.retentionPower && r.mainPower && r.rstHigh && !r.running

/-- A start of the main domain (R161). -/
def Part.start (p : Part) : Part := if p.ret.pfailHigh then p.startHigh else p.startLow

/-- RETAINING, left at once by a start when PFAIL_N is high again and main power was never lost (R167, R173). -/
def Part.retainOrStart (p : Part) : Part :=
  let q := p.retain
  if q.ret.pfailHigh && q.ret.mayStart then q.startHigh else q

/-- The end of a quiesce (R165). -/
def Part.quiesceDone (p : Part) : Part :=
  let cause := p.ret.cause
  let q := p.modRet fun r => { r with flag := true, cause := none }
  if !p.ret.pfailHigh then q.retain
  else if cause = some .pfail then q.enterRestoring
  else q.setMode .halted

/-- What the retention controller does when its entry order is complete (R165, R173). -/
def Part.entryDone (p : Part) : Part :=
  match p.ret.mode with
  | .quiescing => if p.ctl.drainOrdered then p.quiesceDone else p
  | .initializing => if p.ctl.abandoned then p.retainOrStart else p
  | .restoring => if p.ctl.abandoned then p.retainOrStart else p
  | _ => p

/-- A self-refresh entry order (R154): it waits in ACTIVE, and behind an exit already chosen (R173); else it completes
at once (log 13). -/
def Part.giveEntry (p : Part) : Part :=
  match p.mem.cond with
  | .active => (p.modMem fun m => { m with entryWaiting := true }).arbitrate
  | .uninitialised => p.entryDone
  | .selfRefresh =>
    if p.mem.op = some .exit then p.modMem fun m => { m with entryWaiting := true } else p.entryDone

/-- PFAIL_N abandons the work of INITIALIZING or RESTORING (R173). -/
def Part.abandon (p : Part) : Part :=
  if p.ctl.abandoned then p
  else
    ((p.countRet fun c => { c with abandoned := satInc c.abandoned }).modCtl fun c =>
      { c with abandoned := true }).giveEntry

/-! ## Cold start (R22, R162) and FORMAT (R23) -/

/-- A journal made UNCONFIGURED with epoch 0; its watermark and directory writer stand. -/
def Journal.cleared (e : Journal) : Journal := { e with conf := none, epoch := 0, boundNext := [], boundFlight := [] }

/-- The values of R22, and its eighteen writes, handed journal by journal and then the header, A before B (log 41). -/
def Part.coldFill (p : Part) : Part :=
  let p1 := allJournals.foldl
    (fun q j => q.modJournal j fun e => { e.cleared with watermark := Config.defaultWatermark }) p
  let p2 := (p1.modHeader fun h => { h with layoutGen := some 0 }).modMaint fun m => { m with params := {} }
  allItems.foldl (Part.rewriteItem .coldWrite) (p2.modCtl fun c => { c with work := .coldWrites })

/-- No item has a copy of a rewrite outstanding. -/
def Part.copiesDone (p : Part) : Bool := allItems.all fun i => decide ((p.dirOf i).copiesLeft = 0)

/-- The end of a cold start is due (R162, step 5). -/
def Part.coldDue (p : Part) : Bool :=
  decide (p.ret.mode = .initializing) && decide (p.ctl.work = .coldWrites) && !p.ctl.abandoned && p.copiesDone

def Part.coldDone (p : Part) : Part :=
  (((p.raise causeColdStart).modRet fun r => { r with cause := none }).setMode .serving).modCtl fun c =>
    { c with work := .idle, cnt := { c.cnt with coldStarts := satInc c.cnt.coldStarts } }

def Part.coldCheck (p : Part) : Part := if p.coldDue then p.coldDone else p

/-- A pending FORMAT may be carried out (R23). -/
def Part.formatDue (p : Part) : Bool :=
  p.formatPending && (allSlots.all fun n => (p.slot n).isNone)
    && (allJournals.all fun j => !(p.journal j).conf.any fun c => c.trim.isSome)
    && allItems.all fun i => !(p.dirOf i).inFlight

/-- Both copies of an item written by FORMAT: first the copy that is not the newest, then the other (R23). -/
def Part.formatItem (p : Part) (i : Item) : Part :=
  let d := p.dirOf i
  let one := otherCopy d.newest
  ((p.modDir i fun d => { d with dirty := false, inFlight := true, snapshot := none, copiesLeft := 2 }).hand
    (directoryWrite (.formatWrite i one) i one (p.itemBytes i (d.gen + 1)))).hand
      (directoryWrite (.formatWrite i d.newest) i d.newest (p.itemBytes i (d.gen + 2)))

/-- FORMAT carried out (R23); the layout generation wraps (log 40), the items go journal by journal and then the header
(log 41). -/
def Part.formatNow (p : Part) : Part :=
  let p1 := allJournals.foldl (fun q j => q.modJournal j Journal.cleared) { p with formatPending := false }
  let p2 := p1.modHeader fun h => { h with layoutGen := h.layoutGen.map fun g => g + 1 }
  allItems.foldl Part.formatItem p2

def Part.formatCheck (p : Part) : Part := if p.formatDue then p.formatNow else p

/-- One copy written by FORMAT is the newest for now (R23); when all have completed the result is OK (R178). -/
def Part.formatWritten (p : Part) (i : Item) (c : Copy) : Part :=
  let q := p.modDir i fun d => { d.copyDone with newest := c, gen := d.gen + 1 }
  if q.copiesDone then q.deferredDone else q

/-! ## Restore (R169 to R172) -/

/-- Both copies of an item read (R169, steps 2 and 4), A before B (log 41). -/
def Part.loadItem (p : Part) (i : Item) : Part :=
  (p.hand (readAccess (.load i .a) (itemAddr i .a))).hand (readAccess (.load i .b) (itemAddr i .b))

def Part.loadHeader (p : Part) : Part := (p.modCtl fun c => { c with work := .headerLoad }).loadItem .header

/-- The bytes of a completed load of this restore. -/
def Control.loadOf (c : Control) (i : Item) (k : Copy) : Option (List Byte) :=
  (c.loaded.find? fun l => decide (l.item = i) && decide (l.copy = k)).map Loaded.bytes

/-- The parameters of a valid device header taken (R170), and step 4 of R169, J0 to J7 (log 41). -/
def Part.headerTaken (p : Part) (copy : Copy) (bytes : List Byte) (h : HeaderRecord) : Part :=
  let p1 := allJournals.foldl
    (fun q j => q.modJournal j fun e => { e with watermark := byteAt h.watermarks j.val }) p
  let p2 := p1.modHeader fun x =>
    { layoutGen := some h.layoutGen, dir := { x.dir with newest := copy, gen := copyGeneration bytes } }
  let p3 := (p2.modMaint fun m => { m with params := h.params }).modCtl fun c => { c with work := .entryLoad }
  allJournals.foldl (fun q j => q.loadItem (.journal j)) p3

/-- The directory is lost (R170): DIRECTORY_LOST, every journal UNCONFIGURED, defaults, and the entries rewritten,
J0 to J7 (log 41). -/
def Part.directoryLost (p : Part) : Part :=
  let p1 := (p.raise causeDirectoryLost).countRet fun c => { c with itemsLost := satInc c.itemsLost }
  let p2 := allJournals.foldl
    (fun q j => q.modJournal j fun e => { e.cleared with watermark := Config.defaultWatermark }) p1
  let p3 := (p2.modHeader fun h => { h with layoutGen := some 0 }).modMaint fun m => { m with params := {} }
  allJournals.foldl (fun q j => q.rewriteItem .rewrite (.journal j))
    (p3.modCtl fun c => { c with work := .entryRewrite, rebuilt := allJournals })

/-- Step 3 of R169, when both header copies are there. -/
def Part.selectHeader (p : Part) : Part :=
  match p.ctl.loadOf .header .a, p.ctl.loadOf .header .b with
  | some a, some b =>
    match chooseCopy (fun bs => (headerRecord bs).isSome) a b with
    | some (copy, bytes) =>
      match headerRecord bytes with
      | some h => p.headerTaken copy bytes h
      | none => p.directoryLost
    | none => p.directoryLost
  | _, _ => p

/-- Two regions share a segment. -/
def overlap (base count base' count' : Nat) : Bool := decide (base < base' + count') && decide (base' < base + count)

/-- The region overlaps that of a journal rebuilt as configured with a lower number (R171). -/
def Part.overlapsRebuilt (p : Part) (j : JournalId) (e : EntryRecord) : Bool :=
  allJournals.any fun k =>
    decide (k < j) && decide (k ∈ p.ctl.rebuilt)
      && (p.journal k).conf.any fun c => overlap e.base.toNat e.count.toNat c.base.toNat c.count.toNat

/-- The count and the region are those a configured journal may have (R11, R171). -/
def regionOk (base count : Nat) : Bool :=
  decide (Config.minSegments ≤ count ∧ count ≤ Config.lastSegment)
    && decide (1 ≤ base ∧ base + count ≤ Config.lastSegment + 1)

/-- The check of a chosen entry (R171). -/
def Part.entryOk (p : Part) (j : JournalId) (e : EntryRecord) : Bool :=
  match e.state with
  | none => false
  | some st =>
    decide (e.tag ≠ some 0)
      && (decide (st = .unconfigured)
        || (regionOk e.base.toNat e.count.toNat && !p.overlapsRebuilt j e
          && decide (e.head.toNat ≤ e.frontier.toNat)
          && decide (e.frontier.toNat ≤ e.head.toNat + e.count.toNat * Config.segmentBytes)
          && decide (e.head.toNat % 32 = 0) && decide (e.frontier.toNat % 32 = 0)
          && decide (e.frontierSeq ≠ 0) && decide (e.frontierSeq ≠ Config.lastSequence)
          && (e.tag.isSome || decide (st = .unassigned))))

/-- The entry of a configured journal rebuilt (R70, R171). -/
def EntryRecord.rebuild (e : EntryRecord) (watermark : Byte) : Conf :=
  let c : Conf :=
    { own := match e.tag with
        | some t => .held t .stopped
        | none => .unassigned
      base := e.base, count := e.count, head := e.head, persistedHead := e.head, durable := e.frontier
      frontier := e.frontier, reserve := e.frontier, nextSeq := e.frontierSeq, frontierSeq := e.frontierSeq
      durableSeq := e.frontierSeq, openSlots := 0, trim := none, pins := [], subs := [], armed := true }
  { c with armed := c.belowLevel watermark }

/-- A journal rebuilt from its chosen copy (R171). -/
def Journal.rebuilt (e : Journal) (copy : Copy) (gen : W32) (x : EntryRecord) (st : JournalState) : Journal :=
  if st = .unconfigured then { e.cleared with dir := { newest := copy, gen := gen } }
  else
    let c := x.rebuild e.watermark
    { e.cleared with
      conf := some c, epoch := x.epoch, dir := { newest := copy, gen := gen, dirty := decide (c.state ≠ st) } }

/-- A journal lost at restore (R171). -/
def Part.journalLost (p : Part) (j : JournalId) : Part :=
  (((p.raise causeDirectoryLost).countRet fun c => { c with itemsLost := satInc c.itemsLost }).modJournal j
    Journal.cleared).rewriteItem .rewrite (.journal j)

/-- Step 5 of R169, when both copies of the journal's entry are there. -/
def Part.selectEntry (p : Part) (j : JournalId) : Part :=
  match p.ctl.loadOf (.journal j) .a, p.ctl.loadOf (.journal j) .b with
  | some a, some b =>
    let q := match chooseCopy (copyValid (.journal j)) a b with
      | some (copy, bytes) =>
        let x := entryRecord bytes
        match x.state with
        | some st =>
          if p.entryOk j x then p.modJournal j fun e => e.rebuilt copy (copyGeneration bytes) x st else p.journalLost j
        | none => p.journalLost j
      | none => p.journalLost j
    q.modCtl fun c => { c with rebuilt := c.rebuilt ++ [j] }
  | _, _ => p

/-- A load read has delivered its burst; an abandoned restore uses it no more (R173; log 29). -/
def Part.loadArrived (p : Part) (i : Item) (k : Copy) (bytes : List Byte) : Part :=
  if p.ctl.abandoned then p
  else
    let q := p.modCtl fun c => { c with loaded := c.loaded ++ [⟨i, k, bytes⟩] }
    match i with
    | .header => q.selectHeader
    | .journal j => q.selectEntry j

/-- A rewritten copy is in DRAM; after the last entry of a lost directory the header is rewritten (R170), unless the
restore has been abandoned (R173). -/
def Part.rewritten (p : Part) (i : Item) : Part :=
  let q := p.modDir i DirWriter.copyDone
  if q.ctl.work = .entryRewrite ∧ q.copiesDone = true ∧ q.ctl.abandoned = false then
    (q.modCtl fun c => { c with work := .headerRewrite }).rewriteItem .rewrite .header
  else q

/-- Nothing of the directory is dirty or in flight. -/
def Part.directoryClean (p : Part) : Bool := allItems.all fun i => !(p.dirOf i).dirty && !(p.dirOf i).inFlight

/-- The end of a restore is due (R169, step 7). -/
def Part.restoreDue (p : Part) : Bool :=
  decide (p.ret.mode = .restoring) && !p.ctl.abandoned
    && (decide (p.ctl.work = .entryLoad) || decide (p.ctl.work = .headerRewrite))
    && (allJournals.all fun j => decide (j ∈ p.ctl.rebuilt)) && p.directoryClean

/-- The hold-grace timer of a HELD journal starts, and JOURNAL_HELD is raised (R172). -/
def Part.startGrace (p : Part) (j : JournalId) : Part :=
  match (p.journal j).conf with
  | none => p
  | some c =>
    match c.own with
    | .held t _ =>
      (p.modConf j fun c => { c with own := .held t (graceStart p.maint.params.grace) }).raise (causeJournalHeld j)
    | _ => p

/-- Entry to SERVING after a restore (R172). -/
def Part.restoreDone (p : Part) : Part :=
  let p1 := allJournals.foldl Part.startGrace (p.modRet fun r => { r with flag := false })
  (p1.setMode .serving).modCtl fun c =>
    { c with
      work := .idle, loaded := [], rebuilt := [], cnt := { c.cnt with warmRestores := satInc c.cnt.warmRestores } }

def Part.restoreCheck (p : Part) : Part := if p.restoreDue then p.restoreDone else p

/-! ## Quiesce (R163 to R165) -/

/-- A MODE entry as the only entry of the queue of a port with an ACTIVE session (R97). -/
def Part.retainMode (p : Part) (i : Port) : Part :=
  if (p.req i).session.active then
    let n := (p.ntf i).queue.length
    (p.modNtf i fun _ => { queue := [.mode .quiescing], overflow := false, drops := 0, modeRetained := true }).countNtf
      fun c => { c with removed := satAdd c.removed n, queued := satInc c.queued }
  else p

def Part.endIfActive (p : Part) (i : Port) : Part :=
  if (p.req i).session.active then p.endSession i .quiesce else p

/-- The counter of a quiesce (R175). -/
def RetentionCounters.quiesce (c : RetentionCounters) : QuiesceCause → RetentionCounters
  | .pfail => { c with quiescePfail := satInc c.quiescePfail }
  | .saveAndHalt => { c with quiesceSave := satInc c.quiesceSave }

/-- Entry to QUIESCING (R163); the sessions end port by port from P0, each end whole before the next (log 43). -/
def Part.quiesce (p : Part) (cause : QuiesceCause) : Part :=
  let p1 := ((p.setMode .quiescing).modRet fun r => { r with cause := some cause }).countRet fun c => c.quiesce cause
  let p2 := p1.modCtl fun c => { c with drainOrdered := false }
  allPorts.foldl Part.endIfActive (allPorts.foldl Part.retainMode p2)

/-- The drain condition (R164). -/
def Part.drained (p : Part) : Bool :=
  (allPorts.all fun i => !(p.req i).session.active) && (allSlots.all fun n => (p.slot n).isNone)
    && (allJournals.all fun j => !(p.journal j).conf.any fun c => c.trim.isSome)
    && !p.formatPending && p.directoryClean && p.mem.queue.isEmpty

/-- The entry order of a quiesce is due: the condition holds and the order has not been given (R165). -/
def Part.drainDue (p : Part) : Bool := decide (p.ret.mode = .quiescing) && !p.ctl.drainOrdered && p.drained

def Part.drainCheck (p : Part) : Part :=
  if p.drainDue then (p.modCtl fun c => { c with drainOrdered := true }).giveEntry else p

/-! ## The end of an event (log 3, log 4) -/

/-- Directory writes that are due start, journals in order and then the header (log 41). -/
def Part.startWrites (p : Part) : Part := allItems.foldl Part.startWrite p

/-- What has come due at the end of an event: directory writes, FORMAT, the ends of cold start, restore and drain. -/
def Part.react (p : Part) : Part := p.startWrites.formatCheck.coldCheck.restoreCheck.drainCheck

/-- An event of the main domain: nothing happens where it cannot occur (log 2). -/
def Part.event (p : Part) (f : Part → Option Part) : Part :=
  if p.ret.running then
    match f p with
    | some q => if q.ret.running then q.react else q
    | none => p
  else p

/-- An access completes (R142): the event of the client `accept` names. An access outside DRAM stops the machine. -/
def State.complete (s : State) (act : Client → Option (Nat → List Byte → Part → Part)) : Result :=
  match s.part.mem.op with
  | some (.access a) =>
    match act a.client with
    | none => .next s
    | some f =>
      if s.part.ret.running = false then .next s
      else if Config.dramBytes < a.addr + Config.burstBytes then .fault .addressOutsideDram
      else
        .next (s.onPart fun p =>
          p.event fun p => some (f a.addr (Memory.readBytes p.dram a.addr Config.burstBytes) (p.carryOut a)))
  | _ => .next s

end Sys2Proof.Machine
end

