-- ==== Sys2Proof/Machine/Requests.lean ====
section
/-! DEFINITION. The intake of requests (06, 6.4) and the commands ATTACH, DETACH, STATUS, SUBSCRIBE, UNSUBSCRIBE, CLAIM,
RELEASE, TAKEOVER and UNKNOWN_REQUEST. -/

namespace Sys2Proof.Machine

/-! ## Intake (R110, R111) -/

/-- The append engine holds unissued writes of an earlier DATA frame of the port (R33). -/
def Part.holdsPayload (p : Part) (i : Port) : Bool :=
  p.mem.held.any fun a =>
    match a.client with
    | .slot n .payload => (p.slot n).any fun s => decide (s.session.port = i)
    | _ => false

/-- The request at the head of the port's buffer, when the intake may take it (R110) and it is the command's. -/
def Part.headReq (p : Part) (i : Port) (isIt : List Byte → Bool) : Option Req :=
  match (p.req i).buffer with
  | [] => none
  | f :: _ =>
    if !f.isData && isIt f.payload && !p.holdsPayload i && p.respRoom i then some (Req.ofPayload f.payload) else none

/-- The head frame leaves the buffer; its credit returns (R108). -/
def Part.popFrame (p : Part) (i : Port) : Part :=
  (p.modReq i fun r => { r with buffer := r.buffer.tail }).returnCredits i 1

def Part.countReq (p : Part) (i : Port) (f : RequestCounters → RequestCounters) : Part :=
  p.modReq i fun r => { r with cnt := f r.cnt }

/-- The intake takes a REQ and serves it at the same event (R110). -/
def Part.intake (p : Part) (i : Port) (isIt : List Byte → Bool) (serve : Req → Part → Part) : Part :=
  p.event fun p =>
    (p.headReq i isIt).map fun r =>
      serve r ((p.popFrame i).countReq i fun c => { c with reqTaken := satInc c.reqTaken })

/-- An RSP that answers a request. -/
def Req.rsp (r : Req) (status : Status) (values : Values) : Rsp :=
  { code := r.code, tag := r.tag, status := status, values := values }

/-- The checks of the request layer, in order (R111). -/
def Part.requestCheck (p : Part) (i : Port) (r : Req) : Option (Status × Values) :=
  if p.ret.mode ≠ .serving then some (.notServing, .mode p.ret.mode)
  else if (p.req i).session.active = false then some (.noSession, .none)
  else if r.tag ∈ (p.req i).tags then some (.tagBusy, .none)
  else if Config.maxTags ≤ (p.req i).tags.length then some (.busy, .none)
  else none

/-- The request layer's checks, then the owning block's part (R111). -/
def Part.checked (p : Part) (i : Port) (r : Req) (serve : Part) : Part :=
  match p.requestCheck i r with
  | some c => p.answer i (r.rsp c.1 c.2)
  | none => serve

/-- A journal's epoch as an ownership refusal carries it (R51). -/
def Part.refuseEpoch (p : Part) (i : Port) (r : Req) (st : Status) (j : JournalId) : Part :=
  p.answer i (r.rsp st (.epoch (p.journal j).epoch))

/-! ## ATTACH (R103) -/

/-- An ACTIVE session on some port holds the tag. -/
def Part.tagInUse (p : Part) (t : W32) : Bool :=
  allPorts.any fun k => (p.req k).session.active && decide ((p.req k).session.tag = some t)

/-- The checks of R103. -/
def Part.attachCheck (p : Part) (i : Port) (r : Req) : Option (Status × Values) :=
  if p.ret.mode ≠ .serving then some (.notServing, .mode p.ret.mode)
  else if r.params.length ≠ 5 ∨ r.attachTag = 0 ∨ r.revision ≠ 1 then some (.badRequest, .none)
  else if (p.req i).session.active = true then some (.busy, .none)
  else if p.tagInUse r.attachTag = true then some (.tagInUse, .none)
  else none

/-- The generation after one (R103). -/
def nextGen (g : W32) : W32 := if g = 0xFFFFFFFF#32 then 1 else g + 1

/-- The request layer of a new session: an empty tag table and, but for the answer, an empty response queue (log 16). -/
def RequestLayer.opened (r : RequestLayer) (tag : W32) : RequestLayer :=
  { r with
    session := { active := true, tag := some tag, gen := nextGen r.session.gen, openAppends := 0 }
    tags := []
    respQ := []
    cnt := { r.cnt with attaches := satInc r.cnt.attaches } }

/-- A retained MODE entry is removed by an ATTACH, and its mark cleared (R97, R103). -/
def Part.attachNtf (p : Part) (i : Port) : Part :=
  (p.clearNtf i fun _ => false).modNtf i fun n => { n with modeRetained := false }

def Part.attach (p : Part) (i : Port) (r : Req) : Part :=
  match p.attachCheck i r with
  | some c => p.answer i (r.rsp c.1 c.2)
  | none =>
    ((p.modReq i fun l => l.opened r.attachTag).attachNtf i).answer i
      (r.rsp .ok (.attach i (nextGen (p.req i).session.gen) p.ret.mode))

/-- ATTACH (R103). -/
def execAttach (i : Port) (s : State) : Result :=
  .next (s.onPart fun p => p.intake i isAttach fun r p => p.attach i r)

/-! ## DETACH (R105) -/

/-- The session ends, and the answer is queued in the emptied response queue. -/
def Part.detach (p : Part) (i : Port) (r : Req) : Part :=
  (p.endSession i .detach).answer i (r.rsp .ok (.detach (p.req i).session.gen))

/-- DETACH (R105). -/
def execDetach (i : Port) (s : State) : Result :=
  .next (s.onPart fun p => p.intake i (isRequest codeDetach) fun r p => p.checked i r (p.detach i r))

/-! ## STATUS (R114) -/

/-- The values STATUS reports of a configured journal. -/
def Part.statusOf (p : Part) (i : Port) (j : JournalId) (c : Conf) : Values :=
  .statusConfigured c.state (decide (i ∈ c.subs)) c.ownerTag (p.journal j).epoch c.head c.durable c.durableSeq c.size
    c.freeSpace

def Part.status (p : Part) (i : Port) (r : Req) : Part :=
  if r.journal = 0xFF#8 then
    p.answer i
      (r.rsp .ok (.statusDevice p.ret.mode (allJournals.map fun j => (p.journal j).state) i (p.req i).session.gen))
  else
    match journalOf r.journal with
    | none => p.answer i (r.rsp .badJournal .none)
    | some j =>
      match (p.journal j).conf with
      | none => p.answer i (r.rsp .ok (.statusUnconfigured (p.journal j).epoch))
      | some c => p.answer i (r.rsp .ok (p.statusOf i j c))

/-- STATUS (R114). -/
def execStatus (i : Port) (s : State) : Result :=
  .next (s.onPart fun p => p.intake i (isRequest codeStatus) fun r p => p.checked i r (p.status i r))

/-! ## SUBSCRIBE and UNSUBSCRIBE (R91, R92) -/

/-- A port added to a subscriber set; the set lists its ports in order. -/
def addPort (i : Port) (subs : List Port) : List Port := allPorts.filter fun q => decide (q = i) || decide (q ∈ subs)

def Part.subscribe (p : Part) (i : Port) (r : Req) : Part :=
  match p.configured r.journal with
  | none => p.answer i (r.rsp .badJournal .none)
  | some (j, c) =>
    if p.formatPending then p.answer i (r.rsp .busy .none)
    else
      (p.modConf j fun c => { c with subs := addPort i c.subs }).answer i
        (r.rsp .ok (.subscribe c.state c.ownerTag (p.journal j).epoch (c.durableSeq - 1) c.durable))

/-- SUBSCRIBE (R91). -/
def execSubscribe (i : Port) (s : State) : Result :=
  .next (s.onPart fun p => p.intake i (isRequest codeSubscribe) fun r p => p.checked i r (p.subscribe i r))

def Part.unsubscribe (p : Part) (i : Port) (r : Req) : Part :=
  match p.configured r.journal with
  | none => p.answer i (r.rsp .badJournal .none)
  | some (j, _) =>
    (p.modConf j fun c => { c with subs := c.subs.filter fun q => decide (q ≠ i) }).answer i (r.rsp .ok .none)

/-- UNSUBSCRIBE (R92). -/
def execUnsubscribe (i : Port) (s : State) : Result :=
  .next (s.onPart fun p => p.intake i (isRequest codeUnsubscribe) fun r p => p.checked i r (p.unsubscribe i r))

/-! ## CLAIM (R53, R54) -/

/-- Why a CLAIM is refused by the journal's state, in order (R53, R54). -/
def claimCheck (c : Conf) (epoch : W32) (tag : W32) : Option Status :=
  match c.own with
  | .owned _ _ => some .busy
  | .transferring _ _ _ => some .busy
  | .held t g =>
    if t ≠ tag ∧ g ≠ .expired then some .heldGrace
    else if epoch = Config.lastEpoch then some .streamExhausted else none
  | .unassigned => if epoch = Config.lastEpoch then some .streamExhausted else none

/-- A granted CLAIM (R53): the OWNER notification goes at once, the answer is bound to the next write (R52). -/
def Part.grantClaim (p : Part) (i : Port) (r : Req) (j : JournalId) : Part :=
  let sid := p.sessionOf i
  let ep := (p.journal j).epoch + 1
  let q := p.modJournal j fun e =>
    e.change (.owned sid ((p.req i).session.tag.getD 0)) ep [.answer sid (ownershipAnswer codeClaim r.tag ep)]
  ((q.markDirty (.journal j)).enterTag i r.tag).notifyOwner j none

def Part.claim (p : Part) (i : Port) (r : Req) : Part :=
  match p.configured r.journal with
  | none => p.answer i (r.rsp .badJournal .none)
  | some (j, c) =>
    if p.formatPending then p.refuseEpoch i r .busy j
    else
      match claimCheck c (p.journal j).epoch ((p.req i).session.tag.getD 0) with
      | some st => p.refuseEpoch i r st j
      | none => p.grantClaim i r j

/-- CLAIM (R53). -/
def execClaim (i : Port) (s : State) : Result :=
  .next (s.onPart fun p => p.intake i (isRequest codeClaim) fun r p => p.checked i r (p.claim i r))

/-! ## RELEASE (R55) -/

/-- The checks of R55; `busy` says that the session has a slot on the journal that is not FREE. -/
def releaseCheck (c : Conf) (epoch : W32) (r : Req) (sid : SessionId) (busy : Bool) : Option Status :=
  if c.fencedFor sid = true then some .fenced
  else if c.ownedBy sid = false then some .notOwner
  else if r.epoch ≠ epoch then some .staleEpoch
  else if busy = true then some .appendsOpen
  else none

def Part.hasSlotOn (p : Part) (sid : SessionId) (j : JournalId) : Bool :=
  allSlots.any fun n => (p.slot n).any fun x => decide (x.session = sid) && decide (x.journal = j)

/-- An accepted RELEASE. -/
def Part.grantRelease (p : Part) (i : Port) (r : Req) (j : JournalId) : Part :=
  let ep := (p.journal j).epoch
  let q := p.modJournal j fun e =>
    e.change .unassigned ep [.answer (p.sessionOf i) (ownershipAnswer codeRelease r.tag ep)]
  ((q.markDirty (.journal j)).enterTag i r.tag).notifyOwner j none

def Part.release (p : Part) (i : Port) (r : Req) : Part :=
  match p.configured r.journal with
  | none => p.answer i (r.rsp .badJournal .none)
  | some (j, c) =>
    match releaseCheck c (p.journal j).epoch r (p.sessionOf i) (p.hasSlotOn (p.sessionOf i) j) with
    | some st => p.refuseEpoch i r st j
    | none => p.grantRelease i r j

/-- RELEASE (R55). -/
def execRelease (i : Port) (s : State) : Result :=
  .next (s.onPart fun p => p.intake i (isRequest codeRelease) fun r p => p.checked i r (p.release i r))

/-! ## TAKEOVER (R56, R57) -/

/-- The checks of R56. -/
def takeoverCheck (c : Conf) (epoch : W32) (r : Req) (sid : SessionId) : Option Status :=
  match c.own with
  | .unassigned => some .notOwned
  | .held _ _ => some .notOwned
  | .transferring _ _ _ => some .busy
  | .owned o _ =>
    if o = sid then some .badRequest
    else if r.epoch ≠ epoch then some .staleEpoch
    else if epoch = Config.lastEpoch then some .streamExhausted
    else none

/-- The acceptance of a TAKEOVER or of a FORCE_RELEASE in OWNED (R57, R61): TRANSFERRING, the owner fenced and told, and
the completion check. -/
def Part.beginTransfer (p : Part) (j : JournalId) (claimant : Option Claimant) : Part :=
  match (p.journal j).conf with
  | none => p
  | some c =>
    match c.own with
    | .owned o t =>
      let q := (p.modConf j fun c => { c with own := .transferring (some o) t claimant }).markDirty (.journal j)
      let q := q.fence j o
      ((if q.live o then q.notify (q.ownerEntry j) o.port else q)).transferCheck j
    | _ => p

def Part.takeover (p : Part) (i : Port) (r : Req) : Part :=
  match p.configured r.journal with
  | none => p.answer i (r.rsp .badJournal .none)
  | some (j, c) =>
    if p.formatPending then p.refuseEpoch i r .busy j
    else
      match takeoverCheck c (p.journal j).epoch r (p.sessionOf i) with
      | some st => p.refuseEpoch i r st j
      | none => (p.enterTag i r.tag).beginTransfer j (some ⟨p.sessionOf i, r.tag⟩)

/-- TAKEOVER (R56). -/
def execTakeover (i : Port) (s : State) : Result :=
  .next (s.onPart fun p => p.intake i (isRequest codeTakeover) fun r p => p.checked i r (p.takeover i r))

/-! ## UNKNOWN_REQUEST (R111, R185) -/

/-- BAD_REQUEST: after the request layer's checks when the frame has a code and a tag, else at once with both 00h. -/
def Part.unknown (p : Part) (i : Port) (r : Req) (short : Bool) : Part :=
  if short then p.answer i (r.rsp .badRequest .none) else p.checked i r (p.answer i (r.rsp .badRequest .none))

/-- The head frame names no code (R185). -/
def Part.headShort (p : Part) (i : Port) : Bool :=
  match (p.req i).buffer with
  | [] => false
  | f :: _ => decide (f.payload.length < 2)

/-- UNKNOWN_REQUEST (R111). -/
def execUnknownRequest (i : Port) (s : State) : Result :=
  .next (s.onPart fun p => p.intake i isUnknown fun r q => q.unknown i r (p.headShort i))

end Sys2Proof.Machine
end

