-- ==== Sys2Proof/Machine/Appends.lean ====
section
/-! DEFINITION. APPEND and DATA, and the events of append slots: IDLE_TIMER_EXPIRY, APPEND_WRITE_COMPLETE,
FRONTIER_ADVANCE, APPEND_DONE_RELEASE and APPEND_DONE_QUEUED (02). -/

namespace Sys2Proof.Machine

/-! ## APPEND (R27, R28) -/

/-- Open appends of a session (R26). -/
def Part.openAppends (p : Part) (sid : SessionId) : Nat := (p.slotsWith fun x => decide (x.session = sid)).length

/-- The FREE slot an accepted APPEND takes (R28): the lowest-numbered one (log 42). -/
def Part.freeSlotId (p : Part) : Option SlotId := allSlots.find? fun n => (p.slot n).isNone

/-- A reservation is refused (R14). -/
def reserveCheck (c : Conf) (length : Nat) : Option Status :=
  let need := c.need (occupancyOf length)
  if c.freeSpace < need then some .journalFull
  else if c.nextSeq = Config.lastSequence ∨ 18446744073709551616 ≤ c.reserve.toNat + need then some .streamExhausted
  else none

/-- Checks 5 to 12 of Table 2-3. -/
def Part.appendCheck (p : Part) (i : Port) (r : Req) (j : JournalId) (c : Conf) : Option Status :=
  let sid := p.sessionOf i
  if r.payloadLength = 0 ∨ Config.maxPayload < r.payloadLength then some .tooLong
  else if c.fencedFor sid = true then some .fenced
  else if c.ownedBy sid = false then some .notOwner
  else if r.epoch ≠ (p.journal j).epoch then some .staleEpoch
  else if Config.maxOpenAppends ≤ p.openAppends sid then some .noSlot
  else if p.freeSlotId.isNone = true then some .noSlot
  else reserveCheck c r.payloadLength

/-- The counter of a refusal (R47). -/
def AppendCounters.refuse (c : AppendCounters) : Status → AppendCounters
  | .noSlot => { c with noSlot := satInc c.noSlot }
  | .journalFull => { c with journalFull := satInc c.journalFull }
  | .streamExhausted => { c with exhausted := satInc c.exhausted }
  | _ => c

/-- The slot of an accepted APPEND (R24, R28). -/
def newSlot (r : Req) (j : JournalId) (c : Conf) (epoch : W32) (sid : SessionId) (idle : Byte) : Slot where
  state := .receiving
  session := sid
  reqTag := r.tag
  journal := j
  epoch := epoch
  seq := c.nextSeq
  position := c.reserve + BitVec.ofNat 64 ((c.padFor (occupancyOf r.payloadLength)).getD 0)
  length := r.payloadLength
  occupancy := occupancyOf r.payloadLength
  received := 0
  carry := []
  check := crc32Seed
  declared := r.payloadCheck
  recordTag := r.recordTag
  outstanding := if (c.padFor (occupancyOf r.payloadLength)).isSome then 1 else 0
  idle := some idle
  outcome := none
  reason := none

/-- Steps 2 to 5 of a granted reservation (R15). -/
def Conf.reserved (c : Conf) (occupancy : Nat) : Conf :=
  { c with
    reserve := c.reserve + BitVec.ofNat 64 (c.need occupancy), nextSeq := c.nextSeq + 1, openSlots := c.openSlots + 1 }

/-- The watermark check after a reservation (R16). -/
def Part.fillCheck (p : Part) (j : JournalId) (owner : Port) : Part :=
  match (p.journal j).conf with
  | none => p
  | some c =>
    if c.watermarkReached (p.journal j).watermark then
      (p.modConf j fun c => { c with armed := false }).notify (.fill j c.fill c.size) owner
    else p

/-- The pad's header write, when a pad is placed (R15, step 1). -/
def Part.handPad (p : Part) (n : SlotId) (i : Port) (j : JournalId) (c : Conf) (occupancy : Nat) : Part :=
  match c.padFor occupancy with
  | none => p
  | some pad =>
    p.handRun (.slot n .pad) j c.reserve.toNat (padHeader i (p.journal j).epoch c.reserve pad)

/-- An accepted APPEND (R28). -/
def Part.acceptAppend (p : Part) (i : Port) (r : Req) (j : JournalId) (c : Conf) (n : SlotId) : Part :=
  let occ := occupancyOf r.payloadLength
  let s := newSlot r j c (p.journal j).epoch (p.sessionOf i) p.maint.params.idle
  let p1 := (p.setSlot n (some s)).handPad n i j c occ
  let p2 := (p1.modConf j fun c => c.reserved occ).fillCheck j i
  ((p2.enterTag i r.tag).modReq i fun l =>
    { l with session := { l.session with openAppends := l.session.openAppends + 1 } }).countAppend
      fun k => { k with accepted := satInc k.accepted }

def Part.append (p : Part) (i : Port) (r : Req) : Part :=
  match p.configured r.journal with
  | none => p.answer i (r.rsp .badJournal .none)
  | some (j, c) =>
    match p.appendCheck i r j c with
    | some st => (p.answer i (r.rsp st .none)).countAppend fun k => k.refuse st
    | none =>
      match p.freeSlotId with
      | none => p
      | some n => p.acceptAppend i r j c n

/-- APPEND (R28). -/
def execAppend (i : Port) (s : State) : Result :=
  .next (s.onPart fun p => p.intake i (isRequest codeAppend) fun r p => p.checked i r (p.append i r))

/-! ## DATA (R30 to R34) -/

/-- The slot in RECEIVING that a DATA frame's tag names (R30). -/
def Part.dataSlot (p : Part) (i : Port) (tag : Byte) : Option SlotId :=
  if (p.req i).session.active then
    allSlots.find? fun n =>
      (p.slot n).any fun s =>
        decide (s.state = .receiving) && decide (s.session = p.sessionOf i) && decide (s.reqTag = tag)
  else none

/-- A dropped DATA frame is counted (R30, R113). -/
def Part.lateData (p : Part) (i : Port) : Part :=
  p.modLink i fun u => { u with cnt := { u.cnt with lateData := satInc u.cnt.lateData } }

/-- The offset and length checks (R31). -/
def dataCheck (s : Slot) (offset : Nat) (bytes : List Byte) : Option VoidReason :=
  if offset ≠ s.received then some .offsetError
  else if bytes = [] ∨ Config.maxFrameData < bytes.length ∨ s.length < s.received + bytes.length then some .lengthError
  else none

/-- The run a taken frame writes, and the carry it leaves (R32, R34). -/
def Slot.run (s : Slot) (bytes : List Byte) : List Byte × List Byte :=
  let all := s.carry ++ bytes
  let e := s.received + bytes.length
  if e = s.length then (all ++ zeros (round32 s.length - s.length), [])
  else (all.take (all.length - e % 8), all.drop (all.length - e % 8))

/-- Where the run starts in the stream (R33). -/
def Slot.runStart (s : Slot) : Nat := s.position.toNat + 32 + (s.received - s.carry.length)

/-- How many bursts a run covers. -/
def runLength (addr : Nat) (bytes : List Byte) : Nat := (runWrites (.slot 0 .payload) bytes.length addr bytes).length

/-- The slot after a frame has been taken, its writes counted (R32, R33). -/
def Slot.taken (s : Slot) (bytes : List Byte) (writes : Nat) (idle : Byte) : Slot :=
  { s with
    check := crc32Run s.check bytes, received := s.received + bytes.length, carry := (s.run bytes).2, idle := some idle
    outstanding := s.outstanding + writes }

/-- The end of a payload (R34): the RECORD header and LANDING, or the void CHECK_MISMATCH. -/
def Part.endPayload (p : Part) (n : SlotId) : Part :=
  match p.slot n with
  | none => p
  | some s =>
    if ~~~ s.check = s.declared then
      (p.setSlot n (some { s with state := .landing, idle := none, outstanding := s.outstanding + 1 })).handRun
        (.slot n .header) s.journal s.position.toNat s.header
    else p.voidSlot n .checkMismatch

/-- A frame taken for a slot (R32 to R34). -/
def Part.takeData (p : Part) (n : SlotId) (s : Slot) (bytes : List Byte) : Part :=
  let run := (s.run bytes).1
  let writes := match (p.journal s.journal).conf with
    | some c => runLength (c.address s.runStart) run
    | none => 0
  let q := (p.setSlot n (some (s.taken bytes writes p.maint.params.idle))).handRun (.slot n .payload) s.journal
    s.runStart run
  if s.received + bytes.length = s.length then q.endPayload n else q

/-- A DATA frame handed to the append engine (R30, R31). -/
def Part.data (p : Part) (i : Port) (payload : List Byte) : Part :=
  if p.ret.mode ≠ .serving then p.lateData i
  else
    match dataFields payload with
    | none => p.lateData i
    | some (tag, offset, bytes) =>
      match p.dataSlot i tag with
      | none => p.lateData i
      | some n =>
        match p.slot n with
        | none => p
        | some s =>
          match dataCheck s offset bytes with
          | some reason => p.voidSlot n reason
          | none => p.takeData n s bytes

/-- The DATA frame at the head of the buffer, when the intake may take it (R110). -/
def Part.headData (p : Part) (i : Port) : Option (List Byte) :=
  match (p.req i).buffer with
  | [] => none
  | f :: _ => if f.isData && !p.holdsPayload i then some f.payload else none

/-- DATA (R30). -/
def execData (i : Port) (s : State) : Result :=
  .next (s.onPart fun p => p.event fun p =>
    (p.headData i).map fun payload =>
      ((p.popFrame i).countReq i fun c => { c with dataTaken := satInc c.dataTaken }).data i payload)

/-! ## Slot events -/

/-- IDLE_TIMER_EXPIRY (R37). -/
def execIdleTimerExpiry (n : SlotId) (s : State) : Result :=
  .next (s.onPart fun p => p.event fun p =>
    match p.slot n with
    | none => none
    | some x => if x.state = .receiving ∧ x.idle.isSome = true then some (p.voidSlot n .abandoned) else none)

/-- A write of the slot has completed (R35): at 0 outstanding a slot in LANDING or VOIDING resolves, and the frontier
follows (R42). -/
def Part.slotWritten (p : Part) (n : SlotId) : Part :=
  match p.slot n with
  | none => p
  | some s =>
    let left := s.outstanding - 1
    match s.state with
    | .landing =>
      if left = 0 then
        ((p.setSlot n (some { s with outstanding := left, state := .landed, outcome := some .landed })).countAppend
          fun k => { k with landed := satInc k.landed }).frontierAdvance s.journal
      else p.setSlot n (some { s with outstanding := left })
    | .voiding =>
      if left = 0 then
        (p.setSlot n (some { s with outstanding := left, state := .voided, outcome := some .voided })).frontierAdvance
          s.journal
      else p.setSlot n (some { s with outstanding := left })
    | _ => p.setSlot n (some { s with outstanding := left })

/-- APPEND_WRITE_COMPLETE (R35). -/
def execAppendWriteComplete (s : State) : Result :=
  s.complete fun
    | .slot n _ => some fun _ _ p => p.slotWritten n
    | _ => none

/-- FRONTIER_ADVANCE (R42), when it is due. -/
def execFrontierAdvance (j : JournalId) (s : State) : Result :=
  .next (s.onPart fun p => p.event fun p => (p.frontierSlot j).map fun _ => p.frontierAdvance j)

/-- The slot is COMMITTED and durable, and does not wait for a frame (R44). -/
def Part.doneDue (p : Part) (n : SlotId) : Bool :=
  match p.slot n with
  | none => false
  | some s => ((p.journal s.journal).conf.map fun c => p.releasable s.journal c.durable n).getD false

/-- APPEND_DONE_RELEASE (R44), when it is due. -/
def execAppendDoneRelease (n : SlotId) (s : State) : Result :=
  .next (s.onPart fun p => p.event fun p => if p.doneDue n then some (p.releaseSlot n) else none)

/-- The waiting APPEND_DONE at the front of the port's waiting responses takes a free frame (R45). -/
def Part.serveDone (p : Part) (i : Port) : Option Part :=
  match p.waits i with
  | .appendDone n :: rest =>
    if p.respRoom i then
      match p.slot n with
      | some s => some ((p.setWaits i rest).queueDone i n s)
      | none => none
    else none
  | _ => none

/-- APPEND_DONE_QUEUED (R45). -/
def execAppendDoneQueued (i : Port) (s : State) : Result :=
  .next (s.onPart fun p => p.event fun p => p.serveDone i)

end Sys2Proof.Machine
end

