-- ==== Sys2Proof/Machine/Directory.lean ====
section
/-! DEFINITION. The events of the journal table and its directory: HOLD_GRACE_EXPIRY, DIRECTORY_WRITE_START,
DIRECTORY_WRITE_COMPLETE, DEVICE_HEADER_WRITE_COMPLETE, TRANSFER_COMPLETE, WAITING_RESPONSE_QUEUED, FORMAT_EXECUTE,
FORMAT_WRITES_COMPLETE. -/

namespace Sys2Proof.Machine

/-- The journal is HELD with its timer running. -/
def Conf.graceRuns (c : Conf) : Bool :=
  match c.own with
  | .held _ (.running _) => true
  | _ => false

/-- The timer of a HELD journal expired (R65). -/
def Conf.expireGrace (c : Conf) : Conf :=
  match c.own with
  | .held t _ => { c with own := .held t .expired }
  | _ => c

/-- HOLD_GRACE_EXPIRY (R65). -/
def execHoldGraceExpiry (j : JournalId) (s : State) : Result :=
  .next (s.onPart fun p => p.event fun p =>
    if (p.journal j).conf.any Conf.graceRuns then some (p.modConf j Conf.expireGrace) else none)

/-- DIRECTORY_WRITE_START (R18), when it is due. -/
def execDirectoryWriteStart (i : Item) (s : State) : Result :=
  .next (s.onPart fun p => p.event fun p =>
    if (p.dirOf i).dirty && !(p.dirOf i).inFlight then some (p.startWrite i) else none)

/-- DIRECTORY_WRITE_COMPLETE (R19): of a journal's entry. -/
def execDirectoryWriteComplete (s : State) : Result :=
  s.complete fun
    | .dirWriter (.journal j) => some fun _ _ p => p.journalWritten j
    | _ => none

/-- The header's write is complete (R21): the first and last steps of R19. -/
def Part.headerWritten (p : Part) : Part :=
  (p.modDir .header fun d => d.written.landed).startWrite .header

/-- DEVICE_HEADER_WRITE_COMPLETE (R21). -/
def execDeviceHeaderWriteComplete (s : State) : Result :=
  s.complete fun
    | .dirWriter .header => some fun _ _ p => p.headerWritten
    | _ => none

/-- The completion of the journal's transfer is due (R59). -/
def Part.transferDue (p : Part) (j : JournalId) : Bool :=
  (p.journal j).conf.any fun c =>
    decide (c.openSlots = 0) &&
      (match c.own with
        | .transferring _ _ _ => true
        | _ => false)

/-- TRANSFER_COMPLETE (R60), when it is due. -/
def execTransferComplete (j : JournalId) (s : State) : Result :=
  .next (s.onPart fun p => p.event fun p => if p.transferDue j then some (p.transferCheck j) else none)

/-- The waiting answer at the front of the port's waiting responses takes a free frame (R52). -/
def Part.serveWaiting (p : Part) (i : Port) : Option Part :=
  match p.waits i with
  | .answer r :: rest => if p.respRoom i then some ((p.setWaits i rest).queueDeferred i r) else none
  | _ => none

/-- WAITING_RESPONSE_QUEUED (R52). -/
def execWaitingResponseQueued (i : Port) (s : State) : Result :=
  .next (s.onPart fun p => p.event fun p => p.serveWaiting i)

/-- FORMAT_EXECUTE (R23), when it is due. -/
def execFormatExecute (s : State) : Result :=
  .next (s.onPart fun p => p.event fun p => if p.formatDue then some p.formatNow else none)

/-- FORMAT_WRITES_COMPLETE (R23): one of FORMAT's writes has completed, and with the last the result is OK. -/
def execFormatWritesComplete (s : State) : Result :=
  s.complete fun
    | .formatWrite i c => some fun _ _ p => p.formatWritten i c
    | _ => none

end Sys2Proof.Machine
end

