-- ==== Sys2Proof/Machine/Reading.lean ====
section
/-! DEFINITION. READ and TRIM and their events: TRIM_CHECK_COMPLETE, TRIM_HEAD_ADVANCE, TRIM_COMPLETE,
READ_BURST_COMPLETE, READ_FRAME_QUEUED, READ_RESPONSE_QUEUED (04). -/

namespace Sys2Proof.Machine

/-! ## READ (R73 to R75) -/

/-- The FREE context of the port that an accepted READ takes (R75): the lower-numbered one (log 42). -/
def Part.freeRead (p : Part) (i : Port) : Option ReadId :=
  allReads.find? fun r => decide (portOfRead r = i) && (p.readCtx r).isNone

/-- The first position a HELD or ADVANCED trim leaves readable (Table 4-2, check 9). -/
def Conf.trimBar (c : Conf) : Option W64 :=
  match c.trim with
  | some t => if t.phase = .checking then none else some t.target
  | none => none

/-- What checks 5 to 10 of Table 4-2 answer at once. -/
def Part.readCheck (p : Part) (i : Port) (r : Req) (c : Conf) : Option Rsp :=
  if r.readLength = 0 ∨ Config.maxRead < r.readLength then some (r.rsp .badRequest .none)
  else if p.formatPending = true then some (r.rsp .busy .none)
  else if (p.freeRead i).isNone = true then some (r.rsp .busy .none)
  else if r.readPosition.toNat < c.head.toNat then some (r.rsp .trimmed (.read 0 c.head))
  else
    match c.trimBar with
    | some t =>
      if r.readPosition.toNat < t.toNat then some (r.rsp .trimmed (.read 0 t))
      else if c.durable.toNat ≤ r.readPosition.toNat then
        some { r.rsp .ok (.read 0 c.durable) with atFrontier := true }
      else none
    | none =>
      if c.durable.toNat ≤ r.readPosition.toNat then
        some { r.rsp .ok (.read 0 c.durable) with atFrontier := true }
      else none

/-- The counter of a READ answered at once (R89). -/
def ReadCounters.answered (c : ReadCounters) : Status → ReadCounters
  | .ok => { c with atFrontier := satInc c.atFrontier }
  | .trimmed => { c with trimmed := satInc c.trimmed }
  | _ => c

/-- The context of an accepted READ (R75). -/
def newRead (r : Req) (j : JournalId) (c : Conf) (gen : W32) : ReadCtx :=
  let len := min r.readLength (c.durable.toNat - r.readPosition.toNat)
  { state := .fetching, gen := gen, reqTag := r.tag, journal := j, start := r.readPosition, length := len
    frontierEnd := decide (r.readPosition.toNat + len = c.durable.toNat), nextPos := r.readPosition, staged := none
    outstanding := 0 }

/-- An accepted READ (R75). -/
def Part.acceptRead (p : Part) (i : Port) (r : Req) (j : JournalId) (c : Conf) (x : ReadId) : Part :=
  let p1 := p.modConf j fun c => { c with pins := c.pins ++ [r.readPosition] }
  let p2 := p1.setRead x (some (newRead r j c (p.req i).session.gen))
  (((p2.enterTag i r.tag).countRead fun n => { n with accepted := satInc n.accepted })).stage x

def Part.readRequest (p : Part) (i : Port) (r : Req) : Part :=
  match p.configured r.journal with
  | none => p.answer i (r.rsp .badJournal .none)
  | some (j, c) =>
    match p.readCheck i r c with
    | some a => (p.answer i a).countRead fun n => n.answered a.status
    | none =>
      match p.freeRead i with
      | none => p
      | some x => p.acceptRead i r j c x

/-- READ (R75). -/
def execRead (i : Port) (s : State) : Result :=
  .next (s.onPart fun p => p.intake i (isRequest codeRead) fun r p => p.checked i r (p.readRequest i r))

/-! ## Fetching (R76 to R78) -/

/-- READ_BURST_COMPLETE (R76). -/
def execReadBurstComplete (s : State) : Result :=
  s.complete fun
    | .readCtx r => some fun addr bytes p => p.burstArrived r addr bytes
    | _ => none

/-- The end position of a read. -/
def ReadCtx.endPos (c : ReadCtx) : Nat := c.start.toNat + c.length

/-- A HOLDING context queues its staged frame, and stages the next or closes (R77). -/
def Part.queueFrame (p : Part) (r : ReadId) : Option Part :=
  match p.readCtx r with
  | none => none
  | some c =>
    match c.state, c.staged with
    | .holding, some st =>
      if p.respRoom (portOfRead r) then
        let next := c.nextPos + BitVec.ofNat 64 st.bytes.length
        let p1 := (p.queueResp (portOfRead r) (.rdata c.reqTag st.position st.bytes)).countRead
          fun n => { n with bytes := satAdd n.bytes st.bytes.length }
        if next.toNat < c.endPos then
          some ((p1.setRead r (some { c with nextPos := next, staged := none, state := .fetching })).stage r)
        else some (p1.setRead r (some { c with nextPos := next, staged := none, state := .closing }))
      else none
    | _, _ => none

/-- READ_FRAME_QUEUED (R77). -/
def execReadFrameQueued (r : ReadId) (s : State) : Result :=
  .next (s.onPart fun p => p.event fun p => p.queueFrame r)

/-- The response of a read (R78; the position of an AT_FRONTIER answer: log 24). -/
def ReadCtx.response (c : ReadCtx) : Rsp where
  code := codeRead
  tag := c.reqTag
  status := .ok
  atFrontier := c.frontierEnd
  values := .read c.length (if c.frontierEnd then c.start + BitVec.ofNat 64 c.length else c.start)

/-- A CLOSING context queues its response and becomes FREE (R78). -/
def Part.queueReadResponse (p : Part) (r : ReadId) : Option Part :=
  match p.readCtx r with
  | none => none
  | some c =>
    if c.state = .closing ∧ p.respRoom (portOfRead r) = true then
      some (((p.queueDeferred (portOfRead r) c.response).setRead r none).removePin c.journal c.start)
    else none

/-- READ_RESPONSE_QUEUED (R78). -/
def execReadResponseQueued (r : ReadId) (s : State) : Result :=
  .next (s.onPart fun p => p.event fun p => p.queueReadResponse r)

/-! ## TRIM (R82 to R84) -/

/-- Checks 5 to 10 of Table 4-3. -/
def trimRequestCheck (c : Conf) (epoch : W32) (r : Req) (sid : SessionId) : Option Status :=
  if c.fencedFor sid = true then some .fenced
  else if c.ownedBy sid = false then some .notOwner
  else if r.epoch ≠ epoch then some .staleEpoch
  else if c.trim.isSome = true then some .busy
  else if r.trimPosition.toNat < c.head.toNat ∨ c.durable.toNat < r.trimPosition.toNat ∨ r.trimPosition.toNat % 32 ≠ 0
    then some .badPosition
  else if r.trimPosition = c.head then some .ok
  else none

/-- An accepted TRIM (R84): HELD at the durable frontier, else CHECKING with the header read handed. -/
def Part.acceptTrim (p : Part) (i : Port) (r : Req) (j : JournalId) (c : Conf) : Part :=
  let atFrontier := decide (r.trimPosition = c.durable)
  let t : PendingTrim :=
    { target := r.trimPosition, session := p.sessionOf i, reqTag := r.tag
      phase := if atFrontier then .held else .checking }
  let q := (p.modConf j fun c => { c with trim := some t }).enterTag i r.tag
  if atFrontier then q.headAdvance j else q.hand (readAccess (.trim j) (c.address r.trimPosition.toNat))

def Part.trimRequest (p : Part) (i : Port) (r : Req) : Part :=
  match p.configured r.journal with
  | none => p.answer i (r.rsp .badJournal .none)
  | some (j, c) =>
    match trimRequestCheck c (p.journal j).epoch r (p.sessionOf i) with
    | some st => p.answer i (r.rsp st (.trim (p.journal j).epoch c.head))
    | none => p.acceptTrim i r j c

/-- TRIM (R84). -/
def execTrim (i : Port) (s : State) : Result :=
  .next (s.onPart fun p => p.intake i (isRequest codeTrim) fun r p => p.checked i r (p.trimRequest i r))

/-- The 32 bytes at a target, out of the burst that holds them. -/
def Conf.headerAt (c : Conf) (target : W64) (burst : List Byte) : List Byte :=
  (burst.drop (c.address target.toNat % Config.burstBytes)).take 32

/-- The header read of a pending trim has completed (R84). -/
def Part.trimChecked (p : Part) (j : JournalId) (burst : List Byte) : Part :=
  match (p.journal j).conf with
  | none => p
  | some c =>
    match c.trim with
    | none => p
    | some t =>
      if t.phase ≠ .checking then p
      else if isBoundary (c.headerAt t.target burst) t.target then
        (p.modConf j fun c => { c with trim := some { t with phase := .held } }).headAdvance j
      else
        ((p.modConf j fun c => { c with trim := none }).countRead fun n =>
          { n with notABoundary := satInc n.notABoundary }).releaseAnswer t.session
            { code := codeTrim, tag := t.reqTag, status := .notABoundary, values := .trim (p.journal j).epoch c.head }

/-- TRIM_CHECK_COMPLETE (R84). -/
def execTrimCheckComplete (s : State) : Result :=
  s.complete fun
    | .trim j => some fun _ bytes p => p.trimChecked j bytes
    | _ => none

/-- Head may move to the target of the journal's trim (R85). -/
def Part.headDue (p : Part) (j : JournalId) : Bool :=
  (p.journal j).conf.any fun c =>
    c.trim.any fun t => decide (t.phase = .held) && c.pins.all fun x => decide (t.target.toNat ≤ x.toNat)

/-- TRIM_HEAD_ADVANCE (R85), when it is due. -/
def execTrimHeadAdvance (j : JournalId) (s : State) : Result :=
  .next (s.onPart fun p => p.event fun p => if p.headDue j then some (p.headAdvance j) else none)

/-- The journal's trim may end (R86). -/
def Part.trimDue (p : Part) (j : JournalId) : Bool :=
  (p.journal j).conf.any fun c =>
    c.trim.any fun t => decide (t.phase = .advanced) && decide (t.target.toNat ≤ c.persistedHead.toNat)

/-- TRIM_COMPLETE (R86), when it is due. -/
def execTrimComplete (j : JournalId) (s : State) : Result :=
  .next (s.onPart fun p => p.event fun p => if p.trimDue j then some (p.trimEnd j) else none)

end Sys2Proof.Machine
end

