-- ==== Sys2Proof/Machine/Link.lean ====
section
/-! DEFINITION. The port link (07): TRANSMIT_SELECT, SEND_IDLE, SEND_LINK_RESET, REPLAY_SEND, GOOD_SEQUENCED_FRAME,
IDLE_FRAME, LINK_RESET_FRAME, FRAME_CHECK_FAIL, REPLAY_TIMER_EXPIRY, SILENCE_TIMER_EXPIRY. -/

namespace Sys2Proof.Machine

/-! ## Sending -/

/-- What the transmit selector may take (R117): the head of the preferred source, else of the other. -/
def Part.selects (p : Part) (i : Port) : Option Source :=
  if (p.link i).ready then
    match (p.req i).respQ, (p.ntf i).queue with
    | [], [] => none
    | _ :: _, [] => some .responses
    | [], _ :: _ => some .notifications
    | _ :: _, _ :: _ => some (p.req i).prefers
  else none

/-- The head of the response queue sent; the preference becomes the other source. -/
def Part.sendResponse (p : Part) (i : Port) : Part :=
  match (p.req i).respQ with
  | [] => p
  | f :: rest =>
    (p.modReq i fun r => { r with respQ := rest, prefers := .notifications }).modLink i fun u =>
      u.accept f.ftype f.payload

/-- The head of the notification queue sent; the preference becomes the other source. -/
def Part.sendNotification (p : Part) (i : Port) : Part :=
  match (p.ntf i).queue with
  | [] => p
  | e :: _ =>
    ((p.takeNtf i).modReq i fun r => { r with prefers := .responses }).modLink i fun u => u.accept .ntf e.bytes

/-- TRANSMIT_SELECT (R117). -/
def execTransmitSelect (i : Port) (s : State) : Result :=
  .next (s.onPart fun p => p.event fun p =>
    (p.selects i).map fun
      | .responses => p.sendResponse i
      | .notifications => p.sendNotification i)

/-- An IDLE frame is what the link unit sends now (R123, R124, R133). -/
def Part.idles (p : Part) (i : Port) : Bool :=
  match (p.link i).state with
  | .down => !(p.link i).ownCause
  | .sync => true
  | .up => (p.link i).replay.isNone && (p.selects i).isNone

/-- The link unit after an IDLE frame (R122, R133). -/
def LinkUnit.sendIdle (u : LinkUnit) : LinkUnit :=
  if u.state = .up then u.sendUp typeIdle u.nextSeq [] else u.sendIdleForm typeIdle

/-- SEND_IDLE (R133). -/
def execSendIdle (i : Port) (s : State) : Result :=
  .next (s.onPart fun p => p.event fun p => if p.idles i then some (p.modLink i LinkUnit.sendIdle) else none)

/-- The link unit after a LINK_RESET frame (R123). -/
def LinkUnit.sendReset (u : LinkUnit) : LinkUnit :=
  { u.sendIdleForm typeLinkReset with resets := min Config.resetFrames (u.resets + 1) }

/-- SEND_LINK_RESET (R123). -/
def execSendLinkReset (i : Port) (s : State) : Result :=
  .next (s.onPart fun p => p.event fun p =>
    if (p.link i).state = .down ∧ (p.link i).ownCause = true then some (p.modLink i LinkUnit.sendReset) else none)

/-- REPLAY_SEND (R134). -/
def execReplaySend (i : Port) (s : State) : Result :=
  .next (s.onPart fun p => p.event fun p =>
    match (p.link i).state, (p.link i).replay with
    | .up, some k => some (p.modLink i fun u => u.resend k)
    | _, _ => none)

/-! ## Receiving -/

def LinkUnit.countGood (u : LinkUnit) : LinkUnit := { u with cnt := { u.cnt with good := satInc u.cnt.good } }

/-- The silence timer restarted by a good frame (R128). -/
def LinkUnit.restartSilence (u : LinkUnit) : LinkUnit := { u with silenceTimer := true }

/-- A NAK made due (R130). -/
def LinkUnit.nakDue (u : LinkUnit) : LinkUnit := { u with nak := u.nak.due }

/-- The tag of a discarded frame as its REJECT carries it (R109; a frame too short to hold one: log 23). -/
def rejectTag (f : BufFrame) : Byte :=
  if f.isData then (match dataFields f.payload with | some d => d.1 | none => 0#8) else (Req.ofPayload f.payload).tag

/-- The REJECT of an overrun (R109). -/
def reject (f : BufFrame) : Rsp where
  code := 0#8
  tag := rejectTag f
  status := .overrun

/-- An overrun (R109). -/
def Part.overrun (p : Part) (i : Port) (f : BufFrame) : Part :=
  let q := p.modLink i fun u => { u with cnt := { u.cnt with overruns := satInc u.cnt.overruns } }
  if q.respRoom i then
    (q.queueResp i (.rsp (reject f))).modReq i fun r => { r with cnt := { r.cnt with rejects := satInc r.cnt.rejects } }
  else q.modReq i fun r => { r with cnt := { r.cnt with rejectsSuppressed := satInc r.cnt.rejectsSuppressed } }

/-- A REQ or DATA frame delivered to the request layer (R108, R109, R129). -/
def Part.deliver (p : Part) (i : Port) (f : BufFrame) : Part :=
  if (p.req i).buffer.length < Config.requestPlaces then
    (p.modReq i fun r => { r with buffer := r.buffer ++ [f] }).modLink i fun u =>
      { u with freePlaces := u.freePlaces - 1 }
  else p.overrun i f

/-- A good in-order frame (R129). -/
def Part.receiveInOrder (p : Part) (i : Port) (t : SeqType) (payload : List Byte) : Part :=
  let q := p.modLink i fun u => { u with expected := u.expected + 1, nak := .none }
  match t with
  | .req => q.deliver i ⟨false, payload⟩
  | .data => q.deliver i ⟨true, payload⟩
  | _ => q.modLink i fun u => { u with cnt := { u.cnt with unexpected := satInc u.cnt.unexpected } }

def LinkUnit.countDiscard (u : LinkUnit) : LinkUnit :=
  { u with cnt := { u.cnt with sequenceDiscards := satInc u.cnt.sequenceDiscards } }

/-- The three classes of R129. -/
def Part.classify (p : Part) (i : Port) (t : SeqType) (seq : Seq) (payload : List Byte) : Part :=
  match frameOrder (seqDistance seq (p.link i).expected) with
  | .inOrder => p.receiveInOrder i t payload
  | .ahead => p.modLink i fun u => u.countDiscard.nakDue
  | .duplicate => p.modLink i LinkUnit.countDiscard

/-- A frame that fails the check (R121). -/
def LinkUnit.checkFail (u : LinkUnit) : LinkUnit :=
  let v := { u with cnt := { u.cnt with checkFailures := satInc u.cnt.checkFailures } }
  match u.state with
  | .down => v
  | .sync => { v with syncCount := 0 }
  | .up => v.nakDue

/-- A good sequenced frame (R123, R124, R129): in UP its header is taken first, and a frame whose NAK took the link down
is not delivered (log 14). -/
def Part.goodSequenced (p : Part) (i : Port) (t : SeqType) (h : Header) (payload : List Byte) : Part :=
  let q := p.modLink i LinkUnit.countGood
  match (p.link i).state with
  | .down => q
  | .sync => q.modLink i fun u => { u.restartSilence with syncCount := 0 }
  | .up =>
    let r := (q.modLink i LinkUnit.restartSilence).takeHeader i h
    if (r.link i).state = .up then r.classify i t h.seq payload else r

/-- GOOD_SEQUENCED_FRAME (R129); a payload above 512 bytes fails the length test (R185). -/
def execGoodSequencedFrame (i : Port) (t : SeqType) (h : Header) (payload : List Byte) (s : State) : Result :=
  .next (s.onPart fun p => p.event fun p =>
    if payload.length ≤ Config.maxFramePayload then some (p.goodSequenced i t h payload)
    else some (p.modLink i LinkUnit.checkFail))

/-- The link may leave DOWN on a good IDLE or LINK_RESET (R123). -/
def LinkUnit.listens (u : LinkUnit) : Bool := !u.ownCause || decide (Config.resetFrames ≤ u.resets)

/-- Entry to SYNC (R123). -/
def LinkUnit.enterSync (u : LinkUnit) : LinkUnit :=
  { u with state := .sync, cause := none, resets := 0, syncCount := 0, silenceTimer := true }

/-- Entry to UP (R125). -/
def LinkUnit.enterUp (u : LinkUnit) : LinkUnit :=
  { u with
    state := .up, nextSeq := 0, expected := 0, freePlaces := Config.linkCredits, report := Config.linkCredits
    nak := .none, replayCount := 0, replayBuf := [], replay := none, replayTimer := false, silenceTimer := true }

/-- A good IDLE frame counted in SYNC; the eighth enters UP, and the selector prefers responses (R124, R125). -/
def Part.syncIdle (p : Part) (i : Port) : Part :=
  let q := p.modLink i fun u => { u.restartSilence with syncCount := u.syncCount + 1 }
  if Config.syncFrames ≤ (q.link i).syncCount then
    (q.modLink i LinkUnit.enterUp).modReq i fun r => { r with prefers := .responses }
  else q

/-- The sequence of an IDLE in UP compared (R130). -/
def LinkUnit.idleSeq (u : LinkUnit) (seq : Seq) : LinkUnit :=
  match frameOrder (seqDistance seq u.expected) with
  | .inOrder => if u.nak = .pending then { u with nak := .none } else u
  | .ahead => u.nakDue
  | .duplicate => u

/-- A good IDLE frame (R123, R124, R130). -/
def Part.goodIdle (p : Part) (i : Port) (h : Header) : Part :=
  let q := p.modLink i LinkUnit.countGood
  match (p.link i).state with
  | .down => if (p.link i).listens then q.modLink i LinkUnit.enterSync else q
  | .sync => q.syncIdle i
  | .up =>
    let r := (q.modLink i LinkUnit.restartSilence).takeHeader i h
    if (r.link i).state = .up then r.modLink i fun u => u.idleSeq h.seq else r

/-- IDLE_FRAME (R130). -/
def execIdleFrame (i : Port) (h : Header) (s : State) : Result :=
  .next (s.onPart fun p => p.event fun p => some (p.goodIdle i h))

/-- A good LINK_RESET frame (R127): in UP its header is taken first, and where its NAK took the link down the LINK_RESET
does nothing more (R121, R137; log 15). -/
def Part.goodReset (p : Part) (i : Port) (h : Header) : Part :=
  let q := p.modLink i LinkUnit.countGood
  match (p.link i).state with
  | .down => if (p.link i).listens then q.modLink i LinkUnit.enterSync else q
  | .sync => q.modLink i fun u => { u.restartSilence with syncCount := 0 }
  | .up =>
    let r := (q.modLink i LinkUnit.restartSilence).takeHeader i h
    if (r.link i).state = .up then r.linkDown i .linkReset else r

/-- LINK_RESET_FRAME (R127). -/
def execLinkResetFrame (f : ResetFrame) (s : State) : Result :=
  .next (s.onPart fun p => p.event fun p => some (p.goodReset f.port f.header))

/-- FRAME_CHECK_FAIL (R121). -/
def execFrameCheckFail (i : Port) (s : State) : Result :=
  .next (s.onPart fun p => p.event fun p => some (p.modLink i LinkUnit.checkFail))

/-! ## Timers -/

/-- REPLAY_TIMER_EXPIRY (R135): a replay trigger. -/
def execReplayTimerExpiry (i : Port) (s : State) : Result :=
  .next (s.onPart fun p => p.event fun p =>
    if (p.link i).state = .up ∧ (p.link i).replayTimer = true then some (p.replayTrigger i) else none)

/-- The return from SYNC to DOWN (R124): no counter, no attention cause. R124 does not say what the sync count is then: the
model sets it to 0 (DESIGN CHOICE, log 47; safe). -/
def LinkUnit.syncSilence (u : LinkUnit) : LinkUnit :=
  { u with state := .down, cause := some .syncSilence, resets := 0, syncCount := 0, silenceTimer := false }

/-- SILENCE_TIMER_EXPIRY (R128). -/
def execSilenceTimerExpiry (i : Port) (s : State) : Result :=
  .next (s.onPart fun p => p.event fun p =>
    if (p.link i).silenceTimer then
      match (p.link i).state with
      | .up => some (p.linkDown i .silence)
      | .sync => some (p.modLink i LinkUnit.syncSilence)
      | .down => none
    else none)

end Sys2Proof.Machine
end

