-- ==== Sys2Proof/Machine/Engine.lean ====
section
/-! DEFINITION. The memory engine's own events: ACCESS_ADMIT, REFRESH_TIMER_EXPIRY, REFRESH_COMPLETE, INITIALISE_COMPLETE,
SELF_REFRESH_ENTRY_COMPLETE, SELF_REFRESH_EXIT_COMPLETE (08). -/

namespace Sys2Proof.Machine

/-- The first access that a client's block holds. -/
def MemEngine.heldPlace (m : MemEngine) (c : Client) : Option Nat :=
  (List.range m.held.length).find? fun k => (m.held[k]?.any fun a => sameClient a.client c)

/-- The client's first held access admitted, when there is room for its class (R141). -/
def Part.admitHeld (p : Part) (c : Client) : Option Part :=
  match p.mem.heldPlace c with
  | none => none
  | some k =>
    match p.mem.held[k]? with
    | none => none
    | some a =>
      if p.mem.room a.cls then some ((p.modMem fun m => { m with held := m.held.eraseIdx k }).enqueue a) else none

/-- ACCESS_ADMIT (R141). -/
def execAccessAdmit (c : Client) (s : State) : Result :=
  .next (s.onPart fun p => p.event fun p => p.admitHeld c)

/-- The engine after a missed refresh (R149). -/
def MemEngine.missed (m : MemEngine) : MemEngine :=
  { m with
    missedFlag := true, missCount := m.missCount + 1, cnt := { m.cnt with missed := satInc m.cnt.missed } }

/-- An expiry of the refresh timer (R149): the debt rises, or the refresh is missed and DRAM may have lost bytes, which
ones being the free value (log 8). -/
def Part.refreshOwed (p : Part) : Part :=
  if p.mem.debt < Config.debtLimit then (p.modMem fun m => { m with debt := m.debt + 1 }).arbitrate
  else
    ({ p with dram := Memory.writeCells p.dram (Config.lostBytes p.mem.missCount) }.modMem MemEngine.missed).raise
      causeRefreshMissed |>.arbitrate

/-- REFRESH_TIMER_EXPIRY (R149). -/
def execRefreshTimerExpiry (s : State) : Result :=
  .next (s.onPart fun p => p.event fun p => if p.mem.refreshTimer then some p.refreshOwed else none)

/-- The engine after a refresh (R150): the banks are closed, the debt falls, the post-exit refresh is made. -/
def MemEngine.refreshed (m : MemEngine) (k : RefreshKind) : MemEngine :=
  let c := match k with
    | .urgent => { m.cnt with urgent := satInc m.cnt.urgent }
    | .opportunistic => { m.cnt with opportunistic := satInc m.cnt.opportunistic }
  { m.closeBanks with op := none, debt := m.debt - 1, postExit := false, cnt := c }

/-- REFRESH_COMPLETE (R150). -/
def execRefreshComplete (s : State) : Result :=
  .next (s.onPart fun p => p.event fun p =>
    match p.mem.op with
    | some (.refresh k) => some (p.modMem fun m => m.refreshed k).arbitrate
    | _ => none)

/-- The engine after the initialisation (R153). -/
def MemEngine.initialised (m : MemEngine) : MemEngine :=
  { m.closeBanks with op := none, cond := .active, debt := 0, refreshTimer := true }

/-- The initialisation is complete (R153): the DRAM's contents are undefined (log 7), and a cold start goes on (R162). -/
def Part.initialiseDone (p : Part) : Part :=
  let q := ({ p with dram := [] }.modMem MemEngine.initialised).arbitrate
  if q.ctl.work = .coldInit ∧ q.ctl.abandoned = false then q.coldFill else q

/-- INITIALISE_COMPLETE (R153). -/
def execInitialiseComplete (s : State) : Result :=
  .next (s.onPart fun p => p.event fun p =>
    if p.mem.op = some .initialise then some p.initialiseDone else none)

/-- The engine after the self-refresh entry (R154). -/
def MemEngine.entered (m : MemEngine) : MemEngine :=
  { m.closeBanks with op := none, cond := .selfRefresh, refreshTimer := false, debt := 0, postExit := false }

/-- The entry is complete (R154), and the retention controller goes on (R165, R173). -/
def Part.entryComplete (p : Part) : Part :=
  ((p.modMem MemEngine.entered).modRet fun r => { r with selfRefresh := true }).entryDone

/-- SELF_REFRESH_ENTRY_COMPLETE (R165). -/
def execSelfRefreshEntryComplete (s : State) : Result :=
  .next (s.onPart fun p => p.event fun p => if p.mem.op = some .entry then some p.entryComplete else none)

/-- The engine after the self-refresh exit (R156). -/
def MemEngine.exited (m : MemEngine) : MemEngine :=
  { m.closeBanks with op := none, cond := .active, debt := 1, postExit := true, refreshTimer := true }

/-- The exit is complete (R156): the post-exit refresh is chosen, and a cold start or a restore that is not abandoned
goes on (R162, R169). -/
def Part.exitComplete (p : Part) : Part :=
  let q := ((p.modMem MemEngine.exited).modRet fun r => { r with selfRefresh := false }).arbitrate
  if q.ctl.abandoned then q
  else
    match q.ctl.work with
    | .coldExit => q.coldFill
    | .restoreExit => q.loadHeader
    | _ => q

/-- SELF_REFRESH_EXIT_COMPLETE (R156). -/
def execSelfRefreshExitComplete (s : State) : Result :=
  .next (s.onPart fun p => p.event fun p => if p.mem.op = some .exit then some p.exitComplete else none)

end Sys2Proof.Machine
end

