-- ==== Sys2Proof/Machine/Power.lean ====
section
/-! DEFINITION. Cold start, restore, quiesce and power (09): COLD_START_WRITE_COMPLETE, COLD_START_DONE,
HEADER_LOAD_COMPLETE, ENTRY_LOAD_COMPLETE, DIRECTORY_REWRITE_COMPLETE, RESTORE_COMPLETE, QUIESCE_DRAIN_DONE, PFAIL_N_FALL,
PFAIL_N_RISE, MAIN_DOMAIN_START, MAIN_POWER_ON, MAIN_POWER_LOSS, RST_N_LOW, RST_N_RELEASE, RETENTION_POWER_ON. -/

namespace Sys2Proof.Machine

/-! ## Cold start and restore -/

/-- COLD_START_WRITE_COMPLETE (R22). -/
def execColdStartWriteComplete (s : State) : Result :=
  s.complete fun
    | .coldWrite i _ => some fun _ _ p => p.modDir i DirWriter.copyDone
    | _ => none

/-- COLD_START_DONE (R162), when it is due. -/
def execColdStartDone (s : State) : Result :=
  .next (s.onPart fun p => p.event fun p => if p.coldDue then some p.coldDone else none)

/-- HEADER_LOAD_COMPLETE (R170): a load read of the device header has completed; with both, the header is selected. -/
def execHeaderLoadComplete (s : State) : Result :=
  s.complete fun
    | .load .header k => some fun _ bytes p => p.loadArrived .header k bytes
    | _ => none

/-- ENTRY_LOAD_COMPLETE (R171): a load read of a journal entry has completed; with both, the journal is rebuilt or lost. -/
def execEntryLoadComplete (s : State) : Result :=
  s.complete fun
    | .load (.journal j) k => some fun _ bytes p => p.loadArrived (.journal j) k bytes
    | _ => none

/-- DIRECTORY_REWRITE_COMPLETE (R170). -/
def execDirectoryRewriteComplete (s : State) : Result :=
  s.complete fun
    | .rewrite i _ => some fun _ _ p => p.rewritten i
    | _ => none

/-- RESTORE_COMPLETE (R172), when it is due. -/
def execRestoreComplete (s : State) : Result :=
  .next (s.onPart fun p => p.event fun p => if p.restoreDue then some p.restoreDone else none)

/-- QUIESCE_DRAIN_DONE (R164, R165), when it is due. -/
def execQuiesceDrainDone (s : State) : Result :=
  .next (s.onPart fun p => p.event fun p => if p.drainDue then some p.drainCheck else none)

/-! ## The board's lines -/

/-- The effect of a fall of PFAIL_N in the mode (Table 9-3); none while the main domain does not run. -/
def Part.pfailFalls (p : Part) : Part :=
  p.event fun p =>
    match p.ret.mode with
    | .initializing => some p.abandon
    | .restoring => some p.abandon
    | .serving => some (p.quiesce .pfail)
    | .halted => some p.retain
    | _ => none

/-- PFAIL_N_FALL (R163): the level is taken while the retention supply is present (R160). -/
def execPfailNFall (s : State) : Result :=
  .next (s.onPart fun p =>
    if p.ret.retentionPower && p.ret.pfailHigh then (p.modRet fun r => { r with pfailHigh := false }).pfailFalls else p)

/-- PFAIL_N_RISE (R167): in RETAINING with main power never lost the main domain starts. -/
def execPfailNRise (s : State) : Result :=
  .next (s.onPart fun p =>
    if p.ret.retentionPower && !p.ret.pfailHigh then
      let q := p.modRet fun r => { r with pfailHigh := true }
      if q.ret.mode = .retaining ∧ q.ret.mayStart = true then q.start else q
    else p)

/-- A start is due: power, RST_N and the retention supply allow it, and RETAINING with PFAIL_N low does not stand in its
way (R161, R167). -/
def Part.startDue (p : Part) : Bool := p.ret.mayStart && (p.ret.pfailHigh || decide (p.ret.mode ≠ .retaining))

/-- MAIN_DOMAIN_START (R161), when it is due. -/
def execMainDomainStart (s : State) : Result :=
  .next (s.onPart fun p => if p.startDue then p.start else p)

/-- MAIN_POWER_ON (R161). -/
def execMainPowerOn (s : State) : Result :=
  .next (s.onPart fun p =>
    if p.ret.mainPower then p
    else
      let q := p.modRet fun r => { r with mainPower := true }
      if q.ret.mayStart then q.start else q)

/-- MAIN_POWER_LOSS (R174); the mode stands until the next start (log 11). -/
def execMainPowerLoss (s : State) : Result :=
  .next (s.onPart fun p =>
    if p.ret.mainPower then p.stopMain.modRet fun r => { r with mainPower := false } else p)

/-- RST_N_LOW (R174): the mode is held at INITIALIZING. -/
def execRstNLow (s : State) : Result :=
  .next (s.onPart fun p =>
    if p.ret.rstHigh then p.stopMain.modRet fun r => { r with rstHigh := false, mode := .initializing, cause := none }
    else p)

/-- RST_N_RELEASE (R161). -/
def execRstNRelease (s : State) : Result :=
  .next (s.onPart fun p =>
    if p.ret.rstHigh then p
    else
      let q := p.modRet fun r => { r with rstHigh := true }
      if q.ret.mayStart then q.start else q)

/-- The retention domain at the first application of its supply (R160); the lines and main power are the board's. -/
def Retention.poweredOn (r : Retention) : Retention :=
  { r with
    mode := .initializing, flag := false, cause := none, startKind := .cold, selfRefresh := false
    retentionPower := true, running := false }

/-- RETENTION_POWER_ON (R160; log 37). -/
def execRetentionPowerOn (s : State) : Result :=
  .next (s.onPart fun p => Part.fresh p.ret.poweredOn [] p.mem.missCount)

end Sys2Proof.Machine
end

