-- ==== Sys2Proof/Machine/Maintenance.lean ====
section
/-! DEFINITION. The maintenance port (10): READ_STATUS, READ_JOURNAL, SET_LAYOUT, CLEAR_LAYOUT, SET_PARAM, FORCE_RELEASE,
SAVE_AND_HALT, RESUME, FORMAT, READ_COUNTERS, CLEAR_COUNTERS, ACK_ATTENTION, SET_ATTENTION_MASK, BAD_COMMAND,
SPI_CUT_SHORT. -/

namespace Sys2Proof.Machine

/-! ## Transactions (R176, R177) -/

def Part.countMaint (p : Part) (f : MaintCounters → MaintCounters) : Part :=
  p.modMaint fun m => { m with cnt := f m.cnt }

/-- The response of the present transaction is formed; none of it has been returned. -/
def Part.respond (p : Part) (status : MaintStatus) (bytes : List Byte) : Part :=
  p.modMaint fun m => { m with response := status.code :: bytes, spi := .responding 0 }

/-- A transaction that passes the end of its parameter phase is counted, and its command taken in the modes that Table
10-1 marks (R176, R177; the counter rises first: log 20; the port's counters stop at FFFFFFFFh: log 45). -/
def Part.transaction (p : Part) (modes : List Mode) (act : Part → Part) : Part :=
  p.event fun p =>
    let q := p.countMaint fun c => { c with completed := satInc c.completed }
    some (if q.ret.mode ∈ modes then act q else q.respond .notServing [])

/-- Every mode in which the main domain runs. -/
def anyMode : List Mode := [.initializing, .restoring, .serving, .quiescing, .halted]

/-! ## Reports (R179, 11.6) -/

def StartKind.code : StartKind → Byte
  | .cold => 0#8
  | .warm => 1#8

def causeCode : Option QuiesceCause → Byte
  | none => 0#8
  | some .pfail => 1#8
  | some .saveAndHalt => 2#8

/-- The flags byte of READ_STATUS. -/
def statusFlags (retention missed layout : Bool) : Byte :=
  (if retention then 1#8 else 0#8) ||| (if missed then 2#8 else 0#8) ||| (if layout then 4#8 else 0#8)

def DeferredCommand.bytes : DeferredCommand → List Byte
  | .forceRelease j => [0x06#8, journalCode j]
  | .format => [0x09#8, 0#8]

/-- The deferred result record: state, command byte, journal, result; bytes without a value are zeros (log 31). -/
def Deferred.bytes : Deferred → List Byte
  | .none => zeros 4
  | .waiting c => [1#8] ++ c.bytes ++ [0#8]
  | .done c r => [2#8] ++ c.bytes ++ [r.code]

/-- A set of causes or a mask in three bytes; bits 16 to 23 read as 0. -/
def causeBytes (b : BitVec 16) : List Byte := leBytes 3 b.toNat

/-- The 22 bytes of READ_STATUS. -/
def Part.statusBytes (p : Part) : List Byte :=
  [p.ret.mode.code, p.ret.startKind.code, causeCode p.ret.cause,
      statusFlags p.ret.flag p.mem.missedFlag p.header.layoutGen.isSome]
    ++ allPorts.map (fun i => (p.link i).state.code) ++ leBytes 4 ((p.header.layoutGen.map BitVec.toNat).getD 0)
    ++ causeBytes p.maint.pending ++ causeBytes p.maint.mask ++ p.maint.deferred.bytes

/-- READ_STATUS (R179). -/
def execReadStatus (s : State) : Result :=
  .next (s.onPart fun p => p.transaction anyMode fun q => q.respond .ok q.statusBytes)

/-- The claimant's port, FFh when absent. -/
def Conf.claimantByte (c : Conf) : Byte :=
  match c.own with
  | .transferring _ _ (some cl) => portCode cl.session.port
  | _ => 0xFF#8

def trimBytes : Option PendingTrim → List Byte
  | none => zeros 9
  | some t =>
    (match t.phase with | .checking => 1#8 | .held => 2#8 | .advanced => 3#8) :: leBytes 8 t.target.toNat

def subsByte (subs : List Port) : Byte :=
  allPorts.foldl (fun b i => if i ∈ subs then b ||| (1#8 <<< i.val) else b) 0#8

def Conf.graceCode (c : Conf) : Byte :=
  match c.own with
  | .held _ (.running _) => 1#8
  | .held _ .expired => 2#8
  | _ => 0#8

def DirWriter.flags (d : DirWriter) : Byte :=
  (if d.dirty then 1#8 else 0#8) ||| (if d.inFlight then 2#8 else 0#8) ||| (if d.newest = .b then 4#8 else 0#8)

/-- The 87 bytes of READ_JOURNAL. -/
def Journal.reportBytes (e : Journal) : List Byte :=
  match e.conf with
  | none =>
    [JournalState.unconfigured.code] ++ leBytes 4 e.epoch.toNat ++ zeros 74 ++ [e.watermark, 0#8, 0#8, e.dir.flags]
      ++ leBytes 4 e.dir.gen.toNat
  | some c =>
    [c.state.code] ++ leBytes 4 e.epoch.toNat ++ [presence c.ownerTag.isSome] ++ tagBytes c.ownerTag
      ++ [c.claimantByte] ++ leBytes 2 c.base.toNat ++ leBytes 2 c.count.toNat ++ leBytes 8 c.head.toNat
      ++ leBytes 8 c.persistedHead.toNat ++ leBytes 8 c.durable.toNat ++ leBytes 8 c.frontier.toNat
      ++ leBytes 8 c.reserve.toNat ++ leBytes 4 c.nextSeq.toNat ++ leBytes 4 c.frontierSeq.toNat
      ++ leBytes 4 c.durableSeq.toNat ++ [BitVec.ofNat 8 c.openSlots, BitVec.ofNat 8 c.pins.length]
      ++ trimBytes c.trim ++ [subsByte c.subs, e.watermark, presence c.armed, c.graceCode, e.dir.flags]
      ++ leBytes 4 e.dir.gen.toNat

/-- READ_JOURNAL (R179). -/
def execReadJournal (j : Byte) (s : State) : Result :=
  .next (s.onPart fun p => p.transaction [.serving, .quiescing, .halted] fun q =>
    match journalOf j with
    | none => q.respond .badValue []
    | some k => q.respond .ok (q.journal k).reportBytes)

/-! ## Layout (R11, R12, R23) -/

/-- The layout generation raised, past FFFFFFFFh to 0 (log 40), and the header marked dirty (R21). -/
def Part.raiseLayout (p : Part) : Part :=
  (p.modHeader fun h => { h with layoutGen := h.layoutGen.map fun g => g + 1 }).markDirty .header

/-- The region shares no segment with that of another configured journal (R11). -/
def Part.regionFree (p : Part) (j : JournalId) (base count : Nat) : Bool :=
  allJournals.all fun k =>
    decide (k = j) || !(p.journal k).conf.any fun c => overlap base count c.base.toNat c.count.toNat

/-- The entry that SET_LAYOUT makes (R11). -/
def freshConf (base count : W16) : Conf :=
  { own := .unassigned, base := base, count := count, head := 0, persistedHead := 0, durable := 0, frontier := 0
    reserve := 0, nextSeq := 1, frontierSeq := 1, durableSeq := 1, openSlots := 0, trim := none, pins := [], subs := []
    armed := true }

/-- SET_LAYOUT is accepted (R11). -/
def Part.layoutOk (p : Part) (j : JournalId) (base count : W16) : Bool :=
  (p.journal j).conf.isNone && regionOk base.toNat count.toNat && p.regionFree j base.toNat count.toNat

def Part.setLayout (p : Part) (j : Byte) (base count : W16) : Part :=
  if p.formatPending then p.respond .busy []
  else
    match journalOf j with
    | none => p.respond .badLayout []
    | some k =>
      if p.layoutOk k base count then
        (((p.modJournal k fun e => { e with conf := some (freshConf base count), epoch := 0 }).markDirty
          (.journal k)).raiseLayout).respond .ok []
      else p.respond .badLayout []

/-- SET_LAYOUT (R11). -/
def execSetLayout (j : Byte) (base count : W16) (s : State) : Result :=
  .next (s.onPart fun p => p.transaction [.serving] fun q => q.setLayout j base count)

/-- CLEAR_LAYOUT is accepted (R12). -/
def Journal.clearable (e : Journal) : Bool :=
  !e.dir.inFlight
    && e.conf.any fun c =>
      decide (c.own = .unassigned) && decide (c.openSlots = 0) && c.pins.isEmpty && c.trim.isNone

/-- The steps of R12. -/
def Part.clearLayout (p : Part) (j : Byte) : Part :=
  if p.formatPending then p.respond .busy []
  else
    match journalOf j with
    | none => p.respond .busy []
    | some k =>
      if (p.journal k).clearable then
        let p1 := p.notifyAll (.layout k) (p.subscribers k)
        let p2 := p1.modJournal k fun e => { e with conf := none, epoch := 0 }
        ((p2.markDirty (.journal k)).raiseLayout).respond .ok []
      else p.respond .busy []

/-- CLEAR_LAYOUT (R12). -/
def execClearLayout (j : Byte) (s : State) : Result :=
  .next (s.onPart fun p => p.transaction [.serving] fun q => q.clearLayout j)

/-! ## Parameters (R180) -/

/-- A parameter replaced; none when SET_PARAM is refused with BAD_VALUE. A row policy is coded as in the device header
(log 46). -/
def Part.replaceParam (p : Part) (param journal : Byte) (value : W16) : Option Part :=
  let v := value.toNat
  match param.toNat with
  | 0x01 =>
    if idleInRange v then
      some (p.modMaint fun m => { m with params := { m.params with idle := BitVec.ofNat 8 v } }) else none
  | 0x02 => if graceInRange v then some (p.modMaint fun m => { m with params := { m.params with grace := value } }) else none
  | 0x03 =>
    if urgentInRange v then
      some (p.modMaint fun m => { m with params := { m.params with urgent := BitVec.ofNat 8 v } }) else none
  | 0x04 => (rowPolicyOf v).map fun r => p.modMaint fun m => { m with params := { m.params with rowPolicy := r } }
  | 0x05 =>
    if watermarkInRange v then
      (journalOf journal).map fun j => p.modJournal j fun e => { e with watermark := BitVec.ofNat 8 v }
    else none
  | _ => none

def Part.setParam (p : Part) (param journal : Byte) (value : W16) : Part :=
  match p.replaceParam param journal value with
  | some q => (q.markDirty .header).respond .ok []
  | none => p.respond .badValue []

/-- SET_PARAM (R180). -/
def execSetParam (param journal : Byte) (value : W16) (s : State) : Result :=
  .next (s.onPart fun p => p.transaction [.serving] fun q => q.setParam param journal value)

/-! ## FORCE_RELEASE (R61, R62, R178) -/

def Deferred.isWaiting : Deferred → Bool
  | .waiting _ => true
  | _ => false

/-- The record takes WAITING with the command (R178), which is answered ACCEPTED. -/
def Part.accepted (p : Part) (c : DeferredCommand) : Part :=
  (p.modMaint fun m => { m with deferred := .waiting c }).respond .accepted []

/-- A FORCE_RELEASE carried out on a HELD journal (R62). -/
def Part.releaseHeld (p : Part) (j : JournalId) : Part :=
  ((p.modJournal j fun e => e.change .unassigned (e.epoch + 1) [.forceRelease]).markDirty (.journal j)).notifyOwner j none

/-- The table of R61. -/
def Part.forceJournal (p : Part) (j : JournalId) (c : Conf) : Part :=
  match c.own with
  | .unassigned => p.respond .ok []
  | .transferring _ _ _ => p.respond .busy []
  | .owned _ _ =>
    if (p.journal j).epoch = Config.lastEpoch then p.respond .busy []
    else (p.accepted (.forceRelease j)).beginTransfer j none
  | .held _ _ =>
    if (p.journal j).epoch = Config.lastEpoch then p.respond .busy []
    else (p.accepted (.forceRelease j)).releaseHeld j

/-- FORCE_RELEASE: a WAITING record comes first (R178; log 19). -/
def Part.forceRelease (p : Part) (j : Byte) : Part :=
  if p.maint.deferred.isWaiting then p.respond .busy []
  else
    match p.configured j with
    | none => p.respond .badLayout []
    | some (k, c) => if p.formatPending then p.respond .busy [] else p.forceJournal k c

/-- FORCE_RELEASE (R61). -/
def execForceRelease (j : Byte) (s : State) : Result :=
  .next (s.onPart fun p => p.transaction [.serving] fun q => q.forceRelease j)

/-! ## SAVE_AND_HALT, RESUME, FORMAT (R181) -/

/-- SAVE_AND_HALT (R181): BUSY in QUIESCING. -/
def execSaveAndHalt (s : State) : Result :=
  .next (s.onPart fun p => p.transaction [.serving, .quiescing] fun q =>
    if q.ret.mode = .quiescing then q.respond .busy [] else (q.respond .ok []).quiesce .saveAndHalt)

/-- RESUME (R181): the restore of R169 begins. -/
def execResume (s : State) : Result :=
  .next (s.onPart fun p => p.transaction [.halted] fun q => (q.respond .ok []).enterRestoring)

/-- FORMAT (R181). -/
def Part.format (p : Part) : Part :=
  if (allPorts.any fun i => (p.req i).session.active) || p.maint.deferred.isWaiting then p.respond .busy []
  else { p.accepted .format with formatPending := true }

/-- FORMAT (R181). -/
def execFormat (s : State) : Result :=
  .next (s.onPart fun p => p.transaction [.serving] fun q => q.format)

/-! ## Counters (R182) -/

def LinkCounters.list (c : LinkCounters) : List W32 :=
  [c.good, c.checkFailures, c.sequenceDiscards, c.unexpected, c.naksSent, c.replays, c.overruns, c.lateData, c.downReset,
    c.downSilence, c.downReplay]

def RequestCounters.list (c : RequestCounters) : List W32 :=
  [c.reqTaken, c.dataTaken, c.refused, c.rejects, c.rejectsSuppressed, c.attaches, c.endsDetach, c.endsLinkLoss,
    c.endsQuiesce]

def AppendCounters.list (c : AppendCounters) : List W32 :=
  [c.accepted, c.landed, c.voidOffset, c.voidLength, c.voidCheck, c.voidAbandoned, c.voidFenced, c.voidSession, c.noSlot,
    c.journalFull, c.exhausted]

def ReadCounters.list (c : ReadCounters) : List W32 :=
  [c.accepted, c.bytes, c.atFrontier, c.trimmed, c.cancelled, c.trims, c.notABoundary]

def NotifyCounters.list (c : NotifyCounters) : List W32 :=
  [c.queued, c.folded, c.dropped, c.overflows, c.removed, c.layoutReplaced]

def Bank.list (b : Bank) : List W32 := [b.activations, b.rowHits, b.fullWrites, b.maskedWrites]

def MemCounters.list (c : MemCounters) : List W32 := [c.opportunistic, c.urgent, c.missed]

def RetentionCounters.list (c : RetentionCounters) : List W32 :=
  [c.quiescePfail, c.quiesceSave, c.warmRestores, c.coldStarts, c.abandoned, c.itemsLost]

def MaintCounters.list (c : MaintCounters) : List W32 := [c.completed, c.cutShort, c.badCommand, c.raised]

/-- The counters of a block (11.6), in the order of the owning rule; none for a block there is not. -/
def Part.counterBlock (p : Part) (block : Nat) : List W32 :=
  if h : block < 4 then (p.link ⟨block, h⟩).cnt.list
  else if h : block - 4 < 4 then (p.req ⟨block - 4, h⟩).cnt.list
  else if block = 0x08 then p.appendCnt.list
  else if block = 0x09 then p.readCnt.list
  else if block = 0x0A then p.ntfCnt.list
  else if block < 0x10 then []
  else if h : block - 16 < 16 then (p.mem.banks.get ⟨block - 16, h⟩).list
  else if block = 0x20 then p.mem.cnt.list
  else if block = 0x21 then p.ctl.cnt.list
  else if block = 0x22 then p.maint.cnt.list
  else []

/-- READ_COUNTERS (R182). -/
def execReadCounters (block index : Byte) (s : State) : Result :=
  .next (s.onPart fun p => p.transaction anyMode fun q =>
    match (q.counterBlock block.toNat)[index.toNat]? with
    | some v => q.respond .ok (leBytes 4 v.toNat)
    | none => q.respond .badValue [])

/-- Every counter of every block 0, and the REFRESH_MISSED flag clear (R182). -/
def Part.clearCounters (p : Part) : Part :=
  { p with
    links := p.links.map fun u => { u with cnt := {} }
    reqs := p.reqs.map fun r => { r with cnt := {} }
    ntfCnt := {}
    appendCnt := {}
    readCnt := {}
    mem :=
      { p.mem with
        banks := p.mem.banks.map fun b => { openRow := b.openRow }
        cnt := {}
        missedFlag := false }
    ctl := { p.ctl with cnt := {} }
    maint := { p.maint with cnt := {} } }

/-- CLEAR_COUNTERS (R182). -/
def execClearCounters (s : State) : Result :=
  .next (s.onPart fun p => p.transaction anyMode fun q => q.clearCounters.respond .ok [])

/-! ## Attention (R183) -/

/-- The causes that a 3-byte mask names; bits 16 to 23 are ignored (11.6). -/
def maskCauses (mask : BitVec 24) : BitVec 16 := mask.setWidth 16

/-- ACK_ATTENTION (R183): the named causes leave the set; the answer is the set that remains. -/
def execAckAttention (mask : BitVec 24) (s : State) : Result :=
  .next (s.onPart fun p => p.transaction anyMode fun q =>
    let left := q.maint.pending &&& ~~~ maskCauses mask
    (q.modMaint fun m => { m with pending := left }).respond .ok (causeBytes left))

/-- SET_ATTENTION_MASK (R183). -/
def execSetAttentionMask (mask : BitVec 24) (s : State) : Result :=
  .next (s.onPart fun p => p.transaction anyMode fun q =>
    (q.modMaint fun m => { m with mask := maskCauses mask }).respond .ok [])

/-! ## Transactions that carry no command (R176) -/

/-- BAD_COMMAND (R176): an unknown byte; a known one is no such event. The parameter phase is empty, so the transaction
is counted as completed too. -/
def execBadCommand (command : Byte) (s : State) : Result :=
  .next (s.onPart fun p =>
    if (maintenanceParams command).isSome then p
    else
      p.event fun p =>
        some
          ((p.countMaint fun c =>
            { c with completed := satInc c.completed, badCommand := satInc c.badCommand }).respond .badCommand []))

/-- SPI_CUT_SHORT (R176): chip select rises, no command, no response. -/
def execSpiCutShort (received : List Byte) (s : State) : Result :=
  .next (s.onPart fun p =>
    if cutShort received then
      p.event fun p =>
        some
          ((p.countMaint fun c => { c with cutShort := satInc c.cutShort }).modMaint fun m =>
            { m with response := [], spi := .waiting })
    else p)

end Sys2Proof.Machine
end

