-- ==== Sys2Proof/Machine/Dispatch.lean ====
section
/-! DEFINITION. One arm for each command. -/

namespace Sys2Proof.Machine

def exec (i : Instr) (s : State) : Host.Outcome State Fault Refusal :=
  match i with
  | .attach p => Sys2Proof.Machine.execAttach p s
  | .detach p => Sys2Proof.Machine.execDetach p s
  | .status p => Sys2Proof.Machine.execStatus p s
  | .subscribe p => Sys2Proof.Machine.execSubscribe p s
  | .unsubscribe p => Sys2Proof.Machine.execUnsubscribe p s
  | .claim p => Sys2Proof.Machine.execClaim p s
  | .release p => Sys2Proof.Machine.execRelease p s
  | .takeover p => Sys2Proof.Machine.execTakeover p s
  | .append p => Sys2Proof.Machine.execAppend p s
  | .read p => Sys2Proof.Machine.execRead p s
  | .trim p => Sys2Proof.Machine.execTrim p s
  | .unknownRequest p => Sys2Proof.Machine.execUnknownRequest p s
  | .data p => Sys2Proof.Machine.execData p s
  | .idleTimerExpiry n => Sys2Proof.Machine.execIdleTimerExpiry n s
  | .holdGraceExpiry j => Sys2Proof.Machine.execHoldGraceExpiry j s
  | .appendWriteComplete => Sys2Proof.Machine.execAppendWriteComplete s
  | .frontierAdvance j => Sys2Proof.Machine.execFrontierAdvance j s
  | .directoryWriteStart item => Sys2Proof.Machine.execDirectoryWriteStart item s
  | .directoryWriteComplete => Sys2Proof.Machine.execDirectoryWriteComplete s
  | .appendDoneRelease n => Sys2Proof.Machine.execAppendDoneRelease n s
  | .deviceHeaderWriteComplete => Sys2Proof.Machine.execDeviceHeaderWriteComplete s
  | .transferComplete j => Sys2Proof.Machine.execTransferComplete j s
  | .trimCheckComplete => Sys2Proof.Machine.execTrimCheckComplete s
  | .trimHeadAdvance j => Sys2Proof.Machine.execTrimHeadAdvance j s
  | .trimComplete j => Sys2Proof.Machine.execTrimComplete j s
  | .readBurstComplete => Sys2Proof.Machine.execReadBurstComplete s
  | .readFrameQueued r => Sys2Proof.Machine.execReadFrameQueued r s
  | .readResponseQueued r => Sys2Proof.Machine.execReadResponseQueued r s
  | .appendDoneQueued p => Sys2Proof.Machine.execAppendDoneQueued p s
  | .waitingResponseQueued p => Sys2Proof.Machine.execWaitingResponseQueued p s
  | .formatExecute => Sys2Proof.Machine.execFormatExecute s
  | .formatWritesComplete => Sys2Proof.Machine.execFormatWritesComplete s
  | .transmitSelect p => Sys2Proof.Machine.execTransmitSelect p s
  | .sendIdle p => Sys2Proof.Machine.execSendIdle p s
  | .sendLinkReset p => Sys2Proof.Machine.execSendLinkReset p s
  | .replaySend p => Sys2Proof.Machine.execReplaySend p s
  | .goodSequencedFrame p t h payload => Sys2Proof.Machine.execGoodSequencedFrame p t h payload s
  | .idleFrame p h => Sys2Proof.Machine.execIdleFrame p h s
  | .linkResetFrame f => Sys2Proof.Machine.execLinkResetFrame f s
  | .frameCheckFail p => Sys2Proof.Machine.execFrameCheckFail p s
  | .replayTimerExpiry p => Sys2Proof.Machine.execReplayTimerExpiry p s
  | .silenceTimerExpiry p => Sys2Proof.Machine.execSilenceTimerExpiry p s
  | .accessAdmit c => Sys2Proof.Machine.execAccessAdmit c s
  | .refreshTimerExpiry => Sys2Proof.Machine.execRefreshTimerExpiry s
  | .refreshComplete => Sys2Proof.Machine.execRefreshComplete s
  | .initialiseComplete => Sys2Proof.Machine.execInitialiseComplete s
  | .selfRefreshEntryComplete => Sys2Proof.Machine.execSelfRefreshEntryComplete s
  | .selfRefreshExitComplete => Sys2Proof.Machine.execSelfRefreshExitComplete s
  | .coldStartWriteComplete => Sys2Proof.Machine.execColdStartWriteComplete s
  | .coldStartDone => Sys2Proof.Machine.execColdStartDone s
  | .headerLoadComplete => Sys2Proof.Machine.execHeaderLoadComplete s
  | .entryLoadComplete => Sys2Proof.Machine.execEntryLoadComplete s
  | .directoryRewriteComplete => Sys2Proof.Machine.execDirectoryRewriteComplete s
  | .restoreComplete => Sys2Proof.Machine.execRestoreComplete s
  | .quiesceDrainDone => Sys2Proof.Machine.execQuiesceDrainDone s
  | .pfailNFall => Sys2Proof.Machine.execPfailNFall s
  | .pfailNRise => Sys2Proof.Machine.execPfailNRise s
  | .mainDomainStart => Sys2Proof.Machine.execMainDomainStart s
  | .mainPowerOn => Sys2Proof.Machine.execMainPowerOn s
  | .mainPowerLoss => Sys2Proof.Machine.execMainPowerLoss s
  | .rstNLow => Sys2Proof.Machine.execRstNLow s
  | .rstNRelease => Sys2Proof.Machine.execRstNRelease s
  | .retentionPowerOn => Sys2Proof.Machine.execRetentionPowerOn s
  | .readStatus => Sys2Proof.Machine.execReadStatus s
  | .readJournal j => Sys2Proof.Machine.execReadJournal j s
  | .setLayout j base count => Sys2Proof.Machine.execSetLayout j base count s
  | .clearLayout j => Sys2Proof.Machine.execClearLayout j s
  | .setParam param journal value => Sys2Proof.Machine.execSetParam param journal value s
  | .forceRelease j => Sys2Proof.Machine.execForceRelease j s
  | .saveAndHalt => Sys2Proof.Machine.execSaveAndHalt s
  | .resume => Sys2Proof.Machine.execResume s
  | .format => Sys2Proof.Machine.execFormat s
  | .readCounters block index => Sys2Proof.Machine.execReadCounters block index s
  | .clearCounters => Sys2Proof.Machine.execClearCounters s
  | .ackAttention mask => Sys2Proof.Machine.execAckAttention mask s
  | .setAttentionMask mask => Sys2Proof.Machine.execSetAttentionMask mask s
  | .badCommand command => Sys2Proof.Machine.execBadCommand command s
  | .spiCutShort received => Sys2Proof.Machine.execSpiCutShort received s

end Sys2Proof.Machine
end

