-- ==== Sys2Proof/Machine/Spi.lean ====
section
/-! DEFINITION. The SPI pins (R176): falls and rises of chip select and the bytes clocked between them, and the maintenance
commands that they bring about. -/

namespace Sys2Proof.Machine

/-- The present transaction gets to a point of its progress. -/
def State.progress (s : State) (x : SpiProgress) : State := s.onPart fun p => p.modMaint fun m => { m with spi := x }

/-- A byte is returned for a byte clocked (R176). -/
def State.returnByte (s : State) : State :=
  { s with
    pins :=
      { s.pins with
        out := some (s.part.spiByte s.pins.untaken)
        untaken :=
          if s.part.ret.running = true ∧ s.part.maint.spi = .waiting then s.pins.untaken + 1 else s.pins.untaken } }

/-- The bytes received in a transaction (R176): at the last parameter byte the command is carried out or refused, before it
the transaction goes on. -/
def State.received (s : State) (bytes : List Byte) : Result :=
  if cutShort bytes then .next (s.progress (.receiving bytes)) else exec (transactionCommand bytes) s

/-- A fall of chip select begins a transaction (R176). -/
def State.spiFall (s : State) : Result :=
  .next
    (if s.part.ret.running then s.onPart fun p => p.modMaint fun m => { m with response := [], spi := .receiving [] }
      else s)

/-- A byte clocked in (R176). Bytes of the response phase, and those of a transaction that is not taken, are ignored. -/
def State.spiClock (b : Byte) (s : State) : Result :=
  let t := s.returnByte
  if s.part.ret.running then
    match s.part.maint.spi with
    | .waiting => .next t
    | .receiving bytes => t.received (bytes ++ [b])
    | .responding k => .next (t.progress (.responding (k + 1)))
  else .next t

/-- A rise of chip select (R176): before the parameter phase has ended the transaction is cut short, in the response phase
the unread bytes are lost. -/
def State.spiRise (s : State) : Result :=
  if s.part.ret.running then
    match s.part.maint.spi with
    | .waiting => .next s
    | .receiving bytes => exec (.spiCutShort bytes) s
    | .responding _ => .next (s.onPart fun p => p.modMaint fun m => { m with response := [], spi := .waiting })
  else .next s

/-- What the SPI pins bring is taken. -/
def State.spiEvent (s : State) : SpiEvent → Result
  | .fall => s.spiFall
  | .clock b => s.spiClock b
  | .rise => s.spiRise

end Sys2Proof.Machine
end

