-- ==== Sys2Proof/Machine/Step.lean ====
section
/-! DEFINITION. One step: the command at the front of the queue is carried out, or what the SPI pins bring is taken. -/

namespace Sys2Proof.Machine

/-- One step: the front command leaves the queue and is carried out. On an empty queue the SPI pins bring their next event,
where they have one, and else the part idles (log 5). -/
def step (s : State) : Host.Outcome State Fault Refusal :=
  match s.pending with
  | [] =>
    match s.pins.wire with
    | [] => .next s
    | e :: rest => State.spiEvent { s with pins := { s.pins with wire := rest } } e
  | c :: rest => exec c { s with pending := rest }

/-- The state with a command put at the front of its queue. -/
def State.withCommand (s : State) (c : Instr) : State := { s with pending := c :: s.pending }

/-- The state with the command that a table word spells at the front; no word spells one. -/
def State.withFetchWord (s : State) (nbits w : Nat) : State :=
  match decodeTableWord nbits w with
  | some c => s.withCommand c
  | none => s

end Sys2Proof.Machine
end

