-- ==== Sys2Proof/Safety.lean ====
section
/-! DEFINITION. What the statements speak of: the invariants of the part, the fields a command may touch, and the
conditions under which a command is the event its row names. -/

namespace Sys2Proof.Machine

/-! ## Invariants -/

/-- A link unit: the bounds of Table 7-1, a replay that stands at an entry, the replay timer running exactly while the
buffer holds an entry (R135), and nothing of it outside UP (R126). -/
abbrev LinkUnit.sound (u : LinkUnit) : Prop :=
  u.replayBuf.length ≤ Config.replayEntries ∧ u.freePlaces ≤ Config.requestPlaces ∧ u.report ≤ Config.linkCredits
    ∧ u.resets ≤ Config.resetFrames
    ∧ (u.replay.all fun k => decide (k < u.replayBuf.length)) = true
    ∧ u.replayTimer = !u.replayBuf.isEmpty
    ∧ (u.state ≠ .up → u.replayBuf = [])

/-- A request layer: the places of its buffer and of its response queue (R108, R115), a controller tag exactly while its
session is ACTIVE (Table 6-1), and a tag table of at most 16 tags, each at most once (R112). -/
abbrev RequestLayer.sound (r : RequestLayer) : Prop :=
  r.buffer.length ≤ Config.requestPlaces ∧ r.respQ.length ≤ Config.responsePlaces
    ∧ r.session.active = r.session.tag.isSome
    ∧ r.tags.length ≤ Config.maxTags ∧ r.tags.Nodup

/-- A notification queue: at most 32 entries, no two FRONTIER entries of one journal, a drop count of at most 255 (R94),
and an overflow flag that is set only while the queue is full (R96). -/
abbrev NotifyPort.sound (n : NotifyPort) : Prop :=
  n.queue.length ≤ Config.notifyPlaces ∧ (∀ j : JournalId, n.queue.countP (Ntf.isFrontierOf j) ≤ 1)
    ∧ n.drops ≤ Config.maxDrops ∧ (n.overflow = true → n.queue.length = Config.notifyPlaces)

/-- The accesses of class ORDINARY in the queue. -/
def MemEngine.ordinary (m : MemEngine) : Nat := m.queue.countP fun a => decide (a.cls = .ordinary)

/-- The memory engine: the places of its queue (R141) and the limit of the refresh debt (R149). -/
abbrev MemEngine.sound (m : MemEngine) : Prop :=
  m.queue.length ≤ Config.accessPlaces ∧ m.ordinary ≤ Config.ordinaryPlaces ∧ m.debt ≤ Config.debtLimit

/-- Every link unit, request layer, notification queue and the memory engine within its bounds, and DRAM in its canonical
form. -/
abbrev Part.sound (p : Part) : Prop :=
  (∀ i, (p.link i).sound) ∧ (∀ i, (p.req i).sound) ∧ (∀ i, (p.ntf i).sound) ∧ p.mem.sound ∧ Memory.wf p.dram

/-- How many reads in flight on a journal have a start position; a read in DRAINING has left the pin set (R75, R79). -/
def Part.readsAt (p : Part) (j : JournalId) (pos : W64) : Nat :=
  ([0, 1, 2, 3, 4, 5, 6, 7] : List ReadId).countP fun r =>
    (p.readCtx r).any fun x => decide (x.journal = j) && decide (x.start = pos) && decide (x.state ≠ .draining)

/-- The slot table, the read contexts and the journal table agree: no session has more than 4 open appends (R26); a
configured journal's open-slot count is at most the slots in use on it, 12 at most (R24); its read pins are start positions
of reads in flight on it, 8 at most (R75, Table 1-1). -/
def Part.tablesSound (p : Part) : Prop :=
  (∀ sid, p.openAppends sid ≤ 4)
    ∧ ∀ j c, (p.journal j).conf = some c →
      (c.openSlots ≤ (p.slotsWith fun x => decide (x.journal = j)).length ∧ c.openSlots ≤ 12)
      ∧ (∀ pos, c.pins.count pos ≤ p.readsAt j pos) ∧ c.pins.length ≤ 8

/-- Nothing that the end of an event carries out is due (log 3). -/
def Part.nothingDue (p : Part) : Bool :=
  (allItems.all fun i => !((p.dirOf i).dirty && !(p.dirOf i).inFlight))
    && !p.formatDue && !p.coldDue && !p.restoreDue && !p.drainDue

/-- A stopped part, or one in which nothing due has been left undone. -/
def Part.quiet (p : Part) : Bool := !p.ret.running || p.nothingDue

/-! ## Fields -/

/-- The fields of `Part`. -/
inductive Part.Field where
  | ret | ctl | links | reqs | ntfs | ntfCnt | journals | header | formatPending | waiting | slots | appendCnt
  | reads | readCnt | mem | dram | maint
deriving DecidableEq, Repr

/-- Two parts agree in a field. -/
def Part.Field.same (p q : Part) : Part.Field → Prop
  | .ret => q.ret = p.ret
  | .ctl => q.ctl = p.ctl
  | .links => q.links = p.links
  | .reqs => q.reqs = p.reqs
  | .ntfs => q.ntfs = p.ntfs
  | .ntfCnt => q.ntfCnt = p.ntfCnt
  | .journals => q.journals = p.journals
  | .header => q.header = p.header
  | .formatPending => q.formatPending = p.formatPending
  | .waiting => q.waiting = p.waiting
  | .slots => q.slots = p.slots
  | .appendCnt => q.appendCnt = p.appendCnt
  | .reads => q.reads = p.reads
  | .readCnt => q.readCnt = p.readCnt
  | .mem => q.mem = p.mem
  | .dram => q.dram = p.dram
  | .maint => q.maint = p.maint

/-- q differs from p in the fields of `fs` at most. -/
def Part.Changes (fs : List Part.Field) (p q : Part) : Prop := ∀ f, f ∉ fs → f.same p q

/-- Every field but DRAM. -/
abbrev allButDram : List Part.Field :=
  [.ret, .ctl, .links, .reqs, .ntfs, .ntfCnt, .journals, .header, .formatPending, .waiting, .slots, .appendCnt, .reads,
    .readCnt, .mem, .maint]

/-- Every field. -/
abbrev allFields : List Part.Field := .dram :: allButDram

/-- The fields that the end of an event reaches. -/
abbrev reactFields : List Part.Field := [.journals, .header, .mem, .formatPending, .maint, .ret, .ctl]

/-- The fields that a session end reaches (R106, Table 6-2). -/
abbrev sessionFields : List Part.Field :=
  [.reqs, .links, .journals, .ntfs, .ntfCnt, .slots, .appendCnt, .mem, .reads, .readCnt, .maint, .waiting]

/-- The fields that the work of a restore reaches. -/
abbrev restoreFields : List Part.Field := [.journals, .header, .maint, .ctl, .mem]

/-- The fields that the entry to QUIESCING reaches. -/
abbrev quiesceFields : List Part.Field := .ret :: .ctl :: sessionFields

/-- The fields that a command's own effect reaches, before what comes due at the end of its event. -/
def reaches : Instr → List Part.Field
  | .attach _ => [.reqs, .links, .ntfs, .ntfCnt]
  | .detach _ => sessionFields
  | .status _ => [.reqs, .links]
  | .subscribe _ => [.reqs, .links, .journals]
  | .unsubscribe _ => [.reqs, .links, .journals]
  | .claim _ => [.reqs, .links, .journals, .ntfs, .ntfCnt]
  | .release _ => [.reqs, .links, .journals, .ntfs, .ntfCnt]
  | .takeover _ => [.reqs, .links, .journals, .ntfs, .ntfCnt, .slots, .appendCnt, .mem]
  | .append _ => [.reqs, .links, .journals, .ntfs, .ntfCnt, .slots, .appendCnt, .mem]
  | .read _ => [.reqs, .links, .journals, .reads, .readCnt, .mem]
  | .trim _ => [.reqs, .links, .journals, .readCnt, .mem]
  | .unknownRequest _ => [.reqs, .links]
  | .data _ => [.reqs, .links, .slots, .appendCnt, .mem]
  | .idleTimerExpiry _ => [.slots, .appendCnt, .mem]
  | .holdGraceExpiry _ => [.journals]
  | .appendWriteComplete => [.mem, .dram, .slots, .journals, .appendCnt]
  | .frontierAdvance _ => [.journals, .slots]
  | .directoryWriteStart _ => [.journals, .header, .mem]
  | .directoryWriteComplete =>
    [.mem, .dram, .reqs, .waiting, .slots, .journals, .ntfs, .ntfCnt, .maint, .header]
  | .appendDoneRelease _ => [.reqs, .waiting, .slots, .journals, .ntfs, .ntfCnt]
  | .deviceHeaderWriteComplete => [.mem, .dram, .journals, .header]
  | .transferComplete _ => [.journals, .ntfs, .ntfCnt]
  | .trimCheckComplete => [.mem, .dram, .reqs, .waiting, .journals, .readCnt]
  | .trimHeadAdvance _ => [.journals, .readCnt]
  | .trimComplete _ => [.journals, .reqs, .waiting]
  | .readBurstComplete => [.mem, .dram, .reads]
  | .readFrameQueued _ => [.reqs, .readCnt, .reads, .mem]
  | .readResponseQueued _ => [.reqs, .reads, .journals, .readCnt]
  | .appendDoneQueued _ => [.waiting, .reqs, .slots, .journals, .ntfs, .ntfCnt]
  | .waitingResponseQueued _ => [.waiting, .reqs]
  | .formatExecute => [.formatPending, .journals, .header, .mem]
  | .formatWritesComplete => [.mem, .dram, .journals, .header, .maint]
  | .transmitSelect _ => [.ntfs, .ntfCnt, .reqs, .links]
  | .sendIdle _ => [.links]
  | .sendLinkReset _ => [.links]
  | .replaySend _ => [.links]
  | .goodSequencedFrame _ _ _ _ => sessionFields
  | .idleFrame _ _ => sessionFields
  | .linkResetFrame _ => sessionFields
  | .frameCheckFail _ => [.links]
  | .replayTimerExpiry _ => sessionFields
  | .silenceTimerExpiry _ => sessionFields
  | .accessAdmit _ => [.reads, .mem]
  | .refreshTimerExpiry => [.mem, .dram, .maint]
  | .refreshComplete => [.mem]
  | .initialiseComplete => [.dram, .mem, .journals, .header, .maint, .ctl]
  | .selfRefreshEntryComplete => allButDram
  | .selfRefreshExitComplete => [.mem, .ret, .journals, .header, .maint, .ctl]
  | .coldStartWriteComplete => [.mem, .dram, .journals, .header]
  | .coldStartDone => [.ret, .ctl, .maint]
  | .headerLoadComplete => .mem :: .dram :: restoreFields
  | .entryLoadComplete => .mem :: .dram :: restoreFields
  | .directoryRewriteComplete => .mem :: .dram :: restoreFields
  | .restoreComplete => [.journals, .maint, .ret, .ctl]
  | .quiesceDrainDone => [.ret, .maint, .ctl, .mem]
  | .pfailNFall => allButDram
  | .pfailNRise => allButDram
  | .mainDomainStart => allButDram
  | .mainPowerOn => allButDram
  | .mainPowerLoss => allFields
  | .rstNLow => allFields
  | .rstNRelease => allButDram
  | .retentionPowerOn => allFields
  | .readStatus => [.maint]
  | .readJournal _ => [.maint]
  | .setLayout _ _ _ => [.journals, .header, .maint]
  | .clearLayout _ => [.journals, .header, .maint, .ntfs, .ntfCnt]
  | .setParam _ _ _ => [.maint, .journals, .header]
  | .forceRelease _ => [.maint, .journals, .ntfs, .ntfCnt, .slots, .appendCnt, .mem]
  | .saveAndHalt => quiesceFields
  | .resume => [.ret, .maint, .ctl, .mem]
  | .format => [.maint, .formatPending]
  | .readCounters _ _ => [.maint]
  | .clearCounters => [.links, .reqs, .ntfCnt, .appendCnt, .readCnt, .mem, .ctl, .maint]
  | .ackAttention _ => [.maint]
  | .setAttentionMask _ => [.maint]
  | .badCommand _ => [.maint]
  | .spiCutShort _ => [.maint]

/-! ## Conditions and results -/

/-- The command completes: it answers a next state with the queue as it was and a part of which `P` holds. -/
def Runs (c : Instr) (s : State) (P : Part → Prop) : Prop := ∃ q : Part, exec c s = .next { s with part := q } ∧ P q

/-- The command completes as an event: `P` holds of the part that its own effect leaves, and what has come due with it is
then carried out (log 3; what that is says `Obligations.EventsEndWithWhatIsDue`). -/
def Ends (c : Instr) (s : State) (P : Part → Prop) : Prop := ∃ r : Part, exec c s = .next { s with part := r.react } ∧ P r

/-- The command completes and leaves the retention controller as it was, the end of its event included. -/
def KeepsRetention (c : Instr) (s : State) : Prop := Runs c s fun q => q.ret = s.part.ret ∧ q.ctl = s.part.ctl

/-- The main domain runs in mode SERVING. -/
abbrev Part.serving (p : Part) : Prop := p.ret.running = true ∧ p.ret.mode = .serving

/-- The REQ frame with this payload is at the head of the port's buffer, and the intake may take it (R110). -/
abbrev Part.takes (p : Part) (i : Port) (payload : List Byte) : Prop :=
  p.ret.running = true ∧ (p.req i).buffer.head? = some ⟨false, payload⟩ ∧ p.holdsPayload i = false
    ∧ (p.req i).respQ.length < Config.responsePlaces

/-- A request passes the checks of the request layer (R111). -/
abbrev Part.admits (p : Part) (i : Port) (r : Req) : Prop :=
  p.ret.mode = .serving ∧ (p.req i).session.active = true ∧ r.tag ∉ (p.req i).tags
    ∧ (p.req i).tags.length < Config.maxTags

/-- A request of a code and of its length is taken and reaches the block that owns it (R110, R111). -/
abbrev Part.reachesBlock (p : Part) (i : Port) (code : Byte) (payload : List Byte) : Prop :=
  p.takes i payload ∧ isRequest code payload = true ∧ p.admits i (Req.ofPayload payload)

/-- The request layer after a REQ has been taken (R108, R119). -/
def RequestLayer.took (r : RequestLayer) : RequestLayer :=
  { r with buffer := r.buffer.tail, cnt := { r.cnt with reqTaken := satInc r.cnt.reqTaken } }

/-- The request layer after an answer given at once; a status other than OK is counted (R119). -/
def RequestLayer.answered (r : RequestLayer) (a : Rsp) : RequestLayer :=
  { r with
    respQ := r.respQ ++ [.rsp a]
    cnt := if a.status = .ok then r.cnt else { r.cnt with refused := satInc r.cnt.refused } }

/-- The request layer with a tag in flight (R112). -/
def RequestLayer.entered (r : RequestLayer) (t : Byte) : RequestLayer := { r with tags := r.tags ++ [t] }

/-- The link unit with request credits returned (R108). -/
def LinkUnit.credited (u : LinkUnit) (n : Nat) : LinkUnit :=
  { u with freePlaces := min Config.requestPlaces (u.freePlaces + n) }

/-- The part with a port's request layer changed and the credit of one taken frame returned. -/
def Part.served (p : Part) (i : Port) (f : RequestLayer → RequestLayer) : Part :=
  (p.modReq i f).modLink i fun u => u.credited 1

/-- The request commands but ATTACH, with their codes (Table 11-3). -/
def requestCommands : List ((Port → Instr) × Byte) :=
  [(.detach, codeDetach), (.status, codeStatus), (.subscribe, codeSubscribe), (.unsubscribe, codeUnsubscribe),
    (.claim, codeClaim), (.release, codeRelease), (.takeover, codeTakeover), (.append, codeAppend), (.read, codeRead),
    (.trim, codeTrim)]

/-- The operation in flight is an access of this client, to a burst that DRAM has, and the main domain runs. -/
abbrev Part.completes (p : Part) (a : Access) : Prop :=
  p.ret.running = true ∧ p.mem.op = some (.access a) ∧ a.addr + Config.burstBytes ≤ Config.dramBytes

/-- The port a command names. -/
def portOf : Instr → Option Port
  | .attach i | .detach i | .status i | .subscribe i | .unsubscribe i | .claim i | .release i | .takeover i
  | .append i | .read i | .trim i | .unknownRequest i | .data i | .appendDoneQueued i | .waitingResponseQueued i
  | .transmitSelect i | .sendIdle i | .sendLinkReset i | .replaySend i | .goodSequencedFrame i _ _ _ | .idleFrame i _
  | .frameCheckFail i | .replayTimerExpiry i | .silenceTimerExpiry i => some i
  | .linkResetFrame f => some f.port
  | _ => none

/-! ## Results of shared steps -/

/-- A write of the item is due. -/
def Part.dirDue (p : Part) (i : Item) : Bool := (p.dirOf i).dirty && !(p.dirOf i).inFlight

/-- The entry after the start of a write that is due: the snapshot is taken, dirty is cleared and in-flight set, and the
responses bound to the next write belong to this one (R18, R20). -/
def Journal.started (e : Journal) : Journal :=
  if e.dir.dirty && !e.dir.inFlight then
    { e with
      dir := { e.dir with dirty := false, inFlight := true, snapshot := some e.snap }
      boundFlight := e.boundNext
      boundNext := [] }
  else e

/-- An entry that joins the tail, or is dropped and counted (R94, cases 2 and 3). -/
def NotifyPort.joined (n : NotifyPort) (e : Ntf) : NotifyPort :=
  if n.queue.length < Config.notifyPlaces then { n with queue := n.queue ++ [e] }
  else { n with drops := min Config.maxDrops (n.drops + 1), overflow := true }

/-- An entry placed (R94, R95): a FRONTIER folds into the queued one of its journal, a LAYOUT replaces it. -/
def NotifyPort.placed (n : NotifyPort) (e : Ntf) : NotifyPort :=
  match e with
  | .frontier j _ _ =>
    if n.queue.any (Ntf.isFrontierOf j) then
      { n with queue := n.queue.map fun x => if x.isFrontierOf j then e else x }
    else n.joined e
  | .layout j =>
    if n.queue.any (Ntf.isFrontierOf j) then
      { n with queue := n.queue.filter (fun x => !x.isFrontierOf j) ++ [e] }
    else n.joined e
  | _ => n.joined e

/-- The notification state of a port that an entry is handed to (R93): it is discarded without an ACTIVE session, and
while a MODE entry is retained. -/
def NotifyPort.handed (n : NotifyPort) (active : Bool) (e : Ntf) : NotifyPort :=
  if active && !n.modeRetained then n.placed e else n

abbrev Part.handed (p : Part) (i : Port) (e : Ntf) : NotifyPort := (p.ntf i).handed (p.req i).session.active e

/-- The entry with its dirty flag set. -/
def Journal.dirtied (e : Journal) : Journal := { e with dir := { e.dir with dirty := true } }

/-- The request layer after a DATA frame has been taken (R108, R119). -/
def RequestLayer.tookData (r : RequestLayer) : RequestLayer :=
  { r with buffer := r.buffer.tail, cnt := { r.cnt with dataTaken := satInc r.cnt.dataTaken } }

/-- The memory engine after a client has handed an access (R141): queued, with the arbiter's choice where the command path
is free, or held by its client. -/
def MemEngine.handed (m : MemEngine) (urgent : Nat) (a : Access) : MemEngine :=
  if m.room a.cls && !(m.held.any fun h => sameClient h.client a.client) then
    MemEngine.arbitrate { m with queue := m.queue ++ [a] } urgent
  else { m with held := m.held ++ [a] }

/-- The memory engine after accesses handed in turn. -/
def MemEngine.handedAll (m : MemEngine) (urgent : Nat) (as : List Access) : MemEngine :=
  as.foldl (fun m a => m.handed urgent a) m

/-- The part's memory engine after accesses handed in turn, with the urgent threshold in force. -/
abbrev Part.memAfter (p : Part) (as : List Access) : MemEngine := p.mem.handedAll p.maint.params.urgent.toNat as

/-- A pending trim in HELD that no pin of the journal holds back any more (R85). -/
def Conf.headMoves (c : Conf) (t : PendingTrim) : Prop :=
  c.trim = some t ∧ t.phase = .held ∧ ∀ x ∈ c.pins, t.target.toNat ≤ x.toNat

/-- The entry after an advance of head (R85). -/
def Journal.headAt (e : Journal) (c : Conf) (t : PendingTrim) : Journal :=
  { e.dirtied with
    conf := some
      { c with
        head := t.target
        trim := some { t with phase := .advanced }
        armed := c.armed || decide (c.reserve.toNat - t.target.toNat < c.count.toNat * 65536 * e.watermark.toNat / 100) } }

/-- What a head-advance check of journal j leaves, `c` being its entry's configuration at the check: head takes the target
and the trim is counted, or nothing else changes. -/
def Part.headChecked (p q : Part) (j : JournalId) (c : Conf) : Prop :=
  (∀ t, c.headMoves t →
      q.journal j = (p.journal j).headAt c t ∧ q.readCnt.trims = satInc p.readCnt.trims)
    ∧ ((∀ t, ¬c.headMoves t) →
      q.journal j = { p.journal j with conf := some c } ∧ q.readCnt.trims = p.readCnt.trims)
    ∧ ∀ k, k ≠ j → q.journal k = p.journal k

/-- The OWNER entry of a journal's state, epoch and owner tag (R66). -/
def Journal.ownerEntry (e : Journal) (j : JournalId) : Ntf := .owner j e.state e.epoch e.ownerTag

/-- The entry at the completion of its transfer (R60), `c` being its configuration with the slot count at that moment: the
claimant owns the journal under its controller tag, or no session does; the epoch rises, the entry is dirty, and the answer
is bound to the next directory write. `force` says that a FORCE_RELEASE of the journal waits and is not bound yet. -/
def Journal.handedOver (e : Journal) (c : Conf) (claimant : Option Claimant) (tag : W32) (force : Bool) : Journal :=
  { e.dirtied with
    conf := some
      { c with
        own := match claimant with
          | some cl => .owned cl.session tag
          | none => .unassigned }
    epoch := e.epoch + 1
    boundNext := e.boundNext ++
      match claimant with
      | some cl =>
        [.answer cl.session { code := 0x08#8, tag := cl.reqTag, status := .ok, values := .epoch (e.epoch + 1) }]
      | none => if force then [.forceRelease] else [] }

/-- A transfer that the release of `k` slots of the journal completes (R59). -/
def Conf.completesAt (c : Conf) (k : Nat) : Bool :=
  decide (c.state = .transferring) && decide (1 ≤ k) && decide (c.openSlots ≤ k)

/-- The entry of journal j after `k` of its slots have become FREE (R24, R44): the open-slot count falls, and a transfer
that has no open slot left completes (R59, R60). -/
def Part.freedEntry (p : Part) (j : JournalId) (e : Journal) (k : Nat) : Journal :=
  match e.conf with
  | none => e
  | some c =>
    let d := { c with openSlots := c.openSlots - k }
    match c.own with
    | .transferring _ _ claimant =>
      if c.completesAt k then
        e.handedOver d claimant ((claimant.bind fun cl => (p.req cl.session.port).session.tag).getD 0)
          (decide (p.maint.deferred = .waiting (.forceRelease j))
            && !decide (.forceRelease ∈ e.boundNext ++ e.boundFlight))
      else { e with conf := some d }
    | _ => { e with conf := some d }

/-- A port that OWNER goes to at a change of the entry (R66): a subscriber, or the old owner's of a transfer while its
session is attached. -/
def Part.ownerGoesTo (p : Part) (e : Journal) (k : Port) : Bool :=
  e.conf.any fun c =>
    decide (k ∈ c.subs)
      || match c.own with
        | .transferring (some o) _ _ => decide (o.port = k) && p.live o
        | _ => false

/-- The notification state of port i after `k` slots of journal j have become FREE: OWNER, where a transfer completes. -/
def Part.freedNtf (p : Part) (j : JournalId) (e : Journal) (k : Nat) (i : Port) : NotifyPort :=
  if (e.conf.any fun c => c.completesAt k) && p.ownerGoesTo e i then p.handed i ((p.freedEntry j e k).ownerEntry j)
  else p.ntf i

/-- What the release of a deferred answer to a session leaves (R52): queued when a frame is free and no response of the
port waits, waiting else, and discarded when the session has ended. That an answer waits behind the port's earlier waiting
responses even where a frame is free is the model's reading (log 18). -/
def Part.releasedTo (p q : Part) (s : SessionId) (a : Rsp) : Prop :=
  let live := (p.req s.port).session.active = true ∧ (p.req s.port).session.gen = s.gen
  let free := (p.req s.port).respQ.length < 32 ∧ p.waits s.port = []
  (live → free →
      q.req s.port =
        { p.req s.port with
          respQ := (p.req s.port).respQ ++ [.rsp a]
          tags := (p.req s.port).tags.filter fun t => decide (t ≠ a.tag) }
      ∧ q.waits s.port = [])
    ∧ (live → ¬free → q.req s.port = p.req s.port ∧ q.waits s.port = p.waits s.port ++ [.answer a])
    ∧ (¬live → q.req s.port = p.req s.port ∧ q.waits s.port = p.waits s.port)

/-- What deferred answers released to port i in turn leave (R45, R52), each given as what waits where no frame is free and
as its response: while no response of the port waits they take the free frames of its response queue, and the others wait,
in their order. With a queued answer its tag leaves, with an APPEND_DONE an open append ends (R44). That an answer waits
behind the port's earlier waiting responses even where a frame is free is the model's reading (log 18). -/
def Part.releasesInTurn (p q : Part) (i : Port) (answers : List (Waiting × Rsp)) : Prop :=
  let room := if p.waits i = [] then 32 - (p.req i).respQ.length else 0
  let queued := answers.take room
  q.req i =
    { p.req i with
      respQ := (p.req i).respQ ++ queued.map fun a => .rsp a.2
      tags := (p.req i).tags.filter fun t => decide (∀ a ∈ queued, t ≠ a.2.tag)
      session :=
        { (p.req i).session with
          openAppends := (p.req i).session.openAppends
            - queued.countP fun a => match a.1 with | .appendDone _ => true | .answer _ => false } }
  ∧ q.waits i = p.waits i ++ (answers.drop room).map Prod.fst

/-- The answers among responses, with their sessions, that go to port i: those of live sessions (R52). -/
def Part.answersTo (p : Part) (i : Port) (answers : List (SessionId × Rsp)) : List (Waiting × Rsp) :=
  (answers.filter fun a => decide (a.1.port = i) && p.live a.1).map fun a => (.answer a.2, a.2)

/-- The answers to sessions among bound responses, in the order in which they were bound (R20). -/
def boundAnswers (bs : List Bound) : List (SessionId × Rsp) :=
  bs.filterMap fun b => match b with | .answer s r => some (s, r) | .forceRelease => none

/-- The APPEND_DONEs of released slots that go to port i, in the order of the slots (R44, R46). -/
def Part.donesTo (p : Part) (i : Port) (ns : List SlotId) : List (Waiting × Rsp) :=
  ns.filterMap fun n =>
    ((p.slot n).filter fun x => decide (x.session.port = i) && p.live x.session).map fun x =>
      (.appendDone n,
        { code := 0x09#8, tag := x.reqTag, status := if x.outcome = some .voided then .voided else .ok
          values := .appendDone x.reason x.seq x.position })

/-! ## Directory -/

/-- The write of an item that starts (R18): the copy that is not the newest, with the next generation. -/
def Part.dirWrite (p : Part) (i : Item) : Access :=
  { kind := .fullWrite
    cls := .directory
    addr :=
      (if (p.dirOf i).newest = .a then 0x1000 else 0)
        + (match i with | .header => 0 | .journal j => 0x40 + 0x40 * j.val)
    mask := 0xFF#8
    data := p.itemBytes i ((p.dirOf i).gen + 1)
    client := .dirWriter i
    bypass := 0 }

/-- The items in their order, the journals first. -/
def itemsInOrder : List Item :=
  [.journal 0, .journal 1, .journal 2, .journal 3, .journal 4, .journal 5, .journal 6, .journal 7, .header]

/-- The device header's writer after the start of a write that is due. -/
def DirWriter.started (d : DirWriter) : DirWriter :=
  if d.dirty && !d.inFlight then { d with dirty := false, inFlight := true, snapshot := none } else d

/-! ## Link -/

/-- The link unit after an acknowledgement (R131). -/
def LinkUnit.acked (u : LinkUnit) (a : Seq) : LinkUnit :=
  match u.replayBuf with
  | [] => u
  | oldest :: _ =>
    let k := (a - oldest.seq).toNat + 1
    if k ≤ u.replayBuf.length then
      { u with
        replayBuf := u.replayBuf.drop k
        replay := if k = u.replayBuf.length then none else u.replay.map fun x => x - k
        replayCount := 0
        replayTimer := decide (k < u.replayBuf.length) }
    else u

/-- A replay trigger finds something to replay and none running (R134). -/
def LinkUnit.triggered (u : LinkUnit) : Prop := u.replayBuf ≠ [] ∧ u.replay = none

/-- A replay starts (R134). -/
def LinkUnit.replaying (u : LinkUnit) : LinkUnit :=
  { u with
    replay := some 0
    replayCount := u.replayCount + 1
    replayTimer := true
    cnt := { u.cnt with replays := satInc u.cnt.replays } }

/-- The link unit in UP after a good frame's own count, the restart of the silence timer, the acknowledgement and the
credit return (R121, R128, R131, R185), before its NAK flag. -/
def LinkUnit.heard (u : LinkUnit) (h : Header) : LinkUnit :=
  { u.acked h.ack with
    report := min 8 h.credit.toNat
    silenceTimer := true
    cnt := { u.cnt with good := satInc u.cnt.good } }

/-- The header's NAK flag takes the link down (R134, R135). -/
def LinkUnit.nakEnds (u : LinkUnit) (h : Header) : Prop :=
  h.nak = true ∧ (u.heard h).triggered ∧ 8 ≤ (u.heard h).replayCount

/-- `v` is the link unit in UP after the header of a good frame has been taken, its NAK flag included (R131, R134). -/
def LinkUnit.takes (u : LinkUnit) (h : Header) (v : LinkUnit) : Prop :=
  (h.nak = true ∧ (u.heard h).triggered ∧ v = (u.heard h).replaying)
    ∨ (¬(h.nak = true ∧ (u.heard h).triggered) ∧ v = u.heard h)

/-- A NAK made due (R130). -/
def LinkUnit.owesNak (u : LinkUnit) : LinkUnit := { u with nak := if u.nak = .none then .pending else u.nak }

/-- A frame sent in UP (R122): its header is built at this moment, and a pending NAK goes with it. -/
def LinkUnit.sent (u : LinkUnit) (ftype : Byte) (seq : Seq) (payload : List Byte) : LinkUnit :=
  { u with
    lane := some (frameBytes ftype seq (u.expected - 1) (decide (u.nak = .pending)) u.freePlaces payload)
    nak := if u.nak = .pending then .sent else u.nak
    cnt := if u.nak = .pending then { u.cnt with naksSent := satInc u.cnt.naksSent } else u.cnt }

/-- The link unit as it leaves UP (R126). -/
def LinkUnit.left (u : LinkUnit) (cause : DownCause) (cnt : LinkCounters) : LinkUnit :=
  { u with
    state := .down
    cause := some cause
    resets := 0
    syncCount := 0
    nak := .none
    replayBuf := []
    replay := none
    replayTimer := false
    silenceTimer := false
    cnt := cnt }

/-! ## Sessions -/

/-- The ownership of a journal after the end of a session (R63, R64). -/
def Ownership.leftBy (o : Ownership) (s : SessionId) (grace : W16) : Ownership :=
  match o with
  | .owned w t => if w = s then .held t (if grace = 0 then .expired else .running grace) else o
  | .transferring w t cl =>
    .transferring (if w = some s then none else w) t (if (cl.map Claimant.session) = some s then none else cl)
  | _ => o

/-- The read contexts that the end of the session cancels (R79). -/
def Part.cancels (p : Part) (s : SessionId) (r : ReadId) : Bool :=
  decide (r.val / 2 = s.port.val) && (p.readCtx r).any fun x => decide (x.gen = s.gen) && decide (x.state ≠ .draining)

/-- The start positions of the session's reads of journal j that are cancelled: the pins that leave (R79). -/
def Part.startsOf (p : Part) (s : SessionId) (j : JournalId) : List W64 :=
  (([0, 1, 2, 3, 4, 5, 6, 7] : List ReadId).filter (p.cancels s)).filterMap fun r =>
    (p.readCtx r).bind fun x => if x.journal = j then some x.start else none

/-- The pins of an entry without those of the cancelled reads, one instance for each (R79). -/
def Conf.unpinned (c : Conf) (starts : List W64) : Conf := { c with pins := starts.foldl List.erase c.pins }

/-- The trim whose target head takes when pins have left (R85): in HELD, with no pin that remains below the target. -/
def Conf.freesHead (c : Conf) (starts : List W64) : Option PendingTrim :=
  if starts = [] then none
  else c.trim.filter fun t => decide (t.phase = .held) && c.pins.all fun x => decide (t.target.toNat ≤ x.toNat)

/-- The entry of a journal after the end of the session `s` but for the slots that become FREE with it: the port is no
subscriber (R98), the reads' pins have left and head moves where a trim waited for them (R79, R85), and the ownership is
what the session leaves (R63, R64). -/
def Journal.partedFrom (e : Journal) (s : SessionId) (grace : W16) (starts : List W64) : Journal :=
  match e.conf with
  | none => e
  | some c =>
    let d := { c.unpinned starts with own := c.own.leftBy s grace, subs := c.subs.filter fun k => decide (k ≠ s.port) }
    let e' := if c.ownedBy s then e.dirtied else e
    match d.freesHead starts with
    | none => { e' with conf := some d }
    | some t => e'.headAt d t

/-- The VOID header writes of the slots in RECEIVING that a test holds of, in the order of the slots' numbers (R36; the
order: log 41). -/
def Part.voidHeaders (p : Part) (reason : VoidReason) (f : Slot → Bool) : List Access :=
  ([0, 1, 2, 3, 4, 5, 6, 7, 8, 9, 10, 11] : List SlotId).flatMap fun n =>
    match p.slot n with
    | none => []
    | some x =>
      if f x = true ∧ x.state = .receiving then
        match (p.journal x.journal).conf with
        | none => []
        | some c =>
          runWrites (.slot n .header) 32 (c.address x.position.toNat)
            (recordHeader .void x.session.port (some reason) x.seq x.length x.epoch x.position x.declared x.recordTag)
      else []

/-- The VOID header writes at the end of a session (R40). -/
def Part.voidsOf (p : Part) (s : SessionId) : List Access :=
  p.voidHeaders .sessionEnded fun x => decide (x.session = s)

/-- The slot belongs to the journal and to the session that is fenced there (R39). -/
def Slot.fencedBy (x : Slot) (j : JournalId) (o : SessionId) : Bool := decide (x.journal = j) && decide (x.session = o)

/-- The append engine's counters after the fencing of a session on journal j: each slot voided is counted (R39, R47). -/
def Part.fencedCnt (p : Part) (j : JournalId) (o : SessionId) : AppendCounters :=
  { p.appendCnt with
    voidFenced := satAdd p.appendCnt.voidFenced
      (p.slotsWith fun x => x.fencedBy j o && decide (x.state = .receiving)).length }

/-- How many slots of journal j become FREE with the discarded APPEND_DONEs of a port (R45). -/
def Part.waitingOn (p : Part) (i : Port) (j : JournalId) : Nat :=
  ([0, 1, 2, 3, 4, 5, 6, 7, 8, 9, 10, 11] : List SlotId).countP fun n =>
    decide (.appendDone n ∈ p.waits i) && (p.slot n).any fun x => decide (x.journal = j)

/-- What the end of the session `s` leaves in the blocks beside the request layer, the link unit and the port's own
notification queue (R106, Table 6-2), the notification unit's counters aside. Its slots in RECEIVING are voided and their
VOID headers handed (R36, R40); its reads are cancelled and the bursts they held are dropped (R79); the port's waiting
responses are discarded, and the slot of a waiting APPEND_DONE becomes FREE (R45). Each journal is what `partedFrom` leaves,
its freed slots counted, which may complete a transfer (R59, R60). JOURNAL_HELD is raised for the journals the session
owned; their OWNER entries, then those of the completed transfers in one order for all ports, go to the other ports (R63,
R66). That the voids come first, the journals go J0 to J7 and the freed slots come last is the model's choice (log 27), the
order of the voids too (log 41). -/
def Part.sessionLeft (p q : Part) (s : SessionId) : Prop :=
  let journals : List JournalId := [0, 1, 2, 3, 4, 5, 6, 7]
  let parted := fun j => (p.journal j).partedFrom s p.maint.params.grace (p.startsOf s j)
  let owned := fun j => (p.journal j).conf.any fun c => c.ownedBy s
  let completes := fun j => (parted j).conf.any fun c => c.completesAt (p.waitingOn s.port j)
  let voids := p.memAfter (p.voidsOf s)
  (∀ n, q.slot n =
      if .appendDone n ∈ p.waits s.port then none
      else (p.slot n).map fun x =>
        if x.session = s ∧ x.state = .receiving then
          { x with
            reason := some .sessionEnded
            idle := none
            carry := []
            outstanding := x.outstanding + 1
            state := .voiding }
        else x)
    ∧ (∀ r, q.readCtx r =
        if p.cancels s r then
          (p.readCtx r).bind fun c =>
            if c.outstanding = 0 then none else some { c with state := .draining, staged := none }
        else p.readCtx r)
    ∧ (∀ k, q.waits k = if k = s.port then [] else p.waits k)
    ∧ q.mem =
      { voids with
        held := voids.held.filter fun a =>
          match a.client with
          | .readCtx r => !p.cancels s r
          | _ => true }
    ∧ (∀ j, q.journal j = q.freedEntry j (parted j) (p.waitingOn s.port j))
    ∧ (∀ j, owned j = true → q.maint.pending.getLsbD (8 + j.val) = true)
    ∧ (∃ done : List JournalId, done.Nodup ∧ (∀ j, j ∈ done ↔ completes j = true)
      ∧ ∀ k, k ≠ s.port → q.ntf k =
        ((journals.filter owned ++ done).filter fun j => q.ownerGoesTo (parted j) k).foldl
          (fun n j => n.handed (p.req k).session.active ((q.journal j).ownerEntry j)) (p.ntf k))
    ∧ q.appendCnt =
      { p.appendCnt with
        voidSession := satAdd p.appendCnt.voidSession
          (p.slotsWith fun x => decide (x.session = s) && decide (x.state = .receiving)).length }
    ∧ q.readCnt =
      { p.readCnt with
        cancelled := satAdd p.readCnt.cancelled
          (([0, 1, 2, 3, 4, 5, 6, 7] : List ReadId).countP (p.cancels s))
        trims := satAdd p.readCnt.trims
          (journals.countP fun j => (p.journal j).conf.any fun c =>
            ((c.unpinned (p.startsOf s j)).freesHead (p.startsOf s j)).isSome) }

/-- A queue that a session end has emptied but for a retained MODE entry (R98). -/
def NotifyPort.emptied (n : NotifyPort) : NotifyPort :=
  { n with queue := n.queue.filter (fun e => n.modeRetained && e.isMode), overflow := false, drops := 0 }

/-- The request layer after a session end (R106); the counter is the cause's. -/
def RequestLayer.ended (r : RequestLayer) (cnt : RequestCounters) : RequestLayer :=
  { r with
    session := { active := false, tag := none, gen := r.session.gen, openAppends := 0 }
    buffer := []
    tags := []
    respQ := []
    cnt := cnt }

/-! ## Power -/

/-- No item is dirty and none has a write in flight. -/
abbrev Part.clean (p : Part) : Prop := ∀ i, (p.dirOf i).dirty = false ∧ (p.dirOf i).inFlight = false

/-- No slot is in use and no journal has a pending trim. -/
abbrev Part.unused (p : Part) : Prop := (∀ n, p.slot n = none) ∧ ∀ j c, (p.journal j).conf = some c → c.trim = none

/-- A pending FORMAT that the end of an event carries out (R23): an item that is dirty would start its write first. -/
abbrev Part.formatReady (p : Part) : Prop := p.formatPending = true ∧ p.unused ∧ p.clean

/-- A cold start whose writes have completed (R162). -/
abbrev Part.coldReady (p : Part) : Prop :=
  p.ret.mode = .initializing ∧ p.ctl.work = .coldWrites ∧ p.ctl.abandoned = false ∧ ∀ i, (p.dirOf i).copiesLeft = 0

/-- A restore that has rebuilt every journal and whose writes have completed (R169). -/
abbrev Part.restoreReady (p : Part) : Prop :=
  p.ret.mode = .restoring ∧ p.ctl.abandoned = false ∧ (p.ctl.work = .entryLoad ∨ p.ctl.work = .headerRewrite)
    ∧ (∀ j, j ∈ p.ctl.rebuilt) ∧ p.clean

/-- The drain condition (R164), with the entry order not given yet. -/
abbrev Part.drainReady (p : Part) : Prop :=
  p.ret.mode = .quiescing ∧ p.ctl.drainOrdered = false ∧ (∀ i, (p.req i).session.active = false) ∧ p.unused
    ∧ p.formatPending = false ∧ p.clean ∧ p.mem.queue = []

/-- `q` is what FORMAT leaves when it is carried out (R23): both copies of every item are handed, the copy that is not the
newest first. -/
def Part.formatted (p q : Part) : Prop :=
  let layout := p.header.layoutGen.map fun g => g + 1
  let bytes := fun (i : Item) (gen : W32) =>
    match i with
    | .journal j => entryBytes j { epoch := 0, conf := none } gen
    | .header => headerBytes (layout.getD 0) p.maint.params p.watermarks gen
  let copies := fun i : Item =>
    let d := p.dirOf i
    let old := if d.newest = .a then Copy.b else Copy.a
    [directoryWrite (.formatWrite i old) i old (bytes i (d.gen + 1)),
      directoryWrite (.formatWrite i d.newest) i d.newest (bytes i (d.gen + 2))]
  q.formatPending = false ∧ q.header.layoutGen = layout
    ∧ (∀ j, (q.journal j).conf = none ∧ (q.journal j).epoch = 0 ∧ (q.journal j).watermark = (p.journal j).watermark)
    ∧ (∀ i, q.dirOf i = { p.dirOf i with dirty := false, inFlight := true, snapshot := none, copiesLeft := 2 })
    ∧ q.maint = p.maint ∧ q.mem = p.memAfter (itemsInOrder.flatMap copies)

/-- `q` is what the end of a cold start leaves of the mode, the work and the attention causes (R162). -/
def Part.coldEnded (p q : Part) : Prop :=
  q.ret = { p.ret with mode := .serving, cause := none }
    ∧ q.maint.pending = p.maint.pending ||| 0x0003#16
    ∧ q.ctl = { p.ctl with work := .idle, cnt := { p.ctl.cnt with coldStarts := satInc p.ctl.cnt.coldStarts } }

/-- `q` is what the end of a restore leaves (R172): the hold-grace timers of HELD journals start. -/
def Part.restoreEnded (p q : Part) : Prop :=
  q.ret = { p.ret with mode := .serving, flag := false }
    ∧ q.ctl.work = .idle ∧ q.ctl.cnt = { p.ctl.cnt with warmRestores := satInc p.ctl.cnt.warmRestores }
    ∧ q.maint.pending.getLsbD 0 = true
    ∧ ∀ j,
      (∀ c t g, (p.journal j).conf = some c → c.own = .held t g →
        q.journal j =
          { p.journal j with
            conf := some
              { c with own := .held t (if p.maint.params.grace = 0 then .expired else .running p.maint.params.grace) } }
        ∧ q.maint.pending.getLsbD (8 + j.val) = true)
      ∧ ((∀ c t g, (p.journal j).conf = some c → c.own ≠ .held t g) → q.journal j = p.journal j)

/-- `q` is what the end of a drain leaves while the DRAM is ACTIVE (R165, R154): the entry order waits for the arbiter. -/
def Part.drainEnds (p q : Part) : Prop :=
  q.ctl = { p.ctl with drainOrdered := true }
    ∧ q.mem = MemEngine.arbitrate { p.mem with entryWaiting := true } p.maint.params.urgent.toNat

/-- The memory engine of a main domain that does not run: its start values, the DRAM condition as the self-refresh record has
it. The count of missed refreshes is the model's (log 8). -/
def MemEngine.stopped (selfRefresh : Bool) (missed : Nat) : MemEngine :=
  { cond := if selfRefresh then .selfRefresh else .uninitialised, missCount := missed }

/-- The memory engine after a self-refresh entry (R154). -/
def MemEngine.inSelfRefresh (m : MemEngine) : MemEngine :=
  { m with
    op := none
    banks := m.banks.map fun b => { b with openRow := none }
    cond := .selfRefresh
    refreshTimer := false
    debt := 0
    postExit := false }

/-- Every block of the main domain holds its start values, as at reset, but for the memory engine, the retention controller's
work, and the attention causes raised since; DRAM is as it was. -/
def Part.startsFresh (p q : Part) : Prop :=
  let z := State.reset.part
  q.links = z.links ∧ q.reqs = z.reqs ∧ q.ntfs = z.ntfs ∧ q.ntfCnt = z.ntfCnt ∧ q.journals = z.journals
  ∧ q.header = z.header ∧ q.formatPending = false ∧ q.waiting = z.waiting ∧ q.slots = z.slots
  ∧ q.appendCnt = z.appendCnt ∧ q.reads = z.reads ∧ q.readCnt = z.readCnt
  ∧ q.maint.params = z.maint.params ∧ q.maint.deferred = .none ∧ q.maint.mask = 0xFFFF#16
  ∧ q.maint.spi = .waiting ∧ q.maint.response = [] ∧ q.dram = p.dram

/-- `q` is what a start of the main domain with PFAIL_N high leaves (R161): `r` is the retention domain at the start. -/
def Part.startsHigh (p q : Part) (r : Retention) : Prop :=
  let idle := MemEngine.stopped r.selfRefresh p.mem.missCount
  p.startsFresh q
  ∧ (r.flag = true → r.selfRefresh = true →
      q.ret = { r with mode := .restoring, cause := none, startKind := .warm, running := true }
      ∧ q.ctl.work = .restoreExit ∧ q.mem = { idle with op := some .exit })
  ∧ (r.flag = false →
      q.ret = { r with mode := .initializing, cause := none, startKind := .cold, running := true }
      ∧ q.ctl.work = (if r.selfRefresh then .coldExit else .coldInit)
      ∧ q.mem = { idle with op := some (if r.selfRefresh then .exit else .initialise) })

/-! ## DRAM -/

/-- The byte that an access leaves at an address (R142, R148): the access's own where its kind writes the granule, else the
byte that stood there. -/
def Access.leaves (a : Access) (dram : List Host.Cell) (at_ : Nat) : Byte :=
  let k := at_ - a.addr
  if a.addr ≤ at_ ∧ k < 64 ∧ k < a.data.length
      ∧ (a.kind = .fullWrite ∨ a.kind = .maskedWrite ∧ a.mask.getLsbD (k / 8) = true) then
    byteAt a.data k
  else Memory.read dram at_

/-! ## Maintenance -/

/-- A maintenance transaction that is taken: it is counted as completed (R176), and `P` holds of its effect on the part so
counted. That the count comes before the effect is the model's choice (log 20), and that it stops at FFFFFFFFh (log 45). -/
def Takes (c : Instr) (s : State) (P : Part → Part → Prop) : Prop :=
  Ends c s (P (s.part.modMaint fun m => { m with cnt := { m.cnt with completed := satInc m.cnt.completed } }))

/-- The maintenance port with its response formed, none of it returned yet (R176). -/
def Maint.answered (m : Maint) (response : List Byte) : Maint := { m with response := response, spi := .responding 0 }

/-- The part with its response formed: the status byte and the response bytes (R176). -/
def Part.replies (p : Part) (status : MaintStatus) (bytes : List Byte) : Part :=
  p.modMaint fun m => m.answered (status.code :: bytes)

/-- The maintenance commands with the modes that Table 10-1 marks for them. -/
def modesOf : Instr → Option (List Mode)
  | .readStatus | .readCounters _ _ | .clearCounters | .ackAttention _ | .setAttentionMask _ =>
    some [.initializing, .restoring, .serving, .quiescing, .halted]
  | .readJournal _ => some [.serving, .quiescing, .halted]
  | .setLayout _ _ _ | .clearLayout _ | .setParam _ _ _ | .forceRelease _ | .format => some [.serving]
  | .saveAndHalt => some [.serving, .quiescing]
  | .resume => some [.halted]
  | _ => none

end Sys2Proof.Machine
end

