-- ==== Sys2Proof/Certificates/Slice0/Obligations.lean ====
section
/-! DEFINITION. The statements for the provers, family by family. A statement of several parts is the conjunction of the
definitions `Rules.…` that stand before it. -/

open Sys2Proof Sys2Proof.Machine

/-! ## The machine -/

/-- One step carries out the command at the front of the queue, on the state with the queue's rest. -/
def Obligations.StepRunsTheFrontCommand : Prop :=
  ∀ (c : Instr) (rest : List Instr) (p : Part) (pins : SpiPins), step ⟨c :: rest, p, pins⟩ = exec c ⟨rest, p, pins⟩

/-- On an empty queue the SPI pins bring their next event; where they have none, the part idles. The model's choice
(log 5). -/
def Rules.EmptyQueueLeavesThePins : Prop :=
  ∀ (p : Part) (pins : SpiPins),
    (pins.wire = [] → step ⟨[], p, pins⟩ = .next ⟨[], p, pins⟩)
    ∧ ∀ e rest, pins.wire = e :: rest → step ⟨[], p, pins⟩ = State.spiEvent ⟨[], p, { pins with wire := rest }⟩ e

/-- No command adds to the queue or takes from it, nor changes the pins. The queue is the model's own. -/
def Rules.CommandsKeepTheQueue : Prop :=
  ∀ (c : Instr) (s t : State), exec c s = .next t → t.pending = s.pending ∧ t.pins = s.pins

/-- The queue of waiting commands: on an empty one the SPI pins have their turn, and no command adds to the queue or the
pins or takes from them. The queue is the model's own (log 5). -/
def Obligations.QueueIsTheModelsOwn : Prop := Rules.EmptyQueueLeavesThePins ∧ Rules.CommandsKeepTheQueue

/-- Every command answers a next state, but for the completion of an access whose burst DRAM does not have: 08, 8.1 gives
DRAM 2 GiB of addresses, and no other stop is in the model (log 26). -/
def Obligations.CommandsStopOutsideDramOnly : Prop :=
  ∀ (c : Instr) (s : State),
    (∃ t, exec c s = .next t)
      ∨ (exec c s = .fault .addressOutsideDram
        ∧ ∃ a, s.part.mem.op = some (.access a) ∧ Config.dramBytes < a.addr + Config.burstBytes)

/-- Reset: the values of R24, R71, R90, R102, R120, R153, R160, R176, R178, R180, R183 and Table 5-2 in every block, every
counter 0 (R47, R89, R101, R119, R139, R159, R175, R182), with the initialise operation of R162 in flight. That the reset
event is the first start of the main domain, that DRAM reads 00h, and the values of the journal table, of the device header,
of the link's sequence, credit, report and lane fields, of the lines and supplies and of the SPI pins are the model's choice
(logs 1, 7, 10, 30 and 48). -/
def Obligations.ResetState : Prop :=
  let p := State.reset.part
  let writer : DirWriter :=
    { dirty := false, inFlight := false, snapshot := none, newest := .a, gen := 0, copiesLeft := 0 }
  State.reset.pending = [] ∧ State.reset.pins = { wire := [], out := none, untaken := 0 } ∧ p.dram = []
    ∧ p.ret =
      { mode := .initializing, flag := false, cause := none, pfailHigh := true, startKind := .cold, selfRefresh := false
        retentionPower := true, mainPower := true, rstHigh := true, running := true }
    ∧ (p.ctl.work = .coldInit ∧ p.ctl.abandoned = false ∧ p.ctl.drainOrdered = false ∧ p.ctl.loaded = []
      ∧ p.ctl.rebuilt = [])
    ∧ (∀ i : Port, p.link i =
        { state := .down, cause := some .start, resets := 0, syncCount := 0, nextSeq := 0, expected := 0, nak := .none
          replayBuf := [], replay := none, replayCount := 0, replayTimer := false, silenceTimer := false
          freePlaces := 8, report := 8, lane := none, cnt := {} })
    ∧ (∀ j : JournalId, p.journal j =
        { conf := none, epoch := 0, watermark := 75, dir := writer, boundNext := [], boundFlight := [] })
    ∧ (p.header = { layoutGen := none, dir := writer } ∧ p.formatPending = false ∧ ∀ i, p.waits i = [])
    ∧ (∀ block, ∀ v ∈ p.counterBlock block, v = 0)
    ∧ (∀ i : Port, (p.req i).session = { active := false, tag := none, gen := 0, openAppends := 0 }
      ∧ (p.req i).buffer = [] ∧ (p.req i).tags = [] ∧ (p.req i).respQ = [] ∧ (p.req i).prefers = .responses
      ∧ (p.req i).cnt = {})
    ∧ (∀ i : Port, p.ntf i = { queue := [], overflow := false, drops := 0, modeRetained := false })
    ∧ (∀ n : SlotId, p.slot n = none) ∧ (∀ r : ReadId, p.readCtx r = none)
    ∧ (p.mem.cond = .uninitialised ∧ p.mem.queue = [] ∧ p.mem.op = some .initialise
      ∧ (∀ b : Fin 16, (p.mem.banks.get b).openRow = none ∧ (p.mem.banks.get b).list = [0, 0, 0, 0])
      ∧ p.mem.debt = 0 ∧ p.mem.refreshTimer = false ∧ p.mem.postExit = false ∧ p.mem.missedFlag = false
      ∧ p.mem.held = [] ∧ p.mem.entryWaiting = false ∧ p.mem.cnt = { opportunistic := 0, urgent := 0, missed := 0 })
    ∧ (p.maint.params = { idle := 20, grace := 2000, urgent := 6, rowPolicy := .openPage } ∧ p.maint.deferred = .none
      ∧ p.maint.pending = 0 ∧ p.maint.mask = 0xFFFF#16 ∧ p.maint.spi = .waiting ∧ p.maint.response = [])

/-! ## Frames -/

/-- Whatever a command does, the part changes in the fields that `reaches` gives the command and in those that the end of
an event reaches, and in no other: a command leaves every other block's state as it was. -/
def Rules.CommandsReachTheirFieldsOnly : Prop :=
  ∀ (c : Instr) (s t : State), exec c s = .next t → Part.Changes (reaches c ++ reactFields) s.part t.part

/-- In SERVING with no FORMAT pending, what comes due at the end of an event is the start of directory writes (R18): it
reaches the journal table, the device header and the memory engine. -/
def Rules.ServingReachesDirectoryBesides : Prop :=
  ∀ (c : Instr) (s t : State), s.part.ret.mode = .serving → s.part.formatPending = false →
    Part.Field.ret ∉ reaches c → Part.Field.formatPending ∉ reaches c → exec c s = .next t →
      Part.Changes (reaches c ++ [.journals, .header, .mem]) s.part t.part

/-- In a part with nothing due, a command that changes nothing the tests of what is due look at changes its own fields
only: in SERVING one that reaches no journal, slot, FORMAT, header or retention state, in every mode one that reaches
links, notifications, counters of its block, reads, DRAM and the maintenance port at most. -/
def Rules.QuietCommandsReachTheirOwnFields : Prop :=
  ∀ (c : Instr) (s t : State), s.part.quiet = true → exec c s = .next t →
    ((s.part.ret.mode = .serving
        ∧ ∀ f ∈ [Part.Field.ret, .formatPending, .journals, .header, .slots], f ∉ reaches c)
      ∨ ∀ f ∈ [Part.Field.ret, .ctl, .reqs, .journals, .header, .formatPending, .slots, .mem], f ∉ reaches c) →
    Part.Changes (reaches c) s.part t.part

/-- What a command leaves unchanged, in general, in SERVING, and in a part with nothing due. -/
def Obligations.CommandsChangeTheirOwnFields : Prop :=
  Rules.CommandsReachTheirFieldsOnly ∧ Rules.ServingReachesDirectoryBesides ∧ Rules.QuietCommandsReachTheirOwnFields

/-- A command that names a port leaves the link unit, the request layer and the waiting responses of every other port as
they were. -/
def Obligations.PortCommandsKeepOtherPorts : Prop :=
  ∀ (c : Instr) (i k : Port) (s t : State), portOf c = some i → k ≠ i → exec c s = .next t →
    t.part.link k = s.part.link k ∧ t.part.req k = s.part.req k ∧ t.part.waits k = s.part.waits k

/-! ## Invariants -/

/-- Every step keeps the link units within the bounds of Table 7-1 (R108, R132) with the replay timer running exactly while
the replay buffer holds an entry (R135), the request buffers, the response queues and the tag tables within theirs (R108,
R112, R115), the notification queues and their drop counts (R94, R96), the access queue and the refresh debt (R141, R149),
and DRAM in its canonical form. -/
def Rules.StepsKeepTheQueuesBounded : Prop :=
  ∀ s t : State, s.part.sound → step s = .next t → t.part.sound

/-- Every step keeps a session's open appends at 4 at most (R26), a journal's open-slot count at the slots in use on it and
12 at most (R24), and its read pins at start positions of reads in flight on it and 8 at most (R75, Table 1-1). -/
def Rules.StepsKeepTheTablesBounded : Prop :=
  ∀ s t : State, s.part.tablesSound → step s = .next t → t.part.tablesSound

/-- Every step keeps the bounds that `Part.sound` and `Part.tablesSound` list, and DRAM in its canonical form. -/
def Obligations.StepsKeepThePartSound : Prop := Rules.StepsKeepTheQueuesBounded ∧ Rules.StepsKeepTheTablesBounded

def Rules.ResetIsSound : Prop := State.reset.part.sound ∧ State.reset.part.tablesSound

/-- Every step leaves nothing due undone: no dirty item without a write in flight (R18), no FORMAT, end of cold start, end
of restore or entry order of a drain that may go ahead (R23, R162, R169, R165). That they go ahead within the event is the
model's reading (log 3). -/
def Obligations.StepsLeaveNothingDue : Prop :=
  ∀ s t : State, s.part.quiet = true → step s = .next t → t.part.quiet = true

def Rules.ResetHasNothingDue : Prop := State.reset.part.quiet = true

/-- The invariants hold at reset: the bounds, and nothing due. -/
def Obligations.ResetKeepsTheInvariants : Prop := Rules.ResetIsSound ∧ Rules.ResetHasNothingDue

/-! ## The end of an event -/

/-- What has come due is carried out at the end of an event (log 3): nothing where nothing is due; the directory writes that
are due start (R18), and where neither a FORMAT nor an end of cold start, restore or drain is due, no other block changes.
A due FORMAT is carried out (R23); the last cold-start write and the last journal rebuilt take the part to SERVING (R162,
R172), the main domain running; the drain condition gives the entry order (R165), the DRAM being ACTIVE as it is in
QUIESCING. That the writes start with the journals in their order and the device header last is the model's choice (log 41),
and so is the order of FORMAT's items (log 41) and the wrap of its layout generation (log 40); in-flight from FORMAT's
hand-over is its reading (log 25). -/
def Obligations.EventsEndWithWhatIsDue : Prop :=
  ∀ p : Part,
    let writesStart :=
      (∀ j, p.react.journal j = (p.journal j).started)
      ∧ p.react.header = { p.header with dir := p.header.dir.started }
      ∧ p.react.mem = p.memAfter ((itemsInOrder.filter p.dirDue).map p.dirWrite)
    let reaches := fun fs => Part.Changes fs p p.react
    (p.nothingDue = true → p.react = p)
    ∧ (p.ret.mode = .serving → p.formatPending = false → writesStart ∧ reaches [.journals, .header, .mem])
    ∧ (¬p.formatReady → ¬p.coldReady → ¬p.restoreReady → ¬p.drainReady →
        writesStart ∧ reaches [.journals, .header, .mem])
    ∧ (p.formatReady → p.formatted p.react ∧ reaches [.formatPending, .journals, .header, .mem])
    ∧ (p.ret.running = true → p.coldReady → ¬p.formatReady →
        p.coldEnded p.react ∧ writesStart ∧ reaches [.ret, .ctl, .maint, .journals, .header, .mem])
    ∧ (p.ret.running = true → p.restoreReady → ¬p.formatReady →
        p.restoreEnded p.react ∧ reaches [.ret, .ctl, .maint, .journals])
    ∧ (p.drainReady → p.mem.cond = .active → p.drainEnds p.react ∧ reaches [.ctl, .mem])

/-! ## Requests answered at once -/

/-- R103: the checks of ATTACH in order, and what an accepted one makes of the session record, the tag table, the response
queue and the notification queue. -/
def Obligations.AttachOpensASession : Prop :=
  ∀ (i : Port) (s : State) (payload : List Byte), s.part.quiet = true → s.part.takes i payload →
    isAttach payload = true →
    let p := s.part
    let r := Req.ofPayload payload
    let ok := p.ret.mode = .serving ∧ r.params.length = 5 ∧ r.attachTag ≠ 0 ∧ r.revision = 1
    let refused := fun st v => Runs (.attach i) s fun q => q = p.served i fun l => l.took.answered (r.rsp st v)
    (p.ret.mode ≠ .serving → refused .notServing (.mode p.ret.mode))
    ∧ (p.ret.mode = .serving → (r.params.length ≠ 5 ∨ r.attachTag = 0 ∨ r.revision ≠ 1) → refused .badRequest .none)
    ∧ (ok → (p.req i).session.active = true → refused .busy .none)
    ∧ (ok → (p.req i).session.active = false →
        (∃ k, (p.req k).session.active = true ∧ (p.req k).session.tag = some r.attachTag) → refused .tagInUse .none)
    ∧ (ok → (p.req i).session.active = false →
        (∀ k, (p.req k).session.active = true → (p.req k).session.tag ≠ some r.attachTag) →
        let gen := if (p.req i).session.gen = 0xFFFFFFFF#32 then 1 else (p.req i).session.gen + 1
        Runs (.attach i) s fun q =>
          q.req i =
            { (p.req i).took with
              session := { active := true, tag := some r.attachTag, gen := gen, openAppends := 0 }
              tags := []
              respQ := [.rsp (r.rsp .ok (.attach i gen p.ret.mode))]
              cnt := { (p.req i).took.cnt with attaches := satInc (p.req i).cnt.attaches } }
          ∧ q.link i = (p.link i).credited 1
          ∧ q.ntf i = { queue := [], overflow := false, drops := 0, modeRetained := false }
          ∧ ∀ k, k ≠ i → q.ntf k = p.ntf k)

/-- R111: the checks of the request layer, in order, for every request but ATTACH; and BAD_REQUEST after them for an unknown
code or a wrong parameter length. A refusal changes the counters, the buffer and the response queue of its port. -/
def Rules.RequestLayerChecksFirst : Prop :=
  ∀ (i : Port) (s : State) (payload : List Byte), s.part.quiet = true → s.part.takes i payload →
    let p := s.part
    let r := Req.ofPayload payload
    let refused := fun c st v => Runs c s fun q => q = p.served i fun l => l.took.answered (r.rsp st v)
    let checks := fun c =>
      (p.ret.mode ≠ .serving → refused c .notServing (.mode p.ret.mode))
      ∧ (p.ret.mode = .serving → (p.req i).session.active = false → refused c .noSession .none)
      ∧ (p.ret.mode = .serving → (p.req i).session.active = true → r.tag ∈ (p.req i).tags → refused c .tagBusy .none)
      ∧ (p.ret.mode = .serving → (p.req i).session.active = true → r.tag ∉ (p.req i).tags →
          16 ≤ (p.req i).tags.length → refused c .busy .none)
    (∀ x ∈ requestCommands, isRequest x.2 payload = true → checks (x.1 i))
    ∧ (isUnknown payload = true → 2 ≤ payload.length →
        checks (.unknownRequest i) ∧ (p.admits i r → refused (.unknownRequest i) .badRequest .none))

/-- R185 (Table 11-3): a REQ payload shorter than 2 bytes is answered BAD_REQUEST with code 00h and tag 00h. -/
def Rules.ShortRequestIsBad : Prop :=
  ∀ (i : Port) (s : State) (payload : List Byte), s.part.quiet = true → s.part.takes i payload → payload.length < 2 →
    Runs (.unknownRequest i) s fun q =>
      q = s.part.served i fun l =>
        l.took.answered { code := 0, tag := 0, status := .badRequest, atFrontier := false, values := .none }

/-- R114: STATUS reports a configured journal, an UNCONFIGURED one, or the device. -/
def Obligations.StatusReports : Prop :=
  ∀ (i : Port) (s : State) (payload : List Byte), s.part.quiet = true → s.part.reachesBlock i codeStatus payload →
    let p := s.part
    let r := Req.ofPayload payload
    let answers := fun st v => Runs (.status i) s fun q => q = p.served i fun l => l.took.answered (r.rsp st v)
    (r.journal = 0xFF#8 →
      answers .ok (.statusDevice .serving ([0, 1, 2, 3, 4, 5, 6, 7].map fun j => (p.journal j).state) i
        (p.req i).session.gen))
    ∧ (8 ≤ r.journal.toNat → r.journal ≠ 0xFF#8 → answers .badJournal .none)
    ∧ (∀ j : JournalId, r.journal.toNat = j.val →
        ((p.journal j).conf = none → answers .ok (.statusUnconfigured (p.journal j).epoch))
        ∧ ∀ c, (p.journal j).conf = some c →
          answers .ok
            (.statusConfigured c.state (decide (i ∈ c.subs)) c.ownerTag (p.journal j).epoch c.head c.durable c.durableSeq
              (c.count.toNat * 65536) (c.count.toNat * 65536 - (c.reserve.toNat - c.persistedHead.toNat))))

/-- A journal byte that names no configured journal (R51, R91). -/
def Rules.BadJournalIsRefused : Prop :=
  ∀ (i : Port) (s : State) (payload : List Byte) (x : (Port → Instr) × Byte), x ∈ requestCommands →
    x.2 ≠ codeDetach → x.2 ≠ codeStatus → s.part.quiet = true → s.part.reachesBlock i x.2 payload →
    (∀ j : JournalId, (Req.ofPayload payload).journal.toNat = j.val → (s.part.journal j).conf = none) →
    Runs (x.1 i) s fun q =>
      q = s.part.served i fun l => l.took.answered ((Req.ofPayload payload).rsp .badJournal .none)

/-- The refusals of the request layer, of a request too short to name a code, and of a journal byte that names no configured
journal (R111, R185, R51, R91). -/
def Obligations.RequestsAreChecked : Prop :=
  Rules.RequestLayerChecksFirst ∧ Rules.ShortRequestIsBad ∧ Rules.BadJournalIsRefused

/-- R91, R92: SUBSCRIBE adds the port to the subscriber set and answers the journal's values, UNSUBSCRIBE takes it away;
a pending FORMAT refuses SUBSCRIBE only. -/
def Obligations.SubscriptionsChange : Prop :=
  ∀ (i : Port) (j : JournalId) (s : State) (payload : List Byte) (c : Conf), s.part.quiet = true →
    (Req.ofPayload payload).journal.toNat = j.val → (s.part.journal j).conf = some c →
    let p := s.part
    let r := Req.ofPayload payload
    (p.reachesBlock i codeSubscribe payload →
      (p.formatPending = true →
        Runs (.subscribe i) s fun q => q = p.served i fun l => l.took.answered (r.rsp .busy .none))
      ∧ (p.formatPending = false →
        Runs (.subscribe i) s fun q =>
          (∃ subs, q = (p.modConf j fun c => { c with subs := subs }).served i (fun l =>
              l.took.answered
                (r.rsp .ok (.subscribe c.state c.ownerTag (p.journal j).epoch (c.durableSeq - 1) c.durable)))
            ∧ ∀ k, k ∈ subs ↔ k = i ∨ k ∈ c.subs)))
    ∧ (p.reachesBlock i codeUnsubscribe payload →
      Runs (.unsubscribe i) s fun q =>
        ∃ subs, q = (p.modConf j fun c => { c with subs := subs }).served i (fun l => l.took.answered (r.rsp .ok .none))
          ∧ ∀ k, k ∈ subs ↔ k ≠ i ∧ k ∈ c.subs)

/-! ## Ownership requests -/

/-- R53, R54 with R51 and R52: why a CLAIM is refused, and what a granted one changes: the epoch, the owner, the entry's
dirty flag, the answer bound to the next directory write, the tag table, and the OWNER entries for the subscribers. That the
entry's write (R18) starts within the event is the model's choice (log 3), and that one snapshot records all its changes is
its reading (log 4). -/
def Obligations.ClaimIsGrantedOrRefused : Prop :=
  ∀ (i : Port) (j : JournalId) (s : State) (payload : List Byte) (c : Conf) (tag : W32), s.part.quiet = true →
    s.part.reachesBlock i codeClaim payload → (Req.ofPayload payload).journal.toNat = j.val →
    (s.part.journal j).conf = some c → (s.part.req i).session.tag = some tag →
    let p := s.part
    let r := Req.ofPayload payload
    let e := p.journal j
    let sid : SessionId := ⟨i, (p.req i).session.gen⟩
    let refused := fun st => Runs (.claim i) s fun q => q = p.served i fun l => l.took.answered (r.rsp st (.epoch e.epoch))
    (p.formatPending = true → refused .busy)
    ∧ (p.formatPending = false → (c.state = .owned ∨ c.state = .transferring) → refused .busy)
    ∧ (p.formatPending = false → ∀ t g, c.own = .held t g → t ≠ tag → g ≠ .expired → refused .heldGrace)
    ∧ (p.formatPending = false →
        (c.own = .unassigned ∨ ∃ t g, c.own = .held t g ∧ (t = tag ∨ g = .expired)) →
        (e.epoch = 0xFFFFFFFF#32 → refused .streamExhausted)
        ∧ (e.epoch ≠ 0xFFFFFFFF#32 → Runs (.claim i) s fun q =>
            q.journal j =
              { e.dirtied with
                conf := some { c with own := .owned sid tag }
                epoch := e.epoch + 1
                boundNext := e.boundNext
                  ++ [.answer sid { code := 0x06#8, tag := r.tag, status := .ok, values := .epoch (e.epoch + 1) }] :
                Journal }.started
            ∧ q.req i = (p.req i).took.entered r.tag ∧ q.link i = (p.link i).credited 1
            ∧ (∀ k, q.ntf k =
                if k ∈ c.subs then p.handed k (.owner j .owned (e.epoch + 1) (some tag)) else p.ntf k)
            ∧ ∀ k, k ≠ j → q.journal k = p.journal k))

/-- R55 with R51 and R52: the checks of RELEASE in order, and what an accepted one changes; it is no concern of a pending
FORMAT. That the entry's write (R18) starts within the event is the model's choice (log 3), and that one snapshot records
all its changes is its reading (log 4). -/
def Obligations.ReleaseIsAcceptedOrRefused : Prop :=
  ∀ (i : Port) (j : JournalId) (s : State) (payload : List Byte) (c : Conf), s.part.quiet = true →
    s.part.reachesBlock i codeRelease payload → (Req.ofPayload payload).journal.toNat = j.val →
    (s.part.journal j).conf = some c →
    let p := s.part
    let r := Req.ofPayload payload
    let e := p.journal j
    let sid : SessionId := ⟨i, (p.req i).session.gen⟩
    let refused := fun st => Runs (.release i) s fun q => q = p.served i fun l => l.took.answered (r.rsp st (.epoch e.epoch))
    let inUse := ∃ n x, p.slot n = some x ∧ x.session = sid ∧ x.journal = j
    (∀ t cl, c.own = .transferring (some sid) t cl → refused .fenced)
    ∧ ((∀ t cl, c.own ≠ .transferring (some sid) t cl) → (∀ t, c.own ≠ .owned sid t) → refused .notOwner)
    ∧ ∀ t, c.own = .owned sid t →
        (r.epoch ≠ e.epoch → refused .staleEpoch)
        ∧ (r.epoch = e.epoch → inUse → refused .appendsOpen)
        ∧ (r.epoch = e.epoch → ¬inUse → Runs (.release i) s fun q =>
            q.journal j =
              { e.dirtied with
                conf := some { c with own := .unassigned }
                boundNext := e.boundNext
                  ++ [.answer sid { code := 0x07#8, tag := r.tag, status := .ok, values := .epoch e.epoch }] :
                Journal }.started
            ∧ q.req i = (p.req i).took.entered r.tag ∧ q.link i = (p.link i).credited 1
            ∧ (∀ k, q.ntf k = if k ∈ c.subs then p.handed k (.owner j .unassigned e.epoch none) else p.ntf k)
            ∧ ∀ k, k ≠ j → q.journal k = p.journal k)

/-- R56 with R51: the checks of TAKEOVER, in order. -/
def Rules.TakeoverChecks : Prop :=
  ∀ (i : Port) (j : JournalId) (s : State) (payload : List Byte) (c : Conf), s.part.quiet = true →
    s.part.reachesBlock i codeTakeover payload → (Req.ofPayload payload).journal.toNat = j.val →
    (s.part.journal j).conf = some c →
    let p := s.part
    let r := Req.ofPayload payload
    let e := p.journal j
    let sid : SessionId := ⟨i, (p.req i).session.gen⟩
    let refused := fun st => Runs (.takeover i) s fun q => q = p.served i fun l => l.took.answered (r.rsp st (.epoch e.epoch))
    (p.formatPending = true → refused .busy)
    ∧ (p.formatPending = false → (c.state = .unassigned ∨ c.state = .held) → refused .notOwned)
    ∧ (p.formatPending = false → c.state = .transferring → refused .busy)
    ∧ (p.formatPending = false → ∀ o t, c.own = .owned o t →
        (o = sid → refused .badRequest)
        ∧ (o ≠ sid → r.epoch ≠ e.epoch → refused .staleEpoch)
        ∧ (o ≠ sid → r.epoch = e.epoch → e.epoch = 0xFFFFFFFF#32 → refused .streamExhausted))

/-- R57 with R36, R39, R47, R59, R60, R66: an accepted TAKEOVER makes the journal TRANSFERRING, fences the old owner's slots
in RECEIVING, their VOID headers handed and the voids counted, and tells the old owner; where the journal has no open slot
the transfer completes at once. The write of the entry, where none is in flight, is handed after the VOID headers (log 3),
which go in the order of the slots' numbers (log 41): both are the model's choices. -/
def Rules.TakeoverFencesTheOwner : Prop :=
  ∀ (i : Port) (j : JournalId) (s : State) (payload : List Byte) (c : Conf) (tag : W32) (o : SessionId) (t : W32),
    s.part.quiet = true → s.part.reachesBlock i codeTakeover payload →
    (Req.ofPayload payload).journal.toNat = j.val → (s.part.journal j).conf = some c →
    (s.part.req i).session.tag = some tag → s.part.formatPending = false → c.own = .owned o t →
    o ≠ ⟨i, (s.part.req i).session.gen⟩ → (Req.ofPayload payload).epoch = (s.part.journal j).epoch →
    (s.part.journal j).epoch ≠ 0xFFFFFFFF#32 →
    let p := s.part
    let r := Req.ofPayload payload
    let e := p.journal j
    let sid : SessionId := ⟨i, (p.req i).session.gen⟩
    let live := (p.req o.port).session.active = true ∧ (p.req o.port).session.gen = o.gen
    let told := fun k => if k = o.port ∧ live then p.handed k (.owner j .transferring e.epoch (some t)) else p.ntf k
    Runs (.takeover i) s fun q =>
      q.req i = (p.req i).took.entered r.tag ∧ q.link i = (p.link i).credited 1
      ∧ (∀ n, q.slot n = (p.slot n).map fun x =>
          if x.journal = j ∧ x.session = o ∧ x.state = .receiving then x.voided .fenced else x)
      ∧ q.mem = p.memAfter
          (p.voidHeaders .fenced (fun x => x.fencedBy j o) ++ if e.dir.inFlight then [] else [q.dirWrite (.journal j)])
      ∧ q.appendCnt = p.fencedCnt j o
      ∧ (c.openSlots ≠ 0 →
          q.journal j =
            { e.dirtied with conf := some { c with own := .transferring (some o) t (some ⟨sid, r.tag⟩) } : Journal }.started
          ∧ ∀ k, q.ntf k = told k)
      ∧ (c.openSlots = 0 →
          q.journal j =
            { e.dirtied with
              conf := some { c with own := .owned sid tag }
              epoch := e.epoch + 1
              boundNext := e.boundNext
                ++ [.answer sid { code := 0x08#8, tag := r.tag, status := .ok, values := .epoch (e.epoch + 1) }] :
              Journal }.started
          ∧ ∀ k, q.ntf k =
            if k ∈ c.subs ∨ (k = o.port ∧ live) then
              (told k).handed (p.req k).session.active (.owner j .owned (e.epoch + 1) (some tag))
            else told k)
      ∧ ∀ k, k ≠ j → q.journal k = p.journal k

/-- TAKEOVER: its checks in order (R56), and what an accepted one does (R57). That one directory write records the entry of a
transfer completed at acceptance, its snapshot taken after all changes of the event, is the model's reading (log 4). -/
def Obligations.TakeoverChecksAndFences : Prop := Rules.TakeoverChecks ∧ Rules.TakeoverFencesTheOwner

/-! ## Appends -/

/-- R27 with R14 and R47: checks 5 to 12 of Table 2-3, in order; a refusal changes no slot and no journal field. -/
def Rules.AppendChecks : Prop :=
  ∀ (i : Port) (j : JournalId) (s : State) (payload : List Byte) (c : Conf), s.part.quiet = true →
    s.part.reachesBlock i codeAppend payload → (Req.ofPayload payload).journal.toNat = j.val →
    (s.part.journal j).conf = some c →
    let p := s.part
    let r := Req.ofPayload payload
    let sid : SessionId := ⟨i, (p.req i).session.gen⟩
    let refused := fun st cnt => Runs (.append i) s fun q =>
      q = { p.served i fun l => l.took.answered (r.rsp st .none) with appendCnt := cnt }
    let open_ := ([0, 1, 2, 3, 4, 5, 6, 7, 8, 9, 10, 11].filter fun n : SlotId =>
      (p.slot n).any fun x => decide (x.session = sid)).length
    let occ := 32 + (r.payloadLength + 31) / 32 * 32
    let size := c.count.toNat * 65536
    let room := size - c.reserve.toNat % size
    let need := if occ ≤ room then occ else room + occ
    let free := size - (c.reserve.toNat - c.persistedHead.toNat)
    let sized := 1 ≤ r.payloadLength ∧ r.payloadLength ≤ 65536
    (¬sized → refused .tooLong p.appendCnt)
    ∧ (sized → ∀ t cl, c.own = .transferring (some sid) t cl → refused .fenced p.appendCnt)
    ∧ (sized → (∀ t cl, c.own ≠ .transferring (some sid) t cl) → (∀ t, c.own ≠ .owned sid t) →
        refused .notOwner p.appendCnt)
    ∧ ∀ t, sized → c.own = .owned sid t →
        (r.epoch ≠ (p.journal j).epoch → refused .staleEpoch p.appendCnt)
        ∧ (r.epoch = (p.journal j).epoch → (4 ≤ open_ ∨ ∀ n, p.slot n ≠ none) →
            refused .noSlot { p.appendCnt with noSlot := satInc p.appendCnt.noSlot })
        ∧ (r.epoch = (p.journal j).epoch → open_ < 4 → (∃ n, p.slot n = none) →
            (free < need → refused .journalFull { p.appendCnt with journalFull := satInc p.appendCnt.journalFull })
            ∧ (need ≤ free → (c.nextSeq = 0xFFFFFFFF#32 ∨ 2 ^ 64 ≤ c.reserve.toNat + need) →
                refused .streamExhausted { p.appendCnt with exhausted := satInc p.appendCnt.exhausted }))

/-- R28 with R13, R15, R16 and R24: an accepted APPEND takes a FREE slot, reserves its space, sequence and position on the
journal, hands a pad's header where one is placed, and tells the owner of a fill level reached. -/
def Rules.AppendReserves : Prop :=
  ∀ (i : Port) (j : JournalId) (s : State) (payload : List Byte) (c : Conf) (t : W32), s.part.quiet = true →
    s.part.reachesBlock i codeAppend payload → (Req.ofPayload payload).journal.toNat = j.val →
    (s.part.journal j).conf = some c →
    let p := s.part
    let r := Req.ofPayload payload
    let sid : SessionId := ⟨i, (p.req i).session.gen⟩
    let e := p.journal j
    let occ := 32 + (r.payloadLength + 31) / 32 * 32
    let size := c.count.toNat * 65536
    let room := size - c.reserve.toNat % size
    let pad := if occ ≤ room then 0 else room
    let fill := (c.reserve + BitVec.ofNat 64 (pad + occ)).toNat - c.head.toNat
    let reached := c.armed = true ∧ e.watermark.toNat < 100 ∧ size * e.watermark.toNat / 100 ≤ fill
    1 ≤ r.payloadLength → r.payloadLength ≤ 65536 → c.own = .owned sid t → r.epoch = e.epoch →
    ([0, 1, 2, 3, 4, 5, 6, 7, 8, 9, 10, 11].filter fun n : SlotId =>
      (p.slot n).any fun x => decide (x.session = sid)).length < 4 →
    (∃ n, p.slot n = none) → pad + occ ≤ size - (c.reserve.toNat - c.persistedHead.toNat) →
    c.nextSeq ≠ 0xFFFFFFFF#32 → c.reserve.toNat + (pad + occ) < 2 ^ 64 →
    Runs (.append i) s fun q =>
      (∃ n, p.slot n = none
        ∧ q.slot n = some
          { state := .receiving, session := sid, reqTag := r.tag, journal := j, epoch := e.epoch, seq := c.nextSeq
            position := c.reserve + BitVec.ofNat 64 pad, length := r.payloadLength, occupancy := occ, received := 0
            carry := [], check := 0xFFFFFFFF#32, declared := r.payloadCheck, recordTag := r.recordTag
            outstanding := if occ ≤ room then 0 else 1, idle := some p.maint.params.idle, outcome := none
            reason := none }
        ∧ (∀ m, m ≠ n → q.slot m = p.slot m)
        ∧ q.mem =
          if occ ≤ room then p.mem
          else p.memAfter (runWrites (.slot n .pad) 32 (c.address c.reserve.toNat) (padHeader i e.epoch c.reserve room)))
      ∧ q.journal j =
        { e with
          conf := some
            { c with
              reserve := c.reserve + BitVec.ofNat 64 (pad + occ)
              nextSeq := c.nextSeq + 1
              openSlots := c.openSlots + 1
              armed := if reached then false else c.armed } }
      ∧ (∀ k, k ≠ j → q.journal k = p.journal k)
      ∧ q.req i =
        { (p.req i).took.entered r.tag with
          session := { (p.req i).session with openAppends := (p.req i).session.openAppends + 1 } }
      ∧ q.link i = (p.link i).credited 1
      ∧ q.appendCnt = { p.appendCnt with accepted := satInc p.appendCnt.accepted }
      ∧ (∀ k, q.ntf k = if k = i ∧ reached then p.handed i (.fill j fill size) else p.ntf k)

/-- APPEND: its checks in order (R27), and what an accepted one reserves (R28). -/
def Obligations.AppendIsCheckedAndReserved : Prop := Rules.AppendChecks ∧ Rules.AppendReserves

/-- R30: a DATA frame that no slot in RECEIVING matches is dropped and counted; outside SERVING every DATA frame is
(R113), and one too short to hold a tag and an offset (R185). -/
def Rules.UnmatchedDataIsDropped : Prop :=
  ∀ (i : Port) (s : State) (payload : List Byte), s.part.quiet = true → s.part.ret.running = true →
    (s.part.req i).buffer.head? = some ⟨true, payload⟩ → s.part.holdsPayload i = false →
    (s.part.ret.mode ≠ .serving ∨ payload.length < 6 ∨ (s.part.req i).session.active = false
      ∨ ∀ n x, s.part.slot n = some x → x.state = .receiving → x.session = ⟨i, (s.part.req i).session.gen⟩ →
          x.reqTag ≠ byteAt payload 0) →
    Runs (.data i) s fun q =>
      q = (s.part.modReq i RequestLayer.tookData).modLink i fun u =>
        { u.credited 1 with cnt := { u.cnt with lateData := satInc u.cnt.lateData } }

/-- R31 to R36 with R33: a DATA frame matched to a slot. A wrong offset voids the slot with OFFSET_ERROR, a wrong length
with LENGTH_ERROR; a frame that passes is taken into the running check, the carry and the payload writes; the last byte
issues the RECORD header, or voids the slot with CHECK_MISMATCH. -/
def Rules.DataFillsTheSlot : Prop :=
  ∀ (i : Port) (n : SlotId) (s : State) (payload : List Byte) (x : Slot) (c : Conf), s.part.quiet = true →
    s.part.serving → (s.part.req i).buffer.head? = some ⟨true, payload⟩ → s.part.holdsPayload i = false →
    6 ≤ payload.length → (s.part.req i).session.active = true →
    (∀ m y, m ≤ n → s.part.slot m = some y →
      ((y.state = .receiving ∧ y.session = ⟨i, (s.part.req i).session.gen⟩ ∧ y.reqTag = byteAt payload 0) ↔ m = n)) →
    s.part.slot n = some x → (s.part.journal x.journal).conf = some c →
    let p := s.part
    let offset := field payload 2 4
    let bytes := payload.drop 6
    let e := x.received + bytes.length
    let headerAt := c.address x.position.toNat
    let start := c.address (x.position.toNat + 32 + (x.received - x.carry.length))
    let all := x.carry ++ bytes
    let run := if e = x.length then all ++ zeros ((x.length + 31) / 32 * 32 - x.length)
      else all.take (all.length - e % 8)
    let writes := runWrites (.slot n .payload) run.length start run
    let y : Slot :=
      { x with
        check := crc32Run x.check bytes
        received := e
        carry := if e = x.length then [] else all.drop (all.length - e % 8)
        idle := some p.maint.params.idle
        outstanding := x.outstanding + writes.length }
    let goes := fun (z : Slot) (cnt : AppendCounters) (as : List Access) => Runs (.data i) s fun q =>
      q.slot n = some z ∧ (∀ m, m ≠ n → q.slot m = p.slot m) ∧ q.appendCnt = cnt ∧ q.mem = p.memAfter as
      ∧ q.req i = (p.req i).tookData ∧ q.link i = (p.link i).credited 1 ∧ q.journals = p.journals
    let sized := bytes ≠ [] ∧ bytes.length ≤ 256 ∧ e ≤ x.length
    (offset ≠ x.received →
      goes (x.voided .offsetError) { p.appendCnt with voidOffset := satInc p.appendCnt.voidOffset }
        (runWrites (.slot n .header) 32 headerAt (x.voided .offsetError).header))
    ∧ (offset = x.received → ¬sized →
      goes (x.voided .lengthError) { p.appendCnt with voidLength := satInc p.appendCnt.voidLength }
        (runWrites (.slot n .header) 32 headerAt (x.voided .lengthError).header))
    ∧ (offset = x.received → sized → e ≠ x.length → goes y p.appendCnt writes)
    ∧ (offset = x.received → sized → e = x.length → ~~~ y.check = x.declared →
      goes { y with state := .landing, idle := none, outstanding := y.outstanding + 1 } p.appendCnt
        (writes ++ runWrites (.slot n .header) 32 headerAt y.header))
    ∧ (offset = x.received → sized → e = x.length → ~~~ y.check ≠ x.declared →
      goes (y.voided .checkMismatch) { p.appendCnt with voidCheck := satInc p.appendCnt.voidCheck }
        (writes ++ runWrites (.slot n .header) 32 headerAt (y.voided .checkMismatch).header))

/-- DATA: a frame that no slot matches, and one matched to a slot (R30 to R36). -/
def Obligations.DataFramesAreTaken : Prop := Rules.UnmatchedDataIsDropped ∧ Rules.DataFillsTheSlot

/-- R37 with R8 and R36: the idle timer of a slot in RECEIVING voids it with ABANDONED. -/
def Rules.IdleTimerAbandonsTheSlot : Prop :=
  ∀ (n : SlotId) (s : State) (x : Slot) (c : Conf), s.part.quiet = true → s.part.ret.running = true →
    s.part.slot n = some x → x.state = .receiving → x.idle.isSome = true →
    (s.part.journal x.journal).conf = some c →
    let header := recordHeader .void x.session.port (some .abandoned) x.seq x.length x.epoch x.position x.declared
      x.recordTag
    Runs (.idleTimerExpiry n) s fun q =>
      q =
        { s.part.setSlot n (some
            { x with
              reason := some .abandoned
              idle := none
              carry := []
              outstanding := x.outstanding + 1
              state := .voiding }) with
          appendCnt := { s.part.appendCnt with voidAbandoned := satInc s.part.appendCnt.voidAbandoned }
          mem := s.part.memAfter (runWrites (.slot n .header) 32 (c.address x.position.toNat) header) }

/-- R35, R42: a write of a slot counts down; at 0 a slot in LANDING or VOIDING resolves, and the frontier of its journal
then passes the run of resolved slots that begins at the frontier sequence, each of them becoming COMMITTED. `ns` is that
run, in which the slot that has just resolved counts. That the memory engine after the completion is that of
`Part.carryOut`, with banks and counters changed and the arbiter's choice made before the slot acts, is the model's choice
(log 12). -/
def Obligations.SlotWritesCountDown : Prop :=
  ∀ (a : Access) (n : SlotId) (w : SlotWrite) (s : State) (x : Slot) (c : Conf), s.part.completes a →
    a.client = .slot n w → s.part.slot n = some x → (s.part.journal x.journal).conf = some c →
    let p := s.part
    let j := x.journal
    let counted := { x with outstanding := x.outstanding - 1 }
    let resolves := (x.state = .landing ∨ x.state = .voiding) ∧ x.outstanding ≤ 1
    let y : Slot :=
      { counted with
        state := if x.state = .landing then .landed else .voided
        outcome := some (if x.state = .landing then .landed else .voided) }
    let after := fun m : SlotId => if m = n then some y else p.slot m
    let resolvedAt := fun (m : SlotId) (sq : W32) =>
      ∃ z, after m = some z ∧ z.journal = j ∧ z.seq = sq ∧ (z.state = .landed ∨ z.state = .voided)
    Ends .appendWriteComplete s fun q =>
      q.dram = a.store p.dram ∧ q.mem = (p.carryOut a).mem ∧ (∀ k, k ≠ j → q.journal k = p.journal k)
      ∧ (¬resolves →
          (∀ m, q.slot m = if m = n then some counted else p.slot m) ∧ q.journals = p.journals
          ∧ q.appendCnt = p.appendCnt)
      ∧ (resolves →
          q.appendCnt =
            (if x.state = .landing then { p.appendCnt with landed := satInc p.appendCnt.landed } else p.appendCnt)
          ∧ ((∀ m, ¬resolvedAt m c.frontierSeq) → (∀ m, q.slot m = after m) ∧ q.journals = p.journals)
          ∧ ∀ (ns : List SlotId) (last : Slot), ns.Nodup →
              (∀ k (h : k < ns.length), ∀ m, resolvedAt m (c.frontierSeq + BitVec.ofNat 32 k) ↔ m = ns[k]) →
              (∀ m, ¬resolvedAt m (c.frontierSeq + BitVec.ofNat 32 ns.length)) →
              ns.getLast?.bind after = some last →
              (∀ m, q.slot m = if m ∈ ns then (after m).map fun z => { z with state := .committed } else after m)
              ∧ q.journal j =
                { (p.journal j).dirtied with
                  conf := some
                    { c with
                      frontier := last.position + BitVec.ofNat 64 last.occupancy
                      frontierSeq := c.frontierSeq + BitVec.ofNat 32 ns.length } })

/-- R42: the frontier of a journal passes the run of resolved slots that begins at the frontier sequence, each of them
becoming COMMITTED, and stops at the first sequence that no resolved slot holds. -/
def Obligations.FrontierPassesResolvedSlots : Prop :=
  ∀ (j : JournalId) (s : State) (c : Conf) (ns : List SlotId) (last : Slot), s.part.serving →
    (s.part.journal j).conf = some c → ns.Nodup →
    let p := s.part
    let resolvedAt := fun (n : SlotId) (sq : W32) =>
      ∃ x, p.slot n = some x ∧ x.journal = j ∧ x.seq = sq ∧ (x.state = .landed ∨ x.state = .voided)
    (∀ k (h : k < ns.length), ∀ n, resolvedAt n (c.frontierSeq + BitVec.ofNat 32 k) ↔ n = ns[k]) →
    (∀ n, ¬resolvedAt n (c.frontierSeq + BitVec.ofNat 32 ns.length)) →
    ns.getLast?.bind p.slot = some last →
    Runs (.frontierAdvance j) s fun q =>
      (∀ n, q.slot n = if n ∈ ns then (p.slot n).map fun x => { x with state := .committed } else p.slot n)
      ∧ q.journal j =
        { (p.journal j).dirtied with
          conf := some
            { c with
              frontier := last.position + BitVec.ofNat 64 last.occupancy
              frontierSeq := c.frontierSeq + BitVec.ofNat 32 ns.length } : Journal }.started

/-- R44, R46: a durable COMMITTED slot is answered and becomes FREE, waits for a response-queue frame (R45), or becomes
FREE without a response when its session has ended. A slot that becomes FREE lowers its journal's open-slot count, and the
last one of a TRANSFERRING journal completes the transfer (R59, R60), with OWNER for its subscribers and for the old owner
(R66). That the entry's write (R18) starts within the event is the model's choice (log 3), and that a response waits behind
the port's earlier waiting ones even where a frame is free its reading (log 18). -/
def Rules.DurableSlotsAreReleased : Prop :=
  ∀ (n : SlotId) (s : State) (x : Slot) (c : Conf), s.part.serving → s.part.formatPending = false →
    s.part.slot n = some x → x.state = .committed → (s.part.journal x.journal).conf = some c →
    x.position.toNat + x.occupancy ≤ c.durable.toNat → .appendDone n ∉ s.part.waits x.session.port →
    let p := s.part
    let i := x.session.port
    let live := (p.req i).session.active = true ∧ (p.req i).session.gen = x.session.gen
    let room := (p.req i).respQ.length < 32 ∧ p.waits i = []
    let done : Rsp :=
      { code := 0x09#8, tag := x.reqTag, status := if x.outcome = some .voided then .voided else .ok
        values := .appendDone x.reason x.seq x.position }
    let freed := fun q : Part =>
      q.slot n = none ∧ q.waits i = p.waits i
      ∧ q.journal x.journal = (p.freedEntry x.journal (p.journal x.journal) 1).started
      ∧ ∀ k, q.ntf k = p.freedNtf x.journal (p.journal x.journal) 1 k
    Runs (.appendDoneRelease n) s fun q =>
      (∀ m, m ≠ n → q.slot m = p.slot m)
      ∧ (∀ k, k ≠ x.journal → q.journal k = (p.journal k).started)
      ∧ (live → room → freed q
          ∧ q.req i =
            { p.req i with
              respQ := (p.req i).respQ ++ [.rsp done]
              tags := (p.req i).tags.filter fun t => decide (t ≠ x.reqTag)
              session := { (p.req i).session with openAppends := (p.req i).session.openAppends - 1 } })
      ∧ (live → ¬room → q.slot n = some x ∧ q.waits i = p.waits i ++ [.appendDone n] ∧ q.req i = p.req i
          ∧ q.journal x.journal = (p.journal x.journal).started ∧ q.ntfs = p.ntfs)
      ∧ (¬live → freed q ∧ q.req i = p.req i)

/-- R45, R52: a response-queue frame that is free takes the response at the front of those that wait for it. The slot of a
waiting APPEND_DONE becomes FREE with it, as `Rules.DurableSlotsAreReleased` says. -/
def Rules.WaitingResponsesTakeFreeFrames : Prop :=
  ∀ (i : Port) (s : State) (w : Waiting) (rest : List Waiting), s.part.serving → s.part.formatPending = false →
    s.part.waits i = w :: rest → (s.part.req i).respQ.length < 32 →
    let p := s.part
    (∀ r, w = .answer r → Runs (.waitingResponseQueued i) s fun q =>
      q.waits i = rest
      ∧ q.req i =
        { p.req i with
          respQ := (p.req i).respQ ++ [.rsp r]
          tags := (p.req i).tags.filter fun t => decide (t ≠ r.tag) }
      ∧ (∀ k, q.journal k = (p.journal k).started) ∧ q.ntfs = p.ntfs)
    ∧ ∀ n x, w = .appendDone n → p.slot n = some x → x.session.port = i → Runs (.appendDoneQueued i) s fun q =>
      q.waits i = rest ∧ q.slot n = none ∧ (∀ m, m ≠ n → q.slot m = p.slot m)
      ∧ q.journal x.journal = (p.freedEntry x.journal (p.journal x.journal) 1).started
      ∧ (∀ k, k ≠ x.journal → q.journal k = (p.journal k).started)
      ∧ (∀ k, q.ntf k = p.freedNtf x.journal (p.journal x.journal) 1 k)
      ∧ q.req i =
        { p.req i with
          respQ := (p.req i).respQ ++ [.rsp
            { code := 0x09#8, tag := x.reqTag, status := if x.outcome = some .voided then .voided else .ok
              values := .appendDone x.reason x.seq x.position }]
          tags := (p.req i).tags.filter fun t => decide (t ≠ x.reqTag)
          session := { (p.req i).session with openAppends := (p.req i).session.openAppends - 1 } }

/-- The release of APPEND_DONE (R44, R46), and of responses that wait for a frame (R45, R52). -/
def Obligations.DeferredAnswersAreReleased : Prop :=
  Rules.DurableSlotsAreReleased ∧ Rules.WaitingResponsesTakeFreeFrames

/-! ## Reads and trims -/

/-- R73, R74 and R75: a READ that fails a check is answered at once and takes no context; one that passes pins its
position, takes a FREE context of its port and hands the bursts of its first frame (R76). That the staged bytes a burst has
not brought yet hold 00h is the model's choice (log 33). -/
def Obligations.ReadIsAnsweredOrAccepted : Prop :=
  ∀ (i : Port) (j : JournalId) (s : State) (payload : List Byte) (c : Conf), s.part.reachesBlock i codeRead payload →
    (Req.ofPayload payload).journal.toNat = j.val → (s.part.journal j).conf = some c →
    let p := s.part
    let r := Req.ofPayload payload
    let answered := fun (a : Rsp) (cnt : ReadCounters) => Ends (.read i) s fun q =>
      q = { p.served i (fun l => l.took.answered a) with readCnt := cnt }
    let sized := 1 ≤ r.readLength ∧ r.readLength ≤ 4096
    let context := ∃ x : ReadId, x.val / 2 = i.val ∧ p.readCtx x = none
    let barred := fun t : PendingTrim => c.trim = some t ∧ t.phase ≠ .checking ∧ r.readPosition.toNat < t.target.toNat
    (¬sized → answered (r.rsp .badRequest .none) p.readCnt)
    ∧ (sized → (p.formatPending = true ∨ ¬context) → answered (r.rsp .busy .none) p.readCnt)
    ∧ (sized → p.formatPending = false → context →
        (r.readPosition.toNat < c.head.toNat →
          answered (r.rsp .trimmed (.read 0 c.head)) { p.readCnt with trimmed := satInc p.readCnt.trimmed })
        ∧ (c.head.toNat ≤ r.readPosition.toNat → ∀ t, barred t →
          answered (r.rsp .trimmed (.read 0 t.target)) { p.readCnt with trimmed := satInc p.readCnt.trimmed })
        ∧ (c.head.toNat ≤ r.readPosition.toNat → (∀ t, ¬barred t) → c.durable.toNat ≤ r.readPosition.toNat →
          answered { r.rsp .ok (.read 0 c.durable) with atFrontier := true }
            { p.readCnt with atFrontier := satInc p.readCnt.atFrontier })
        ∧ (c.head.toNat ≤ r.readPosition.toNat → (∀ t, ¬barred t) → r.readPosition.toNat < c.durable.toNat →
          let n := min r.readLength (c.durable.toNat - r.readPosition.toNat)
          let bursts := c.bursts r.readPosition.toNat (min 256 n)
          Ends (.read i) s fun q =>
            (∃ x : ReadId, ∃ handed : Nat, x.val / 2 = i.val ∧ p.readCtx x = none
              ∧ q.readCtx x = some
                { state := .fetching, gen := (p.req i).session.gen, reqTag := r.tag, journal := j
                  start := r.readPosition, length := n
                  frontierEnd := decide (r.readPosition.toNat + n = c.durable.toNat), nextPos := r.readPosition
                  staged := some ⟨r.readPosition, zeros (min 256 n)⟩, outstanding := handed }
              ∧ handed + q.mem.held.length = bursts.length + p.mem.held.length
              ∧ q.mem = p.memAfter (bursts.map (readAccess (.readCtx x)))
              ∧ ∀ y, y ≠ x → q.readCtx y = p.readCtx y)
            ∧ q.journal j = { p.journal j with conf := some { c with pins := c.pins ++ [r.readPosition] } }
            ∧ (∀ k, k ≠ j → q.journal k = p.journal k)
            ∧ q.req i = (p.req i).took.entered r.tag ∧ q.link i = (p.link i).credited 1
            ∧ q.readCnt = { p.readCnt with accepted := satInc p.readCnt.accepted }))

/-- R76 and R79: a completed read burst gives the staged frame its bytes, as they lie in DRAM; the last burst of the frame
makes it HOLDING. The burst of a DRAINING context is discarded, and with its last the context is FREE. -/
def Obligations.ReadBurstsArrive : Prop :=
  ∀ (x : ReadId) (a : Access) (s : State) (r : ReadCtx) (c : Conf), s.part.completes a → a.client = .readCtx x →
    s.part.readCtx x = some r → (s.part.journal r.journal).conf = some c →
    let p := s.part
    let filled := fun st : Staged =>
      { st with
        bytes := st.bytes.mapIdx fun k b =>
          let at_ := c.address (st.position.toNat + k)
          if at_ / 64 * 64 = a.addr then Memory.read p.dram at_ else b }
    Ends .readBurstComplete s fun q =>
      q.dram = a.store p.dram ∧ (∀ y, y ≠ x → q.readCtx y = p.readCtx y)
      ∧ (r.state = .fetching → q.readCtx x = some
          { r with
            outstanding := r.outstanding - 1
            staged := r.staged.map filled
            state := if r.outstanding ≤ 1 ∧ (∀ h ∈ p.mem.held, h.client ≠ .readCtx x) then .holding else .fetching })
      ∧ (r.state = .draining →
          q.readCtx x = if r.outstanding ≤ 1 then none else some { r with outstanding := r.outstanding - 1 })

/-- R77: a HOLDING context puts its frame into the response queue; it stages the next frame, or closes when the read's end
is reached. That the staged bytes a burst has not brought yet hold 00h is the model's choice (log 33). -/
def Rules.StagedFramesAreQueued : Prop :=
  ∀ (x : ReadId) (i : Port) (s : State) (r : ReadCtx) (st : Staged) (c : Conf), s.part.ret.running = true →
    x.val / 2 = i.val → s.part.readCtx x = some r → r.state = .holding → r.staged = some st →
    (s.part.journal r.journal).conf = some c → (s.part.req i).respQ.length < 32 →
    let p := s.part
    let next := r.nextPos + BitVec.ofNat 64 st.bytes.length
    let left := r.start.toNat + r.length - next.toNat
    let bursts := c.bursts next.toNat (min 256 left)
    Ends (.readFrameQueued x) s fun q =>
      q.req i = { p.req i with respQ := (p.req i).respQ ++ [.rdata r.reqTag st.position st.bytes] }
      ∧ q.readCnt = { p.readCnt with bytes := satAdd p.readCnt.bytes st.bytes.length }
      ∧ (∀ y, y ≠ x → q.readCtx y = p.readCtx y) ∧ q.journals = p.journals
      ∧ (1 ≤ left → q.mem = p.memAfter (bursts.map (readAccess (.readCtx x))) ∧ ∃ handed,
          handed + q.mem.held.length = r.outstanding + bursts.length + p.mem.held.length
          ∧ q.readCtx x = some
            { r with
              nextPos := next
              state := .fetching
              staged := some ⟨next, zeros (min 256 left)⟩
              outstanding := handed })
      ∧ (left = 0 → q.mem = p.mem ∧ q.readCtx x = some { r with nextPos := next, state := .closing, staged := none })

/-- R78: a CLOSING context queues the read's response, frees its tag and its pin and becomes FREE; the head-advance check
of the journal follows (R85). The position of an AT_FRONTIER answer is the model's reading (log 24). -/
def Rules.ReadsAreAnswered : Prop :=
  ∀ (x : ReadId) (i : Port) (s : State) (r : ReadCtx) (c : Conf), s.part.ret.running = true →
    x.val / 2 = i.val → s.part.readCtx x = some r → r.state = .closing →
    (s.part.journal r.journal).conf = some c → (s.part.req i).respQ.length < 32 →
    let p := s.part
    let answer : Rsp :=
      { code := 0x0A#8, tag := r.reqTag, status := .ok, atFrontier := r.frontierEnd
        values := .read r.length (if r.frontierEnd then r.start + BitVec.ofNat 64 r.length else r.start) }
    Ends (.readResponseQueued x) s fun q =>
      q.req i =
        { p.req i with
          respQ := (p.req i).respQ ++ [.rsp answer]
          tags := (p.req i).tags.filter fun t => decide (t ≠ r.reqTag) }
      ∧ q.readCtx x = none ∧ (∀ y, y ≠ x → q.readCtx y = p.readCtx y)
      ∧ p.headChecked q r.journal { c with pins := c.pins.erase r.start }

/-- The frames of a read (R77), whose staged bytes are the model's choice until their burst arrives (log 33), and its
response (R78), whose position at the frontier is the model's reading (log 24). -/
def Obligations.ReadsAreDelivered : Prop := Rules.StagedFramesAreQueued ∧ Rules.ReadsAreAnswered

/-- R82, R83 and R84: a TRIM that fails a check, or asks for the head that stands, is answered at once; an accepted one is
HELD when its target is the durable frontier (R85 then applies), else CHECKING, with the read of its header handed. -/
def Obligations.TrimIsAnsweredOrAccepted : Prop :=
  ∀ (i : Port) (j : JournalId) (s : State) (payload : List Byte) (c : Conf), s.part.reachesBlock i codeTrim payload →
    (Req.ofPayload payload).journal.toNat = j.val → (s.part.journal j).conf = some c →
    let p := s.part
    let r := Req.ofPayload payload
    let sid : SessionId := ⟨i, (p.req i).session.gen⟩
    let answered := fun st => Ends (.trim i) s fun q =>
      q = p.served i fun l => l.took.answered (r.rsp st (.trim (p.journal j).epoch c.head))
    let placed := c.head.toNat ≤ r.trimPosition.toNat ∧ r.trimPosition.toNat ≤ c.durable.toNat
      ∧ r.trimPosition.toNat % 32 = 0
    (∀ t cl, c.own = .transferring (some sid) t cl → answered .fenced)
    ∧ ((∀ t cl, c.own ≠ .transferring (some sid) t cl) → (∀ t, c.own ≠ .owned sid t) → answered .notOwner)
    ∧ ∀ t, c.own = .owned sid t →
        (r.epoch ≠ (p.journal j).epoch → answered .staleEpoch)
        ∧ (r.epoch = (p.journal j).epoch → c.trim ≠ none → answered .busy)
        ∧ (r.epoch = (p.journal j).epoch → c.trim = none →
            (¬placed → answered .badPosition)
            ∧ (placed → r.trimPosition = c.head → answered .ok)
            ∧ (placed → r.trimPosition ≠ c.head → Ends (.trim i) s fun q =>
                q.req i = (p.req i).took.entered r.tag ∧ q.link i = (p.link i).credited 1
                ∧ (r.trimPosition = c.durable →
                    p.headChecked q j
                      { c with trim := some { target := r.trimPosition, session := sid, reqTag := r.tag, phase := .held } }
                    ∧ q.mem = p.mem)
                ∧ (r.trimPosition ≠ c.durable →
                    q.journal j =
                      { p.journal j with
                        conf := some
                          { c with
                            trim := some
                              { target := r.trimPosition, session := sid, reqTag := r.tag, phase := .checking } } }
                    ∧ (∀ k, k ≠ j → q.journal k = p.journal k) ∧ q.readCnt = p.readCnt
                    ∧ q.mem = p.memAfter [readAccess (.trim j) (c.address r.trimPosition.toNat)])))

/-- R84: the header read of a pending trim decides whether its target is a record boundary; a target that is none ends the
trim with NOT_A_BOUNDARY. That this answer waits behind the port's earlier waiting responses even where a frame is free is
the model's reading (log 18). -/
def Obligations.TrimTargetsAreVerified : Prop :=
  ∀ (j : JournalId) (a : Access) (s : State) (c : Conf) (t : PendingTrim), s.part.completes a → a.client = .trim j →
    a.kind = .read → (s.part.journal j).conf = some c → c.trim = some t → t.phase = .checking →
    a.addr = c.address t.target.toNat / 64 * 64 → c.address t.target.toNat % 32 = 0 →
    let p := s.part
    let header := Memory.readBytes p.dram (c.address t.target.toNat) 32
    let boundary := leNat (header.drop 30) = (crc16 (header.take 30)).toNat
      ∧ (byteAt header 0 = 1 ∨ byteAt header 0 = 2 ∨ byteAt header 0 = 3) ∧ field header 16 8 = t.target.toNat
    Ends .trimCheckComplete s fun q =>
      q.dram = p.dram
      ∧ (boundary → p.headChecked q j { c with trim := some { t with phase := .held } } ∧ q.reqs = p.reqs
          ∧ q.waiting = p.waiting)
      ∧ (¬boundary →
          q.journal j = { p.journal j with conf := some { c with trim := none } }
          ∧ q.readCnt = { p.readCnt with notABoundary := satInc p.readCnt.notABoundary }
          ∧ p.releasedTo q t.session
            { code := 0x0B#8, tag := t.reqTag, status := .notABoundary, values := .trim (p.journal j).epoch c.head })

/-- R85: head moves to the target of a trim in HELD that no pin holds back. -/
def Rules.HeadAdvances : Prop :=
  ∀ (j : JournalId) (s : State) (c : Conf) (t : PendingTrim), s.part.ret.running = true →
    (s.part.journal j).conf = some c → c.trim = some t → t.phase = .held → (∀ x ∈ c.pins, t.target.toNat ≤ x.toNat) →
    let p := s.part
    Ends (.trimHeadAdvance j) s fun q =>
      (q.journal j).conf = some
        { c with
          head := t.target
          trim := some { t with phase := .advanced }
          armed := c.armed
            || decide (c.reserve.toNat - t.target.toNat < c.count.toNat * 65536 * (p.journal j).watermark.toNat / 100) }
      ∧ (q.journal j).dir = { (p.journal j).dir with dirty := true } ∧ (q.journal j).epoch = (p.journal j).epoch
      ∧ (∀ k, k ≠ j → q.journal k = p.journal k)
      ∧ q.readCnt = { p.readCnt with trims := satInc p.readCnt.trims }

/-- R86: an ADVANCED trim whose target the persisted head has reached ends, answered OK with the epoch and the new head.
That the answer waits behind the port's earlier waiting responses even where a frame is free is the model's reading
(log 18). -/
def Rules.TrimsEnd : Prop :=
  ∀ (j : JournalId) (s : State) (c : Conf) (t : PendingTrim), s.part.ret.running = true →
    (s.part.journal j).conf = some c → c.trim = some t → t.phase = .advanced →
    t.target.toNat ≤ c.persistedHead.toNat →
    let p := s.part
    Ends (.trimComplete j) s fun q =>
      q.journal j = { p.journal j with conf := some { c with trim := none } }
      ∧ (∀ k, k ≠ j → q.journal k = p.journal k)
      ∧ p.releasedTo q t.session
        { code := 0x0B#8, tag := t.reqTag, status := .ok, values := .trim (p.journal j).epoch c.head }

/-- The advance of head (R85), and the end of a trim (R86). -/
def Obligations.TrimsAdvanceAndEnd : Prop := Rules.HeadAdvances ∧ Rules.TrimsEnd

/-! ## The journal table and its directory -/

/-- R65: the hold-grace timer of a HELD journal runs out, and nothing else changes. -/
def Rules.HoldGraceExpires : Prop :=
  ∀ (j : JournalId) (s : State) (c : Conf) (t : W32) (ms : W16), s.part.ret.running = true →
    (s.part.journal j).conf = some c → c.own = .held t (.running ms) →
    Ends (.holdGraceExpiry j) s fun q =>
      q.journal j = { s.part.journal j with conf := some { c with own := .held t .expired } }
      ∧ (∀ k, k ≠ j → q.journal k = s.part.journal k)

/-- The two timers that the port's masters meet: a slot's idle timer (R37) and a journal's hold grace (R65). -/
def Obligations.TimersOfSlotsAndJournalsExpire : Prop := Rules.IdleTimerAbandonsTheSlot ∧ Rules.HoldGraceExpires

/-- R18, R20, R21: the start of a write of a dirty item that has none in flight: the snapshot is taken, the flags change,
the responses bound to the next write are bound to this one, and one full write of class DIRECTORY to the copy that is not
the newest is handed to the memory engine. -/
def Rules.DueWritesStart : Prop :=
  ∀ (i : Item) (s : State), s.part.ret.running = true → s.part.dirDue i = true →
    let p := s.part
    Ends (.directoryWriteStart i) s fun q =>
      q.mem = p.memAfter [p.dirWrite i]
      ∧ (∀ j, i = .journal j →
          (q.journal j).dir =
            { (p.journal j).dir with
              dirty := false
              inFlight := true
              snapshot := some
                { epoch := (p.journal j).epoch
                  conf := (p.journal j).conf.map fun c =>
                    { state := c.state, base := c.base, count := c.count, tag := c.ownerTag, head := c.head
                      frontier := c.frontier, frontierSeq := c.frontierSeq } } }
          ∧ (q.journal j).conf = (p.journal j).conf ∧ (q.journal j).epoch = (p.journal j).epoch
          ∧ (q.journal j).boundFlight = (p.journal j).boundNext ∧ (q.journal j).boundNext = []
          ∧ (∀ k, k ≠ j → q.journal k = p.journal k) ∧ q.header = p.header)
      ∧ (i = .header →
          q.header = { p.header with dir := { p.header.dir with dirty := false, inFlight := true, snapshot := none } }
          ∧ q.journals = p.journals)

/-- R21 with the first and last steps of R19: the completion of a write of the device header. -/
def Rules.HeaderWriteLands : Prop :=
  ∀ (a : Access) (s : State), s.part.completes a → a.client = .dirWriter .header →
    let p := s.part
    let d := p.header.dir
    Ends .deviceHeaderWriteComplete s fun q =>
      q.dram = a.store p.dram ∧ q.journals = p.journals
      ∧ q.header =
        { p.header with
          dir :=
            { d with
              newest := if d.newest = .a then .b else .a
              gen := d.gen + 1
              dirty := false
              inFlight := d.dirty
              snapshot := none } }

/-- The start of a directory write (R18), and the completion of one of the device header (R21). -/
def Obligations.WritesStartAndTheHeaderLands : Prop := Rules.DueWritesStart ∧ Rules.HeaderWriteLands

/-- R19: the completion of the directory write of a configured journal, whatever its ownership. The written copy becomes the
newest, the durable values take the snapshot's, the durable slots `ns`, in sequence order, and a trim that the persisted head
has reached are released (R44, R86), then the answers bound to the write (R20); where the last slot of a TRANSFERRING journal
becomes FREE the transfer completes (R59, R60), with OWNER before FRONTIER; the subscribers are told of an advance of the
durable frontier, and a write that has come due meanwhile starts. A released slot is FREE unless its APPEND_DONE waits for a
frame (R45). That the releases come in the order slots, trim, bound answers, the bound ones in the order in which they were
bound, is the model's choice (log 17); so is that the arbiter chooses before that write is handed (log 12). That an answer
waits behind the port's earlier waiting responses even where a frame is free is its reading (log 18). -/
def Rules.ConfiguredWriteLands : Prop :=
  ∀ (j : JournalId) (a : Access) (s : State) (c : Conf) (sn : Snapshot), s.part.completes a →
    a.client = .dirWriter (.journal j) → (s.part.journal j).conf = some c →
    (s.part.journal j).dir.snapshot = some sn →
    let p := s.part
    let e := p.journal j
    let head := (sn.conf.map SnapConf.head).getD c.persistedHead
    let durable := (sn.conf.map SnapConf.frontier).getD c.durable
    let durableSeq := (sn.conf.map SnapConf.frontierSeq).getD c.durableSeq
    let ended := ∃ t, c.trim = some t ∧ t.phase = .advanced ∧ t.target.toNat ≤ head.toNat
    Ends .directoryWriteComplete s fun q =>
      q.dram = a.store p.dram
      ∧ (∃ trim, (ended → trim = none) ∧ (¬ended → trim = c.trim) ∧
          let d := { c with persistedHead := head, durable := durable, durableSeq := durableSeq, trim := trim }
          let gone := (p.slotsWith fun x => decide (x.journal = j)).length
            - (q.slotsWith fun x => decide (x.journal = j)).length
          let after := p.freedEntry j { e with conf := some d } gone
          let trimmed :=
            (c.trim.filter fun t => decide (t.phase = .advanced) && decide (t.target.toNat ≤ head.toNat)).toList.map
              fun t => (t.session, { code := 0x0B#8, tag := t.reqTag, status := .ok, values := .trim after.epoch c.head })
          q.journal j =
            { after with
              dir :=
                { e.dir with
                  newest := if e.dir.newest = .a then .b else .a
                  gen := e.dir.gen + 1
                  dirty := after.dir.dirty
                  inFlight := false
                  snapshot := none }
              boundFlight := [] : Journal }.started
          ∧ q.mem = (p.carryOut a).memAfter
              (if after.dir.dirty then
                [directoryWrite (.dirWriter (.journal j)) (.journal j) e.dir.newest
                  (entryBytes j
                    { epoch := after.epoch
                      conf := after.conf.map fun c =>
                        { state := c.state, base := c.base, count := c.count, tag := c.ownerTag, head := c.head
                          frontier := c.frontier, frontierSeq := c.frontierSeq } }
                    (e.dir.gen + 2))]
              else [])
          ∧ (∀ k, q.ntf k =
              let told := p.freedNtf j { e with conf := some d } gone k
              if c.durable.toNat < durable.toNat ∧ k ∈ c.subs then
                told.handed (p.req k).session.active (.frontier j (durableSeq - 1) durable)
              else told)
          ∧ ∃ ns : List SlotId, ns.Nodup
            ∧ (ns.Pairwise fun m n => ∀ x y, p.slot m = some x → p.slot n = some y → x.seq.toNat ≤ y.seq.toNat)
            ∧ (∀ n, n ∈ ns ↔ ∃ x, p.slot n = some x ∧ x.journal = j ∧ x.state = .committed
                ∧ x.position.toNat + x.occupancy ≤ durable.toNat ∧ .appendDone n ∉ p.waits x.session.port)
            ∧ (∀ n, q.slot n =
                if n ∈ ns then
                  (p.slot n).filter fun x => p.live x.session && decide (.appendDone n ∈ q.waits x.session.port)
                else p.slot n)
            ∧ ∀ i, p.releasesInTurn q i (p.donesTo i ns ++ p.answersTo i (trimmed ++ boundAnswers e.boundFlight)))
      ∧ (∀ k, k ≠ j → q.journal k = p.journal k)
      ∧ (∀ cmd, p.maint.deferred = .waiting cmd →
          q.maint.deferred = if .forceRelease ∈ e.boundFlight then .done cmd .ok else .waiting cmd)

/-- R19: the completion of a write of a journal that CLEAR_LAYOUT has made UNCONFIGURED meanwhile: the written copy becomes
the newest, no position moves (step 2), the bound answers are released, no subscriber is told, and the write that records
the UNCONFIGURED entry starts where it is dirty. That the bound answers are released in the order in which they were bound
is the model's choice (log 17), and that the arbiter chooses before that write is handed (log 12); that an answer waits
behind the port's earlier waiting responses even where a frame is free is its reading (log 18). -/
def Rules.UnconfiguredWriteLands : Prop :=
  ∀ (j : JournalId) (a : Access) (s : State), s.part.completes a →
    a.client = .dirWriter (.journal j) → (s.part.journal j).conf = none →
    let p := s.part
    let e := p.journal j
    Ends .directoryWriteComplete s fun q =>
      q.dram = a.store p.dram
      ∧ q.journal j =
        { e with
          dir :=
            { e.dir with
              newest := if e.dir.newest = .a then .b else .a
              gen := e.dir.gen + 1
              inFlight := false
              snapshot := none }
          boundFlight := [] : Journal }.started
      ∧ q.mem = (p.carryOut a).memAfter
          (if e.dir.dirty then
            [directoryWrite (.dirWriter (.journal j)) (.journal j) e.dir.newest
              (entryBytes j { epoch := e.epoch, conf := none } (e.dir.gen + 2))]
          else [])
      ∧ (∀ k, k ≠ j → q.journal k = p.journal k)
      ∧ q.slots = p.slots ∧ q.ntfs = p.ntfs
      ∧ (∀ i, p.releasesInTurn q i (p.answersTo i (boundAnswers e.boundFlight)))
      ∧ (∀ cmd, p.maint.deferred = .waiting cmd →
          q.maint.deferred = if .forceRelease ∈ e.boundFlight then .done cmd .ok else .waiting cmd)

/-- The completion of a journal's directory write (R19), of a configured journal and of one in UNCONFIGURED. -/
def Obligations.JournalWriteLands : Prop := Rules.ConfiguredWriteLands ∧ Rules.UnconfiguredWriteLands

/-- R60: the completion of a transfer hands the journal to the claimant, or leaves it UNASSIGNED; the epoch rises, the
answer is bound to the next directory write, and OWNER goes to the subscribers and to the old owner if it is attached. -/
def Obligations.TransfersComplete : Prop :=
  ∀ (j : JournalId) (s : State) (c : Conf) (owner : Option SessionId) (t : W32) (claimant : Option Claimant),
    s.part.ret.running = true → (s.part.journal j).conf = some c → c.own = .transferring owner t claimant →
    c.openSlots = 0 →
    let p := s.part
    let e := p.journal j
    let told := fun k : Port => k ∈ c.subs ∨ ∃ o : SessionId, owner = some o ∧ o.port = k ∧ p.live o = true
    let waits := p.maint.deferred = .waiting (.forceRelease j) ∧ .forceRelease ∉ e.boundNext ++ e.boundFlight
    Ends (.transferComplete j) s fun q =>
      (∀ k, k ≠ j → q.journal k = p.journal k)
      ∧ (∀ cl tag, claimant = some cl → (p.req cl.session.port).session.tag = some tag →
          q.journal j =
            { e.dirtied with
              conf := some { c with own := .owned cl.session tag }
              epoch := e.epoch + 1
              boundNext := e.boundNext ++
                [.answer cl.session { code := 0x08#8, tag := cl.reqTag, status := .ok, values := .epoch (e.epoch + 1) }] }
          ∧ ∀ k, q.ntf k =
              if told k then p.handed k (.owner j .owned (e.epoch + 1) (some tag)) else p.ntf k)
      ∧ (claimant = none →
          q.journal j =
            { e.dirtied with
              conf := some { c with own := .unassigned }
              epoch := e.epoch + 1
              boundNext := e.boundNext ++ (if waits then [.forceRelease] else []) }
          ∧ ∀ k, q.ntf k = if told k then p.handed k (.owner j .unassigned (e.epoch + 1) none) else p.ntf k)

/-- R23: FORMAT carried out makes every journal UNCONFIGURED and hands both copies of every item, the copy that is not the
newest first; with the last of those writes the deferred result is OK. In-flight from the hand-over and each completed
copy as the newest is the model's reading (log 25); the wrap of the layout generation and the order of the items are its
choices (logs 40 and 41). -/
def Obligations.FormatRuns : Prop :=
  ∀ (s : State), s.part.ret.running = true →
    let p := s.part
    (p.formatPending = true → (∀ n, p.slot n = none) → (∀ j c, (p.journal j).conf = some c → c.trim = none) →
      (∀ i, (p.dirOf i).inFlight = false) → Ends .formatExecute s fun q => p.formatted q)
    ∧ ∀ (a : Access) (i : Item) (c : Copy), p.completes a → a.client = .formatWrite i c →
      Ends .formatWritesComplete s fun q =>
        q.dram = a.store p.dram
        ∧ q.dirOf i =
          { p.dirOf i with
            newest := c
            gen := (p.dirOf i).gen + 1
            copiesLeft := (p.dirOf i).copiesLeft - 1
            inFlight := decide (2 ≤ (p.dirOf i).copiesLeft) }
        ∧ (∀ k, k ≠ i → q.dirOf k = p.dirOf k)
        ∧ (((p.dirOf i).copiesLeft ≤ 1 ∧ ∀ k, k ≠ i → (p.dirOf k).copiesLeft = 0) →
            ∀ cmd, p.maint.deferred = .waiting cmd → q.maint.deferred = .done cmd .ok)
        ∧ (¬((p.dirOf i).copiesLeft ≤ 1 ∧ ∀ k, k ≠ i → (p.dirOf k).copiesLeft = 0) → q.maint = p.maint)

/-! ## Sessions' ends and the port link -/

/-- R105 and R106 with Table 6-2: an accepted DETACH ends the session in every block (`Part.sessionLeft`: slots voided with
their headers handed, reads cancelled with their pins and the head-advance checks, journals left with their OWNER frames,
waiting responses discarded with the transfers this completes) and is answered in the emptied response queue; the credits of
the discarded frames return. The order of these effects is the model's choice (logs 27 and 41). -/
def Obligations.DetachEndsTheSession : Prop :=
  ∀ (i : Port) (s : State) (payload : List Byte), s.part.reachesBlock i codeDetach payload →
    let p := s.part
    let sid : SessionId := ⟨i, (p.req i).session.gen⟩
    Ends (.detach i) s fun q =>
      q.req i =
        { (p.req i).took.ended { (p.req i).took.cnt with endsDetach := satInc (p.req i).cnt.endsDetach } with
          respQ := [.rsp ((Req.ofPayload payload).rsp .ok (.detach (p.req i).session.gen))] }
      ∧ q.link i = (p.link i).credited (p.req i).buffer.length
      ∧ q.ntf i = (p.ntf i).emptied
      ∧ p.sessionLeft q sid

/-- R126, R107, R99 and R127, R128, R135: the link leaves UP at a good LINK_RESET, at a silence expiry, and at a replay
trigger that finds the replay limit reached. LINK_DOWN is raised, buffer and queues are emptied, and an ACTIVE session
ends. In UP the header of a good frame is taken first, a LINK_RESET's too; where its NAK flag finds the limit reached, that
is the cause (R121, R131, R134). That a frame whose NAK flag takes the link down has no further effect is the model's
reading (logs 14 and 15), and the order of the effects of the session end its choice (logs 27 and 41). -/
def Obligations.LinkLossEndsEverything : Prop :=
  ∀ (i : Port) (s : State), s.part.ret.running = true → (s.part.link i).state = .up →
    let p := s.part
    let u := p.link i
    let sid : SessionId := ⟨i, (p.req i).session.gen⟩
    let lost := fun (c : Instr) (v : LinkUnit) => Ends c s fun q =>
      q.link i = v
      ∧ q.maint.pending.getLsbD (4 + i.val) = true
      ∧ q.ntf i = { queue := [], overflow := false, drops := 0, modeRetained := false }
      ∧ ((p.req i).session.active = false → q.req i = { p.req i with buffer := [], respQ := [] })
      ∧ ((p.req i).session.active = true →
          q.req i = (p.req i).ended { (p.req i).cnt with endsLinkLoss := satInc (p.req i).cnt.endsLinkLoss }
          ∧ p.sessionLeft q sid)
    (∀ h v, ¬u.nakEnds h → u.takes h v →
        lost (.linkResetFrame ⟨i, h⟩) (v.left .linkReset { v.cnt with downReset := satInc v.cnt.downReset }))
    ∧ (u.silenceTimer = true →
        lost (.silenceTimerExpiry i) (u.left .silence { u.cnt with downSilence := satInc u.cnt.downSilence }))
    ∧ (u.replayTimer = true → u.triggered → 8 ≤ u.replayCount →
        lost (.replayTimerExpiry i) (u.left .replayLimit { u.cnt with downReplay := satInc u.cnt.downReplay }))
    ∧ ∀ h, u.nakEnds h →
        let limit := (u.heard h).left .replayLimit { (u.heard h).cnt with downReplay := satInc u.cnt.downReplay }
        lost (.idleFrame i h) limit ∧ lost (.linkResetFrame ⟨i, h⟩) limit
        ∧ ∀ t payload, payload.length ≤ 512 → lost (.goodSequencedFrame i t h payload) limit

/-- R117, R122 and R132: the transmit selector takes the head of the preferred source, or of the only one that holds a
frame; the link unit gives it the next transmit sequence, holds it for replay and sends it. R96 and R97: what a departing
notification leaves of its queue. -/
def Obligations.SelectorSends : Prop :=
  ∀ (i : Port) (s : State), s.part.ret.running = true →
    let p := s.part
    let u := p.link i
    let r := p.req i
    let n := p.ntf i
    let held := fun (t : TxType) (payload : List Byte) =>
      ({ u with
        nextSeq := u.nextSeq + 1
        replayBuf := u.replayBuf ++ [⟨u.nextSeq, t, payload⟩]
        replayTimer := true } : LinkUnit).sent t.code u.nextSeq payload
    u.state = .up → u.replay = none → u.replayBuf.length < 16 → u.replayBuf.length < u.report →
    (∀ f rest, r.respQ = f :: rest → (n.queue = [] ∨ r.prefers = .responses) →
      Ends (.transmitSelect i) s fun q =>
        q.link i = held f.ftype f.payload ∧ q.req i = { r with respQ := rest, prefers := .notifications }
        ∧ q.ntf i = n)
    ∧ ∀ e rest, n.queue = e :: rest → (r.respQ = [] ∨ r.prefers = .notifications) →
      Ends (.transmitSelect i) s fun q =>
        q.link i = held .ntf e.bytes ∧ q.req i = { r with prefers := .responses }
        ∧ q.ntf i =
          { queue := if n.overflow then rest ++ [.overflow n.drops] else rest
            overflow := false
            drops := if n.overflow then 0 else n.drops
            modeRetained := n.modeRetained && !e.isMode }

/-- R122, R123, R124, R133 and R134: the frames that a link unit sends beside new sequenced ones, in each of its states. -/
def Obligations.LinkSendsItsFrames : Prop :=
  ∀ (i : Port) (s : State), s.part.ret.running = true →
    let p := s.part
    let u := p.link i
    let sends := fun (c : Instr) (v : LinkUnit) => Ends c s fun q => q = p.modLink i fun _ => v
    let ownCause := u.cause = some .silence ∨ u.cause = some .replayLimit
    let silent := 16 ≤ u.replayBuf.length ∨ u.report ≤ u.replayBuf.length
      ∨ ((p.req i).respQ = [] ∧ (p.ntf i).queue = [])
    ((u.state = .sync ∨ (u.state = .down ∧ ¬ownCause)) →
      sends (.sendIdle i) { u with lane := some (frameBytes 0x00 0 63 false 0 []) })
    ∧ (u.state = .up → u.replay = none → silent → sends (.sendIdle i) (u.sent 0x00 u.nextSeq []))
    ∧ (u.state = .down → ownCause →
        sends (.sendLinkReset i)
          { u with lane := some (frameBytes 0x01 0 63 false 0 []), resets := min 8 (u.resets + 1) })
    ∧ ∀ k e, u.state = .up → u.replay = some k → u.replayBuf[k]? = some e →
        sends (.replaySend i)
          (({ u with replay := if k + 1 < u.replayBuf.length then some (k + 1) else none } : LinkUnit).sent e.ftype.code e.seq
            e.payload)

/-- R129 with R131, R108 and R109: a good sequenced frame in UP, in order, ahead or a duplicate. The tag 00h of the REJECT for
a frame too short to hold one is the model's choice (log 23). -/
def Obligations.SequencedFramesAreClassified : Prop :=
  ∀ (i : Port) (t : SeqType) (h : Header) (payload : List Byte) (s : State) (v : LinkUnit),
    s.part.ret.running = true → payload.length ≤ 512 → (s.part.link i).state = .up → ¬(s.part.link i).nakEnds h →
    (s.part.link i).takes h v →
    let p := s.part
    let r := p.req i
    let d := (h.seq - (p.link i).expected).toNat
    let frame : BufFrame := { isData := decide (t = .data), payload := payload }
    let next : LinkUnit := { v with expected := v.expected + 1, nak := .none }
    let tag := if payload.length < (if t = .data then 6 else 2) then 0
      else if t = .data then byteAt payload 0 else byteAt payload 1
    let leaves := fun (w : LinkUnit) (x : RequestLayer) => Ends (.goodSequencedFrame i t h payload) s fun q =>
      q = (p.modLink i fun _ => w).modReq i fun _ => x
    (d = 0 → (t = .req ∨ t = .data) → r.buffer.length < 8 →
      leaves { next with freePlaces := next.freePlaces - 1 } { r with buffer := r.buffer ++ [frame] })
    ∧ (d = 0 → (t = .req ∨ t = .data) → 8 ≤ r.buffer.length →
        let full : LinkUnit := { next with cnt := { next.cnt with overruns := satInc next.cnt.overruns } }
        (r.respQ.length < 32 →
          leaves full
            { r with
              respQ := r.respQ ++ [.rsp
                { code := 0, tag := tag, status := .overrun, atFrontier := false, values := .none }]
              cnt := { r.cnt with rejects := satInc r.cnt.rejects } })
        ∧ (32 ≤ r.respQ.length →
          leaves full { r with cnt := { r.cnt with rejectsSuppressed := satInc r.cnt.rejectsSuppressed } }))
    ∧ (d = 0 → t ≠ .req → t ≠ .data →
        leaves { next with cnt := { next.cnt with unexpected := satInc next.cnt.unexpected } } r)
    ∧ (1 ≤ d → d ≤ 47 →
        leaves
          ({ v with cnt := { v.cnt with sequenceDiscards := satInc v.cnt.sequenceDiscards } } : LinkUnit).owesNak r)
    ∧ (48 ≤ d → leaves { v with cnt := { v.cnt with sequenceDiscards := satInc v.cnt.sequenceDiscards } } r)

/-- R130 with R131, R134 and R135: a good IDLE frame and a frame that fails the check, in UP, and the replay timer's
expiry below the replay limit. R121: a sequenced frame above 512 bytes is a check failure (R185). -/
def Rules.IdleFramesAndFailures : Prop :=
  ∀ (i : Port) (s : State), s.part.ret.running = true →
    let p := s.part
    let u := p.link i
    let leaves := fun (c : Instr) (w : LinkUnit) => Ends c s fun q => q = p.modLink i fun _ => w
    let failed : LinkUnit := { u with cnt := { u.cnt with checkFailures := satInc u.cnt.checkFailures } }
    let fails := fun c =>
      (u.state = .down → leaves c failed)
      ∧ (u.state = .sync → leaves c { failed with syncCount := 0 })
      ∧ (u.state = .up → leaves c failed.owesNak)
    (∀ h v, u.state = .up → ¬u.nakEnds h → u.takes h v →
      let d := (h.seq - u.expected).toNat
      (d = 0 → leaves (.idleFrame i h) { v with nak := if v.nak = .pending then .none else v.nak })
      ∧ (1 ≤ d → d ≤ 47 → leaves (.idleFrame i h) v.owesNak)
      ∧ (48 ≤ d → leaves (.idleFrame i h) v))
    ∧ fails (.frameCheckFail i)
    ∧ (∀ t h payload, 512 < payload.length → fails (.goodSequencedFrame i t h payload))
    ∧ (u.state = .up → u.replayTimer = true →
        (u.triggered → u.replayCount < 8 → leaves (.replayTimerExpiry i) u.replaying)
        ∧ (¬u.triggered → leaves (.replayTimerExpiry i) u))

/-- R123, R124 and R125, with R127 and R128 outside UP: how a link unit comes up from DOWN through SYNC, and how it falls
back. That the sync count is 0 after the return to DOWN by silence is the model's choice (log 47). -/
def Rules.LinksComeUpThroughSync : Prop :=
  ∀ (i : Port) (s : State), s.part.ret.running = true →
    let p := s.part
    let u := p.link i
    let leaves := fun (c : Instr) (w : LinkUnit) => Ends c s fun q => q = p.modLink i fun _ => w
    let good : LinkUnit := { u with cnt := { u.cnt with good := satInc u.cnt.good } }
    let ownCause := u.cause = some .silence ∨ u.cause = some .replayLimit
    let synced : LinkUnit :=
      { good with state := .sync, cause := none, resets := 0, syncCount := 0, silenceTimer := true }
    (u.state = .down →
      ((¬ownCause ∨ 8 ≤ u.resets) → ∀ h, leaves (.idleFrame i h) synced ∧ leaves (.linkResetFrame ⟨i, h⟩) synced)
      ∧ (ownCause → u.resets < 8 → ∀ h, leaves (.idleFrame i h) good ∧ leaves (.linkResetFrame ⟨i, h⟩) good)
      ∧ ∀ t h payload, payload.length ≤ 512 → leaves (.goodSequencedFrame i t h payload) good)
    ∧ (u.state = .sync →
        (∀ h, u.syncCount + 1 < 8 →
          leaves (.idleFrame i h) { good with syncCount := u.syncCount + 1, silenceTimer := true })
        ∧ (∀ h, 8 ≤ u.syncCount + 1 → Ends (.idleFrame i h) s fun q =>
            q =
              (p.modLink i fun _ =>
                { good with
                  syncCount := u.syncCount + 1
                  state := .up
                  nextSeq := 0
                  expected := 0
                  freePlaces := 8
                  report := 8
                  nak := .none
                  replayCount := 0
                  replayBuf := []
                  replay := none
                  replayTimer := false
                  silenceTimer := true }).modReq i fun r => { r with prefers := .responses })
        ∧ (∀ h, leaves (.linkResetFrame ⟨i, h⟩) { good with syncCount := 0, silenceTimer := true })
        ∧ (∀ t h payload, payload.length ≤ 512 →
            leaves (.goodSequencedFrame i t h payload) { good with syncCount := 0, silenceTimer := true })
        ∧ (u.silenceTimer = true →
            leaves (.silenceTimerExpiry i)
              { u with state := .down, cause := some .syncSilence, resets := 0, syncCount := 0, silenceTimer := false }))

/-- IDLE, LINK_RESET and failed frames and the link's timers below their limits: in UP (R121, R130, R131, R134), and in DOWN
and SYNC (R123 to R125, R127, R128). -/
def Obligations.FramesOutsideTheSequence : Prop := Rules.IdleFramesAndFailures ∧ Rules.LinksComeUpThroughSync

/-! ## The memory engine -/

/-- R143 (Table 8-3), R144, R145, R151 and R152: what the arbiter chooses. R145 says that the bypass count rises by 1; that it
stays at 4, the end of its range in Table 8-1, and that an access held back (R144) is not passed over, is the model's
inference (log 39). -/
def Obligations.ArbiterChooses : Prop :=
  ∀ (m : MemEngine) (urgent : Nat),
    let free := fun (i : Nat) (a : Access) => m.queue[i]? = some a ∧ ∀ b ∈ m.queue.take i, b.addr ≠ a.addr
    let hit := fun a : Access => (m.banks.get (bankOf a.addr)).openRow = some (a.addr / 65536)
    let runs := fun (a : Access) (queue : List Access) => { m with queue := queue, op := some (.access a) }
    ((m.op ≠ none ∨ m.cond ≠ .active) → m.arbitrate urgent = m)
    ∧ (m.op = none → m.cond = .active →
      ((m.postExit = true ∨ urgent ≤ m.debt) → m.arbitrate urgent = { m with op := some (.refresh .urgent) })
      ∧ (m.postExit = false → m.debt < urgent →
        (∀ i a, free i a → a.cls = .directory → (∀ k b, k < i → free k b → b.cls = .ordinary) →
          m.arbitrate urgent = runs a (m.queue.eraseIdx i))
        ∧ ((∀ k b, free k b → b.cls = .ordinary) →
            (∀ h a, free h a → (∀ k b, k < h → ¬free k b) →
              ((4 ≤ a.bypass ∨ hit a ∨ ∀ k b, free k b → ¬hit b) →
                m.arbitrate urgent = runs a (m.queue.eraseIdx h))
              ∧ (a.bypass < 4 → ¬hit a → ∀ i b, free i b → hit b → (∀ k c, k < i → free k c → ¬hit c) →
                m.arbitrate urgent =
                  runs b
                    ((m.queue.mapIdx fun k c =>
                      if k < i ∧ (∀ d ∈ m.queue.take k, d.addr ≠ c.addr) then { c with bypass := min 4 (c.bypass + 1) }
                      else c).eraseIdx i)))
            ∧ (m.queue = [] → m.entryWaiting = true →
                m.arbitrate urgent = { m with op := some .entry, entryWaiting := false })
            ∧ (m.queue = [] → m.entryWaiting = false →
                m.arbitrate urgent = if 0 < m.debt then { m with op := some (.refresh .opportunistic) } else m))))

/-- R141: the first access that a client's block holds joins the queue when there is room for its class, and the arbiter
chooses if the command path is free. A read context counts the burst as outstanding (R76). -/
def Obligations.HeldAccessesAreAdmitted : Prop :=
  ∀ (cl : Client) (k : Nat) (a : Access) (s : State), s.part.ret.running = true → s.part.mem.held[k]? = some a →
    sameClient a.client cl = true → (∀ b ∈ s.part.mem.held.take k, sameClient b.client cl = false) →
    s.part.mem.queue.length < 64 → (a.cls = .directory ∨ s.part.mem.ordinary < 55) →
    let p := s.part
    Ends (.accessAdmit cl) s fun q =>
      q.mem =
        MemEngine.arbitrate { p.mem with held := p.mem.held.eraseIdx k, queue := p.mem.queue ++ [a] }
          p.maint.params.urgent.toNat
      ∧ ∀ r, q.readCtx r = (p.readCtx r).map fun c =>
          { c with outstanding := if a.client = .readCtx r then c.outstanding + 1 else c.outstanding }

/-- R142, R146, R147, R148 and R159: a completed access leaves its bytes in DRAM and no other byte changed, and its bank
as the row policy has it, its counters raised. That banks and counters change at the completion is the model's choice
(log 12). -/
def Obligations.AccessesReachDram : Prop :=
  ∀ (p : Part) (a : Access), Memory.wf p.dram →
    let b := p.mem.banks.get (bankOf a.addr)
    let hit := b.openRow = some (a.addr / 65536)
    let full := a.kind = .fullWrite ∨ (a.kind = .maskedWrite ∧ a.mask = 0xFF#8)
    let m := p.mem.carryOut a p.maint.params.rowPolicy
    (∀ x, Memory.read (p.carryOut a).dram x = a.leaves p.dram x)
    ∧ (p.carryOut a).mem = m.arbitrate p.maint.params.urgent.toNat
    ∧ m.op = none ∧ m.queue = p.mem.queue ∧ m.debt = p.mem.debt
    ∧ (∀ k, k ≠ bankOf a.addr → m.banks.get k = p.mem.banks.get k)
    ∧ m.banks.get (bankOf a.addr) =
      { openRow := if p.maint.params.rowPolicy = .openPage then some (a.addr / 65536) else none
        activations := if hit then b.activations else satInc b.activations
        rowHits := if hit then satInc b.rowHits else b.rowHits
        fullWrites := if full then satInc b.fullWrites else b.fullWrites
        maskedWrites := if a.kind = .maskedWrite ∧ ¬full then satInc b.maskedWrites else b.maskedWrites }

/-- R149 and R150: an expiry of the refresh timer raises the debt, or is a missed refresh that may leave any bytes of DRAM
changed; a refresh closes the banks and lowers the debt. Which bytes a missed refresh changes is a free value (log 8). -/
def Rules.RefreshesAreAccounted : Prop :=
  ∀ (s : State), s.part.ret.running = true →
    let p := s.part
    let m := p.mem
    let u := p.maint.params.urgent.toNat
    (m.refreshTimer = true → m.debt < 8 → Ends .refreshTimerExpiry s fun q =>
      q.mem = MemEngine.arbitrate { m with debt := m.debt + 1 } u ∧ q.dram = p.dram ∧ q.maint = p.maint)
    ∧ (m.refreshTimer = true → 8 ≤ m.debt → Ends .refreshTimerExpiry s fun q =>
      q.mem =
        MemEngine.arbitrate
          { m with
            missedFlag := true
            missCount := m.missCount + 1
            cnt := { m.cnt with missed := satInc m.cnt.missed } } u
      ∧ q.maint.pending = p.maint.pending ||| 0x0008#16
      ∧ q.dram = Memory.writeCells p.dram (Config.lostBytes m.missCount))
    ∧ ∀ k, m.op = some (.refresh k) → Ends .refreshComplete s fun q =>
        q.mem =
          MemEngine.arbitrate
            { m with
              op := none
              banks := m.banks.map fun b => { b with openRow := none }
              debt := m.debt - 1
              postExit := false
              cnt :=
                if k = .urgent then { m.cnt with urgent := satInc m.cnt.urgent }
                else { m.cnt with opportunistic := satInc m.cnt.opportunistic } } u
        ∧ q.dram = p.dram

/-- R153, R154 and R156: what the completion of an initialise, an entry or an exit order leaves of the DRAM condition, the
banks and the refresh account, where no work of the retention controller waits for it. An entry that a quiesce or an
abandoned mode waits for is in QuiesceEnds and PowerFailOutsideServing. -/
def Rules.DramOrdersComplete : Prop :=
  ∀ (s : State), s.part.ret.running = true →
    let p := s.part
    let m := p.mem
    let u := p.maint.params.urgent.toNat
    let closed := m.banks.map fun b => { b with openRow := none }
    (m.op = some .initialise → (p.ctl.work ≠ .coldInit ∨ p.ctl.abandoned = true) →
      Ends .initialiseComplete s fun q =>
        q.mem =
          MemEngine.arbitrate
            { m with op := none, banks := closed, cond := .active, debt := 0, refreshTimer := true } u
        ∧ q.ret = p.ret)
    ∧ (m.op = some .exit → ((p.ctl.work ≠ .coldExit ∧ p.ctl.work ≠ .restoreExit) ∨ p.ctl.abandoned = true) →
        Ends .selfRefreshExitComplete s fun q =>
          q.mem =
            { m with
              op := some (.refresh .urgent)
              banks := closed
              cond := .active
              debt := 1
              postExit := true
              refreshTimer := true }
          ∧ q.ret = { p.ret with selfRefresh := false } ∧ q.dram = p.dram)
    ∧ (m.op = some .entry → (p.ret.mode = .serving ∨ (p.ret.mode = .quiescing ∧ p.ctl.drainOrdered = false)) →
        Ends .selfRefreshEntryComplete s fun q =>
          q.mem = m.inSelfRefresh ∧ q.ret = { p.ret with selfRefresh := true } ∧ q.dram = p.dram)

/-- The refresh account (R149, R150), and the orders of the retention controller to the DRAM (R153, R154, R156). The bytes
that a missed refresh changes are the model's free value (log 8). -/
def Obligations.RefreshesAndOrdersComplete : Prop := Rules.RefreshesAreAccounted ∧ Rules.DramOrdersComplete

/-! ## Cold start, restore, quiesce and power -/

/-- R162 and R22: the completed initialisation, or the exit that a cold start from self-refresh waits for, sets the journal
table, the device header and the parameters, and hands both copies of every item, copy A with generation 1 and copy B with
generation 0. The order in which they are handed is the model's choice (log 41), and so is that the arbiter chooses before
(log 12); in-flight from the hand-over is its reading (log 25). -/
def Rules.ColdStartFills : Prop :=
  ∀ (s : State), s.part.ret.running = true → s.part.ctl.abandoned = false →
    let p := s.part
    let m := p.mem
    let closed := m.banks.map fun b => { b with openRow := none }
    let copies := fun i : Item =>
      let bytes := fun gen : W32 =>
        match i with
        | .journal j => entryBytes j { epoch := 0, conf := none } gen
        | .header => headerBytes 0 {} [75, 75, 75, 75, 75, 75, 75, 75] gen
      [directoryWrite (.coldWrite i .a) i .a (bytes 1), directoryWrite (.coldWrite i .b) i .b (bytes 0)]
    let filled := fun (q : Part) (n : MemEngine) =>
      (∀ j, (q.journal j).conf = none ∧ (q.journal j).epoch = 0 ∧ (q.journal j).watermark = 75)
      ∧ q.header.layoutGen = some 0
      ∧ q.maint = { p.maint with params := { idle := 20, grace := 2000, urgent := 6, rowPolicy := .openPage } }
      ∧ (∀ i, q.dirOf i =
          { dirty := false, inFlight := true, snapshot := none, newest := .a, gen := 1, copiesLeft := 2 })
      ∧ q.ctl = { p.ctl with work := .coldWrites }
      ∧ q.mem = (n.arbitrate p.maint.params.urgent.toNat).handedAll 6 (itemsInOrder.flatMap copies)
    (m.op = some .initialise → p.ctl.work = .coldInit → Ends .initialiseComplete s fun q =>
      filled q { m with op := none, banks := closed, cond := .active, debt := 0, refreshTimer := true }
      ∧ q.ret = p.ret)
    ∧ (m.op = some .exit → p.ctl.work = .coldExit → Ends .selfRefreshExitComplete s fun q =>
        filled q
          { m with op := none, banks := closed, cond := .active, debt := 1, postExit := true, refreshTimer := true }
        ∧ q.ret = { p.ret with selfRefresh := false })

/-- R22 and R162: each completed copy counts down, and when all have completed the mode becomes SERVING, COLD_START and
MODE_CHANGED being raised; a cold start that has been abandoned goes no further (R173). -/
def Rules.ColdStartEnds : Prop :=
  ∀ (s : State), s.part.ret.running = true →
    let p := s.part
    (∀ a i c, p.completes a → a.client = .coldWrite i c → (Ends .coldStartWriteComplete s fun q =>
        q.dram = a.store p.dram ∧ q.mem = (p.carryOut a).mem ∧ q.ret = p.ret ∧ q.ctl = p.ctl
        ∧ (∀ k, k ≠ i → q.dirOf k = p.dirOf k)
        ∧ q.dirOf i =
          { p.dirOf i with
            copiesLeft := (p.dirOf i).copiesLeft - 1
            inFlight := decide (2 ≤ (p.dirOf i).copiesLeft) })
      ∧ (p.ret.mode = .initializing → p.ctl.abandoned = true → KeepsRetention .coldStartWriteComplete s))
    ∧ (p.ret.mode = .initializing → p.ctl.work = .coldWrites → p.ctl.abandoned = false →
        (∀ i, (p.dirOf i).copiesLeft = 0) → Ends .coldStartDone s fun q => p.coldEnded q)

/-- A cold start: its values and writes (R22), and its end (R162). -/
def Obligations.ColdStartsRun : Prop := Rules.ColdStartFills ∧ Rules.ColdStartEnds

/-- R169 steps 1 to 4 and R170: the exit of a restore hands the loads of the device header; with both copies there the
header is selected, its values taken and the entries' loads handed, or the directory is lost. One item lost is the model's
reading (log 22), as are the flags and the newest copy from the hand-over of a rewrite (log 25); the order of the loads and
rewrites is its choice (log 41), and so is that the arbiter chooses before the client hands them (log 12). -/
def Rules.HeaderLoads : Prop :=
  ∀ (s : State), s.part.ret.running = true → s.part.ctl.abandoned = false →
    let p := s.part
    let m := p.mem
    let loads := fun i : Item =>
      [readAccess (.load i .a) (itemAddr i .a), readAccess (.load i .b) (itemAddr i .b)]
    let journals := [0, 1, 2, 3, 4, 5, 6, 7].map Item.journal
    (m.op = some .exit → p.ctl.work = .restoreExit → Ends .selfRefreshExitComplete s fun q =>
      q.ret = { p.ret with selfRefresh := false } ∧ q.ctl = { p.ctl with work := .headerLoad } ∧ q.dram = p.dram
      ∧ q.mem =
        MemEngine.handedAll
          { m with
            op := some (.refresh .urgent)
            banks := m.banks.map fun b => { b with openRow := none }
            cond := .active
            debt := 1
            postExit := true
            refreshTimer := true } p.maint.params.urgent.toNat (loads .header))
    ∧ ∀ (a : Access) (k : Copy), p.completes a → a.kind = .read → a.client = .load .header k →
        let bytes := Memory.readBytes p.dram a.addr 64
        let loaded := p.ctl.loaded ++ [⟨.header, k, bytes⟩]
        let mem := (p.carryOut a).mem
        (∀ l ∈ p.ctl.loaded, l.item = .header → l.copy ≠ k) →
        ((∀ l ∈ p.ctl.loaded, l.item ≠ .header) → Ends .headerLoadComplete s fun q =>
          q.ctl = { p.ctl with loaded := loaded } ∧ q.mem = mem ∧ q.dram = p.dram ∧ q.journals = p.journals
          ∧ q.header = p.header ∧ q.maint = p.maint)
        ∧ ∀ other, p.ctl.loadOf .header (if k = .a then .b else .a) = some other →
            let chosen := chooseCopy (fun bs => (headerRecord bs).isSome) (if k = .a then bytes else other)
              (if k = .a then other else bytes)
            (∀ copy image h, chosen = some (copy, image) → headerRecord image = some h →
              Ends .headerLoadComplete s fun q =>
                q.ctl = { p.ctl with loaded := loaded, work := .entryLoad } ∧ q.dram = p.dram
                ∧ q.maint = { p.maint with params := h.params }
                ∧ q.header =
                  { layoutGen := some h.layoutGen
                    dir := { p.header.dir with newest := copy, gen := copyGeneration image } }
                ∧ (∀ j, q.journal j = { p.journal j with watermark := byteAt h.watermarks j.val })
                ∧ q.mem = mem.handedAll h.params.urgent.toNat (journals.flatMap loads))
            ∧ (chosen = none → Ends .headerLoadComplete s fun q =>
                q.ctl =
                  { p.ctl with
                    loaded := loaded
                    work := .entryRewrite
                    rebuilt := [0, 1, 2, 3, 4, 5, 6, 7]
                    cnt := { p.ctl.cnt with itemsLost := satInc p.ctl.cnt.itemsLost } }
                ∧ q.dram = p.dram
                ∧ q.maint.pending = p.maint.pending ||| 0x0004#16
                ∧ q.maint.params = { idle := 20, grace := 2000, urgent := 6, rowPolicy := .openPage }
                ∧ q.header = { p.header with layoutGen := some 0 }
                ∧ (∀ j, (q.journal j).conf = none ∧ (q.journal j).epoch = 0 ∧ (q.journal j).watermark = 75
                    ∧ (q.journal j).dir =
                      { dirty := false, inFlight := true, snapshot := none, newest := .a, gen := 1, copiesLeft := 2 })
                ∧ q.mem = mem.handedAll 6 (journals.flatMap fun i =>
                    let j : JournalId := match i with | .journal j => j | .header => 0
                    [directoryWrite (.rewrite i .a) i .a (entryBytes j { epoch := 0, conf := none } 1),
                      directoryWrite (.rewrite i .b) i .b (entryBytes j { epoch := 0, conf := none } 0)]))

/-- R173: a load of the device header that completes after the restore has been abandoned is carried out and has no other
effect. That its bytes are not used is the model's reading (log 29). -/
def Rules.AbandonedHeaderLoads : Prop :=
  ∀ (a : Access) (k : Copy) (s : State), s.part.completes a → s.part.ctl.abandoned = true → a.client = .load .header k →
    (Ends .headerLoadComplete s fun q => q = s.part.carryOut a)
    ∧ ((s.part.ret.mode = .initializing ∨ s.part.ret.mode = .restoring) → KeepsRetention .headerLoadComplete s)

/-- The load and the selection of the device header at a restore (R169, R170), and a load that comes after the restore has
been abandoned (R173). -/
def Obligations.HeaderIsRestored : Prop := Rules.HeaderLoads ∧ Rules.AbandonedHeaderLoads

/-- R169 step 5, R170 and R171: when both copies of a journal's entry are there, the chosen copy is checked and the journal
is rebuilt from it, or lost. That an owner tag whose presence byte is neither 00h nor 01h counts as absent is the model's
inference (log 38). The flags and the newest copy from the hand-over of a rewrite are the model's reading (log 25),
and so is the comparison with the journals rebuilt so far (log 32). That copy A is handed before copy B (log 41), and that
the arbiter chooses before the client hands them (log 12), are its choices. -/
def Rules.EntriesLoad : Prop :=
  ∀ (j : JournalId) (a : Access) (k : Copy) (other : List Byte) (s : State), s.part.completes a →
    s.part.ctl.abandoned = false → a.client = .load (.journal j) k →
    (∀ l ∈ s.part.ctl.loaded, l.item = .journal j → l.copy ≠ k) →
    s.part.ctl.loadOf (.journal j) (if k = .a then .b else .a) = some other →
    let p := s.part
    let bytes := Memory.readBytes p.dram a.addr 64
    let entered := { p.ctl with loaded := p.ctl.loaded ++ [⟨.journal j, k, bytes⟩], rebuilt := p.ctl.rebuilt ++ [j] }
    let chosen := chooseCopy (copyValid (.journal j)) (if k = .a then bytes else other) (if k = .a then other else bytes)
    let region := fun x : EntryRecord => 16 ≤ x.count.toNat ∧ x.count.toNat ≤ 32767 ∧ 1 ≤ x.base.toNat
      ∧ x.base.toNat + x.count.toNat ≤ 32768
    let apart := fun x : EntryRecord => ∀ k c, k < j → k ∈ p.ctl.rebuilt → (p.journal k).conf = some c →
      x.base.toNat + x.count.toNat ≤ c.base.toNat ∨ c.base.toNat + c.count.toNat ≤ x.base.toNat
    let placed := fun x : EntryRecord => x.head.toNat ≤ x.frontier.toNat
      ∧ x.frontier.toNat ≤ x.head.toNat + x.count.toNat * 65536 ∧ x.head.toNat % 32 = 0 ∧ x.frontier.toNat % 32 = 0
      ∧ x.frontierSeq ≠ 0 ∧ x.frontierSeq ≠ 0xFFFFFFFF#32
    let passes := fun (x : EntryRecord) (st : JournalState) => x.state = some st ∧ x.tag ≠ some 0
      ∧ (st = .unconfigured ∨ (region x ∧ apart x ∧ placed x ∧ (x.tag ≠ none ∨ st = .unassigned)))
    let lost := Ends .entryLoadComplete s fun q =>
      (q.journal j).conf = none ∧ (q.journal j).epoch = 0 ∧ (q.journal j).watermark = (p.journal j).watermark
      ∧ (q.journal j).dir =
        { dirty := false, inFlight := true, snapshot := none, newest := .a, gen := 1, copiesLeft := 2 }
      ∧ q.maint.pending = p.maint.pending ||| 0x0004#16
      ∧ q.ctl = { entered with cnt := { p.ctl.cnt with itemsLost := satInc p.ctl.cnt.itemsLost } }
      ∧ q.header = p.header ∧ q.dram = a.store p.dram ∧ (∀ k, k ≠ j → q.journal k = p.journal k)
      ∧ q.mem = (p.carryOut a).memAfter
        [directoryWrite (.rewrite (.journal j) .a) (.journal j) .a (entryBytes j { epoch := 0, conf := none } 1),
          directoryWrite (.rewrite (.journal j) .b) (.journal j) .b (entryBytes j { epoch := 0, conf := none } 0)]
    (chosen = none → lost)
    ∧ ∀ copy image, chosen = some (copy, image) →
        let x := entryRecord image
        let dir := fun dirty : Bool =>
          ({ dirty := dirty, inFlight := false, snapshot := none, newest := copy, gen := copyGeneration image
             copiesLeft := 0 } : DirWriter)
        let rebuilt := fun (conf : Option Conf) (epoch : W32) (dirty : Bool) => Ends .entryLoadComplete s fun q =>
          (q.journal j).conf = conf ∧ (q.journal j).epoch = epoch ∧ (q.journal j).dir = dir dirty
          ∧ (q.journal j).watermark = (p.journal j).watermark
          ∧ q.ctl = entered ∧ q.maint = p.maint ∧ q.header = p.header ∧ q.dram = a.store p.dram
          ∧ q.mem = (p.carryOut a).mem ∧ (∀ k, k ≠ j → q.journal k = p.journal k)
        ((∀ st, ¬passes x st) → lost)
        ∧ (passes x .unconfigured → rebuilt none 0 false)
        ∧ ∀ st, st ≠ .unconfigured → passes x st →
            let own : Ownership := match x.tag with | some t => .held t .stopped | none => .unassigned
            let level := x.count.toNat * 65536 * (p.journal j).watermark.toNat / 100
            rebuilt
              (some
                { own := own, base := x.base, count := x.count, head := x.head, persistedHead := x.head
                  durable := x.frontier, frontier := x.frontier, reserve := x.frontier, nextSeq := x.frontierSeq
                  frontierSeq := x.frontierSeq, durableSeq := x.frontierSeq, openSlots := 0, trim := none, pins := []
                  subs := [], armed := decide (x.frontier.toNat - x.head.toNat < level) })
              x.epoch (decide ((if x.tag = none then JournalState.unassigned else .held) ≠ st))

/-- R169 step 5 and R170: the copy of a journal's entry that is loaded first is kept until the other is there; beside the
completion of its access nothing else changes. -/
def Rules.FirstEntryLoads : Prop :=
  ∀ (j : JournalId) (a : Access) (k : Copy) (s : State), s.part.completes a → s.part.ctl.abandoned = false →
    a.client = .load (.journal j) k → (∀ l ∈ s.part.ctl.loaded, l.item ≠ .journal j) →
    let p := s.part
    Ends .entryLoadComplete s fun q =>
      q =
        { p.carryOut a with
          ctl := { p.ctl with loaded := p.ctl.loaded ++ [⟨.journal j, k, Memory.readBytes p.dram a.addr 64⟩] } }

/-- R173: a load of a journal's entry that completes after the restore has been abandoned is carried out and has no other
effect. That its bytes are not used is the model's reading (log 29). -/
def Rules.AbandonedEntryLoads : Prop :=
  ∀ (j : JournalId) (a : Access) (k : Copy) (s : State), s.part.completes a → s.part.ctl.abandoned = true →
    a.client = .load (.journal j) k →
    (Ends .entryLoadComplete s fun q => q = s.part.carryOut a)
    ∧ ((s.part.ret.mode = .initializing ∨ s.part.ret.mode = .restoring) → KeepsRetention .entryLoadComplete s)

/-- The first load of each journal's entry at a restore, the check and the rebuilding with the second (R169, R170, R171), and
a load that comes after the restore has been abandoned (R173). -/
def Obligations.EntriesAreRestored : Prop := Rules.FirstEntryLoads ∧ Rules.EntriesLoad ∧ Rules.AbandonedEntryLoads

/-- R170 and R172: the rewrite of a lost directory, and the end of a restore; after an abandoned restore the header is not
rewritten and the mode does not change (R173). In-flight and the newest copy from the hand-over of the header's rewrite are
the model's reading (log 25). That copy A is handed before copy B (log 41), and that the arbiter chooses before the client
hands them (log 12), are its choices. -/
def Obligations.RestoresEnd : Prop :=
  ∀ (s : State), s.part.ret.running = true →
    let p := s.part
    let left := fun i k : Item => if k = i then (p.dirOf i).copiesLeft - 1 else (p.dirOf k).copiesLeft
    (∀ a i c, p.completes a → a.client = .rewrite i c →
      let more := p.ctl.work = .entryRewrite ∧ p.ctl.abandoned = false ∧ ∀ k, left i k = 0
      (¬more → Ends .directoryRewriteComplete s fun q =>
        q.dram = a.store p.dram ∧ q.mem = (p.carryOut a).mem ∧ q.ret = p.ret ∧ q.ctl = p.ctl
        ∧ (∀ k, k ≠ i → q.dirOf k = p.dirOf k)
        ∧ q.dirOf i =
          { p.dirOf i with
            copiesLeft := (p.dirOf i).copiesLeft - 1
            inFlight := decide (2 ≤ (p.dirOf i).copiesLeft) })
      ∧ (more → Ends .directoryRewriteComplete s fun q =>
        q.dram = a.store p.dram ∧ q.ctl = { p.ctl with work := .headerRewrite }
        ∧ q.header.dir =
          { dirty := false, inFlight := true, snapshot := none, newest := .a, gen := 1, copiesLeft := 2 }
        ∧ q.mem = (p.carryOut a).memAfter
          [directoryWrite (.rewrite .header .a) .header .a
              (headerBytes (p.header.layoutGen.getD 0) p.maint.params p.watermarks 1),
            directoryWrite (.rewrite .header .b) .header .b
              (headerBytes (p.header.layoutGen.getD 0) p.maint.params p.watermarks 0)])
      ∧ (p.ctl.abandoned = true → (p.ret.mode = .initializing ∨ p.ret.mode = .restoring) →
          KeepsRetention .directoryRewriteComplete s))
    ∧ (p.ctl.abandoned = false → p.ret.mode = .restoring → (p.ctl.work = .entryLoad ∨ p.ctl.work = .headerRewrite) →
        (∀ j, j ∈ p.ctl.rebuilt) → p.clean → Ends .restoreComplete s fun q => p.restoreEnded q ∧ q.ntfs = p.ntfs)

/-- R163, R97 and R175: a fall of PFAIL_N and an accepted SAVE_AND_HALT in SERVING begin a quiesce: the mode and the cause
change, each port with an ACTIVE session gets MODE as its only notification, and every session ends, the request credits of
the frames that its buffer held going back to the link unit (R106); what a single one
leaves in every block says `Part.sessionLeft`, the order of its effects being the model's choice (logs 27 and 41; of several
sessions, log 43). -/
def Obligations.QuiesceBegins : Prop :=
  ∀ (s : State), s.part.serving →
    let p := s.part
    let begun := fun (cause : QuiesceCause) (high : Bool) (q : Part) =>
      q.ret = { p.ret with mode := .quiescing, cause := some cause, pfailHigh := high }
      ∧ q.ctl.drainOrdered = false ∧ q.maint.pending.getLsbD 0 = true
      ∧ (∀ i, ((p.req i).session.active = false → q.req i = p.req i ∧ q.ntf i = p.ntf i)
          ∧ ((p.req i).session.active = true →
            q.req i = (p.req i).ended { (p.req i).cnt with endsQuiesce := satInc (p.req i).cnt.endsQuiesce }
            ∧ q.ntf i = { queue := [.mode .quiescing], overflow := false, drops := 0, modeRetained := true }))
      ∧ (∀ i, q.link i =
          if (p.req i).session.active = true then (p.link i).credited (p.req i).buffer.length else p.link i)
      ∧ ∀ i, (p.req i).session.active = true → (∀ k, k ≠ i → (p.req k).session.active = false) →
          p.sessionLeft q ⟨i, (p.req i).session.gen⟩
    (p.ret.retentionPower = true → p.ret.pfailHigh = true → Ends .pfailNFall s fun q =>
      begun .pfail false q
      ∧ q.ctl.cnt = { p.ctl.cnt with quiescePfail := satInc p.ctl.cnt.quiescePfail })
    ∧ Ends .saveAndHalt s fun q =>
      begun .saveAndHalt p.ret.pfailHigh q ∧ q.maint.response = [0] ∧ q.maint.spi = .responding 0
      ∧ q.ctl.cnt = { p.ctl.cnt with quiesceSave := satInc p.ctl.cnt.quiesceSave }

/-- R164 and R165: when the drain condition holds, the entry order is given once; at the completion of the entry the
retention flag is set and the level of PFAIL_N and the cause decide the mode. -/
def Obligations.QuiesceEnds : Prop :=
  ∀ (s : State), s.part.ret.running = true → s.part.ret.mode = .quiescing →
    let p := s.part
    (p.drainReady → p.mem.cond = .active → Ends .quiesceDrainDone s fun q => p.drainEnds q ∧ q.ret = p.ret)
    ∧ (p.ctl.drainOrdered = true → p.mem.op = some .entry →
      let kept := fun mode => { p.ret with selfRefresh := true, flag := true, cause := none, mode := mode }
      (p.ret.pfailHigh = false → Runs .selfRefreshEntryComplete s fun q =>
        q.ret = { kept .retaining with running := false } ∧ q.mem = p.mem.inSelfRefresh ∧ q.dram = p.dram)
      ∧ (p.ret.pfailHigh = true → p.ret.cause = some .saveAndHalt → Ends .selfRefreshEntryComplete s fun q =>
        q.ret = kept .halted ∧ q.mem = p.mem.inSelfRefresh ∧ q.maint.pending.getLsbD 0 = true ∧ q.dram = p.dram)
      ∧ (p.ret.pfailHigh = true → p.ret.cause = some .pfail → Ends .selfRefreshEntryComplete s fun q =>
        q.ret = kept .restoring ∧ q.mem = { p.mem.inSelfRefresh with op := some .exit }
        ∧ q.ctl.work = .restoreExit ∧ q.ctl.loaded = [] ∧ q.ctl.rebuilt = [] ∧ q.ctl.abandoned = false
        ∧ q.maint.pending.getLsbD 0 = true ∧ q.journals = p.journals ∧ q.links = p.links ∧ q.reqs = p.reqs
        ∧ q.dram = p.dram))

/-- R163, R166 and R173: a fall of PFAIL_N outside SERVING. In HALTED the mode becomes RETAINING, in QUIESCING the level
alone is taken, and in INITIALIZING and RESTORING the work is abandoned and the entry order given; where the DRAM runs, the
order waits; work already abandoned is not abandoned again, and the level alone is taken. The level is taken while the
retention supply is present (R160). -/
def Rules.PowerFailsOutsideServing : Prop :=
  ∀ (s : State), s.part.ret.retentionPower = true → s.part.ret.pfailHigh = true →
    let p := s.part
    let low := { p.ret with pfailHigh := false }
    let left := fun (q : Part) => q.ret = { low with mode := .retaining, running := false }
    let abandoned := { p.ctl with abandoned := true, cnt := { p.ctl.cnt with abandoned := satInc p.ctl.cnt.abandoned } }
    (p.ret.running = false → Runs .pfailNFall s fun q => q = { p with ret := low })
    ∧ (p.ret.running = true →
      (p.ret.mode = .quiescing → Runs .pfailNFall s fun q => q = { p with ret := low })
      ∧ (p.ret.mode = .halted → Runs .pfailNFall s fun q => left q ∧ q.dram = p.dram ∧ q.mem = p.mem)
      ∧ ((p.ret.mode = .initializing ∨ p.ret.mode = .restoring) → p.ctl.abandoned = true →
          Ends .pfailNFall s (fun q => q = { p with ret := low })
          ∧ Runs .pfailNFall s fun q => q.ret = low ∧ q.ctl = p.ctl)
      ∧ ((p.ret.mode = .initializing ∨ p.ret.mode = .restoring) → p.ctl.abandoned = false →
          (p.mem.cond = .active → Ends .pfailNFall s fun q =>
            q.ret = low ∧ q.ctl = abandoned ∧ q.dram = p.dram
            ∧ q.mem = MemEngine.arbitrate { p.mem with entryWaiting := true } p.maint.params.urgent.toNat)
          ∧ (p.mem.cond = .selfRefresh → p.mem.op = some .exit → Ends .pfailNFall s fun q =>
            q.ret = low ∧ q.ctl = abandoned ∧ q.mem = { p.mem with entryWaiting := true } ∧ q.dram = p.dram)
          ∧ ((p.mem.cond = .uninitialised ∨ (p.mem.cond = .selfRefresh ∧ p.mem.op ≠ some .exit)) →
              Runs .pfailNFall s fun q => left q ∧ q.ctl = abandoned ∧ q.dram = p.dram)))

/-- R173 with R154 and R167: the entry that an abandoned cold start or restore has ordered is complete. The mode becomes
RETAINING; where PFAIL_N is high again and main power and RST_N were never lost, the main domain starts again at once. What
the journal table and the device header hold at such a start is the model's choice (log 10). -/
def Rules.AbandonedWorkIsRetained : Prop :=
  ∀ (s : State), s.part.ret.running = true → (s.part.ret.mode = .initializing ∨ s.part.ret.mode = .restoring) →
    s.part.ctl.abandoned = true → s.part.mem.op = some .entry →
    let p := s.part
    let r := p.ret
    let again := r.pfailHigh = true ∧ r.retentionPower = true ∧ r.mainPower = true ∧ r.rstHigh = true
    (¬again → Runs .selfRefreshEntryComplete s fun q =>
      q.ret = { r with selfRefresh := true, mode := .retaining, running := false } ∧ q.mem = p.mem.inSelfRefresh
      ∧ q.dram = p.dram)
    ∧ (again → Ends .selfRefreshEntryComplete s fun q => p.startsHigh q { r with selfRefresh := true })

/-- A fall of PFAIL_N outside SERVING (R163, R166, R173), and the end of the work it has abandoned (R173, R167). -/
def Obligations.PowerFailOutsideServing : Prop := Rules.PowerFailsOutsideServing ∧ Rules.AbandonedWorkIsRetained

/-- R161, R167, R173 and R174: a start of the main domain by each of its four causes, its blocks as at reset (R24, R71, R102,
R120, R153, R176, R180, R183). The start kind is the retention flag's, and the DRAM condition that of the self-refresh
record. What the journal table, the device header and the link's fields of entry to UP hold is the model's choice (log 10). -/
def Rules.MainDomainStarts : Prop :=
  ∀ (s : State), s.part.ret.running = false → s.part.ret.retentionPower = true →
    let p := s.part
    let r := p.ret
    let starts := fun (c : Instr) (ret : Retention) =>
      (ret.pfailHigh = true → Runs c s fun q => p.startsHigh q ret)
      ∧ (ret.pfailHigh = false → Runs c s fun q => p.startsFresh q
        ∧ q.ret =
          { ret with
            mode := .retaining
            cause := none
            startKind := if ret.flag then .warm else .cold
            running := false }
        ∧ q.mem = MemEngine.stopped ret.selfRefresh p.mem.missCount)
    (r.mainPower = true → r.rstHigh = true → (r.pfailHigh = true ∨ r.mode ≠ .retaining) → starts .mainDomainStart r)
    ∧ (r.mainPower = false → r.rstHigh = true → starts .mainPowerOn { r with mainPower := true })
    ∧ (r.mainPower = true → r.rstHigh = false → starts .rstNRelease { r with rstHigh := true })
    ∧ (r.mainPower = true → r.rstHigh = true → r.pfailHigh = false → r.mode = .retaining →
        starts .pfailNRise { r with pfailHigh := true })

/-- R158, R160 and R174: the main domain stops when main power is lost or RST_N goes low, its blocks losing their state; a
DRAM in self-refresh keeps its contents and the retention flag stands, any other loses them and the flag is cleared. Where
it does not run, the state it held is lost all the same and the flag stands (R167, R99, R138). When the retention supply is
first applied the flag, the record and the cause are clear and the mode is INITIALIZING. That lost contents read 00h, that
the mode stands at a loss of main power, that RETENTION_POWER_ON may come at any time, keeps the board's lines and leaves
the start to another command, and that the start kind is COLD then and the journal table, the device header and the link's
fields of entry to UP hold the values of log 10, are the model's choices (logs 9, 10, 11 and 37). -/
def Rules.MainDomainStops : Prop :=
  ∀ (s : State),
    let p := s.part
    let r := p.ret
    let keeps := r.selfRefresh && !(r.running && decide (p.mem.op = some .exit))
    let stopped :=
      if r.running && !keeps then { r with running := false, flag := false, selfRefresh := false }
      else { r with running := false }
    let blank := fun (q : Part) (kept : Bool) =>
      let z := State.reset.part
      q.links = z.links ∧ q.reqs = z.reqs ∧ q.ntfs = z.ntfs ∧ q.slots = z.slots ∧ q.reads = z.reads
      ∧ q.journals = z.journals ∧ q.waiting = z.waiting ∧ q.maint = z.maint ∧ q.header = z.header
      ∧ q.formatPending = false ∧ q.ctl = {} ∧ q.ntfCnt = {} ∧ q.appendCnt = {} ∧ q.readCnt = {}
      ∧ q.mem = MemEngine.stopped kept p.mem.missCount ∧ q.dram = if kept then p.dram else []
    (r.mainPower = true → Runs .mainPowerLoss s fun q => q.ret = { stopped with mainPower := false } ∧ blank q keeps)
    ∧ (r.rstHigh = true → Runs .rstNLow s fun q =>
      q.ret = { stopped with rstHigh := false, mode := .initializing, cause := none } ∧ blank q keeps)
    ∧ Runs .retentionPowerOn s fun q =>
      q.ret =
        { r with
          mode := .initializing
          flag := false
          cause := none
          startKind := .cold
          selfRefresh := false
          retentionPower := true
          running := false }
      ∧ blank q false

/-- R160, R161, R165 and R167: a line or a supply that comes while a start is not possible, or not called for, is taken and
changes nothing else. -/
def Rules.LinesAloneAreTaken : Prop :=
  ∀ (s : State),
    let p := s.part
    let r := p.ret
    let takes := fun (c : Instr) (ret : Retention) => Runs c s fun q => q = { p with ret := ret }
    (r.mainPower = false → (r.rstHigh = false ∨ r.retentionPower = false) →
      takes .mainPowerOn { r with mainPower := true })
    ∧ (r.rstHigh = false → (r.mainPower = false ∨ r.retentionPower = false) →
      takes .rstNRelease { r with rstHigh := true })
    ∧ (r.retentionPower = true → r.pfailHigh = false →
        (r.running = true ∨ r.mode ≠ .retaining ∨ r.mainPower = false ∨ r.rstHigh = false) →
        takes .pfailNRise { r with pfailHigh := true })

/-- The start of the main domain (R161), its stop (R174), and the lines and supplies taken without either (R160, R165, R167). -/
def Obligations.MainDomainStartsAndStops : Prop :=
  Rules.MainDomainStarts ∧ Rules.MainDomainStops ∧ Rules.LinesAloneAreTaken

/-! ## The maintenance port -/

/-- R176 with Table 11-8: the bytes received after chip select fell are the command that their first byte names, with the
parameter bytes that follow it, low byte first; later bytes are ignored. An unknown first byte is an unknown command, and a
transaction that ends before its parameters do is cut short. -/
def Rules.TransactionsSpellTheirCommands : Prop :=
  (∀ (j k param journal : Byte) (base count value : W16) (mask : BitVec 24) (rest : List Byte),
    let reads := fun (bs : List Byte) (c : Instr) => transactionCommand (bs ++ rest) = c
    let word := fun w : W16 => leBytes 2 w.toNat
    reads [0x01] .readStatus ∧ reads [0x02, j] (.readJournal j)
    ∧ reads (0x03 :: j :: word base ++ word count) (.setLayout j base count) ∧ reads [0x04, j] (.clearLayout j)
    ∧ reads (0x05 :: param :: journal :: word value) (.setParam param journal value)
    ∧ reads [0x06, j] (.forceRelease j) ∧ reads [0x07] .saveAndHalt ∧ reads [0x08] .resume ∧ reads [0x09] .format
    ∧ reads [0x0A, j, k] (.readCounters j k) ∧ reads [0x0B] .clearCounters
    ∧ reads (0x0C :: leBytes 3 mask.toNat) (.ackAttention mask)
    ∧ reads (0x0D :: leBytes 3 mask.toNat) (.setAttentionMask mask)
    ∧ ((k = 0 ∨ 0x0E ≤ k.toNat) → reads [k] (.badCommand k)))
  ∧ transactionCommand [] = .spiCutShort []
  ∧ ∀ (b : Byte) (n : Nat) (got : List Byte),
      (b, n) ∈ [(0x02#8, 1), (0x03, 5), (0x04, 1), (0x05, 4), (0x06, 1), (0x0A, 2), (0x0C, 3), (0x0D, 3)] →
      got.length < n → transactionCommand (b :: got) = .spiCutShort (b :: got)

/-- R176 and R177: a command outside its modes is refused with NOT_SERVING and changes nothing but the port's own count and
response; SAVE_AND_HALT in QUIESCING is BUSY. An unknown command byte is BAD_COMMAND, and a transaction cut short forms no
response. That an unknown byte is counted as completed too is the model's reading (log 20). -/
def Rules.ModesAreChecked : Prop :=
  ∀ (s : State), s.part.ret.running = true →
    let p := s.part
    (∀ c modes, modesOf c = some modes → p.ret.mode ∉ modes → Takes c s fun p' q => q = p'.replies .notServing [])
    ∧ (p.ret.mode = .quiescing → Takes .saveAndHalt s fun p' q => q = p'.replies .busy [])
    ∧ (∀ b, maintenanceParams b = none → Takes (.badCommand b) s fun p' q =>
        q = (p'.modMaint fun m => { m with cnt := { m.cnt with badCommand := satInc m.cnt.badCommand } }).replies
          .badCommand [])
    ∧ ∀ bytes, cutShort bytes = true → Ends (.spiCutShort bytes) s fun q =>
        q = p.modMaint fun m =>
          { m with response := [], spi := .waiting, cnt := { m.cnt with cutShort := satInc m.cnt.cutShort } }

/-- R176: the SPI pins, on an empty queue. While the main domain does not run nothing is taken and every byte returned is
FFh. A fall of chip select begins a transaction. Each byte clocked returns 00h until the parameter phase has ended; at its
last byte the command that the bytes spell is carried out. In the response phase the response is returned byte by byte, then
00h. A rise before the end of the parameter phase cuts the transaction short, a later one loses the unread bytes. A byte or
a rise of a transaction whose chip select fell before the last start changes nothing in the part; what such a byte returns
the spec does not say (log 48). That the pins have their turn on an empty queue is the model's choice (log 5), and so is FFh
where the main domain does not run for another reason than RETAINING or a low RST_N (log 30). -/
def Rules.PinsDriveTransactions : Prop :=
  ∀ (p : Part) (pins : SpiPins) (e : SpiEvent) (rest : List SpiEvent), pins.wire = e :: rest →
    let m := p.maint
    let answers := fun (b : Byte) => { pins with wire := rest, out := some b }
    let goes := fun (pins' : SpiPins) (x : SpiProgress) (response : List Byte) =>
      step ⟨[], p, pins⟩ = .next ⟨[], p.modMaint fun m => { m with spi := x, response := response }, pins'⟩
    (p.ret.running = false →
      (∀ b, e = .clock b → step ⟨[], p, pins⟩ = .next ⟨[], p, answers 0xFF#8⟩)
      ∧ ((e = .fall ∨ e = .rise) → step ⟨[], p, pins⟩ = .next ⟨[], p, { pins with wire := rest }⟩))
    ∧ (p.ret.running = true →
      (e = .fall → goes { pins with wire := rest } (.receiving []) [])
      ∧ (∀ b got, e = .clock b → m.spi = .receiving got →
          (cutShort (got ++ [b]) = true → goes (answers 0#8) (.receiving (got ++ [b])) m.response)
          ∧ (cutShort (got ++ [b]) = false →
            step ⟨[], p, pins⟩ = exec (transactionCommand (got ++ [b])) ⟨[], p, answers 0#8⟩))
      ∧ (∀ b k, e = .clock b → m.spi = .responding k →
          goes (answers (m.response[k]?.getD 0#8)) (.responding (k + 1)) m.response)
      ∧ (∀ b, e = .clock b → m.spi = .waiting → ∃ byte n,
          step ⟨[], p, pins⟩ = .next ⟨[], p, { answers byte with untaken := n }⟩)
      ∧ (∀ got, e = .rise → m.spi = .receiving got →
          step ⟨[], p, pins⟩ = exec (.spiCutShort got) ⟨[], p, { pins with wire := rest }⟩)
      ∧ (∀ k, e = .rise → m.spi = .responding k → goes { pins with wire := rest } .waiting [])
      ∧ (e = .rise → m.spi = .waiting → step ⟨[], p, pins⟩ = .next ⟨[], p, { pins with wire := rest }⟩))

/-- A maintenance transaction is the command its bytes spell (R176, Table 11-8), the pins bring it (R176), and the modes it
is taken in (R177). -/
def Obligations.MaintenanceModesAreChecked : Prop :=
  Rules.TransactionsSpellTheirCommands ∧ Rules.PinsDriveTransactions ∧ Rules.ModesAreChecked

/-- R179 and R182: READ_STATUS, READ_JOURNAL and READ_COUNTERS report and change nothing else. The bytes follow 11.6;
those that have no value are zeros by the model's reading (log 31), and that the port's own counters show the transaction
that reads them is its choice (log 20). -/
def Obligations.MaintenanceReports : Prop :=
  ∀ (s : State), s.part.ret.running = true → s.part.ret.mode ≠ .retaining →
    let p := s.part
    let reported := fun (c : Instr) (bytes : Part → List Byte) => Takes c s fun p' q => q = p'.replies .ok (bytes p')
    let flag := fun (b : Bool) (v : Byte) => if b then v else 0
    reported .readStatus (fun _ =>
      [p.ret.mode.code, p.ret.startKind.code, causeCode p.ret.cause,
          flag p.ret.flag 1 ||| flag p.mem.missedFlag 2 ||| flag p.header.layoutGen.isSome 4,
          (p.link 0).state.code, (p.link 1).state.code, (p.link 2).state.code, (p.link 3).state.code]
        ++ leBytes 4 ((p.header.layoutGen.map BitVec.toNat).getD 0) ++ leBytes 3 p.maint.pending.toNat
        ++ leBytes 3 p.maint.mask.toNat
        ++ (match p.maint.deferred with
            | .none => [0, 0, 0, 0]
            | .waiting (.forceRelease j) => [1, 0x06, BitVec.ofNat 8 j.val, 0]
            | .waiting .format => [1, 0x09, 0, 0]
            | .done (.forceRelease j) r => [2, 0x06, BitVec.ofNat 8 j.val, r.code]
            | .done .format r => [2, 0x09, 0, r.code]))
    ∧ (p.ret.mode ∈ [Mode.serving, .quiescing, .halted] →
      (∀ b, 8 ≤ b.toNat → Takes (.readJournal b) s fun p' q => q = p'.replies .badValue [])
      ∧ ∀ (b : Byte) (j : JournalId), b.toNat = j.val →
        let e := p.journal j
        let dir := flag e.dir.dirty 1 ||| flag e.dir.inFlight 2 ||| flag (decide (e.dir.newest = .b)) 4
        (e.conf = none → reported (.readJournal b) fun _ =>
          [0] ++ leBytes 4 e.epoch.toNat ++ zeros 74 ++ [e.watermark, 0, 0, dir] ++ leBytes 4 e.dir.gen.toNat)
        ∧ ∀ c, e.conf = some c → reported (.readJournal b) fun _ =>
          [c.state.code] ++ leBytes 4 e.epoch.toNat ++ [presence c.ownerTag.isSome] ++ tagBytes c.ownerTag
            ++ [match c.own with
              | .transferring _ _ (some cl) => BitVec.ofNat 8 cl.session.port.val
              | _ => 0xFF]
            ++ leBytes 2 c.base.toNat ++ leBytes 2 c.count.toNat ++ leBytes 8 c.head.toNat
            ++ leBytes 8 c.persistedHead.toNat ++ leBytes 8 c.durable.toNat ++ leBytes 8 c.frontier.toNat
            ++ leBytes 8 c.reserve.toNat ++ leBytes 4 c.nextSeq.toNat ++ leBytes 4 c.frontierSeq.toNat
            ++ leBytes 4 c.durableSeq.toNat ++ [BitVec.ofNat 8 c.openSlots, BitVec.ofNat 8 c.pins.length]
            ++ (match c.trim with
              | none => zeros 9
              | some t => (match t.phase with | .checking => 1 | .held => 2 | .advanced => 3)
                  :: leBytes 8 t.target.toNat)
            ++ [flag (decide (0 ∈ c.subs)) 1 ||| flag (decide (1 ∈ c.subs)) 2 ||| flag (decide (2 ∈ c.subs)) 4
                ||| flag (decide (3 ∈ c.subs)) 8,
              e.watermark, presence c.armed,
              match c.own with | .held _ (.running _) => 1 | .held _ .expired => 2 | _ => 0,
              dir]
            ++ leBytes 4 e.dir.gen.toNat)
    ∧ ∀ block index : Byte,
        (∀ v, (p.counterBlock block.toNat)[index.toNat]? = some v → block.toNat ≠ 0x22 →
          reported (.readCounters block index) fun _ => leBytes 4 v.toNat)
        ∧ (∀ v, block.toNat = 0x22 →
            [satInc p.maint.cnt.completed, p.maint.cnt.cutShort, p.maint.cnt.badCommand,
              p.maint.cnt.raised][index.toNat]? = some v →
            reported (.readCounters block index) fun _ => leBytes 4 v.toNat)
        ∧ ((p.counterBlock block.toNat)[index.toNat]? = none →
          Takes (.readCounters block index) s fun p' q => q = p'.replies .badValue [])

/-- R182 and R183: CLEAR_COUNTERS sets every counter of every block to 0 and clears REFRESH_MISSED; ACK_ATTENTION removes
the named causes and answers the set that remains; SET_ATTENTION_MASK replaces the mask. That CLEAR_COUNTERS leaves the count
of completed transactions at 0, its own having been counted first, is the model's choice (log 20). -/
def Rules.CountersAndCausesAreCleared : Prop :=
  ∀ (s : State), s.part.ret.running = true → s.part.ret.mode ≠ .retaining →
    let p := s.part
    (Takes .clearCounters s fun p' q =>
      (∀ block, q.counterBlock block = (p.counterBlock block).map fun _ => 0)
      ∧ q.mem =
        { p.mem with
          banks := p.mem.banks.map fun b => { openRow := b.openRow }
          cnt := {}
          missedFlag := false }
      ∧ q.maint = { p'.maint.answered [0] with cnt := {} }
      ∧ (∀ i, q.link i = { p.link i with cnt := {} } ∧ q.req i = { p.req i with cnt := {} }
          ∧ q.ntf i = p.ntf i ∧ q.waits i = p.waits i)
      ∧ q.ctl = { p.ctl with cnt := {} } ∧ q.ret = p.ret ∧ q.journals = p.journals ∧ q.header = p.header
      ∧ q.slots = p.slots ∧ q.reads = p.reads ∧ q.dram = p.dram)
    ∧ (∀ mask, Takes (.ackAttention mask) s fun p' q =>
        let left := p.maint.pending &&& ~~~ mask.setWidth 16
        q = (p'.modMaint fun m => { m with pending := left }).replies .ok (leBytes 3 left.toNat))
    ∧ ∀ mask, Takes (.setAttentionMask mask) s fun p' q =>
        q = (p'.modMaint fun m => { m with mask := mask.setWidth 16 }).replies .ok []

/-- R184 with R167 and R183: ATTN_N is low exactly while the main domain runs and a cause is pending that the mask enables. A
raise of an enabled cause takes it low; after an acknowledgement and a change of the mask it is as the set and the mask then
say. It is high where the main domain does not run, so once RST_N is low and once the part is in RETAINING, stated for the
entries from HALTED and at the end of a quiesce; that it is high where the main domain does not run for another reason is
the model's choice (log 30). -/
def Rules.AttentionLineFollows : Prop :=
  (∀ p : Part, p.attnLow = true ↔
      p.ret.running = true ∧ ∃ b, p.maint.pending.getLsbD b = true ∧ p.maint.mask.getLsbD b = true)
  ∧ (∀ p : Part, p.ret.running = false → p.attnLow = false)
  ∧ (∀ (p : Part) (b : Nat), p.ret.running = true → b < 16 → p.maint.mask.getLsbD b = true →
      (p.raise (1#16 <<< b)).attnLow = true)
  ∧ ∀ (s : State),
    let p := s.part
    (p.ret.running = true → p.ret.mode ≠ .retaining → ∀ mask : BitVec 24,
        Takes (.ackAttention mask) s (fun _ q =>
          q.attnLow = decide (p.maint.pending &&& ~~~ mask.setWidth 16 &&& p.maint.mask ≠ 0))
        ∧ Takes (.setAttentionMask mask) s fun _ q =>
          q.attnLow = decide (p.maint.pending &&& mask.setWidth 16 ≠ 0))
    ∧ (p.ret.rstHigh = true → Runs .rstNLow s fun q => q.ret.rstHigh = false ∧ q.attnLow = false)
    ∧ (p.ret.running = true → p.ret.mode = .halted → p.ret.retentionPower = true → p.ret.pfailHigh = true →
        Runs .pfailNFall s fun q => q.ret.mode = .retaining ∧ q.attnLow = false)
    ∧ (p.ret.running = true → p.ret.mode = .quiescing → p.ctl.drainOrdered = true → p.mem.op = some .entry →
        p.ret.pfailHigh = false → Runs .selfRefreshEntryComplete s fun q =>
          q.ret.mode = .retaining ∧ q.attnLow = false)

/-- The counters and the attention causes (R182, R183), and the line that they drive (R184). -/
def Obligations.CountersAndAttention : Prop := Rules.CountersAndCausesAreCleared ∧ Rules.AttentionLineFollows

/-- R11 with R21 and R23: SET_LAYOUT gives an UNCONFIGURED journal a region that no other journal shares. That a pending
FORMAT is tested before BAD_LAYOUT is the model's reading (log 19), that a layout generation of FFFFFFFFh is followed by 0
its choice (log 40). -/
def Rules.SetLayoutGivesARegion : Prop :=
  ∀ (b : Byte) (base count : W16) (s : State), s.part.serving →
    let p := s.part
    let ok := fun j : JournalId => b.toNat = j.val ∧ (p.journal j).conf = none ∧ 16 ≤ count.toNat
      ∧ count.toNat ≤ 32767 ∧ 1 ≤ base.toNat ∧ base.toNat + count.toNat - 1 ≤ 32767
      ∧ ∀ k c, k ≠ j → (p.journal k).conf = some c →
          base.toNat + count.toNat ≤ c.base.toNat ∨ c.base.toNat + c.count.toNat ≤ base.toNat
    (p.formatPending = true → Takes (.setLayout b base count) s fun p' q => q = p'.replies .busy [])
    ∧ (p.formatPending = false → (∀ j, ¬ok j) →
        Takes (.setLayout b base count) s fun p' q => q = p'.replies .badLayout [])
    ∧ ∀ j, p.formatPending = false → ok j → Takes (.setLayout b base count) s fun p' q =>
        q.journal j =
          { (p.journal j).dirtied with
            epoch := 0
            conf := some
              { own := .unassigned, base := base, count := count, head := 0, persistedHead := 0, durable := 0
                frontier := 0, reserve := 0, nextSeq := 1, frontierSeq := 1, durableSeq := 1, openSlots := 0
                trim := none, pins := [], subs := [], armed := true } }
        ∧ (∀ k, k ≠ j → q.journal k = p.journal k)
        ∧ q.header =
          { layoutGen := p.header.layoutGen.map fun g => g + 1, dir := { p.header.dir with dirty := true } }
        ∧ q.maint = p'.maint.answered [0] ∧ q.ntfs = p.ntfs

/-- R12 with R21 and R23: CLEAR_LAYOUT takes an idle UNASSIGNED journal's region away, LAYOUT being handed for each
subscriber. BUSY for a journal above 7 is the model's reading (log 19), the wrap of the layout generation its choice
(log 40). -/
def Rules.ClearLayoutTakesTheRegion : Prop :=
  ∀ (b : Byte) (s : State), s.part.serving →
    let p := s.part
    let ok := fun (j : JournalId) (c : Conf) => b.toNat = j.val ∧ (p.journal j).conf = some c ∧ c.own = .unassigned
      ∧ c.openSlots = 0 ∧ c.pins = [] ∧ c.trim = none ∧ (p.journal j).dir.inFlight = false
    ((p.formatPending = true ∨ ∀ j c, ¬ok j c) → Takes (.clearLayout b) s fun p' q => q = p'.replies .busy [])
    ∧ ∀ j c, p.formatPending = false → ok j c → c.subs.Nodup → Takes (.clearLayout b) s fun p' q =>
        q.journal j = { (p.journal j).dirtied with epoch := 0, conf := none }
        ∧ (∀ k, k ≠ j → q.journal k = p.journal k)
        ∧ q.header =
          { layoutGen := p.header.layoutGen.map fun g => g + 1, dir := { p.header.dir with dirty := true } }
        ∧ q.maint = p'.maint.answered [0]
        ∧ ∀ k, q.ntf k = if k ∈ c.subs then p.handed k (.layout j) else p.ntf k

/-- SET_LAYOUT (R11) and CLEAR_LAYOUT (R12). -/
def Obligations.LayoutsAreSetAndCleared : Prop := Rules.SetLayoutGivesARegion ∧ Rules.ClearLayoutTakesTheRegion

/-- R180 with R21: SET_PARAM replaces a parameter whose value is in its range and marks the device header dirty; else it is
refused with BAD_VALUE and no parameter changes. The codes 0 and 1 of the row policies are the device header's (log 46). -/
def Obligations.SetParamChecksAndReplaces : Prop :=
  ∀ (param journal : Byte) (value : W16) (s : State), s.part.serving →
    let p := s.part
    let v := value.toNat
    let set := fun f : Params → Params => Takes (.setParam param journal value) s fun p' q =>
      q.maint = { p'.maint.answered [0] with params := f p.maint.params }
      ∧ q.header = { p.header with dir := { p.header.dir with dirty := true } } ∧ q.journals = p.journals
    let refused := Takes (.setParam param journal value) s fun p' q => q = p'.replies .badValue []
    (param = 1 → 1 ≤ v → v ≤ 255 → set fun x => { x with idle := BitVec.ofNat 8 v })
    ∧ (param = 2 → v ≤ 60000 → set fun x => { x with grace := value })
    ∧ (param = 3 → 4 ≤ v → v ≤ 8 → set fun x => { x with urgent := BitVec.ofNat 8 v })
    ∧ (param = 4 → v ≤ 1 → set fun x => { x with rowPolicy := if v = 0 then .openPage else .closePage })
    ∧ (∀ j : JournalId, param = 5 → 50 ≤ v → v ≤ 100 → journal.toNat = j.val →
        Takes (.setParam param journal value) s fun p' q =>
          q.journal j = { p.journal j with watermark := BitVec.ofNat 8 v }
          ∧ (∀ k, k ≠ j → q.journal k = p.journal k) ∧ q.maint = p'.maint.answered [0]
          ∧ q.header = { p.header with dir := { p.header.dir with dirty := true } })
    ∧ ((param = 1 ∧ ¬(1 ≤ v ∧ v ≤ 255)) ∨ (param = 2 ∧ 60000 < v) ∨ (param = 3 ∧ ¬(4 ≤ v ∧ v ≤ 8))
        ∨ (param = 4 ∧ 2 ≤ v) ∨ (param = 5 ∧ (¬(50 ≤ v ∧ v ≤ 100) ∨ 8 ≤ journal.toNat))
        ∨ param = 0 ∨ 6 ≤ param.toNat → refused)

/-- R61, R62, R36, R39, R47, R59, R60, R66 and R178: FORCE_RELEASE by the state of the journal. In OWNED the owner's slots in
RECEIVING are fenced, their VOID headers handed and the voids counted, and the owner is told; with no open slot the transfer
completes at once, which the subscribers and the owner are told too. The order of the tests of a WAITING record, of the
journal and of a pending FORMAT is the model's reading (log 19), the order of the VOID headers its choice (log 41). -/
def Obligations.ForceReleaseByState : Prop :=
  ∀ (b : Byte) (s : State), s.part.serving →
    let p := s.part
    let waiting := ∃ cmd, p.maint.deferred = .waiting cmd
    let replies := fun st => Takes (.forceRelease b) s fun p' q => q = p'.replies st []
    (waiting → replies .busy)
    ∧ (¬waiting → (∀ j : JournalId, b.toNat = j.val → (p.journal j).conf = none) → replies .badLayout)
    ∧ ∀ (j : JournalId) (c : Conf), ¬waiting → b.toNat = j.val → (p.journal j).conf = some c →
        let e := p.journal j
        let accepted := fun (p' q : Part) =>
          q.maint = { p'.maint.answered [1] with deferred := .waiting (.forceRelease j) }
          ∧ ∀ k, k ≠ j → q.journal k = p.journal k
        (p.formatPending = true → replies .busy)
        ∧ (p.formatPending = false →
          (c.own = .unassigned → replies .ok)
          ∧ (∀ o t cl, c.own = .transferring o t cl → replies .busy)
          ∧ (c.own ≠ .unassigned → e.epoch = 0xFFFFFFFF#32 → replies .busy)
          ∧ (∀ t g, c.own = .held t g → e.epoch ≠ 0xFFFFFFFF#32 → Takes (.forceRelease b) s fun p' q =>
              accepted p' q
              ∧ q.journal j =
                { e.dirtied with
                  conf := some { c with own := .unassigned }
                  epoch := e.epoch + 1
                  boundNext := e.boundNext ++ [.forceRelease] }
              ∧ (∀ k, q.ntf k =
                  if k ∈ c.subs then p.handed k (.owner j .unassigned (e.epoch + 1) none) else p.ntf k)
              ∧ q.slots = p.slots ∧ q.mem = p.mem ∧ q.appendCnt = p.appendCnt)
          ∧ ∀ o t, c.own = .owned o t → e.epoch ≠ 0xFFFFFFFF#32 →
              let told := fun k =>
                if k = o.port ∧ p.live o = true then p.handed k (.owner j .transferring e.epoch (some t)) else p.ntf k
              let fenced := fun (q : Part) =>
                (∀ n, q.slot n = (p.slot n).map fun x =>
                  if x.journal = j ∧ x.session = o ∧ x.state = .receiving then x.voided .fenced else x)
                ∧ q.mem = p.memAfter (p.voidHeaders .fenced fun x => x.fencedBy j o) ∧ q.appendCnt = p.fencedCnt j o
              (c.openSlots ≠ 0 → Takes (.forceRelease b) s fun p' q =>
                accepted p' q ∧ fenced q
                ∧ q.journal j = { e.dirtied with conf := some { c with own := .transferring (some o) t none } }
                ∧ ∀ k, q.ntf k = told k)
              ∧ (c.openSlots = 0 → Takes (.forceRelease b) s fun p' q =>
                accepted p' q ∧ fenced q
                ∧ q.journal j =
                  { e.dirtied with
                    conf := some { c with own := .unassigned }
                    epoch := e.epoch + 1
                    boundNext := e.boundNext ++
                      (if .forceRelease ∈ e.boundNext ++ e.boundFlight then [] else [.forceRelease]) }
                ∧ ∀ k, q.ntf k =
                  if k ∈ c.subs ∨ (k = o.port ∧ p.live o = true) then
                    (told k).handed (p.req k).session.active (.owner j .unassigned (e.epoch + 1) none)
                  else told k))

/-- R166, R181 and R178: RESUME in HALTED begins a restore; FORMAT is refused with a session ACTIVE or while a deferred
result is WAITING, and else accepted and left pending. -/
def Obligations.ResumeAndFormat : Prop :=
  ∀ (s : State), s.part.ret.running = true →
    let p := s.part
    let refused := (∃ i, (p.req i).session.active = true) ∨ ∃ cmd, p.maint.deferred = .waiting cmd
    (p.ret.mode = .halted → p.mem.cond = .selfRefresh → p.mem.op = none → Takes .resume s fun _ q =>
      q.ret = { p.ret with mode := .restoring } ∧ q.mem = { p.mem with op := some .exit }
      ∧ q.ctl =
        { p.ctl with
          work := .restoreExit
          abandoned := false
          drainOrdered := false
          loaded := []
          rebuilt := [] }
      ∧ q.maint.response = [0] ∧ q.maint.spi = .responding 0 ∧ q.maint.pending.getLsbD 0 = true)
    ∧ (p.ret.mode = .serving →
      (refused → Takes .format s fun p' q => q = p'.replies .busy [])
      ∧ (¬refused → Takes .format s fun p' q =>
        q = { p'.modMaint (fun m => { m.answered [1] with deferred := .waiting .format }) with
          formatPending := true }))

/-! ## Formats -/

/-- Table 11-7 with R186: a directory copy that the part builds is valid for its item and reads back as what it records. -/
def Obligations.DirectoryCopiesReadBack : Prop :=
  (∀ (j : JournalId) (epoch gen : W32),
    let image := entryBytes j { epoch := epoch, conf := none } gen
    image.length = 64 ∧ copyValid (.journal j) image = true ∧ copyGeneration image = gen
    ∧ entryRecord image =
      { state := some .unconfigured, tag := none, base := 0, count := 0, epoch := epoch, head := 0, frontier := 0
        frontierSeq := 0 })
  ∧ (∀ (j : JournalId) (epoch gen : W32) (c : SnapConf),
    let image := entryBytes j { epoch := epoch, conf := some c } gen
    image.length = 64 ∧ copyValid (.journal j) image = true ∧ copyGeneration image = gen
    ∧ entryRecord image =
      { state := some c.state, tag := c.tag, base := c.base, count := c.count, epoch := epoch, head := c.head
        frontier := c.frontier, frontierSeq := c.frontierSeq })
  ∧ ∀ (layout gen : W32) (p : Params) (watermarks : List Byte), 1 ≤ p.idle.toNat → p.grace.toNat ≤ 60000 →
    4 ≤ p.urgent.toNat → p.urgent.toNat ≤ 8 → watermarks.length = 8 →
    (∀ w ∈ watermarks, 50 ≤ w.toNat ∧ w.toNat ≤ 100) →
    let image := headerBytes layout p watermarks gen
    image.length = 64 ∧ copyValid .header image = true ∧ copyGeneration image = gen
    ∧ headerRecord image = some { layoutGen := layout, params := p, watermarks := watermarks }

/-- Table 7-2, R121, R122 and R185: the bytes of a frame with a matching check are the receive event that they spell, with
every header field and the payload; a frame whose check does not match is a check failure. -/
def Obligations.FramesAreReceivedAsTheySpell : Prop :=
  ∀ (i : Port) (seq ack : Seq) (nak : Bool) (credit : Nat) (payload : List Byte), credit < 16 → payload.length ≤ 512 →
    let h : Header := { seq := seq, ack := ack, nak := nak, credit := BitVec.ofNat 4 credit }
    let reads := fun (code : Byte) (pl : List Byte) => frameCommand i (frameBytes code seq ack nak credit pl)
    reads 0x00 [] = .idleFrame i h ∧ reads 0x01 [] = .linkResetFrame ⟨i, h⟩
    ∧ reads 0x10 payload = .goodSequencedFrame i .req h payload
    ∧ reads 0x11 payload = .goodSequencedFrame i .data h payload
    ∧ reads 0x20 payload = .goodSequencedFrame i .rsp h payload
    ∧ reads 0x21 payload = .goodSequencedFrame i .rdata h payload
    ∧ reads 0x22 payload = .goodSequencedFrame i .ntf h payload
    ∧ (payload ≠ [] → reads 0x00 payload = .frameCheckFail i ∧ reads 0x01 payload = .frameCheckFail i)
    ∧ (∀ code, code ∉ [0x00#8, 0x01, 0x10, 0x11, 0x20, 0x21, 0x22] → reads code payload = .frameCheckFail i)
    ∧ ∀ bytes : List Byte, 8 ≤ bytes.length →
        leNat (bytes.drop (bytes.length - 2)) ≠ (crc16 (bytes.take (bytes.length - 2))).toNat →
        frameCommand i bytes = .frameCheckFail i
end

