-- ==== Sys2Proof/Laws/State.lean ====
section
/-! SUPPORT. The projections of every update of the part: one lemma for each field and each update, so that no later proof
unfolds a record update. -/

namespace Sys2Proof.Machine

/-! ## Indexed blocks -/

theorem putAt_get_self {α : Type} {n : Nat} (v : Vector α n) (i : Fin n) (x : α) : (putAt v i x).get i = x := by
  change (v.set i.val x i.isLt)[i.val] = x
  simp

theorem putAt_get_ne {α : Type} {n : Nat} (v : Vector α n) {i k : Fin n} (h : i ≠ k) (x : α) :
    (putAt v i x).get k = v.get k := by
  have h' : i.val ≠ k.val := fun e => h (Fin.ext e)
  change (v.set i.val x i.isLt)[k.val] = v[k.val]
  simp [h']

theorem putAt_get {α : Type} {n : Nat} (v : Vector α n) (i k : Fin n) (x : α) :
    (putAt v i x).get k = if i = k then x else v.get k := by
  split
  · next h => subst h; exact putAt_get_self v i x
  · next h => exact putAt_get_ne v h x

/-! ## The machine -/

@[simp] theorem State.onPart_part (s : State) (f : Part → Part) : (s.onPart f).part = f s.part := rfl
@[simp] theorem State.onPart_pending (s : State) (f : Part → Part) : (s.onPart f).pending = s.pending := rfl
@[simp] theorem State.onPart_pins (s : State) (f : Part → Part) : (s.onPart f).pins = s.pins := rfl

section
variable (s : State)

@[simp] theorem State.progress_part (x : SpiProgress) :
    (s.progress x).part = s.part.modMaint fun m => { m with spi := x } := rfl
@[simp] theorem State.progress_pending (x : SpiProgress) : (s.progress x).pending = s.pending := rfl
@[simp] theorem State.progress_pins (x : SpiProgress) : (s.progress x).pins = s.pins := rfl
@[simp] theorem State.returnByte_part : s.returnByte.part = s.part := rfl
@[simp] theorem State.returnByte_pending : s.returnByte.pending = s.pending := rfl
@[simp] theorem State.returnByte_wire : s.returnByte.pins.wire = s.pins.wire := rfl
@[simp] theorem State.returnByte_out : s.returnByte.pins.out = some (s.part.spiByte s.pins.untaken) := rfl

end

/-! ## modLink -/

section
variable (p : Part) (k : Port) (f : LinkUnit → LinkUnit)

@[simp] theorem modLink_ret : (p.modLink k f).ret = p.ret := rfl
@[simp] theorem modLink_ctl : (p.modLink k f).ctl = p.ctl := rfl
@[simp] theorem modLink_link_self : (p.modLink k f).link k = f (p.link k) := putAt_get_self _ _ _
@[simp] theorem modLink_link_ne {m : Port} (h : k ≠ m) : (p.modLink k f).link m = p.link m :=
  putAt_get_ne _ h _
@[simp] theorem modLink_reqs : (p.modLink k f).reqs = p.reqs := rfl
@[simp] theorem modLink_req (i : Port) : (p.modLink k f).req i = p.req i := rfl
@[simp] theorem modLink_ntfs : (p.modLink k f).ntfs = p.ntfs := rfl
@[simp] theorem modLink_ntf (i : Port) : (p.modLink k f).ntf i = p.ntf i := rfl
@[simp] theorem modLink_ntfCnt : (p.modLink k f).ntfCnt = p.ntfCnt := rfl
@[simp] theorem modLink_journals : (p.modLink k f).journals = p.journals := rfl
@[simp] theorem modLink_journal (j : JournalId) : (p.modLink k f).journal j = p.journal j := rfl
@[simp] theorem modLink_header : (p.modLink k f).header = p.header := rfl
@[simp] theorem modLink_formatPending : (p.modLink k f).formatPending = p.formatPending := rfl
@[simp] theorem modLink_waiting : (p.modLink k f).waiting = p.waiting := rfl
@[simp] theorem modLink_waits (i : Port) : (p.modLink k f).waits i = p.waits i := rfl
@[simp] theorem modLink_slots : (p.modLink k f).slots = p.slots := rfl
@[simp] theorem modLink_slot (n : SlotId) : (p.modLink k f).slot n = p.slot n := rfl
@[simp] theorem modLink_appendCnt : (p.modLink k f).appendCnt = p.appendCnt := rfl
@[simp] theorem modLink_reads : (p.modLink k f).reads = p.reads := rfl
@[simp] theorem modLink_readCtx (r : ReadId) : (p.modLink k f).readCtx r = p.readCtx r := rfl
@[simp] theorem modLink_readCnt : (p.modLink k f).readCnt = p.readCnt := rfl
@[simp] theorem modLink_mem : (p.modLink k f).mem = p.mem := rfl
@[simp] theorem modLink_dram : (p.modLink k f).dram = p.dram := rfl
@[simp] theorem modLink_maint : (p.modLink k f).maint = p.maint := rfl

end

/-! ## modReq -/

section
variable (p : Part) (k : Port) (f : RequestLayer → RequestLayer)

@[simp] theorem modReq_ret : (p.modReq k f).ret = p.ret := rfl
@[simp] theorem modReq_ctl : (p.modReq k f).ctl = p.ctl := rfl
@[simp] theorem modReq_links : (p.modReq k f).links = p.links := rfl
@[simp] theorem modReq_link (i : Port) : (p.modReq k f).link i = p.link i := rfl
@[simp] theorem modReq_req_self : (p.modReq k f).req k = f (p.req k) := putAt_get_self _ _ _
@[simp] theorem modReq_req_ne {m : Port} (h : k ≠ m) : (p.modReq k f).req m = p.req m :=
  putAt_get_ne _ h _
@[simp] theorem modReq_ntfs : (p.modReq k f).ntfs = p.ntfs := rfl
@[simp] theorem modReq_ntf (i : Port) : (p.modReq k f).ntf i = p.ntf i := rfl
@[simp] theorem modReq_ntfCnt : (p.modReq k f).ntfCnt = p.ntfCnt := rfl
@[simp] theorem modReq_journals : (p.modReq k f).journals = p.journals := rfl
@[simp] theorem modReq_journal (j : JournalId) : (p.modReq k f).journal j = p.journal j := rfl
@[simp] theorem modReq_header : (p.modReq k f).header = p.header := rfl
@[simp] theorem modReq_formatPending : (p.modReq k f).formatPending = p.formatPending := rfl
@[simp] theorem modReq_waiting : (p.modReq k f).waiting = p.waiting := rfl
@[simp] theorem modReq_waits (i : Port) : (p.modReq k f).waits i = p.waits i := rfl
@[simp] theorem modReq_slots : (p.modReq k f).slots = p.slots := rfl
@[simp] theorem modReq_slot (n : SlotId) : (p.modReq k f).slot n = p.slot n := rfl
@[simp] theorem modReq_appendCnt : (p.modReq k f).appendCnt = p.appendCnt := rfl
@[simp] theorem modReq_reads : (p.modReq k f).reads = p.reads := rfl
@[simp] theorem modReq_readCtx (r : ReadId) : (p.modReq k f).readCtx r = p.readCtx r := rfl
@[simp] theorem modReq_readCnt : (p.modReq k f).readCnt = p.readCnt := rfl
@[simp] theorem modReq_mem : (p.modReq k f).mem = p.mem := rfl
@[simp] theorem modReq_dram : (p.modReq k f).dram = p.dram := rfl
@[simp] theorem modReq_maint : (p.modReq k f).maint = p.maint := rfl

end

/-! ## modNtf -/

section
variable (p : Part) (k : Port) (f : NotifyPort → NotifyPort)

@[simp] theorem modNtf_ret : (p.modNtf k f).ret = p.ret := rfl
@[simp] theorem modNtf_ctl : (p.modNtf k f).ctl = p.ctl := rfl
@[simp] theorem modNtf_links : (p.modNtf k f).links = p.links := rfl
@[simp] theorem modNtf_link (i : Port) : (p.modNtf k f).link i = p.link i := rfl
@[simp] theorem modNtf_reqs : (p.modNtf k f).reqs = p.reqs := rfl
@[simp] theorem modNtf_req (i : Port) : (p.modNtf k f).req i = p.req i := rfl
@[simp] theorem modNtf_ntf_self : (p.modNtf k f).ntf k = f (p.ntf k) := putAt_get_self _ _ _
@[simp] theorem modNtf_ntf_ne {m : Port} (h : k ≠ m) : (p.modNtf k f).ntf m = p.ntf m :=
  putAt_get_ne _ h _
@[simp] theorem modNtf_ntfCnt : (p.modNtf k f).ntfCnt = p.ntfCnt := rfl
@[simp] theorem modNtf_journals : (p.modNtf k f).journals = p.journals := rfl
@[simp] theorem modNtf_journal (j : JournalId) : (p.modNtf k f).journal j = p.journal j := rfl
@[simp] theorem modNtf_header : (p.modNtf k f).header = p.header := rfl
@[simp] theorem modNtf_formatPending : (p.modNtf k f).formatPending = p.formatPending := rfl
@[simp] theorem modNtf_waiting : (p.modNtf k f).waiting = p.waiting := rfl
@[simp] theorem modNtf_waits (i : Port) : (p.modNtf k f).waits i = p.waits i := rfl
@[simp] theorem modNtf_slots : (p.modNtf k f).slots = p.slots := rfl
@[simp] theorem modNtf_slot (n : SlotId) : (p.modNtf k f).slot n = p.slot n := rfl
@[simp] theorem modNtf_appendCnt : (p.modNtf k f).appendCnt = p.appendCnt := rfl
@[simp] theorem modNtf_reads : (p.modNtf k f).reads = p.reads := rfl
@[simp] theorem modNtf_readCtx (r : ReadId) : (p.modNtf k f).readCtx r = p.readCtx r := rfl
@[simp] theorem modNtf_readCnt : (p.modNtf k f).readCnt = p.readCnt := rfl
@[simp] theorem modNtf_mem : (p.modNtf k f).mem = p.mem := rfl
@[simp] theorem modNtf_dram : (p.modNtf k f).dram = p.dram := rfl
@[simp] theorem modNtf_maint : (p.modNtf k f).maint = p.maint := rfl

end

/-! ## modJournal -/

section
variable (p : Part) (k : JournalId) (f : Journal → Journal)

@[simp] theorem modJournal_ret : (p.modJournal k f).ret = p.ret := rfl
@[simp] theorem modJournal_ctl : (p.modJournal k f).ctl = p.ctl := rfl
@[simp] theorem modJournal_links : (p.modJournal k f).links = p.links := rfl
@[simp] theorem modJournal_link (i : Port) : (p.modJournal k f).link i = p.link i := rfl
@[simp] theorem modJournal_reqs : (p.modJournal k f).reqs = p.reqs := rfl
@[simp] theorem modJournal_req (i : Port) : (p.modJournal k f).req i = p.req i := rfl
@[simp] theorem modJournal_ntfs : (p.modJournal k f).ntfs = p.ntfs := rfl
@[simp] theorem modJournal_ntf (i : Port) : (p.modJournal k f).ntf i = p.ntf i := rfl
@[simp] theorem modJournal_ntfCnt : (p.modJournal k f).ntfCnt = p.ntfCnt := rfl
@[simp] theorem modJournal_journal_self : (p.modJournal k f).journal k = f (p.journal k) := putAt_get_self _ _ _
@[simp] theorem modJournal_journal_ne {m : JournalId} (h : k ≠ m) : (p.modJournal k f).journal m = p.journal m :=
  putAt_get_ne _ h _
@[simp] theorem modJournal_header : (p.modJournal k f).header = p.header := rfl
@[simp] theorem modJournal_formatPending : (p.modJournal k f).formatPending = p.formatPending := rfl
@[simp] theorem modJournal_waiting : (p.modJournal k f).waiting = p.waiting := rfl
@[simp] theorem modJournal_waits (i : Port) : (p.modJournal k f).waits i = p.waits i := rfl
@[simp] theorem modJournal_slots : (p.modJournal k f).slots = p.slots := rfl
@[simp] theorem modJournal_slot (n : SlotId) : (p.modJournal k f).slot n = p.slot n := rfl
@[simp] theorem modJournal_appendCnt : (p.modJournal k f).appendCnt = p.appendCnt := rfl
@[simp] theorem modJournal_reads : (p.modJournal k f).reads = p.reads := rfl
@[simp] theorem modJournal_readCtx (r : ReadId) : (p.modJournal k f).readCtx r = p.readCtx r := rfl
@[simp] theorem modJournal_readCnt : (p.modJournal k f).readCnt = p.readCnt := rfl
@[simp] theorem modJournal_mem : (p.modJournal k f).mem = p.mem := rfl
@[simp] theorem modJournal_dram : (p.modJournal k f).dram = p.dram := rfl
@[simp] theorem modJournal_maint : (p.modJournal k f).maint = p.maint := rfl

end

/-! ## modConf -/

section
variable (p : Part) (k : JournalId) (f : Conf → Conf)

@[simp] theorem modConf_ret : (p.modConf k f).ret = p.ret := rfl
@[simp] theorem modConf_ctl : (p.modConf k f).ctl = p.ctl := rfl
@[simp] theorem modConf_links : (p.modConf k f).links = p.links := rfl
@[simp] theorem modConf_link (i : Port) : (p.modConf k f).link i = p.link i := rfl
@[simp] theorem modConf_reqs : (p.modConf k f).reqs = p.reqs := rfl
@[simp] theorem modConf_req (i : Port) : (p.modConf k f).req i = p.req i := rfl
@[simp] theorem modConf_ntfs : (p.modConf k f).ntfs = p.ntfs := rfl
@[simp] theorem modConf_ntf (i : Port) : (p.modConf k f).ntf i = p.ntf i := rfl
@[simp] theorem modConf_ntfCnt : (p.modConf k f).ntfCnt = p.ntfCnt := rfl
@[simp] theorem modConf_journal_self : (p.modConf k f).journal k = { p.journal k with conf := (p.journal k).conf.map f } := putAt_get_self _ _ _
@[simp] theorem modConf_journal_ne {m : JournalId} (h : k ≠ m) : (p.modConf k f).journal m = p.journal m :=
  putAt_get_ne _ h _
@[simp] theorem modConf_header : (p.modConf k f).header = p.header := rfl
@[simp] theorem modConf_formatPending : (p.modConf k f).formatPending = p.formatPending := rfl
@[simp] theorem modConf_waiting : (p.modConf k f).waiting = p.waiting := rfl
@[simp] theorem modConf_waits (i : Port) : (p.modConf k f).waits i = p.waits i := rfl
@[simp] theorem modConf_slots : (p.modConf k f).slots = p.slots := rfl
@[simp] theorem modConf_slot (n : SlotId) : (p.modConf k f).slot n = p.slot n := rfl
@[simp] theorem modConf_appendCnt : (p.modConf k f).appendCnt = p.appendCnt := rfl
@[simp] theorem modConf_reads : (p.modConf k f).reads = p.reads := rfl
@[simp] theorem modConf_readCtx (r : ReadId) : (p.modConf k f).readCtx r = p.readCtx r := rfl
@[simp] theorem modConf_readCnt : (p.modConf k f).readCnt = p.readCnt := rfl
@[simp] theorem modConf_mem : (p.modConf k f).mem = p.mem := rfl
@[simp] theorem modConf_dram : (p.modConf k f).dram = p.dram := rfl
@[simp] theorem modConf_maint : (p.modConf k f).maint = p.maint := rfl

end

/-! ## setWaits -/

section
variable (p : Part) (k : Port) (w : List Waiting)

@[simp] theorem setWaits_ret : (p.setWaits k w).ret = p.ret := rfl
@[simp] theorem setWaits_ctl : (p.setWaits k w).ctl = p.ctl := rfl
@[simp] theorem setWaits_links : (p.setWaits k w).links = p.links := rfl
@[simp] theorem setWaits_link (i : Port) : (p.setWaits k w).link i = p.link i := rfl
@[simp] theorem setWaits_reqs : (p.setWaits k w).reqs = p.reqs := rfl
@[simp] theorem setWaits_req (i : Port) : (p.setWaits k w).req i = p.req i := rfl
@[simp] theorem setWaits_ntfs : (p.setWaits k w).ntfs = p.ntfs := rfl
@[simp] theorem setWaits_ntf (i : Port) : (p.setWaits k w).ntf i = p.ntf i := rfl
@[simp] theorem setWaits_ntfCnt : (p.setWaits k w).ntfCnt = p.ntfCnt := rfl
@[simp] theorem setWaits_journals : (p.setWaits k w).journals = p.journals := rfl
@[simp] theorem setWaits_journal (j : JournalId) : (p.setWaits k w).journal j = p.journal j := rfl
@[simp] theorem setWaits_header : (p.setWaits k w).header = p.header := rfl
@[simp] theorem setWaits_formatPending : (p.setWaits k w).formatPending = p.formatPending := rfl
@[simp] theorem setWaits_waits_self : (p.setWaits k w).waits k = w := putAt_get_self _ _ _
@[simp] theorem setWaits_waits_ne {m : Port} (h : k ≠ m) : (p.setWaits k w).waits m = p.waits m :=
  putAt_get_ne _ h _
@[simp] theorem setWaits_slots : (p.setWaits k w).slots = p.slots := rfl
@[simp] theorem setWaits_slot (n : SlotId) : (p.setWaits k w).slot n = p.slot n := rfl
@[simp] theorem setWaits_appendCnt : (p.setWaits k w).appendCnt = p.appendCnt := rfl
@[simp] theorem setWaits_reads : (p.setWaits k w).reads = p.reads := rfl
@[simp] theorem setWaits_readCtx (r : ReadId) : (p.setWaits k w).readCtx r = p.readCtx r := rfl
@[simp] theorem setWaits_readCnt : (p.setWaits k w).readCnt = p.readCnt := rfl
@[simp] theorem setWaits_mem : (p.setWaits k w).mem = p.mem := rfl
@[simp] theorem setWaits_dram : (p.setWaits k w).dram = p.dram := rfl
@[simp] theorem setWaits_maint : (p.setWaits k w).maint = p.maint := rfl

end

/-! ## setSlot -/

section
variable (p : Part) (k : SlotId) (x : Option Slot)

@[simp] theorem setSlot_ret : (p.setSlot k x).ret = p.ret := rfl
@[simp] theorem setSlot_ctl : (p.setSlot k x).ctl = p.ctl := rfl
@[simp] theorem setSlot_links : (p.setSlot k x).links = p.links := rfl
@[simp] theorem setSlot_link (i : Port) : (p.setSlot k x).link i = p.link i := rfl
@[simp] theorem setSlot_reqs : (p.setSlot k x).reqs = p.reqs := rfl
@[simp] theorem setSlot_req (i : Port) : (p.setSlot k x).req i = p.req i := rfl
@[simp] theorem setSlot_ntfs : (p.setSlot k x).ntfs = p.ntfs := rfl
@[simp] theorem setSlot_ntf (i : Port) : (p.setSlot k x).ntf i = p.ntf i := rfl
@[simp] theorem setSlot_ntfCnt : (p.setSlot k x).ntfCnt = p.ntfCnt := rfl
@[simp] theorem setSlot_journals : (p.setSlot k x).journals = p.journals := rfl
@[simp] theorem setSlot_journal (j : JournalId) : (p.setSlot k x).journal j = p.journal j := rfl
@[simp] theorem setSlot_header : (p.setSlot k x).header = p.header := rfl
@[simp] theorem setSlot_formatPending : (p.setSlot k x).formatPending = p.formatPending := rfl
@[simp] theorem setSlot_waiting : (p.setSlot k x).waiting = p.waiting := rfl
@[simp] theorem setSlot_waits (i : Port) : (p.setSlot k x).waits i = p.waits i := rfl
@[simp] theorem setSlot_slot_self : (p.setSlot k x).slot k = x := putAt_get_self _ _ _
@[simp] theorem setSlot_slot_ne {m : SlotId} (h : k ≠ m) : (p.setSlot k x).slot m = p.slot m :=
  putAt_get_ne _ h _
@[simp] theorem setSlot_appendCnt : (p.setSlot k x).appendCnt = p.appendCnt := rfl
@[simp] theorem setSlot_reads : (p.setSlot k x).reads = p.reads := rfl
@[simp] theorem setSlot_readCtx (r : ReadId) : (p.setSlot k x).readCtx r = p.readCtx r := rfl
@[simp] theorem setSlot_readCnt : (p.setSlot k x).readCnt = p.readCnt := rfl
@[simp] theorem setSlot_mem : (p.setSlot k x).mem = p.mem := rfl
@[simp] theorem setSlot_dram : (p.setSlot k x).dram = p.dram := rfl
@[simp] theorem setSlot_maint : (p.setSlot k x).maint = p.maint := rfl

end

/-! ## setRead -/

section
variable (p : Part) (k : ReadId) (x : Option ReadCtx)

@[simp] theorem setRead_ret : (p.setRead k x).ret = p.ret := rfl
@[simp] theorem setRead_ctl : (p.setRead k x).ctl = p.ctl := rfl
@[simp] theorem setRead_links : (p.setRead k x).links = p.links := rfl
@[simp] theorem setRead_link (i : Port) : (p.setRead k x).link i = p.link i := rfl
@[simp] theorem setRead_reqs : (p.setRead k x).reqs = p.reqs := rfl
@[simp] theorem setRead_req (i : Port) : (p.setRead k x).req i = p.req i := rfl
@[simp] theorem setRead_ntfs : (p.setRead k x).ntfs = p.ntfs := rfl
@[simp] theorem setRead_ntf (i : Port) : (p.setRead k x).ntf i = p.ntf i := rfl
@[simp] theorem setRead_ntfCnt : (p.setRead k x).ntfCnt = p.ntfCnt := rfl
@[simp] theorem setRead_journals : (p.setRead k x).journals = p.journals := rfl
@[simp] theorem setRead_journal (j : JournalId) : (p.setRead k x).journal j = p.journal j := rfl
@[simp] theorem setRead_header : (p.setRead k x).header = p.header := rfl
@[simp] theorem setRead_formatPending : (p.setRead k x).formatPending = p.formatPending := rfl
@[simp] theorem setRead_waiting : (p.setRead k x).waiting = p.waiting := rfl
@[simp] theorem setRead_waits (i : Port) : (p.setRead k x).waits i = p.waits i := rfl
@[simp] theorem setRead_slots : (p.setRead k x).slots = p.slots := rfl
@[simp] theorem setRead_slot (n : SlotId) : (p.setRead k x).slot n = p.slot n := rfl
@[simp] theorem setRead_appendCnt : (p.setRead k x).appendCnt = p.appendCnt := rfl
@[simp] theorem setRead_readCtx_self : (p.setRead k x).readCtx k = x := putAt_get_self _ _ _
@[simp] theorem setRead_readCtx_ne {m : ReadId} (h : k ≠ m) : (p.setRead k x).readCtx m = p.readCtx m :=
  putAt_get_ne _ h _
@[simp] theorem setRead_readCnt : (p.setRead k x).readCnt = p.readCnt := rfl
@[simp] theorem setRead_mem : (p.setRead k x).mem = p.mem := rfl
@[simp] theorem setRead_dram : (p.setRead k x).dram = p.dram := rfl
@[simp] theorem setRead_maint : (p.setRead k x).maint = p.maint := rfl

end

/-! ## modMem -/

section
variable (p : Part) (f : MemEngine → MemEngine)

@[simp] theorem modMem_ret : (p.modMem f).ret = p.ret := rfl
@[simp] theorem modMem_ctl : (p.modMem f).ctl = p.ctl := rfl
@[simp] theorem modMem_links : (p.modMem f).links = p.links := rfl
@[simp] theorem modMem_link (i : Port) : (p.modMem f).link i = p.link i := rfl
@[simp] theorem modMem_reqs : (p.modMem f).reqs = p.reqs := rfl
@[simp] theorem modMem_req (i : Port) : (p.modMem f).req i = p.req i := rfl
@[simp] theorem modMem_ntfs : (p.modMem f).ntfs = p.ntfs := rfl
@[simp] theorem modMem_ntf (i : Port) : (p.modMem f).ntf i = p.ntf i := rfl
@[simp] theorem modMem_ntfCnt : (p.modMem f).ntfCnt = p.ntfCnt := rfl
@[simp] theorem modMem_journals : (p.modMem f).journals = p.journals := rfl
@[simp] theorem modMem_journal (j : JournalId) : (p.modMem f).journal j = p.journal j := rfl
@[simp] theorem modMem_header : (p.modMem f).header = p.header := rfl
@[simp] theorem modMem_formatPending : (p.modMem f).formatPending = p.formatPending := rfl
@[simp] theorem modMem_waiting : (p.modMem f).waiting = p.waiting := rfl
@[simp] theorem modMem_waits (i : Port) : (p.modMem f).waits i = p.waits i := rfl
@[simp] theorem modMem_slots : (p.modMem f).slots = p.slots := rfl
@[simp] theorem modMem_slot (n : SlotId) : (p.modMem f).slot n = p.slot n := rfl
@[simp] theorem modMem_appendCnt : (p.modMem f).appendCnt = p.appendCnt := rfl
@[simp] theorem modMem_reads : (p.modMem f).reads = p.reads := rfl
@[simp] theorem modMem_readCtx (r : ReadId) : (p.modMem f).readCtx r = p.readCtx r := rfl
@[simp] theorem modMem_readCnt : (p.modMem f).readCnt = p.readCnt := rfl
@[simp] theorem modMem_mem : (p.modMem f).mem = f p.mem := rfl
@[simp] theorem modMem_dram : (p.modMem f).dram = p.dram := rfl
@[simp] theorem modMem_maint : (p.modMem f).maint = p.maint := rfl

end

/-! ## modMaint -/

section
variable (p : Part) (f : Maint → Maint)

@[simp] theorem modMaint_ret : (p.modMaint f).ret = p.ret := rfl
@[simp] theorem modMaint_ctl : (p.modMaint f).ctl = p.ctl := rfl
@[simp] theorem modMaint_links : (p.modMaint f).links = p.links := rfl
@[simp] theorem modMaint_link (i : Port) : (p.modMaint f).link i = p.link i := rfl
@[simp] theorem modMaint_reqs : (p.modMaint f).reqs = p.reqs := rfl
@[simp] theorem modMaint_req (i : Port) : (p.modMaint f).req i = p.req i := rfl
@[simp] theorem modMaint_ntfs : (p.modMaint f).ntfs = p.ntfs := rfl
@[simp] theorem modMaint_ntf (i : Port) : (p.modMaint f).ntf i = p.ntf i := rfl
@[simp] theorem modMaint_ntfCnt : (p.modMaint f).ntfCnt = p.ntfCnt := rfl
@[simp] theorem modMaint_journals : (p.modMaint f).journals = p.journals := rfl
@[simp] theorem modMaint_journal (j : JournalId) : (p.modMaint f).journal j = p.journal j := rfl
@[simp] theorem modMaint_header : (p.modMaint f).header = p.header := rfl
@[simp] theorem modMaint_formatPending : (p.modMaint f).formatPending = p.formatPending := rfl
@[simp] theorem modMaint_waiting : (p.modMaint f).waiting = p.waiting := rfl
@[simp] theorem modMaint_waits (i : Port) : (p.modMaint f).waits i = p.waits i := rfl
@[simp] theorem modMaint_slots : (p.modMaint f).slots = p.slots := rfl
@[simp] theorem modMaint_slot (n : SlotId) : (p.modMaint f).slot n = p.slot n := rfl
@[simp] theorem modMaint_appendCnt : (p.modMaint f).appendCnt = p.appendCnt := rfl
@[simp] theorem modMaint_reads : (p.modMaint f).reads = p.reads := rfl
@[simp] theorem modMaint_readCtx (r : ReadId) : (p.modMaint f).readCtx r = p.readCtx r := rfl
@[simp] theorem modMaint_readCnt : (p.modMaint f).readCnt = p.readCnt := rfl
@[simp] theorem modMaint_mem : (p.modMaint f).mem = p.mem := rfl
@[simp] theorem modMaint_dram : (p.modMaint f).dram = p.dram := rfl
@[simp] theorem modMaint_maint : (p.modMaint f).maint = f p.maint := rfl

end

/-! ## modRet -/

section
variable (p : Part) (f : Retention → Retention)

@[simp] theorem modRet_ret : (p.modRet f).ret = f p.ret := rfl
@[simp] theorem modRet_ctl : (p.modRet f).ctl = p.ctl := rfl
@[simp] theorem modRet_links : (p.modRet f).links = p.links := rfl
@[simp] theorem modRet_link (i : Port) : (p.modRet f).link i = p.link i := rfl
@[simp] theorem modRet_reqs : (p.modRet f).reqs = p.reqs := rfl
@[simp] theorem modRet_req (i : Port) : (p.modRet f).req i = p.req i := rfl
@[simp] theorem modRet_ntfs : (p.modRet f).ntfs = p.ntfs := rfl
@[simp] theorem modRet_ntf (i : Port) : (p.modRet f).ntf i = p.ntf i := rfl
@[simp] theorem modRet_ntfCnt : (p.modRet f).ntfCnt = p.ntfCnt := rfl
@[simp] theorem modRet_journals : (p.modRet f).journals = p.journals := rfl
@[simp] theorem modRet_journal (j : JournalId) : (p.modRet f).journal j = p.journal j := rfl
@[simp] theorem modRet_header : (p.modRet f).header = p.header := rfl
@[simp] theorem modRet_formatPending : (p.modRet f).formatPending = p.formatPending := rfl
@[simp] theorem modRet_waiting : (p.modRet f).waiting = p.waiting := rfl
@[simp] theorem modRet_waits (i : Port) : (p.modRet f).waits i = p.waits i := rfl
@[simp] theorem modRet_slots : (p.modRet f).slots = p.slots := rfl
@[simp] theorem modRet_slot (n : SlotId) : (p.modRet f).slot n = p.slot n := rfl
@[simp] theorem modRet_appendCnt : (p.modRet f).appendCnt = p.appendCnt := rfl
@[simp] theorem modRet_reads : (p.modRet f).reads = p.reads := rfl
@[simp] theorem modRet_readCtx (r : ReadId) : (p.modRet f).readCtx r = p.readCtx r := rfl
@[simp] theorem modRet_readCnt : (p.modRet f).readCnt = p.readCnt := rfl
@[simp] theorem modRet_mem : (p.modRet f).mem = p.mem := rfl
@[simp] theorem modRet_dram : (p.modRet f).dram = p.dram := rfl
@[simp] theorem modRet_maint : (p.modRet f).maint = p.maint := rfl

end

/-! ## modCtl -/

section
variable (p : Part) (f : Control → Control)

@[simp] theorem modCtl_ret : (p.modCtl f).ret = p.ret := rfl
@[simp] theorem modCtl_ctl : (p.modCtl f).ctl = f p.ctl := rfl
@[simp] theorem modCtl_links : (p.modCtl f).links = p.links := rfl
@[simp] theorem modCtl_link (i : Port) : (p.modCtl f).link i = p.link i := rfl
@[simp] theorem modCtl_reqs : (p.modCtl f).reqs = p.reqs := rfl
@[simp] theorem modCtl_req (i : Port) : (p.modCtl f).req i = p.req i := rfl
@[simp] theorem modCtl_ntfs : (p.modCtl f).ntfs = p.ntfs := rfl
@[simp] theorem modCtl_ntf (i : Port) : (p.modCtl f).ntf i = p.ntf i := rfl
@[simp] theorem modCtl_ntfCnt : (p.modCtl f).ntfCnt = p.ntfCnt := rfl
@[simp] theorem modCtl_journals : (p.modCtl f).journals = p.journals := rfl
@[simp] theorem modCtl_journal (j : JournalId) : (p.modCtl f).journal j = p.journal j := rfl
@[simp] theorem modCtl_header : (p.modCtl f).header = p.header := rfl
@[simp] theorem modCtl_formatPending : (p.modCtl f).formatPending = p.formatPending := rfl
@[simp] theorem modCtl_waiting : (p.modCtl f).waiting = p.waiting := rfl
@[simp] theorem modCtl_waits (i : Port) : (p.modCtl f).waits i = p.waits i := rfl
@[simp] theorem modCtl_slots : (p.modCtl f).slots = p.slots := rfl
@[simp] theorem modCtl_slot (n : SlotId) : (p.modCtl f).slot n = p.slot n := rfl
@[simp] theorem modCtl_appendCnt : (p.modCtl f).appendCnt = p.appendCnt := rfl
@[simp] theorem modCtl_reads : (p.modCtl f).reads = p.reads := rfl
@[simp] theorem modCtl_readCtx (r : ReadId) : (p.modCtl f).readCtx r = p.readCtx r := rfl
@[simp] theorem modCtl_readCnt : (p.modCtl f).readCnt = p.readCnt := rfl
@[simp] theorem modCtl_mem : (p.modCtl f).mem = p.mem := rfl
@[simp] theorem modCtl_dram : (p.modCtl f).dram = p.dram := rfl
@[simp] theorem modCtl_maint : (p.modCtl f).maint = p.maint := rfl

end

/-! ## modHeader -/

section
variable (p : Part) (f : DeviceHeader → DeviceHeader)

@[simp] theorem modHeader_ret : (p.modHeader f).ret = p.ret := rfl
@[simp] theorem modHeader_ctl : (p.modHeader f).ctl = p.ctl := rfl
@[simp] theorem modHeader_links : (p.modHeader f).links = p.links := rfl
@[simp] theorem modHeader_link (i : Port) : (p.modHeader f).link i = p.link i := rfl
@[simp] theorem modHeader_reqs : (p.modHeader f).reqs = p.reqs := rfl
@[simp] theorem modHeader_req (i : Port) : (p.modHeader f).req i = p.req i := rfl
@[simp] theorem modHeader_ntfs : (p.modHeader f).ntfs = p.ntfs := rfl
@[simp] theorem modHeader_ntf (i : Port) : (p.modHeader f).ntf i = p.ntf i := rfl
@[simp] theorem modHeader_ntfCnt : (p.modHeader f).ntfCnt = p.ntfCnt := rfl
@[simp] theorem modHeader_journals : (p.modHeader f).journals = p.journals := rfl
@[simp] theorem modHeader_journal (j : JournalId) : (p.modHeader f).journal j = p.journal j := rfl
@[simp] theorem modHeader_header : (p.modHeader f).header = f p.header := rfl
@[simp] theorem modHeader_formatPending : (p.modHeader f).formatPending = p.formatPending := rfl
@[simp] theorem modHeader_waiting : (p.modHeader f).waiting = p.waiting := rfl
@[simp] theorem modHeader_waits (i : Port) : (p.modHeader f).waits i = p.waits i := rfl
@[simp] theorem modHeader_slots : (p.modHeader f).slots = p.slots := rfl
@[simp] theorem modHeader_slot (n : SlotId) : (p.modHeader f).slot n = p.slot n := rfl
@[simp] theorem modHeader_appendCnt : (p.modHeader f).appendCnt = p.appendCnt := rfl
@[simp] theorem modHeader_reads : (p.modHeader f).reads = p.reads := rfl
@[simp] theorem modHeader_readCtx (r : ReadId) : (p.modHeader f).readCtx r = p.readCtx r := rfl
@[simp] theorem modHeader_readCnt : (p.modHeader f).readCnt = p.readCnt := rfl
@[simp] theorem modHeader_mem : (p.modHeader f).mem = p.mem := rfl
@[simp] theorem modHeader_dram : (p.modHeader f).dram = p.dram := rfl
@[simp] theorem modHeader_maint : (p.modHeader f).maint = p.maint := rfl

end

/-! ## countNtf -/

section
variable (p : Part) (f : NotifyCounters → NotifyCounters)

@[simp] theorem countNtf_ret : (p.countNtf f).ret = p.ret := rfl
@[simp] theorem countNtf_ctl : (p.countNtf f).ctl = p.ctl := rfl
@[simp] theorem countNtf_links : (p.countNtf f).links = p.links := rfl
@[simp] theorem countNtf_link (i : Port) : (p.countNtf f).link i = p.link i := rfl
@[simp] theorem countNtf_reqs : (p.countNtf f).reqs = p.reqs := rfl
@[simp] theorem countNtf_req (i : Port) : (p.countNtf f).req i = p.req i := rfl
@[simp] theorem countNtf_ntfs : (p.countNtf f).ntfs = p.ntfs := rfl
@[simp] theorem countNtf_ntf (i : Port) : (p.countNtf f).ntf i = p.ntf i := rfl
@[simp] theorem countNtf_ntfCnt : (p.countNtf f).ntfCnt = f p.ntfCnt := rfl
@[simp] theorem countNtf_journals : (p.countNtf f).journals = p.journals := rfl
@[simp] theorem countNtf_journal (j : JournalId) : (p.countNtf f).journal j = p.journal j := rfl
@[simp] theorem countNtf_header : (p.countNtf f).header = p.header := rfl
@[simp] theorem countNtf_formatPending : (p.countNtf f).formatPending = p.formatPending := rfl
@[simp] theorem countNtf_waiting : (p.countNtf f).waiting = p.waiting := rfl
@[simp] theorem countNtf_waits (i : Port) : (p.countNtf f).waits i = p.waits i := rfl
@[simp] theorem countNtf_slots : (p.countNtf f).slots = p.slots := rfl
@[simp] theorem countNtf_slot (n : SlotId) : (p.countNtf f).slot n = p.slot n := rfl
@[simp] theorem countNtf_appendCnt : (p.countNtf f).appendCnt = p.appendCnt := rfl
@[simp] theorem countNtf_reads : (p.countNtf f).reads = p.reads := rfl
@[simp] theorem countNtf_readCtx (r : ReadId) : (p.countNtf f).readCtx r = p.readCtx r := rfl
@[simp] theorem countNtf_readCnt : (p.countNtf f).readCnt = p.readCnt := rfl
@[simp] theorem countNtf_mem : (p.countNtf f).mem = p.mem := rfl
@[simp] theorem countNtf_dram : (p.countNtf f).dram = p.dram := rfl
@[simp] theorem countNtf_maint : (p.countNtf f).maint = p.maint := rfl

end

/-! ## countAppend -/

section
variable (p : Part) (f : AppendCounters → AppendCounters)

@[simp] theorem countAppend_ret : (p.countAppend f).ret = p.ret := rfl
@[simp] theorem countAppend_ctl : (p.countAppend f).ctl = p.ctl := rfl
@[simp] theorem countAppend_links : (p.countAppend f).links = p.links := rfl
@[simp] theorem countAppend_link (i : Port) : (p.countAppend f).link i = p.link i := rfl
@[simp] theorem countAppend_reqs : (p.countAppend f).reqs = p.reqs := rfl
@[simp] theorem countAppend_req (i : Port) : (p.countAppend f).req i = p.req i := rfl
@[simp] theorem countAppend_ntfs : (p.countAppend f).ntfs = p.ntfs := rfl
@[simp] theorem countAppend_ntf (i : Port) : (p.countAppend f).ntf i = p.ntf i := rfl
@[simp] theorem countAppend_ntfCnt : (p.countAppend f).ntfCnt = p.ntfCnt := rfl
@[simp] theorem countAppend_journals : (p.countAppend f).journals = p.journals := rfl
@[simp] theorem countAppend_journal (j : JournalId) : (p.countAppend f).journal j = p.journal j := rfl
@[simp] theorem countAppend_header : (p.countAppend f).header = p.header := rfl
@[simp] theorem countAppend_formatPending : (p.countAppend f).formatPending = p.formatPending := rfl
@[simp] theorem countAppend_waiting : (p.countAppend f).waiting = p.waiting := rfl
@[simp] theorem countAppend_waits (i : Port) : (p.countAppend f).waits i = p.waits i := rfl
@[simp] theorem countAppend_slots : (p.countAppend f).slots = p.slots := rfl
@[simp] theorem countAppend_slot (n : SlotId) : (p.countAppend f).slot n = p.slot n := rfl
@[simp] theorem countAppend_appendCnt : (p.countAppend f).appendCnt = f p.appendCnt := rfl
@[simp] theorem countAppend_reads : (p.countAppend f).reads = p.reads := rfl
@[simp] theorem countAppend_readCtx (r : ReadId) : (p.countAppend f).readCtx r = p.readCtx r := rfl
@[simp] theorem countAppend_readCnt : (p.countAppend f).readCnt = p.readCnt := rfl
@[simp] theorem countAppend_mem : (p.countAppend f).mem = p.mem := rfl
@[simp] theorem countAppend_dram : (p.countAppend f).dram = p.dram := rfl
@[simp] theorem countAppend_maint : (p.countAppend f).maint = p.maint := rfl

end

/-! ## countRead -/

section
variable (p : Part) (f : ReadCounters → ReadCounters)

@[simp] theorem countRead_ret : (p.countRead f).ret = p.ret := rfl
@[simp] theorem countRead_ctl : (p.countRead f).ctl = p.ctl := rfl
@[simp] theorem countRead_links : (p.countRead f).links = p.links := rfl
@[simp] theorem countRead_link (i : Port) : (p.countRead f).link i = p.link i := rfl
@[simp] theorem countRead_reqs : (p.countRead f).reqs = p.reqs := rfl
@[simp] theorem countRead_req (i : Port) : (p.countRead f).req i = p.req i := rfl
@[simp] theorem countRead_ntfs : (p.countRead f).ntfs = p.ntfs := rfl
@[simp] theorem countRead_ntf (i : Port) : (p.countRead f).ntf i = p.ntf i := rfl
@[simp] theorem countRead_ntfCnt : (p.countRead f).ntfCnt = p.ntfCnt := rfl
@[simp] theorem countRead_journals : (p.countRead f).journals = p.journals := rfl
@[simp] theorem countRead_journal (j : JournalId) : (p.countRead f).journal j = p.journal j := rfl
@[simp] theorem countRead_header : (p.countRead f).header = p.header := rfl
@[simp] theorem countRead_formatPending : (p.countRead f).formatPending = p.formatPending := rfl
@[simp] theorem countRead_waiting : (p.countRead f).waiting = p.waiting := rfl
@[simp] theorem countRead_waits (i : Port) : (p.countRead f).waits i = p.waits i := rfl
@[simp] theorem countRead_slots : (p.countRead f).slots = p.slots := rfl
@[simp] theorem countRead_slot (n : SlotId) : (p.countRead f).slot n = p.slot n := rfl
@[simp] theorem countRead_appendCnt : (p.countRead f).appendCnt = p.appendCnt := rfl
@[simp] theorem countRead_reads : (p.countRead f).reads = p.reads := rfl
@[simp] theorem countRead_readCtx (r : ReadId) : (p.countRead f).readCtx r = p.readCtx r := rfl
@[simp] theorem countRead_readCnt : (p.countRead f).readCnt = f p.readCnt := rfl
@[simp] theorem countRead_mem : (p.countRead f).mem = p.mem := rfl
@[simp] theorem countRead_dram : (p.countRead f).dram = p.dram := rfl
@[simp] theorem countRead_maint : (p.countRead f).maint = p.maint := rfl

end

/-! ## raise -/

section
variable (p : Part) (c : BitVec 16)

@[simp] theorem raise_ret : (p.raise c).ret = p.ret := rfl
@[simp] theorem raise_ctl : (p.raise c).ctl = p.ctl := rfl
@[simp] theorem raise_links : (p.raise c).links = p.links := rfl
@[simp] theorem raise_link (i : Port) : (p.raise c).link i = p.link i := rfl
@[simp] theorem raise_reqs : (p.raise c).reqs = p.reqs := rfl
@[simp] theorem raise_req (i : Port) : (p.raise c).req i = p.req i := rfl
@[simp] theorem raise_ntfs : (p.raise c).ntfs = p.ntfs := rfl
@[simp] theorem raise_ntf (i : Port) : (p.raise c).ntf i = p.ntf i := rfl
@[simp] theorem raise_ntfCnt : (p.raise c).ntfCnt = p.ntfCnt := rfl
@[simp] theorem raise_journals : (p.raise c).journals = p.journals := rfl
@[simp] theorem raise_journal (j : JournalId) : (p.raise c).journal j = p.journal j := rfl
@[simp] theorem raise_header : (p.raise c).header = p.header := rfl
@[simp] theorem raise_formatPending : (p.raise c).formatPending = p.formatPending := rfl
@[simp] theorem raise_waiting : (p.raise c).waiting = p.waiting := rfl
@[simp] theorem raise_waits (i : Port) : (p.raise c).waits i = p.waits i := rfl
@[simp] theorem raise_slots : (p.raise c).slots = p.slots := rfl
@[simp] theorem raise_slot (n : SlotId) : (p.raise c).slot n = p.slot n := rfl
@[simp] theorem raise_appendCnt : (p.raise c).appendCnt = p.appendCnt := rfl
@[simp] theorem raise_reads : (p.raise c).reads = p.reads := rfl
@[simp] theorem raise_readCtx (r : ReadId) : (p.raise c).readCtx r = p.readCtx r := rfl
@[simp] theorem raise_readCnt : (p.raise c).readCnt = p.readCnt := rfl
@[simp] theorem raise_mem : (p.raise c).mem = p.mem := rfl
@[simp] theorem raise_dram : (p.raise c).dram = p.dram := rfl
@[simp] theorem raise_maint : (p.raise c).maint = p.maint.raise c := rfl

end

end Sys2Proof.Machine
end

