-- ==== Sys2Proof/Laws/Memory.lean ====
section
/-! SUPPORT. DRAM: every operation keeps the canonical form, and what a byte reads as after each of them. -/

namespace Sys2Proof.Machine.Memory

/-! ## The canonical form -/

theorem wf_nil : wf [] := by simp [wf]

theorem mem_write {m : List Host.Cell} {a : Nat} {b : Byte} {c : Host.Cell} (h : c ∈ write m a b) :
    (c = (a, b) ∧ b ≠ 0#8) ∨ c ∈ m := by
  induction m with
  | nil =>
    unfold write at h
    split at h
    · simp at h
    · next hb => simp at h; exact Or.inl ⟨h, hb⟩
  | cons x rest ih =>
    obtain ⟨k, v⟩ := x
    unfold write at h
    split at h
    · split at h
      · exact Or.inr h
      · next hb =>
        rcases List.mem_cons.1 h with h | h
        · exact Or.inl ⟨h, hb⟩
        · exact Or.inr h
    · split at h
      · split at h
        · exact Or.inr (List.mem_cons_of_mem _ h)
        · next hb =>
          rcases List.mem_cons.1 h with h | h
          · exact Or.inl ⟨h, hb⟩
          · exact Or.inr (List.mem_cons_of_mem _ h)
      · rcases List.mem_cons.1 h with h | h
        · exact Or.inr (h ▸ List.mem_cons_self)
        · rcases ih h with h | h
          · exact Or.inl h
          · exact Or.inr (List.mem_cons_of_mem _ h)

theorem wf_write {m : List Host.Cell} (h : wf m) (a : Nat) (b : Byte) : wf (write m a b) := by
  refine ⟨?_, fun c hc => ?_⟩
  · have hs := h.1
    clear h
    induction m with
    | nil => unfold write; split <;> simp
    | cons x rest ih =>
      obtain ⟨k, v⟩ := x
      obtain ⟨hx, hr⟩ := List.pairwise_cons.1 hs
      unfold write
      split
      · next hlt =>
        split
        · exact hs
        · refine List.pairwise_cons.2 ⟨fun c hc => ?_, hs⟩
          rcases List.mem_cons.1 hc with h | h
          · subst h; exact hlt
          · exact Nat.lt_trans hlt (hx c h)
      · split
        · next he =>
          split
          · exact hr
          · exact List.pairwise_cons.2 ⟨fun c hc => he ▸ hx c hc, hr⟩
        · next hnl hne =>
          refine List.pairwise_cons.2 ⟨fun c hc => ?_, ih hr⟩
          rcases mem_write hc with ⟨h, _⟩ | h
          · subst h; exact Nat.lt_of_le_of_ne (Nat.le_of_not_lt hnl) (Ne.symm hne)
          · exact hx c h
  · rcases mem_write hc with ⟨h1, h2⟩ | h1
    · subst h1; exact h2
    · exact h.2 c h1

theorem wf_writeBytes (bs : List Byte) : ∀ {m : List Host.Cell}, wf m → ∀ a, wf (writeBytes m a bs) := by
  induction bs with
  | nil => intro m h a; exact h
  | cons b bs ih => intro m h a; exact ih (wf_write h a b) (a + 1)

theorem wf_writeCells (cells : List Host.Cell) : ∀ {m : List Host.Cell}, wf m → wf (writeCells m cells) := by
  induction cells with
  | nil => intro m h; exact h
  | cons c cs ih =>
    intro m h
    unfold writeCells at ih ⊢
    rw [List.foldl_cons]
    split
    · exact ih (wf_write h _ _)
    · exact ih h

theorem wf_writeMasked {m : List Host.Cell} (h : wf m) (addr : Nat) (mask : BitVec 8) (data : List Byte) :
    wf (writeMasked m addr mask data) := by
  unfold writeMasked
  generalize List.range 8 = gs
  induction gs generalizing m with
  | nil => exact h
  | cons g gs ih =>
    rw [List.foldl_cons]
    split
    · exact ih (wf_writeBytes _ h _)
    · exact ih h

theorem wf_store {m : List Host.Cell} (h : wf m) (a : Access) : wf (a.store m) := by
  unfold Access.store
  split
  · exact h
  · exact wf_writeMasked h _ _ _
  · exact wf_writeMasked h _ _ _

/-! ## Reading after writing -/

theorem read_of_above {m : List Host.Cell} {a : Nat} (h : ∀ c ∈ m, a < c.1) : read m a = 0#8 := by
  induction m with
  | nil => rfl
  | cons x rest ih =>
    obtain ⟨k, v⟩ := x
    have hk : a < k := h (k, v) List.mem_cons_self
    unfold read
    rw [if_neg (Nat.ne_of_lt hk)]
    exact ih fun c hc => h c (List.mem_cons_of_mem _ hc)

theorem read_write_self {m : List Host.Cell} (h : wf m) (a : Nat) (b : Byte) : read (write m a b) a = b := by
  have hs := h.1
  clear h
  induction m with
  | nil =>
    unfold write
    split
    · next hb => exact hb.symm ▸ rfl
    · simp [read]
  | cons x rest ih =>
    obtain ⟨k, v⟩ := x
    obtain ⟨hx, hr⟩ := List.pairwise_cons.1 hs
    unfold write
    split
    · next hlt =>
      split
      · next hb =>
        rw [hb]
        refine read_of_above fun c hc => ?_
        rcases List.mem_cons.1 hc with h | h
        · subst h; exact hlt
        · exact Nat.lt_trans hlt (hx c h)
      · simp [read]
    · split
      · next he =>
        split
        · next hb => rw [hb]; exact read_of_above fun c hc => he ▸ hx c hc
        · simp [read]
      · next hne => unfold read; rw [if_neg hne]; exact ih hr

theorem read_write_ne (m : List Host.Cell) {a c : Nat} (b : Byte) (h : c ≠ a) : read (write m a b) c = read m c := by
  induction m with
  | nil =>
    unfold write
    split
    · rfl
    · simp [read, h]
  | cons x rest ih =>
    obtain ⟨k, v⟩ := x
    unfold write
    split
    · split
      · rfl
      · show (if c = a then b else read ((k, v) :: rest) c) = _
        rw [if_neg h]
    · split
      · next he =>
        have hk : c ≠ k := he ▸ h
        split
        · show _ = (if c = k then v else read rest c)
          rw [if_neg hk]
        · show (if c = a then b else read rest c) = (if c = k then v else read rest c)
          rw [if_neg h, if_neg hk]
      · show (if c = k then v else read (write rest a b) c) = (if c = k then v else read rest c)
        rw [ih]

theorem read_writeBytes_out (bs : List Byte) : ∀ (m : List Host.Cell) (a c : Nat),
    (c < a ∨ a + bs.length ≤ c) → read (writeBytes m a bs) c = read m c := by
  induction bs with
  | nil => intro m a c _; rfl
  | cons b bs ih =>
    intro m a c h
    rw [List.length_cons] at h
    show read (writeBytes (write m a b) (a + 1) bs) c = _
    rw [ih _ _ _ (by omega), read_write_ne _ _ (by omega)]

theorem read_writeBytes_in (bs : List Byte) : ∀ {m : List Host.Cell}, wf m → ∀ (a i : Nat) (h : i < bs.length),
    read (writeBytes m a bs) (a + i) = bs[i] := by
  induction bs with
  | nil => intro m _ a i h; simp at h
  | cons b bs ih =>
    intro m hm a i h
    show read (writeBytes (write m a b) (a + 1) bs) (a + i) = _
    cases i with
    | zero => rw [read_writeBytes_out _ _ _ _ (by omega)]; exact read_write_self hm a b
    | succ i =>
      have hi : i < bs.length := by simpa using h
      have := ih (wf_write hm a b) (a + 1) i hi
      rw [show a + (i + 1) = a + 1 + i by omega, this]
      rfl

/-- Outside its burst a masked write changes nothing. -/
theorem read_writeMasked_out (m : List Host.Cell) (addr : Nat) (mask : BitVec 8) (data : List Byte) (c : Nat)
    (h : c < addr ∨ addr + 64 ≤ c) : read (writeMasked m addr mask data) c = read m c := by
  unfold writeMasked
  have hg : ∀ gs : List Nat, (∀ g ∈ gs, g < 8) → ∀ m : List Host.Cell,
      read (gs.foldl (fun m g => if mask.getLsbD g then
        writeBytes m (addr + 8 * g) ((data.drop (8 * g)).take 8) else m) m) c = read m c := by
    intro gs
    induction gs with
    | nil => intro _ m; rfl
    | cons g gs ih =>
      intro hlt m
      rw [List.foldl_cons, ih fun x hx => hlt x (List.mem_cons_of_mem _ hx)]
      have hg8 : g < 8 := hlt g List.mem_cons_self
      split
      · refine read_writeBytes_out _ _ _ _ ?_
        have hl : ((data.drop (8 * g)).take 8).length ≤ 8 := by simp
        omega
      · rfl
  exact hg _ (fun g hg => List.mem_range.1 hg) m

/-- A granule that the mask does not name keeps its bytes (R142, R148). -/
theorem read_writeMasked_unmasked (m : List Host.Cell) (addr : Nat) (mask : BitVec 8) (data : List Byte) (g i : Nat)
    (hi : i < 8) (h : mask.getLsbD g = false) :
    read (writeMasked m addr mask data) (addr + 8 * g + i) = read m (addr + 8 * g + i) := by
  unfold writeMasked
  generalize List.range 8 = gs
  induction gs generalizing m with
  | nil => rfl
  | cons x gs ih =>
    rw [List.foldl_cons, ih]
    split
    · next hx =>
      have hne : x ≠ g := fun e => by rw [e, h] at hx; exact Bool.noConfusion hx
      refine read_writeBytes_out _ _ _ _ ?_
      have hl : ((data.drop (8 * x)).take 8).length ≤ 8 := by simp
      omega
    · rfl

/-- A granule that the mask names takes its bytes of the burst's data (R142, R148). -/
theorem read_writeMasked_masked {m : List Host.Cell} (hm : wf m) (addr : Nat) (mask : BitVec 8) (data : List Byte)
    (hd : data.length = 64) (g i : Nat) (hg : g < 8) (hi : i < 8) (h : mask.getLsbD g = true) :
    read (writeMasked m addr mask data) (addr + 8 * g + i) = data.getD (8 * g + i) 0#8 := by
  unfold writeMasked
  have key : ∀ gs : List Nat, ∀ m : List Host.Cell, wf m →
      (g ∈ gs ∨ read m (addr + 8 * g + i) = data.getD (8 * g + i) 0#8) →
      read (gs.foldl (fun m g => if mask.getLsbD g then
        writeBytes m (addr + 8 * g) ((data.drop (8 * g)).take 8) else m) m) (addr + 8 * g + i)
        = data.getD (8 * g + i) 0#8 := by
    intro gs
    induction gs with
    | nil => intro m _ hr; exact hr.resolve_left (by simp)
    | cons x gs ih =>
      intro m hm hr
      rw [List.foldl_cons]
      have hwx : wf (if mask.getLsbD x then writeBytes m (addr + 8 * x) ((data.drop (8 * x)).take 8) else m) := by
        split
        · exact wf_writeBytes _ hm _
        · exact hm
      refine ih _ hwx ?_
      by_cases hx : g = x
      · subst hx
        right
        rw [if_pos h]
        have hl : i < ((data.drop (8 * g)).take 8).length := by simp; omega
        rw [read_writeBytes_in _ hm _ _ hl]
        have h2 : 8 * g + i < data.length := by omega
        simp [h2]
      · rcases hr with hr | hr
        · exact Or.inl ((List.mem_cons.1 hr).resolve_left hx)
        · right
          split
          · rw [read_writeBytes_out, hr]
            have hl : ((data.drop (8 * x)).take 8).length ≤ 8 := by simp
            omega
          · exact hr
  exact key _ m hm (Or.inl (List.mem_range.2 hg))

end Sys2Proof.Machine.Memory
end

