-- ==== Sys2Proof/Laws/Changes.lean ====
section
/-! SUPPORT. What each shared operation may change: `Changes fs p q` says that q differs from p in the fields of `fs` at
most. One lemma for each operation, cited in place of unfolding it. -/

namespace Sys2Proof.Machine

set_option Elab.async false

namespace Part.Changes

variable {fs gs : List Part.Field} {p q r : Part}

theorem refl (fs : List Part.Field) (p : Part) : Part.Changes fs p p := fun f _ => by cases f <;> rfl

theorem mono (h : Part.Changes fs p q) (hs : ∀ f ∈ fs, f ∈ gs := by decide) : Part.Changes gs p q :=
  fun f hf => h f fun hm => hf (hs f hm)

theorem trans (h : Part.Changes fs p q) (h' : Part.Changes gs q r) : Part.Changes (fs ++ gs) p r := by
  intro f hf
  have h1 := h f fun hm => hf (List.mem_append_left _ hm)
  have h2 := h' f fun hm => hf (List.mem_append_right _ hm)
  cases f <;> exact Eq.trans h2 h1

/-- Two changes of the same fields. -/
theorem both (h : Part.Changes fs p q) (h' : Part.Changes fs q r) : Part.Changes fs p r := by
  intro f hf
  have h1 := h f hf
  have h2 := h' f hf
  cases f <;> exact Eq.trans h2 h1

theorem foldl {α : Type} {op : Part → α → Part} (h : ∀ p a, Part.Changes fs p (op p a)) (l : List α) :
    ∀ p, Part.Changes fs p (l.foldl op p) := by
  induction l with
  | nil => exact refl fs
  | cons a l ih => intro p; exact (h p a).both (ih _)

theorem ret (h : Part.Changes fs p q) (hn : Part.Field.ret ∉ fs := by decide) : q.ret = p.ret := h _ hn
theorem ctl (h : Part.Changes fs p q) (hn : Part.Field.ctl ∉ fs := by decide) : q.ctl = p.ctl := h _ hn
theorem links (h : Part.Changes fs p q) (hn : Part.Field.links ∉ fs := by decide) : q.links = p.links := h _ hn
theorem reqs (h : Part.Changes fs p q) (hn : Part.Field.reqs ∉ fs := by decide) : q.reqs = p.reqs := h _ hn
theorem ntfs (h : Part.Changes fs p q) (hn : Part.Field.ntfs ∉ fs := by decide) : q.ntfs = p.ntfs := h _ hn
theorem ntfCnt (h : Part.Changes fs p q) (hn : Part.Field.ntfCnt ∉ fs := by decide) : q.ntfCnt = p.ntfCnt := h _ hn
theorem journals (h : Part.Changes fs p q) (hn : Part.Field.journals ∉ fs := by decide) : q.journals = p.journals :=
  h _ hn
theorem header (h : Part.Changes fs p q) (hn : Part.Field.header ∉ fs := by decide) : q.header = p.header := h _ hn
theorem formatPending (h : Part.Changes fs p q) (hn : Part.Field.formatPending ∉ fs := by decide) :
    q.formatPending = p.formatPending := h _ hn
theorem waiting (h : Part.Changes fs p q) (hn : Part.Field.waiting ∉ fs := by decide) : q.waiting = p.waiting := h _ hn
theorem slots (h : Part.Changes fs p q) (hn : Part.Field.slots ∉ fs := by decide) : q.slots = p.slots := h _ hn
theorem appendCnt (h : Part.Changes fs p q) (hn : Part.Field.appendCnt ∉ fs := by decide) : q.appendCnt = p.appendCnt :=
  h _ hn
theorem reads (h : Part.Changes fs p q) (hn : Part.Field.reads ∉ fs := by decide) : q.reads = p.reads := h _ hn
theorem readCnt (h : Part.Changes fs p q) (hn : Part.Field.readCnt ∉ fs := by decide) : q.readCnt = p.readCnt := h _ hn
theorem mem (h : Part.Changes fs p q) (hn : Part.Field.mem ∉ fs := by decide) : q.mem = p.mem := h _ hn
theorem dram (h : Part.Changes fs p q) (hn : Part.Field.dram ∉ fs := by decide) : q.dram = p.dram := h _ hn
theorem maint (h : Part.Changes fs p q) (hn : Part.Field.maint ∉ fs := by decide) : q.maint = p.maint := h _ hn

end Part.Changes


/-! ## Updates -/

section
variable (p : Part)

theorem modLink_changes (i : Port) (f : LinkUnit → LinkUnit) : Part.Changes [.links] p (p.modLink i f) :=
  fun x hx => by cases x <;> first | (simp at hx; done) | rfl
theorem modReq_changes (i : Port) (f : RequestLayer → RequestLayer) : Part.Changes [.reqs] p (p.modReq i f) :=
  fun x hx => by cases x <;> first | (simp at hx; done) | rfl
theorem modNtf_changes (i : Port) (f : NotifyPort → NotifyPort) : Part.Changes [.ntfs] p (p.modNtf i f) :=
  fun x hx => by cases x <;> first | (simp at hx; done) | rfl
theorem modJournal_changes (j : JournalId) (f : Journal → Journal) : Part.Changes [.journals] p (p.modJournal j f) :=
  fun x hx => by cases x <;> first | (simp at hx; done) | rfl
theorem modConf_changes (j : JournalId) (f : Conf → Conf) : Part.Changes [.journals] p (p.modConf j f) :=
  modJournal_changes p j _
theorem setWaits_changes (i : Port) (w : List Waiting) : Part.Changes [.waiting] p (p.setWaits i w) :=
  fun x hx => by cases x <;> first | (simp at hx; done) | rfl
theorem setSlot_changes (n : SlotId) (s : Option Slot) : Part.Changes [.slots] p (p.setSlot n s) :=
  fun x hx => by cases x <;> first | (simp at hx; done) | rfl
theorem setRead_changes (r : ReadId) (c : Option ReadCtx) : Part.Changes [.reads] p (p.setRead r c) :=
  fun x hx => by cases x <;> first | (simp at hx; done) | rfl
theorem modRead_changes (r : ReadId) (f : ReadCtx → ReadCtx) : Part.Changes [.reads] p (p.modRead r f) :=
  setRead_changes p r _
theorem modMem_changes (f : MemEngine → MemEngine) : Part.Changes [.mem] p (p.modMem f) :=
  fun x hx => by cases x <;> first | (simp at hx; done) | rfl
theorem modMaint_changes (f : Maint → Maint) : Part.Changes [.maint] p (p.modMaint f) :=
  fun x hx => by cases x <;> first | (simp at hx; done) | rfl
theorem modRet_changes (f : Retention → Retention) : Part.Changes [.ret] p (p.modRet f) :=
  fun x hx => by cases x <;> first | (simp at hx; done) | rfl
theorem modCtl_changes (f : Control → Control) : Part.Changes [.ctl] p (p.modCtl f) :=
  fun x hx => by cases x <;> first | (simp at hx; done) | rfl
theorem modHeader_changes (f : DeviceHeader → DeviceHeader) : Part.Changes [.header] p (p.modHeader f) :=
  fun x hx => by cases x <;> first | (simp at hx; done) | rfl
theorem countNtf_changes (f : NotifyCounters → NotifyCounters) : Part.Changes [.ntfCnt] p (p.countNtf f) :=
  fun x hx => by cases x <;> first | (simp at hx; done) | rfl
theorem countAppend_changes (f : AppendCounters → AppendCounters) : Part.Changes [.appendCnt] p (p.countAppend f) :=
  fun x hx => by cases x <;> first | (simp at hx; done) | rfl
theorem countRead_changes (f : ReadCounters → ReadCounters) : Part.Changes [.readCnt] p (p.countRead f) :=
  fun x hx => by cases x <;> first | (simp at hx; done) | rfl
theorem countRet_changes (f : RetentionCounters → RetentionCounters) : Part.Changes [.ctl] p (p.countRet f) :=
  modCtl_changes p _
theorem countMaint_changes (f : MaintCounters → MaintCounters) : Part.Changes [.maint] p (p.countMaint f) :=
  modMaint_changes p _
theorem respond_changes (st : MaintStatus) (bs : List Byte) : Part.Changes [.maint] p (p.respond st bs) :=
  modMaint_changes p _
theorem raise_changes (c : BitVec 16) : Part.Changes [.maint] p (p.raise c) := modMaint_changes p _

theorem modDir_changes (i : Item) (f : DirWriter → DirWriter) : Part.Changes [.journals, .header] p (p.modDir i f) := by
  cases i
  · exact (modJournal_changes p _ _).mono
  · exact (modHeader_changes p _).mono

theorem modDir_journal_changes (j : JournalId) (f : DirWriter → DirWriter) :
    Part.Changes [.journals] p (p.modDir (.journal j) f) := modJournal_changes p _ _

theorem markDirty_changes (i : Item) : Part.Changes [.journals, .header] p (p.markDirty i) := modDir_changes p i _
theorem markDirty_journal_changes (j : JournalId) : Part.Changes [.journals] p (p.markDirty (.journal j)) :=
  modDir_journal_changes p j _
theorem markDirty_header_changes : Part.Changes [.header] p (p.markDirty .header) := modHeader_changes p _

theorem setMode_changes (m : Mode) : Part.Changes [.ret, .maint] p (p.setMode m) := by
  unfold Part.setMode
  dsimp only
  split
  · exact (modRet_changes p _).trans (raise_changes _ _)
  · exact (modRet_changes p _).mono

/-! ## The memory engine -/

theorem arbitrate_changes : Part.Changes [.mem] p p.arbitrate := modMem_changes p _

theorem countHanded_changes (c : Client) : Part.Changes [.reads] p (p.countHanded c) := by
  unfold Part.countHanded
  split
  · exact modRead_changes p _ _
  · exact .refl _ p

theorem enqueue_changes (a : Access) : Part.Changes [.reads, .mem] p (p.enqueue a) :=
  (((countHanded_changes p _).trans (modMem_changes _ _)).trans (arbitrate_changes _)).mono

theorem hand_changes (a : Access) : Part.Changes [.reads, .mem] p (p.hand a) := by
  unfold Part.hand
  split
  · exact enqueue_changes p a
  · exact (modMem_changes p _).mono

theorem handAll_changes (as : List Access) : Part.Changes [.reads, .mem] p (p.handAll as) := .foldl hand_changes as p

/-- A client that is no read context. -/
def noReadClient : Client → Bool
  | .readCtx _ => false
  | _ => true

theorem countHanded_noRead {c : Client} (h : noReadClient c = true) : p.countHanded c = p := by
  cases c <;> first | rfl | simp [noReadClient] at h

theorem hand_noRead_changes {a : Access} (h : noReadClient a.client = true) : Part.Changes [.mem] p (p.hand a) := by
  unfold Part.hand Part.enqueue
  split
  · rw [countHanded_noRead p h]
    exact ((modMem_changes p _).trans (arbitrate_changes _)).mono
  · exact modMem_changes p _

theorem handAll_noRead_changes {as : List Access} (h : ∀ a ∈ as, noReadClient a.client = true) :
    Part.Changes [.mem] p (p.handAll as) := by
  unfold Part.handAll
  induction as generalizing p with
  | nil => exact .refl _ p
  | cons a as ih =>
    exact (hand_noRead_changes p (h a List.mem_cons_self)).both (ih _ fun b hb => h b (List.mem_cons_of_mem _ hb))

theorem runWrites_client (c : Client) (fuel : Nat) : ∀ (addr : Nat) (bs : List Byte),
    ∀ a ∈ runWrites c fuel addr bs, a.client = c := by
  induction fuel with
  | zero => intro addr bs a ha; simp [runWrites] at ha
  | succ n ih =>
    intro addr bs a ha
    unfold runWrites at ha
    split at ha
    · simp at ha
    · rcases List.mem_cons.1 ha with h | h
      · exact h ▸ rfl
      · exact ih _ _ a h

theorem handRun_changes (n : SlotId) (w : SlotWrite) (j : JournalId) (pos : Nat) (bs : List Byte) :
    Part.Changes [.mem] p (p.handRun (.slot n w) j pos bs) := by
  unfold Part.handRun
  split
  · exact .refl _ p
  · exact handAll_noRead_changes p fun a ha => by rw [runWrites_client _ _ _ _ a ha]; rfl

theorem carryOut_changes (a : Access) : Part.Changes [.mem, .dram] p (p.carryOut a) := by
  intro x hx
  cases x <;> first | (simp at hx; done) | rfl

/-! ## Responses and notifications -/

theorem queueResp_changes (i : Port) (f : RespFrame) : Part.Changes [.reqs] p (p.queueResp i f) := by
  unfold Part.queueResp
  split
  · exact modReq_changes p _ _
  · exact .refl _ p

theorem enterTag_changes (i : Port) (t : Byte) : Part.Changes [.reqs] p (p.enterTag i t) := modReq_changes p _ _
theorem leaveTag_changes (i : Port) (t : Byte) : Part.Changes [.reqs] p (p.leaveTag i t) := modReq_changes p _ _
theorem countReq_changes (i : Port) (f : RequestCounters → RequestCounters) : Part.Changes [.reqs] p (p.countReq i f) :=
  modReq_changes p _ _

theorem answer_changes (i : Port) (r : Rsp) : Part.Changes [.reqs] p (p.answer i r) := by
  unfold Part.answer
  dsimp only
  split
  · exact queueResp_changes p _ _
  · exact (queueResp_changes p _ _).both (modReq_changes _ _ _)

theorem queueDeferred_changes (i : Port) (r : Rsp) : Part.Changes [.reqs] p (p.queueDeferred i r) :=
  (queueResp_changes p _ _).both (leaveTag_changes _ _ _)

theorem releaseAnswer_changes (s : SessionId) (r : Rsp) : Part.Changes [.reqs, .waiting] p (p.releaseAnswer s r) := by
  unfold Part.releaseAnswer
  split
  · split
    · exact (queueDeferred_changes p _ _).mono
    · exact (setWaits_changes p _ _).mono
  · exact .refl _ p

theorem modNtf_countNtf_changes (i : Port) (f : NotifyPort → NotifyPort) (g : NotifyCounters → NotifyCounters) :
    Part.Changes [.ntfs, .ntfCnt] p ((p.modNtf i f).countNtf g) := (modNtf_changes p _ _).trans (countNtf_changes _ _)

theorem joinNtf_changes (i : Port) (e : Ntf) : Part.Changes [.ntfs, .ntfCnt] p (p.joinNtf i e) := by
  unfold Part.joinNtf
  split <;> exact modNtf_countNtf_changes _ _ _ _

theorem placeNtf_changes (i : Port) (e : Ntf) : Part.Changes [.ntfs, .ntfCnt] p (p.placeNtf i e) := by
  unfold Part.placeNtf
  split
  · split
    · exact modNtf_countNtf_changes _ _ _ _
    · exact joinNtf_changes p _ _
  · split
    · exact modNtf_countNtf_changes _ _ _ _
    · exact joinNtf_changes p _ _
  · exact joinNtf_changes p _ _

theorem notify_changes (e : Ntf) (i : Port) : Part.Changes [.ntfs, .ntfCnt] p (p.notify e i) := by
  unfold Part.notify
  split
  · exact placeNtf_changes p _ _
  · exact .refl _ p

theorem notifyAll_changes (e : Ntf) (ports : List Port) : Part.Changes [.ntfs, .ntfCnt] p (p.notifyAll e ports) :=
  .foldl (fun p i => notify_changes p e i) ports p

theorem notifyOwner_changes (j : JournalId) (o : Option Port) : Part.Changes [.ntfs, .ntfCnt] p (p.notifyOwner j o) :=
  notifyAll_changes p _ _

theorem takeNtf_changes (i : Port) : Part.Changes [.ntfs, .ntfCnt] p (p.takeNtf i) := by
  unfold Part.takeNtf
  split
  · exact .refl _ p
  · dsimp only
    split
    · exact modNtf_countNtf_changes _ _ _ _
    · exact (modNtf_changes p _ _).mono

theorem clearNtf_changes (i : Port) (keep : Ntf → Bool) : Part.Changes [.ntfs, .ntfCnt] p (p.clearNtf i keep) :=
  modNtf_countNtf_changes _ _ _ _

/-! ## Directory writers -/

theorem bindFlight_changes (i : Item) : Part.Changes [.journals] p (p.bindFlight i) := by
  cases i
  · exact modJournal_changes p _ _
  · exact .refl _ p

theorem directoryWrite_noRead {c : Client} (h : noReadClient c = true) (i : Item) (k : Copy) (bs : List Byte) :
    noReadClient (directoryWrite c i k bs).client = true := h

theorem startWrite_changes (i : Item) : Part.Changes [.journals, .header, .mem] p (p.startWrite i) := by
  unfold Part.startWrite
  dsimp only
  split
  · exact (((modDir_changes p i _).trans (bindFlight_changes _ i)).trans (hand_noRead_changes _ rfl)).mono
  · exact .refl _ p

theorem rewriteItem_changes {client : Item → Copy → Client} (h : ∀ i c, noReadClient (client i c) = true) (i : Item) :
    Part.Changes [.journals, .header, .mem] p (p.rewriteItem client i) :=
  (((modDir_changes p i _).trans (hand_noRead_changes _ (h i .a))).trans (hand_noRead_changes _ (h i .b))).mono

/-! ## Append slots -/

theorem voidSlot_changes (n : SlotId) (r : VoidReason) : Part.Changes [.slots, .appendCnt, .mem] p (p.voidSlot n r) := by
  unfold Part.voidSlot
  split
  · exact .refl _ p
  · split
    · exact (((setSlot_changes p _ _).trans (countAppend_changes _ _)).trans (handRun_changes _ _ _ _ _ _)).mono
    · exact .refl _ p

theorem voidAll_changes (ns : List SlotId) (r : VoidReason) : Part.Changes [.slots, .appendCnt, .mem] p (p.voidAll ns r) :=
  .foldl (fun p n => voidSlot_changes p n r) ns p

theorem fence_changes (j : JournalId) (s : SessionId) : Part.Changes [.slots, .appendCnt, .mem] p (p.fence j s) :=
  voidAll_changes p _ _

theorem passSlot_changes (j : JournalId) (n : SlotId) : Part.Changes [.journals, .slots] p (p.passSlot j n) := by
  unfold Part.passSlot
  split
  · exact .refl _ p
  · exact (modConf_changes p _ _).trans (setSlot_changes _ _ _)

theorem passSlots_changes (k : Nat) (j : JournalId) : ∀ p, Part.Changes [.journals, .slots] p (Part.passSlots k p j) := by
  induction k with
  | zero => intro p; exact .refl _ p
  | succ k ih =>
    intro p
    unfold Part.passSlots
    split
    · exact .refl _ p
    · exact (passSlot_changes p j _).both (ih _)

theorem frontierAdvance_changes (j : JournalId) : Part.Changes [.journals, .slots] p (p.frontierAdvance j) := by
  unfold Part.frontierAdvance
  split
  · exact .refl _ p
  · exact ((passSlots_changes 12 j p).trans (markDirty_journal_changes _ j)).mono

theorem completeTransfer_changes (j : JournalId) (o : Option SessionId) (c : Option Claimant) :
    Part.Changes [.journals, .ntfs, .ntfCnt] p (p.completeTransfer j o c) :=
  (((modJournal_changes p _ _).trans (markDirty_journal_changes _ j)).trans (notifyOwner_changes _ _ _)).mono

theorem transferCheck_changes (j : JournalId) : Part.Changes [.journals, .ntfs, .ntfCnt] p (p.transferCheck j) := by
  unfold Part.transferCheck
  split
  · exact .refl _ p
  · split
    · split
      · exact completeTransfer_changes p _ _ _
      · exact .refl _ p
    · exact .refl _ p

theorem freeSlot_changes (n : SlotId) : Part.Changes [.slots, .journals, .ntfs, .ntfCnt] p (p.freeSlot n) := by
  unfold Part.freeSlot
  split
  · exact .refl _ p
  · exact (((setSlot_changes p _ _).trans (modConf_changes _ _ _)).trans (transferCheck_changes _ _)).mono

theorem queueDone_changes (i : Port) (n : SlotId) (s : Slot) :
    Part.Changes [.reqs, .slots, .journals, .ntfs, .ntfCnt] p (p.queueDone i n s) :=
  (((queueDeferred_changes p _ _).trans (modReq_changes _ _ _)).trans (freeSlot_changes _ _)).mono

theorem releaseSlot_changes (n : SlotId) :
    Part.Changes [.reqs, .waiting, .slots, .journals, .ntfs, .ntfCnt] p (p.releaseSlot n) := by
  unfold Part.releaseSlot
  split
  · exact .refl _ p
  · split
    · split
      · exact (queueDone_changes p _ _ _).mono
      · exact (setWaits_changes p _ _).mono
    · exact (freeSlot_changes p _).mono

/-! ## Trims and directory completions -/

theorem headAdvance_changes (j : JournalId) : Part.Changes [.journals, .readCnt] p (p.headAdvance j) := by
  unfold Part.headAdvance
  split
  · exact .refl _ p
  · split
    · exact .refl _ p
    · split
      · exact (((modConf_changes p _ _).trans (markDirty_journal_changes _ j)).trans (countRead_changes _ _)).mono
      · exact .refl _ p

theorem trimEnd_changes (j : JournalId) : Part.Changes [.journals, .reqs, .waiting] p (p.trimEnd j) := by
  unfold Part.trimEnd
  split
  · exact .refl _ p
  · split
    · exact .refl _ p
    · split
      · exact (modConf_changes p _ _).trans (releaseAnswer_changes _ _ _)
      · exact .refl _ p

theorem deferredDone_changes : Part.Changes [.maint] p p.deferredDone := modMaint_changes p _

theorem releaseBound_changes (b : Bound) : Part.Changes [.reqs, .waiting, .maint] p (p.releaseBound b) := by
  cases b
  · exact (releaseAnswer_changes p _ _).mono
  · exact (deferredDone_changes p).mono

theorem takeSnapshot_changes (j : JournalId) : Part.Changes [.journals] p (p.takeSnapshot j) := by
  unfold Part.takeSnapshot
  split
  · exact modConf_changes p _ _
  · exact .refl _ p

theorem releaseAll_changes (j : JournalId) :
    Part.Changes [.reqs, .waiting, .slots, .journals, .ntfs, .ntfCnt, .maint] p (p.releaseAll j) :=
  ((((Part.Changes.foldl releaseSlot_changes _ p).trans (trimEnd_changes _ j)).trans (modJournal_changes _ _ _)).trans
    (Part.Changes.foldl releaseBound_changes _ _)).mono

theorem notifyFrontier_changes (j : JournalId) (b : W64) : Part.Changes [.ntfs, .ntfCnt] p (p.notifyFrontier j b) := by
  unfold Part.notifyFrontier
  split
  · exact .refl _ p
  · split
    · exact notifyAll_changes p _ _
    · exact .refl _ p

theorem journalWritten_changes (j : JournalId) :
    Part.Changes [.reqs, .waiting, .slots, .journals, .ntfs, .ntfCnt, .maint, .header, .mem] p (p.journalWritten j) :=
  ((((((modDir_journal_changes p j _).trans (takeSnapshot_changes _ j)).trans (releaseAll_changes _ j)).trans
    (notifyFrontier_changes _ j _)).trans (modDir_journal_changes _ j _)).trans (startWrite_changes _ _)).mono

/-! ## Reads -/

theorem stage_changes (r : ReadId) : Part.Changes [.reads, .mem] p (p.stage r) := by
  unfold Part.stage
  split
  · exact .refl _ p
  · split
    · exact .refl _ p
    · exact ((setRead_changes p _ _).trans (handAll_changes _ _)).mono

theorem burstArrived_changes (r : ReadId) (a : Nat) (bs : List Byte) : Part.Changes [.reads] p (p.burstArrived r a bs) := by
  unfold Part.burstArrived
  split
  · exact .refl _ p
  · dsimp only
    split <;> exact setRead_changes p _ _

theorem removePin_changes (j : JournalId) (x : W64) : Part.Changes [.journals, .readCnt] p (p.removePin j x) :=
  ((modConf_changes p _ _).trans (headAdvance_changes _ _)).mono

theorem cancelRead_changes (r : ReadId) : Part.Changes [.mem, .reads, .readCnt, .journals] p (p.cancelRead r) := by
  unfold Part.cancelRead
  split
  · exact .refl _ p
  · exact ((((modMem_changes p _).trans (setRead_changes _ _ _)).trans (countRead_changes _ _)).trans
      (removePin_changes _ _ _)).mono

/-! ## Sessions and links -/

theorem returnCredits_changes (i : Port) (n : Nat) : Part.Changes [.links] p (p.returnCredits i n) := modLink_changes p _ _

theorem popFrame_changes (i : Port) : Part.Changes [.reqs, .links] p (p.popFrame i) :=
  (modReq_changes p _ _).trans (returnCredits_changes _ _ _)

theorem closeRequests_changes (i : Port) (c : EndCause) : Part.Changes [.reqs, .links] p (p.closeRequests i c) := by
  unfold Part.closeRequests
  dsimp only
  split
  · exact (modReq_changes p _ _).mono
  · exact (modReq_changes p _ _).trans (returnCredits_changes _ _ _)

theorem unsubscribeAll_changes (i : Port) : Part.Changes [.journals] p (p.unsubscribeAll i) := by
  unfold Part.unsubscribeAll
  generalize allJournals = js
  exact .foldl (fun p j => modConf_changes p j _) js p

theorem leaveJournal_changes (s : SessionId) (j : JournalId) :
    Part.Changes [.journals, .ntfs, .ntfCnt, .maint] p (p.leaveJournal s j) := by
  unfold Part.leaveJournal
  dsimp only
  split
  · exact ((((modConf_changes p _ _).trans (markDirty_journal_changes _ j)).trans (notifyOwner_changes _ _ _)).trans
      (raise_changes _ _)).mono
  · exact (modConf_changes p _ _).mono

theorem dropWaiting_changes (w : Waiting) : Part.Changes [.slots, .journals, .ntfs, .ntfCnt] p (p.dropWaiting w) := by
  cases w
  · exact freeSlot_changes p _
  · exact .refl _ p

theorem endSession_changes (i : Port) (c : EndCause) : Part.Changes sessionFields p (p.endSession i c) := by
  unfold Part.endSession
  dsimp only
  generalize allJournals = js
  exact ((((((((closeRequests_changes p i c).trans (unsubscribeAll_changes _ i)).trans (clearNtf_changes _ i _)).trans
    (voidAll_changes _ _ _)).trans (Part.Changes.foldl cancelRead_changes _ _)).trans
      (Part.Changes.foldl (fun q j => leaveJournal_changes q (p.sessionOf i) j) js _)).trans
        (setWaits_changes _ _ _)).trans (Part.Changes.foldl dropWaiting_changes _ _)).mono

theorem linkDown_changes (i : Port) (c : DownCause) : Part.Changes sessionFields p (p.linkDown i c) := by
  unfold Part.linkDown
  dsimp only
  split
  · exact ((((((modLink_changes p _ _).trans (raise_changes _ _)).trans (modReq_changes _ _ _)).trans
      (endSession_changes _ _ _)).trans (clearNtf_changes _ _ _)).trans (modNtf_changes _ _ _)).mono
  · exact (((((modLink_changes p _ _).trans (raise_changes _ _)).trans (modReq_changes _ _ _)).trans
      (clearNtf_changes _ _ _)).trans (modNtf_changes _ _ _)).mono

theorem replayTrigger_changes (i : Port) : Part.Changes sessionFields p (p.replayTrigger i) := by
  unfold Part.replayTrigger
  dsimp only
  split
  · exact .refl _ p
  · split
    · exact (modLink_changes p _ _).mono
    · exact linkDown_changes p _ _

theorem takeHeader_changes (i : Port) (h : Header) : Part.Changes sessionFields p (p.takeHeader i h) := by
  unfold Part.takeHeader
  dsimp only
  split
  · exact ((modLink_changes p _ _).trans (replayTrigger_changes _ _)).mono
  · exact (modLink_changes p _ _).mono

/-! ## The retention controller -/

theorem retain_changes : Part.Changes [.ret, .maint] p p.retain := ((setMode_changes p _).trans (modRet_changes _ _)).mono
theorem giveExit_changes : Part.Changes [.mem] p p.giveExit := modMem_changes p _
theorem giveInitialise_changes : Part.Changes [.mem] p p.giveInitialise := modMem_changes p _

theorem enterRestoring_changes : Part.Changes [.ret, .maint, .ctl, .mem] p p.enterRestoring :=
  (((setMode_changes p _).trans (modCtl_changes _ _)).trans (giveExit_changes _)).mono

theorem beginCold_changes : Part.Changes [.ctl, .mem] p p.beginCold := by
  unfold Part.beginCold
  split
  · exact (modCtl_changes p _).trans (giveExit_changes _)
  · exact (modCtl_changes p _).trans (giveInitialise_changes _)

theorem startBlocks_changes : Part.Changes allButDram p p.startBlocks := by
  have h : Part.Changes allButDram p (Part.fresh { p.ret with mode := .initializing, cause := none, running := true } p.dram p.mem.missCount) :=
    fun x hx => by cases x <;> first | (simp at hx; done) | rfl
  unfold Part.startBlocks
  dsimp only
  split
  · exact ((h.trans (modRet_changes _ _)).trans (setMode_changes _ _)).mono
  · exact (h.trans (modRet_changes _ _)).mono

theorem startHigh_changes : Part.Changes allButDram p p.startHigh := by
  unfold Part.startHigh
  dsimp only
  split
  · exact (((startBlocks_changes p).trans (modCtl_changes _ _)).trans (giveExit_changes _)).mono
  · exact ((startBlocks_changes p).trans (beginCold_changes _)).mono

theorem startLow_changes : Part.Changes allButDram p p.startLow :=
  ((((startBlocks_changes p).trans (countRet_changes _ _)).trans (modCtl_changes _ _)).trans (retain_changes _)).mono

theorem start_changes : Part.Changes allButDram p p.start := by
  unfold Part.start
  split
  · exact startHigh_changes p
  · exact startLow_changes p

theorem retainOrStart_changes : Part.Changes allButDram p p.retainOrStart := by
  unfold Part.retainOrStart
  dsimp only
  split
  · exact ((retain_changes p).trans (startHigh_changes _)).mono
  · exact (retain_changes p).mono

theorem quiesceDone_changes : Part.Changes [.ret, .maint, .ctl, .mem] p p.quiesceDone := by
  unfold Part.quiesceDone
  dsimp only
  split
  · exact ((modRet_changes p _).trans (retain_changes _)).mono
  · split
    · exact ((modRet_changes p _).trans (enterRestoring_changes _)).mono
    · exact ((modRet_changes p _).trans (setMode_changes _ _)).mono

theorem entryDone_quiescing_changes (h : p.ret.mode = .quiescing) : Part.Changes [.ret, .maint, .ctl, .mem] p p.entryDone := by
  unfold Part.entryDone
  rw [h]
  dsimp only
  split
  · exact quiesceDone_changes p
  · exact .refl _ p

theorem entryDone_changes : Part.Changes allButDram p p.entryDone := by
  unfold Part.entryDone
  split
  · split
    · exact (quiesceDone_changes p).mono
    · exact .refl _ p
  · split
    · exact retainOrStart_changes p
    · exact .refl _ p
  · split
    · exact retainOrStart_changes p
    · exact .refl _ p
  · exact .refl _ p

theorem giveEntry_quiescing_changes (h : p.ret.mode = .quiescing) : Part.Changes [.ret, .maint, .ctl, .mem] p p.giveEntry := by
  unfold Part.giveEntry
  split
  · exact ((modMem_changes p _).trans (arbitrate_changes _)).mono
  · exact entryDone_quiescing_changes p h
  · split
    · exact (modMem_changes p _).mono
    · exact entryDone_quiescing_changes p h

theorem giveEntry_changes : Part.Changes allButDram p p.giveEntry := by
  unfold Part.giveEntry
  split
  · exact ((modMem_changes p _).trans (arbitrate_changes _)).mono
  · exact entryDone_changes p
  · split
    · exact (modMem_changes p _).mono
    · exact entryDone_changes p

theorem abandon_changes : Part.Changes allButDram p p.abandon := by
  unfold Part.abandon
  split
  · exact .refl _ p
  · exact (((countRet_changes p _).trans (modCtl_changes _ _)).trans (giveEntry_changes _)).mono

/-! ## Cold start, FORMAT and restore -/

theorem coldFill_changes : Part.Changes [.journals, .header, .maint, .ctl, .mem] p p.coldFill := by
  unfold Part.coldFill
  dsimp only
  generalize allJournals = js
  generalize allItems = items
  exact (((((Part.Changes.foldl (fun q j => modJournal_changes q j _) js p).trans (modHeader_changes _ _)).trans
    (modMaint_changes _ _)).trans (modCtl_changes _ _)).trans
      (Part.Changes.foldl (fun q i => rewriteItem_changes q (fun _ _ => rfl) i) items _)).mono

theorem coldDone_changes : Part.Changes [.ret, .ctl, .maint] p p.coldDone :=
  ((((raise_changes p _).trans (modRet_changes _ _)).trans (setMode_changes _ _)).trans (modCtl_changes _ _)).mono

theorem coldCheck_changes : Part.Changes [.ret, .ctl, .maint] p p.coldCheck := by
  unfold Part.coldCheck
  split
  · exact coldDone_changes p
  · exact .refl _ p

theorem formatItem_changes (i : Item) : Part.Changes [.journals, .header, .mem] p (p.formatItem i) :=
  (((modDir_changes p i _).trans (hand_noRead_changes _ rfl)).trans (hand_noRead_changes _ rfl)).mono

theorem formatNow_changes : Part.Changes [.formatPending, .journals, .header, .mem] p p.formatNow := by
  have h : Part.Changes [.formatPending] p { p with formatPending := false } :=
    fun x hx => by cases x <;> first | (simp at hx; done) | rfl
  unfold Part.formatNow
  dsimp only
  generalize allJournals = js
  generalize allItems = items
  exact (((h.trans (Part.Changes.foldl (fun q j => modJournal_changes q j _) js _)).trans
    (modHeader_changes _ _)).trans (Part.Changes.foldl formatItem_changes items _)).mono

theorem formatCheck_changes : Part.Changes [.formatPending, .journals, .header, .mem] p p.formatCheck := by
  unfold Part.formatCheck
  split
  · exact formatNow_changes p
  · exact .refl _ p

theorem formatWritten_changes (i : Item) (c : Copy) : Part.Changes [.journals, .header, .maint] p (p.formatWritten i c) := by
  unfold Part.formatWritten
  dsimp only
  split
  · exact ((modDir_changes p i _).trans (deferredDone_changes _)).mono
  · exact (modDir_changes p i _).mono

theorem loadItem_changes (i : Item) : Part.Changes [.mem] p (p.loadItem i) :=
  (hand_noRead_changes p rfl).both (hand_noRead_changes _ rfl)

theorem loadHeader_changes : Part.Changes [.ctl, .mem] p p.loadHeader := (modCtl_changes p _).trans (loadItem_changes _ _)

theorem headerTaken_changes (c : Copy) (bs : List Byte) (h : HeaderRecord) :
    Part.Changes restoreFields p (p.headerTaken c bs h) := by
  unfold Part.headerTaken
  dsimp only
  generalize allJournals = js
  exact (((((Part.Changes.foldl (fun q j => modJournal_changes q j _) js p).trans (modHeader_changes _ _)).trans
    (modMaint_changes _ _)).trans (modCtl_changes _ _)).trans
      (Part.Changes.foldl (fun q j => loadItem_changes q (.journal j)) js _)).mono

theorem directoryLost_changes : Part.Changes restoreFields p p.directoryLost := by
  unfold Part.directoryLost
  dsimp only
  generalize allJournals = js
  exact (((((((raise_changes p _).trans (countRet_changes _ _)).trans
    (Part.Changes.foldl (fun q j => modJournal_changes q j _) js _)).trans (modHeader_changes _ _)).trans
      (modMaint_changes _ _)).trans (modCtl_changes _ _)).trans
        (Part.Changes.foldl (fun q j => rewriteItem_changes q (fun _ _ => rfl) (.journal j)) js _)).mono

theorem selectHeader_changes : Part.Changes restoreFields p p.selectHeader := by
  unfold Part.selectHeader
  split
  · split
    · split
      · exact headerTaken_changes p _ _ _
      · exact directoryLost_changes p
    · exact directoryLost_changes p
  · exact .refl _ p

theorem journalLost_changes (j : JournalId) : Part.Changes restoreFields p (p.journalLost j) :=
  ((((raise_changes p _).trans (countRet_changes _ _)).trans (modJournal_changes _ _ _)).trans
    (rewriteItem_changes _ (fun _ _ => rfl) _)).mono

theorem selectEntry_changes (j : JournalId) : Part.Changes restoreFields p (p.selectEntry j) := by
  unfold Part.selectEntry
  split
  · refine (Part.Changes.trans (fs := restoreFields) (gs := [.ctl]) ?_ (modCtl_changes _ _)).mono
    split
    · dsimp only
      split
      · split
        · exact (modJournal_changes p _ _).mono
        · exact journalLost_changes p j
      · exact journalLost_changes p j
    · exact journalLost_changes p j
  · exact .refl _ p

theorem loadArrived_changes (i : Item) (c : Copy) (bs : List Byte) : Part.Changes restoreFields p (p.loadArrived i c bs) := by
  unfold Part.loadArrived
  split
  · exact .refl _ p
  · cases i
    · exact ((modCtl_changes p _).trans (selectEntry_changes _ _)).mono
    · exact ((modCtl_changes p _).trans (selectHeader_changes _)).mono

theorem rewritten_changes (i : Item) : Part.Changes restoreFields p (p.rewritten i) := by
  unfold Part.rewritten
  dsimp only
  split
  · exact (((modDir_changes p i _).trans (modCtl_changes _ _)).trans (rewriteItem_changes _ (fun _ _ => rfl) _)).mono
  · exact (modDir_changes p i _).mono

theorem startGrace_changes (j : JournalId) : Part.Changes [.journals, .maint] p (p.startGrace j) := by
  unfold Part.startGrace
  split
  · exact .refl _ p
  · split
    · exact (modConf_changes p _ _).trans (raise_changes _ _)
    · exact .refl _ p

theorem restoreDone_changes : Part.Changes [.journals, .maint, .ret, .ctl] p p.restoreDone := by
  unfold Part.restoreDone
  dsimp only
  generalize allJournals = js
  exact ((((modRet_changes p _).trans (Part.Changes.foldl startGrace_changes js _)).trans (setMode_changes _ _)).trans
    (modCtl_changes _ _)).mono

theorem restoreCheck_changes : Part.Changes [.journals, .maint, .ret, .ctl] p p.restoreCheck := by
  unfold Part.restoreCheck
  split
  · exact restoreDone_changes p
  · exact .refl _ p

/-! ## Quiesce -/

theorem retainMode_changes (i : Port) : Part.Changes [.ntfs, .ntfCnt] p (p.retainMode i) := by
  unfold Part.retainMode
  split
  · exact modNtf_countNtf_changes _ _ _ _
  · exact .refl _ p

theorem endIfActive_changes (i : Port) : Part.Changes sessionFields p (p.endIfActive i) := by
  unfold Part.endIfActive
  split
  · exact endSession_changes p _ _
  · exact .refl _ p

theorem quiesce_changes (c : QuiesceCause) : Part.Changes quiesceFields p (p.quiesce c) := by
  unfold Part.quiesce
  dsimp only
  generalize allPorts = ps
  exact ((((((setMode_changes p _).trans (modRet_changes _ _)).trans (countRet_changes _ _)).trans
    (modCtl_changes _ _)).trans (Part.Changes.foldl retainMode_changes ps _)).trans
      (Part.Changes.foldl endIfActive_changes ps _)).mono

theorem drainCheck_changes : Part.Changes [.ret, .maint, .ctl, .mem] p p.drainCheck := by
  unfold Part.drainCheck
  split
  · next h =>
    have hm : (p.modCtl fun c => { c with drainOrdered := true }).ret.mode = .quiescing := by
      simp [Part.drainDue] at h
      exact h.1.1
    exact ((modCtl_changes p _).trans (giveEntry_quiescing_changes _ hm)).mono
  · exact .refl _ p

/-! ## The end of an event -/

theorem startWrites_changes : Part.Changes [.journals, .header, .mem] p p.startWrites := by
  unfold Part.startWrites
  generalize allItems = items
  exact .foldl startWrite_changes items p

theorem react_changes : Part.Changes reactFields p p.react :=
  (((((startWrites_changes p).trans (formatCheck_changes _)).trans (coldCheck_changes _)).trans
    (restoreCheck_changes _)).trans (drainCheck_changes _)).mono

end

end Sys2Proof.Machine
end

