-- ==== Sys2Proof/Laws/Sound.lean ====
section
/-! SUPPORT. Every shared operation keeps `Part.sound`: queues and counts within their bounds, DRAM in canonical form. -/

namespace Sys2Proof.Machine

set_option Elab.async false

/-! ## Fields and elementary updates -/

theorem Part.Changes.sound {fs : List Part.Field} {p q : Part} (h : Part.Changes fs p q)
    (hl : Part.Field.links ∉ fs := by decide) (hr : Part.Field.reqs ∉ fs := by decide)
    (hn : Part.Field.ntfs ∉ fs := by decide) (hm : Part.Field.mem ∉ fs := by decide)
    (hd : Part.Field.dram ∉ fs := by decide) (hp : p.sound) : q.sound := by
  obtain ⟨h1, h2, h3, h4, h5⟩ := hp
  refine ⟨fun i => ?_, fun i => ?_, fun i => ?_, ?_, ?_⟩
  · unfold Part.link; rw [h.links hl]; exact h1 i
  · unfold Part.req; rw [h.reqs hr]; exact h2 i
  · unfold Part.ntf; rw [h.ntfs hn]; exact h3 i
  · rw [h.mem hm]; exact h4
  · rw [h.dram hd]; exact h5

section
variable {p : Part}

theorem modLink_sound (hp : p.sound) (i : Port) {f : LinkUnit → LinkUnit}
    (hf : (p.link i).sound → (f (p.link i)).sound) : (p.modLink i f).sound := by
  obtain ⟨h1, h2, h3, h4, h5⟩ := hp
  refine ⟨fun k => ?_, h2, h3, h4, h5⟩
  by_cases h : i = k
  · subst h; rw [modLink_link_self]; exact hf (h1 i)
  · rw [modLink_link_ne p i f h]; exact h1 k

theorem modReq_sound (hp : p.sound) (i : Port) {f : RequestLayer → RequestLayer}
    (hf : (p.req i).sound → (f (p.req i)).sound) : (p.modReq i f).sound := by
  obtain ⟨h1, h2, h3, h4, h5⟩ := hp
  refine ⟨h1, fun k => ?_, h3, h4, h5⟩
  by_cases h : i = k
  · subst h; rw [modReq_req_self]; exact hf (h2 i)
  · rw [modReq_req_ne p i f h]; exact h2 k

theorem modNtf_sound (hp : p.sound) (i : Port) {f : NotifyPort → NotifyPort}
    (hf : (p.ntf i).sound → (f (p.ntf i)).sound) : (p.modNtf i f).sound := by
  obtain ⟨h1, h2, h3, h4, h5⟩ := hp
  refine ⟨h1, h2, fun k => ?_, h4, h5⟩
  by_cases h : i = k
  · subst h; rw [modNtf_ntf_self]; exact hf (h3 i)
  · rw [modNtf_ntf_ne p i f h]; exact h3 k

theorem modMem_sound (hp : p.sound) {f : MemEngine → MemEngine} (hf : p.mem.sound → (f p.mem).sound) :
    (p.modMem f).sound := by
  obtain ⟨h1, h2, h3, h4, h5⟩ := hp
  exact ⟨h1, h2, h3, hf h4, h5⟩

theorem foldl_sound {α : Type} {op : Part → α → Part} (h : ∀ p a, p.sound → (op p a).sound) (l : List α) :
    ∀ {p : Part}, p.sound → (l.foldl op p).sound := by
  induction l with
  | nil => intro p hp; exact hp
  | cons a l ih => intro p hp; exact ih (h p a hp)

/-! ## The memory engine -/

theorem passOver_length (m : MemEngine) (r : Nat) : (m.passOver r).length = m.queue.length := by
  simp [MemEngine.passOver]

theorem passOver_ordinary (m : MemEngine) (r : Nat) :
    (m.passOver r).countP (fun a => decide (a.cls = .ordinary)) = m.ordinary := by
  unfold MemEngine.passOver MemEngine.ordinary
  rw [List.mapIdx_eq_zipIdx_map, List.countP_map]
  conv => rhs; rw [← List.zipIdx_map_fst 0 m.queue, List.countP_map]
  congr 1
  funext x
  obtain ⟨a, i⟩ := x
  simp only [Function.comp]
  split <;> rfl

theorem take_sound {m : MemEngine} (h : m.sound) (k : Pick) : (m.take k).sound := by
  unfold MemEngine.take
  split
  · exact h
  · obtain ⟨h1, h2, h3⟩ := h
    refine ⟨?_, ?_, h3⟩
    · refine Nat.le_trans (List.eraseIdx_sublist ..).length_le ?_
      split
      · rw [passOver_length]; exact h1
      · exact h1
    · refine Nat.le_trans ((List.eraseIdx_sublist ..).countP_le ..) ?_
      split
      · rw [passOver_ordinary]; exact h2
      · exact h2

theorem memArbitrate_sound {m : MemEngine} (h : m.sound) (u : Nat) : (m.arbitrate u).sound := by
  unfold MemEngine.arbitrate
  split
  · exact h
  · split
    · exact h
    · split
      · exact take_sound h _
      · split
        · exact h
        · split
          · exact h
          · exact h

theorem arbitrate_sound (hp : p.sound) : p.arbitrate.sound :=
  modMem_sound hp fun h => memArbitrate_sound h _

theorem enqueue_sound (hp : p.sound) {a : Access} (hr : p.mem.room a.cls = true) : (p.enqueue a).sound := by
  have h1 := (countHanded_changes p a.client).sound (hp := hp)
  refine arbitrate_sound (modMem_sound h1 fun h => ?_)
  have hm : (p.countHanded a.client).mem = p.mem := (countHanded_changes p a.client).mem
  rw [hm] at h ⊢
  obtain ⟨ha, hb, hc⟩ := h
  unfold MemEngine.room at hr
  rw [Bool.and_eq_true, decide_eq_true_iff] at hr
  obtain ⟨hq, ho⟩ := hr
  refine ⟨?_, ?_, hc⟩
  · change (p.mem.queue ++ [a]).length ≤ _
    rw [List.length_append]; exact hq
  · change (p.mem.queue ++ [a]).countP _ ≤ _
    rw [List.countP_append]
    cases hcls : a.cls
    · rw [hcls] at ho
      simp only [decide_eq_true_iff] at ho
      rw [← List.countP_eq_length_filter] at ho
      simp only [List.countP_singleton, hcls]
      exact ho
    · simp only [List.countP_singleton, hcls]
      exact hb

theorem hand_sound (hp : p.sound) (a : Access) : (p.hand a).sound := by
  unfold Part.hand
  split
  · next h =>
    rw [Bool.and_eq_true] at h
    exact enqueue_sound hp h.1
  · exact modMem_sound hp fun h => h

theorem handAll_sound (hp : p.sound) (as : List Access) : (p.handAll as).sound :=
  foldl_sound (fun _ a h => hand_sound h a) as hp

theorem handRun_sound (hp : p.sound) (c : Client) (j : JournalId) (pos : Nat) (bs : List Byte) :
    (p.handRun c j pos bs).sound := by
  unfold Part.handRun
  split
  · exact hp
  · exact handAll_sound hp _

theorem memCarryOut_sound {m : MemEngine} (h : m.sound) (a : Access) (r : RowPolicy) : (m.carryOut a r).sound := h

theorem carryOut_sound (hp : p.sound) (a : Access) : (p.carryOut a).sound := by
  obtain ⟨h1, h2, h3, h4, h5⟩ := hp
  exact arbitrate_sound ⟨h1, h2, h3, memCarryOut_sound h4 _ _, Memory.wf_store h5 a⟩

/-! ## Responses -/

theorem queueResp_sound (hp : p.sound) (i : Port) (f : RespFrame) : (p.queueResp i f).sound := by
  unfold Part.queueResp
  split
  · next hr =>
    refine modReq_sound hp i fun h => ⟨h.1, ?_, h.2.2⟩
    unfold Part.respRoom at hr
    rw [decide_eq_true_iff] at hr
    change ((p.req i).respQ ++ [f]).length ≤ _
    rw [List.length_append]; exact hr
  · exact hp

/-- A tag enters a table that has room for it (R111, R112). -/
theorem enterTag_sound (hp : p.sound) {i : Port} (hr : (p.req i).tags.length < Config.maxTags) (t : Byte) :
    (p.enterTag i t).sound := by
  refine modReq_sound hp i fun h => ⟨h.1, h.2.1, h.2.2.1, ?_⟩
  dsimp only
  split
  · exact h.2.2.2
  · next ht =>
    refine ⟨?_, ?_⟩
    · rw [List.length_append]; exact hr
    · rw [List.nodup_append]
      exact ⟨h.2.2.2.2, List.nodup_singleton t, fun a ha b hb e => ht (by rw [List.mem_singleton.1 hb] at e; exact e ▸ ha)⟩

theorem leaveTag_sound (hp : p.sound) (i : Port) (t : Byte) : (p.leaveTag i t).sound :=
  modReq_sound hp i fun h => ⟨h.1, h.2.1, h.2.2.1, Nat.le_trans List.filter_sublist.length_le h.2.2.2.1,
    List.Nodup.filter _ h.2.2.2.2⟩

theorem countReq_sound (hp : p.sound) (i : Port) (f : RequestCounters → RequestCounters) : (p.countReq i f).sound :=
  modReq_sound hp i fun h => h

theorem answer_sound (hp : p.sound) (i : Port) (r : Rsp) : (p.answer i r).sound := by
  unfold Part.answer
  dsimp only
  split
  · exact queueResp_sound hp _ _
  · exact modReq_sound (queueResp_sound hp _ _) i fun h => h

theorem queueDeferred_sound (hp : p.sound) (i : Port) (r : Rsp) : (p.queueDeferred i r).sound :=
  leaveTag_sound (queueResp_sound hp _ _) _ _

theorem releaseAnswer_sound (hp : p.sound) (s : SessionId) (r : Rsp) : (p.releaseAnswer s r).sound := by
  unfold Part.releaseAnswer
  split
  · split
    · exact queueDeferred_sound hp _ _
    · exact (setWaits_changes p _ _).sound (hp := hp)
  · exact hp

/-! ## Notifications -/

theorem countNtf_sound (hp : p.sound) (f : NotifyCounters → NotifyCounters) : (p.countNtf f).sound :=
  (countNtf_changes p f).sound (hp := hp)

/-- An entry joins the tail of a queue that has a free place and holds no FRONTIER of its journal. -/
theorem notify_push_sound {n : NotifyPort} (h : n.sound) {e : Ntf} (hl : n.queue.length < Config.notifyPlaces)
    (hf : ∀ j, Ntf.isFrontierOf j e = true → n.queue.any (Ntf.isFrontierOf j) = false) :
    NotifyPort.sound { n with queue := n.queue ++ [e] } := by
  obtain ⟨h1, h2, h3, h4⟩ := h
  refine ⟨?_, fun j => ?_, h3, fun ho => ?_⟩
  · change (n.queue ++ [e]).length ≤ _
    rw [List.length_append]; exact hl
  · change (n.queue ++ [e]).countP _ ≤ 1
    rw [List.countP_append, List.countP_singleton]
    cases he : Ntf.isFrontierOf j e
    · simpa using h2 j
    · have h0 : n.queue.countP (Ntf.isFrontierOf j) = 0 := by
        rw [List.countP_eq_zero]
        intro x hx
        have := hf j he
        rw [List.any_eq_false] at this
        exact this x hx
      rw [h0]; simp
  · exact absurd (h4 ho) (Nat.ne_of_lt hl)

theorem joinNtf_sound (hp : p.sound) (i : Port) {e : Ntf}
    (hf : ∀ j, Ntf.isFrontierOf j e = true → (p.ntf i).queue.any (Ntf.isFrontierOf j) = false) :
    (p.joinNtf i e).sound := by
  unfold Part.joinNtf
  split
  · next hl => exact countNtf_sound (modNtf_sound hp i fun h => notify_push_sound h hl hf) _
  · next hl =>
    refine countNtf_sound (modNtf_sound hp i fun h => ?_) _
    obtain ⟨h1, h2, _, _⟩ := h
    exact ⟨h1, h2, Nat.min_le_left _ _, fun _ => Nat.le_antisymm h1 (Nat.le_of_not_lt hl)⟩

theorem isFrontierOf_frontier (k j : JournalId) (s : W32) (d : W64) :
    Ntf.isFrontierOf k (.frontier j s d) = decide (j = k) := rfl

/-- Folding a FRONTIER into the queue (R94, case 1) changes no count of FRONTIER entries. -/
theorem fold_countP (q : List Ntf) (j k : JournalId) (s : W32) (d : W64) :
    (q.map fun x => if x.isFrontierOf j then Ntf.frontier j s d else x).countP (Ntf.isFrontierOf k)
      = q.countP (Ntf.isFrontierOf k) := by
  rw [List.countP_map]
  refine List.countP_congr fun x _ => ?_
  simp only [Function.comp]
  by_cases hx : x.isFrontierOf j = true
  · rw [if_pos hx]
    cases x <;> simp [Ntf.isFrontierOf] at hx
    subst hx
    simp [Ntf.isFrontierOf]
  · rw [if_neg hx]

/-- A LAYOUT takes the place of a FRONTIER of its journal (R95). -/
theorem replace_length {q : List Ntf} {j : JournalId} (hc : q.countP (Ntf.isFrontierOf j) ≤ 1)
    (ha : q.any (Ntf.isFrontierOf j) = true) (e : Ntf) :
    (q.filter (fun x => !x.isFrontierOf j) ++ [e]).length = q.length := by
  have h1 : 0 < q.countP (Ntf.isFrontierOf j) := by
    rw [List.countP_pos_iff]
    rw [List.any_eq_true] at ha
    exact ha
  have h2 := List.length_eq_countP_add_countP (l := q) (Ntf.isFrontierOf j)
  have h3 : (q.filter fun x => !x.isFrontierOf j).length = q.countP fun x => !x.isFrontierOf j :=
    List.countP_eq_length_filter.symm
  have h4 : (q.countP fun x => !x.isFrontierOf j) = q.countP fun a => decide ¬Ntf.isFrontierOf j a = true :=
    List.countP_congr fun x _ => by simp
  rw [List.length_append, h3, h4, List.length_singleton]
  omega

theorem placeNtf_sound (hp : p.sound) (i : Port) (e : Ntf) : (p.placeNtf i e).sound := by
  unfold Part.placeNtf
  split
  · next j s d =>
    split
    · refine countNtf_sound (modNtf_sound hp i fun h => ?_) _
      obtain ⟨h1, h2, h3, h4⟩ := h
      refine ⟨?_, fun k => ?_, h3, fun ho => ?_⟩
      · simpa using h1
      · rw [fold_countP]; exact h2 k
      · simpa using h4 ho
    · next hn =>
      refine joinNtf_sound hp i fun k hk => ?_
      rw [isFrontierOf_frontier, decide_eq_true_iff] at hk
      subst hk
      simpa using hn
  · next j =>
    split
    · next ha =>
      refine countNtf_sound (modNtf_sound hp i fun h => ?_) _
      obtain ⟨h1, h2, h3, h4⟩ := h
      have hl := replace_length (h2 j) ha (.layout j)
      refine ⟨?_, fun k => ?_, h3, fun ho => ?_⟩
      · dsimp only; rw [hl]; exact h1
      · dsimp only
        rw [List.countP_append, List.countP_singleton]
        have : Ntf.isFrontierOf k (.layout j) = false := rfl
        rw [this]
        exact Nat.le_trans (List.filter_sublist.countP_le ..) (h2 k)
      · dsimp only; rw [hl]; exact h4 ho
    · exact joinNtf_sound hp i fun k hk => by simp [Ntf.isFrontierOf] at hk
  · next h1 _ =>
    refine joinNtf_sound hp i fun k hk => ?_
    cases e
    · exact (h1 _ _ _ rfl).elim
    all_goals simp [Ntf.isFrontierOf] at hk

theorem notify_sound (hp : p.sound) (e : Ntf) (i : Port) : (p.notify e i).sound := by
  unfold Part.notify
  split
  · exact placeNtf_sound hp _ _
  · exact hp

theorem notifyAll_sound (hp : p.sound) (e : Ntf) (ports : List Port) : (p.notifyAll e ports).sound :=
  foldl_sound (fun _ i h => notify_sound h e i) ports hp

theorem notifyOwner_sound (hp : p.sound) (j : JournalId) (o : Option Port) : (p.notifyOwner j o).sound :=
  notifyAll_sound hp _ _

theorem clearNtf_sound (hp : p.sound) (i : Port) (keep : Ntf → Bool) : (p.clearNtf i keep).sound := by
  refine countNtf_sound (modNtf_sound hp i fun h => ?_) _
  obtain ⟨h1, h2, _, _⟩ := h
  exact ⟨Nat.le_trans List.filter_sublist.length_le h1,
    fun j => Nat.le_trans (List.filter_sublist.countP_le ..) (h2 j), Nat.zero_le _, fun h => by simp at h⟩

theorem takeNtf_sound (hp : p.sound) (i : Port) : (p.takeNtf i).sound := by
  unfold Part.takeNtf
  split
  · exact hp
  · next e rest hq =>
    dsimp only
    split
    · refine countNtf_sound (modNtf_sound hp i fun h => ?_) _
      obtain ⟨h1, h2, _, _⟩ := h
      rw [hq] at h1 h2
      refine ⟨?_, fun j => ?_, Nat.zero_le _, fun h => by simp at h⟩
      · simpa using h1
      · dsimp only
        rw [List.countP_append, List.countP_singleton]
        have : Ntf.isFrontierOf j (.overflow (p.ntf i).drops) = false := rfl
        rw [this]
        exact Nat.le_trans ((List.sublist_cons_self e rest).countP_le ..) (h2 j)
    · next ho =>
      refine modNtf_sound hp i fun h => ?_
      obtain ⟨h1, h2, h3, _⟩ := h
      rw [hq] at h1 h2
      refine ⟨?_, fun j => ?_, h3, fun h => absurd h ho⟩
      · rw [List.length_cons] at h1; exact Nat.le_of_succ_le h1
      · exact Nat.le_trans ((List.sublist_cons_self e rest).countP_le ..) (h2 j)

/-! ## Directory writers, slots and transfers -/

theorem startWrite_sound (hp : p.sound) (i : Item) : (p.startWrite i).sound := by
  unfold Part.startWrite
  dsimp only
  split
  · exact hand_sound (((modDir_changes p i _).trans (bindFlight_changes _ i)).sound (hp := hp)) _
  · exact hp

theorem rewriteItem_sound (hp : p.sound) (client : Item → Copy → Client) (i : Item) :
    (p.rewriteItem client i).sound :=
  hand_sound (hand_sound ((modDir_changes p i _).sound (hp := hp)) _) _

theorem voidSlot_sound (hp : p.sound) (n : SlotId) (r : VoidReason) : (p.voidSlot n r).sound := by
  unfold Part.voidSlot
  split
  · exact hp
  · split
    · exact handRun_sound (((setSlot_changes p _ _).trans (countAppend_changes _ _)).sound (hp := hp)) _ _ _ _
    · exact hp

theorem voidAll_sound (hp : p.sound) (ns : List SlotId) (r : VoidReason) : (p.voidAll ns r).sound :=
  foldl_sound (fun _ n h => voidSlot_sound h n r) ns hp

theorem fence_sound (hp : p.sound) (j : JournalId) (s : SessionId) : (p.fence j s).sound := voidAll_sound hp _ _

theorem frontierAdvance_sound (hp : p.sound) (j : JournalId) : (p.frontierAdvance j).sound :=
  (frontierAdvance_changes p j).sound (hp := hp)

theorem completeTransfer_sound (hp : p.sound) (j : JournalId) (o : Option SessionId) (c : Option Claimant) :
    (p.completeTransfer j o c).sound :=
  notifyOwner_sound (((modJournal_changes p _ _).trans (markDirty_journal_changes _ j)).sound (hp := hp)) _ _

theorem transferCheck_sound (hp : p.sound) (j : JournalId) : (p.transferCheck j).sound := by
  unfold Part.transferCheck
  split
  · exact hp
  · split
    · split
      · exact completeTransfer_sound hp _ _ _
      · exact hp
    · exact hp

theorem freeSlot_sound (hp : p.sound) (n : SlotId) : (p.freeSlot n).sound := by
  unfold Part.freeSlot
  split
  · exact hp
  · exact transferCheck_sound (((setSlot_changes p _ _).trans (modConf_changes _ _ _)).sound (hp := hp)) _

theorem queueDone_sound (hp : p.sound) (i : Port) (n : SlotId) (s : Slot) : (p.queueDone i n s).sound :=
  freeSlot_sound (modReq_sound (queueDeferred_sound hp _ _) _ fun h => h) _

theorem releaseSlot_sound (hp : p.sound) (n : SlotId) : (p.releaseSlot n).sound := by
  unfold Part.releaseSlot
  split
  · exact hp
  · split
    · split
      · exact queueDone_sound hp _ _ _
      · exact (setWaits_changes p _ _).sound (hp := hp)
    · exact freeSlot_sound hp _

theorem headAdvance_sound (hp : p.sound) (j : JournalId) : (p.headAdvance j).sound :=
  (headAdvance_changes p j).sound (hp := hp)

theorem trimEnd_sound (hp : p.sound) (j : JournalId) : (p.trimEnd j).sound := by
  unfold Part.trimEnd
  split
  · exact hp
  · split
    · exact hp
    · split
      · exact releaseAnswer_sound ((modConf_changes p _ _).sound (hp := hp)) _ _
      · exact hp

theorem releaseBound_sound (hp : p.sound) (b : Bound) : (p.releaseBound b).sound := by
  cases b
  · exact releaseAnswer_sound hp _ _
  · exact (deferredDone_changes p).sound (hp := hp)

theorem releaseAll_sound (hp : p.sound) (j : JournalId) : (p.releaseAll j).sound := by
  have h1 := trimEnd_sound (foldl_sound (fun _ n h => releaseSlot_sound h n) (p.durableSlots j) hp) j
  exact foldl_sound (fun _ b h => releaseBound_sound h b) _ ((modJournal_changes _ j _).sound (hp := h1))

theorem notifyFrontier_sound (hp : p.sound) (j : JournalId) (b : W64) : (p.notifyFrontier j b).sound := by
  unfold Part.notifyFrontier
  split
  · exact hp
  · split
    · exact notifyAll_sound hp _ _
    · exact hp

theorem journalWritten_sound (hp : p.sound) (j : JournalId) : (p.journalWritten j).sound := by
  have h1 := ((modDir_journal_changes p j DirWriter.written).trans (takeSnapshot_changes _ j)).sound (hp := hp)
  have h2 := notifyFrontier_sound (releaseAll_sound h1 j) j (((p.journal j).conf.map Conf.durable).getD 0)
  exact startWrite_sound ((modDir_journal_changes _ j _).sound (hp := h2)) _

/-! ## Reads -/

theorem stage_sound (hp : p.sound) (r : ReadId) : (p.stage r).sound := by
  unfold Part.stage
  split
  · exact hp
  · split
    · exact hp
    · exact handAll_sound ((setRead_changes p _ _).sound (hp := hp)) _

theorem cancelRead_sound (hp : p.sound) (r : ReadId) : (p.cancelRead r).sound := by
  unfold Part.cancelRead
  split
  · exact hp
  · have h1 : ∀ f : List Access → List Access, (p.modMem fun m => { m with held := f m.held }).sound :=
      fun f => modMem_sound hp fun h => h
    exact (((setRead_changes _ _ _).trans (countRead_changes _ _)).trans (removePin_changes _ _ _)).sound (hp := h1 _)

/-! ## Sessions -/

theorem returnCredits_sound (hp : p.sound) (i : Port) (n : Nat) : (p.returnCredits i n).sound :=
  modLink_sound hp i fun h => ⟨h.1, Nat.min_le_left _ _, h.2.2⟩

theorem popFrame_sound (hp : p.sound) (i : Port) : (p.popFrame i).sound := by
  refine returnCredits_sound (modReq_sound hp i fun h => ⟨?_, h.2⟩) _ _
  exact Nat.le_trans (List.tail_sublist _).length_le h.1

theorem closeRequests_sound (hp : p.sound) (i : Port) (c : EndCause) : (p.closeRequests i c).sound := by
  have h : (p.modReq i fun r => r.closed c).sound := modReq_sound hp i fun _ => ⟨Nat.zero_le _, Nat.zero_le _, rfl, Nat.zero_le _, .nil⟩
  unfold Part.closeRequests
  dsimp only
  split
  · exact h
  · exact returnCredits_sound h _ _

theorem leaveJournal_sound (hp : p.sound) (s : SessionId) (j : JournalId) : (p.leaveJournal s j).sound := by
  unfold Part.leaveJournal
  dsimp only
  split
  · have h1 := ((modConf_changes p j fun c => c.sessionEnded s p.maint.params.grace).trans
      (markDirty_journal_changes _ j)).sound (hp := hp)
    exact (raise_changes _ _).sound (hp := notifyOwner_sound h1 _ _)
  · exact (modConf_changes p _ _).sound (hp := hp)

theorem dropWaiting_sound (hp : p.sound) (w : Waiting) : (p.dropWaiting w).sound := by
  cases w
  · exact freeSlot_sound hp _
  · exact hp

theorem endSession_sound (hp : p.sound) (i : Port) (c : EndCause) : (p.endSession i c).sound := by
  unfold Part.endSession
  dsimp only
  generalize allJournals = js
  refine foldl_sound (fun _ w h => dropWaiting_sound h w) _ ((setWaits_changes _ _ _).sound (hp := ?_))
  refine foldl_sound (fun _ j h => leaveJournal_sound h _ j) _ ?_
  refine foldl_sound (fun _ r h => cancelRead_sound h r) _ ?_
  exact voidAll_sound (clearNtf_sound ((unsubscribeAll_changes _ i).sound (hp := closeRequests_sound hp i c)) _ _) _ _

theorem down_sound {u : LinkUnit} (h : u.sound) (c : DownCause) : (u.down c).sound :=
  ⟨Nat.zero_le _, h.2.1, h.2.2.1, Nat.zero_le _, rfl, rfl, fun _ => rfl⟩

theorem linkDown_sound (hp : p.sound) (i : Port) (c : DownCause) : (p.linkDown i c).sound := by
  have h1 := (raise_changes _ (causeLinkDown i)).sound (hp := modLink_sound (f := fun u => u.down c) hp i fun h => down_sound h c)
  have h2 := modReq_sound (f := fun r => { r with buffer := [], respQ := [] }) h1 i
    fun h => ⟨Nat.zero_le _, Nat.zero_le _, h.2.2⟩
  have hmode : ∀ q : Part, q.sound → (q.modNtf i fun n => { n with modeRetained := false }).sound :=
    fun q hq => modNtf_sound hq i fun h => h
  unfold Part.linkDown
  dsimp only
  split
  · exact hmode _ (clearNtf_sound (endSession_sound h2 _ _) _ _)
  · exact hmode _ (clearNtf_sound h2 _ _)

/-! ## Link units -/

theorem sendUp_sound {u : LinkUnit} (h : u.sound) (ft : Byte) (sq : Seq) (pl : List Byte) :
    (u.sendUp ft sq pl).sound := h

theorem accept_sound {u : LinkUnit} (h : u.sound) (hr : u.ready = true) (t : TxType) (pl : List Byte) :
    (u.accept t pl).sound := by
  unfold LinkUnit.ready at hr
  simp only [Bool.and_eq_true, decide_eq_true_iff, Option.isNone_iff_eq_none] at hr
  obtain ⟨⟨⟨hup, hrep⟩, hlen⟩, _⟩ := hr
  obtain ⟨_, h2, h3, h4, _, _, _⟩ := h
  refine ⟨?_, h2, h3, h4, ?_, ?_, fun hn => absurd hup hn⟩
  · change (u.replayBuf ++ [_]).length ≤ _
    rw [List.length_append]; exact hlen
  · change (u.replay.all _) = true
    rw [hrep]; rfl
  · change true = !(u.replayBuf ++ [_]).isEmpty
    simp

theorem resend_sound {u : LinkUnit} (h : u.sound) (k : Nat) : (u.resend k).sound := by
  unfold LinkUnit.resend
  obtain ⟨h1, h2, h3, h4, h5, h6, h7⟩ := h
  split
  · exact ⟨h1, h2, h3, h4, rfl, h6, h7⟩
  · refine ⟨h1, h2, h3, h4, ?_, h6, h7⟩
    dsimp only [LinkUnit.sendUp]
    split
    · next hk => exact decide_eq_true hk
    · rfl

theorem startReplay_sound {u : LinkUnit} (h : u.sound) (hb : u.replayBuf ≠ []) : u.startReplay.sound := by
  obtain ⟨h1, h2, h3, h4, _, _, h7⟩ := h
  refine ⟨h1, h2, h3, h4, ?_, ?_, h7⟩
  · exact decide_eq_true (List.length_pos_iff.2 hb)
  · change true = !u.replayBuf.isEmpty
    simp [hb]

theorem release_sound {u : LinkUnit} (h : u.sound) (k : Nat) : (u.release k).sound := by
  obtain ⟨h1, h2, h3, h4, h5, _, h7⟩ := h
  refine ⟨?_, h2, h3, h4, ?_, rfl, fun hn => ?_⟩
  · exact Nat.le_trans (List.drop_sublist _ _).length_le h1
  · dsimp only [LinkUnit.release]
    split
    · rfl
    · next hd =>
      cases hr : u.replay with
      | none => rfl
      | some x =>
        rw [hr] at h5
        simp only [Option.all_some, decide_eq_true_iff] at h5
        simp only [Option.map_some, Option.all_some, decide_eq_true_iff, List.length_drop]
        have := List.length_pos_iff.2 hd
        rw [List.length_drop] at this
        omega
  · change u.replayBuf.drop k = []
    rw [h7 hn]; simp

theorem takeAck_sound {u : LinkUnit} (h : u.sound) (a : Seq) : (u.takeAck a).sound := by
  unfold LinkUnit.takeAck
  split
  · exact h
  · split
    · exact release_sound h _
    · exact h

theorem takeCredit_sound {u : LinkUnit} (h : u.sound) (c : BitVec 4) : (u.takeCredit c).sound :=
  ⟨h.1, h.2.1, Nat.min_le_left _ _, h.2.2.2⟩

theorem replayTrigger_sound (hp : p.sound) (i : Port) : (p.replayTrigger i).sound := by
  unfold Part.replayTrigger
  dsimp only
  split
  · exact hp
  · next hn =>
    have hb : (p.link i).replayBuf ≠ [] := fun e => hn (Or.inl e)
    split
    · exact modLink_sound hp i fun h => startReplay_sound h hb
    · exact linkDown_sound hp _ _

theorem takeHeader_sound (hp : p.sound) (i : Port) (h : Header) : (p.takeHeader i h).sound := by
  have h1 := modLink_sound (f := fun u => (u.takeAck h.ack).takeCredit h.credit) hp i
    fun hu => takeCredit_sound (takeAck_sound hu _) _
  unfold Part.takeHeader
  dsimp only
  split
  · exact replayTrigger_sound h1 i
  · exact h1

/-! ## The retention controller -/

theorem giveExit_sound (hp : p.sound) : p.giveExit.sound := by
  refine modMem_sound hp fun h => ?_
  split <;> exact h

theorem giveInitialise_sound (hp : p.sound) : p.giveInitialise.sound := by
  refine modMem_sound hp fun h => ?_
  split <;> exact h

theorem enterRestoring_sound (hp : p.sound) : p.enterRestoring.sound :=
  giveExit_sound (((setMode_changes p _).trans (modCtl_changes _ _)).sound (hp := hp))

theorem beginCold_sound (hp : p.sound) : p.beginCold.sound := by
  unfold Part.beginCold
  split
  · exact giveExit_sound ((modCtl_changes p _).sound (hp := hp))
  · exact giveInitialise_sound ((modCtl_changes p _).sound (hp := hp))

theorem fresh_get {α : Type} {n : Nat} (x : α) (i : Fin n) : (Vector.replicate n x).get i = x := by
  change (Vector.replicate n x)[i.val] = x
  simp

/-- A part whose main domain holds its start values is sound when its DRAM is. -/
theorem fresh_sound (r : Retention) {d : List Host.Cell} (hd : Memory.wf d) {n : Nat} : (Part.fresh r d n).sound := by
  refine ⟨fun i => ?_, fun i => ?_, fun i => ?_, ?_, hd⟩
  · have : (Part.fresh r d n).link i = {} := fresh_get _ _
    rw [this]; decide
  · have : (Part.fresh r d n).req i = {} := fresh_get _ _
    rw [this]; decide
  · have : (Part.fresh r d n).ntf i = {} := fresh_get _ _
    rw [this]; decide
  · change MemEngine.sound { cond := _, missCount := n }
    exact ⟨Nat.zero_le _, Nat.zero_le _, Nat.zero_le _⟩

theorem stopMain_sound (hp : p.sound) : p.stopMain.sound := by
  unfold Part.stopMain
  split
  · split
    · exact fresh_sound _ hp.2.2.2.2
    · exact fresh_sound _ Memory.wf_nil
  · refine fresh_sound _ ?_
    split
    · exact hp.2.2.2.2
    · exact Memory.wf_nil

theorem startBlocks_sound (hp : p.sound) : p.startBlocks.sound := by
  have h := fresh_sound { p.ret with mode := .initializing, cause := none, running := true } hp.2.2.2.2
    (n := p.mem.missCount)
  unfold Part.startBlocks
  dsimp only
  split
  · exact ((modRet_changes _ _).trans (setMode_changes _ _)).sound (hp := h)
  · exact (modRet_changes _ _).sound (hp := h)

theorem startHigh_sound (hp : p.sound) : p.startHigh.sound := by
  unfold Part.startHigh
  dsimp only
  split
  · exact giveExit_sound ((modCtl_changes _ _).sound (hp := startBlocks_sound hp))
  · exact beginCold_sound (startBlocks_sound hp)

theorem startLow_sound (hp : p.sound) : p.startLow.sound :=
  (((countRet_changes _ _).trans (modCtl_changes _ _)).trans (retain_changes _)).sound (hp := startBlocks_sound hp)

theorem start_sound (hp : p.sound) : p.start.sound := by
  unfold Part.start
  split
  · exact startHigh_sound hp
  · exact startLow_sound hp

theorem retainOrStart_sound (hp : p.sound) : p.retainOrStart.sound := by
  have h1 := (retain_changes p).sound (hp := hp)
  unfold Part.retainOrStart
  dsimp only
  split
  · exact startHigh_sound h1
  · exact h1

theorem quiesceDone_sound (hp : p.sound) : p.quiesceDone.sound := by
  have h1 := (modRet_changes p fun r => { r with flag := true, cause := none }).sound (hp := hp)
  unfold Part.quiesceDone
  dsimp only
  split
  · exact (retain_changes _).sound (hp := h1)
  · split
    · exact enterRestoring_sound h1
    · exact (setMode_changes _ _).sound (hp := h1)

theorem entryDone_sound (hp : p.sound) : p.entryDone.sound := by
  unfold Part.entryDone
  split
  · split
    · exact quiesceDone_sound hp
    · exact hp
  · split
    · exact retainOrStart_sound hp
    · exact hp
  · split
    · exact retainOrStart_sound hp
    · exact hp
  · exact hp

theorem giveEntry_sound (hp : p.sound) : p.giveEntry.sound := by
  unfold Part.giveEntry
  split
  · exact arbitrate_sound (modMem_sound hp fun h => h)
  · exact entryDone_sound hp
  · split
    · exact modMem_sound hp fun h => h
    · exact entryDone_sound hp

theorem abandon_sound (hp : p.sound) : p.abandon.sound := by
  unfold Part.abandon
  split
  · exact hp
  · exact giveEntry_sound (((countRet_changes p _).trans (modCtl_changes _ _)).sound (hp := hp))

/-! ## Cold start, FORMAT and restore -/

theorem foldJournals_sound (hp : p.sound) (f : JournalId → Journal → Journal) (js : List JournalId) :
    (js.foldl (fun q j => q.modJournal j (f j)) p).sound :=
  foldl_sound (fun q j h => (modJournal_changes q j _).sound (hp := h)) js hp

theorem coldFill_sound (hp : p.sound) : p.coldFill.sound := by
  unfold Part.coldFill
  dsimp only
  generalize allItems = items
  refine foldl_sound (fun _ i h => rewriteItem_sound h _ i) _ ?_
  exact (((modHeader_changes _ _).trans (modMaint_changes _ _)).trans (modCtl_changes _ _)).sound
    (hp := foldJournals_sound hp (fun _ e => { e.cleared with watermark := Config.defaultWatermark }) allJournals)

theorem coldCheck_sound (hp : p.sound) : p.coldCheck.sound := (coldCheck_changes p).sound (hp := hp)

theorem formatItem_sound (hp : p.sound) (i : Item) : (p.formatItem i).sound :=
  hand_sound (hand_sound ((modDir_changes p i _).sound (hp := hp)) _) _

theorem formatNow_sound (hp : p.sound) : p.formatNow.sound := by
  have h0 : Part.sound { p with formatPending := false } := hp
  unfold Part.formatNow
  dsimp only
  generalize allItems = items
  refine foldl_sound (fun _ i h => formatItem_sound h i) _ ?_
  exact (modHeader_changes _ _).sound (hp := foldJournals_sound h0 (fun _ => Journal.cleared) allJournals)

theorem formatCheck_sound (hp : p.sound) : p.formatCheck.sound := by
  unfold Part.formatCheck
  split
  · exact formatNow_sound hp
  · exact hp

theorem loadItem_sound (hp : p.sound) (i : Item) : (p.loadItem i).sound := hand_sound (hand_sound hp _) _

theorem loadHeader_sound (hp : p.sound) : p.loadHeader.sound := loadItem_sound ((modCtl_changes p _).sound (hp := hp)) _

theorem headerTaken_sound (hp : p.sound) (c : Copy) (bs : List Byte) (h : HeaderRecord) :
    (p.headerTaken c bs h).sound := by
  unfold Part.headerTaken
  dsimp only
  refine foldl_sound (fun _ j h => loadItem_sound h _) _ ?_
  exact (((modHeader_changes _ _).trans (modMaint_changes _ _)).trans (modCtl_changes _ _)).sound
    (hp := foldJournals_sound hp (fun j e => { e with watermark := byteAt h.watermarks j.val }) allJournals)

theorem directoryLost_sound (hp : p.sound) : p.directoryLost.sound := by
  have h1 := ((raise_changes p causeDirectoryLost).trans
    (countRet_changes _ fun c => { c with itemsLost := satInc c.itemsLost })).sound (hp := hp)
  unfold Part.directoryLost
  dsimp only
  refine foldl_sound (fun _ j h => rewriteItem_sound h _ _) _ ?_
  exact (((modHeader_changes _ _).trans (modMaint_changes _ _)).trans (modCtl_changes _ _)).sound
    (hp := foldJournals_sound h1 (fun _ e => { e.cleared with watermark := Config.defaultWatermark }) allJournals)

theorem selectHeader_sound (hp : p.sound) : p.selectHeader.sound := by
  unfold Part.selectHeader
  split
  · split
    · split
      · exact headerTaken_sound hp _ _ _
      · exact directoryLost_sound hp
    · exact directoryLost_sound hp
  · exact hp

theorem journalLost_sound (hp : p.sound) (j : JournalId) : (p.journalLost j).sound :=
  rewriteItem_sound ((((raise_changes p causeDirectoryLost).trans (countRet_changes _ _)).trans
    (modJournal_changes _ _ _)).sound (hp := hp)) _ _

theorem selectEntry_sound (hp : p.sound) (j : JournalId) : (p.selectEntry j).sound := by
  unfold Part.selectEntry
  split
  · refine (modCtl_changes _ _).sound (hp := ?_)
    split
    · dsimp only
      split
      · split
        · exact (modJournal_changes p _ _).sound (hp := hp)
        · exact journalLost_sound hp j
      · exact journalLost_sound hp j
    · exact journalLost_sound hp j
  · exact hp

theorem loadArrived_sound (hp : p.sound) (i : Item) (c : Copy) (bs : List Byte) : (p.loadArrived i c bs).sound := by
  unfold Part.loadArrived
  split
  · exact hp
  · cases i
    · exact selectEntry_sound ((modCtl_changes p _).sound (hp := hp)) _
    · exact selectHeader_sound ((modCtl_changes p _).sound (hp := hp))

theorem rewritten_sound (hp : p.sound) (i : Item) : (p.rewritten i).sound := by
  have h1 := (modDir_changes p i DirWriter.copyDone).sound (hp := hp)
  unfold Part.rewritten
  dsimp only
  split
  · exact rewriteItem_sound ((modCtl_changes _ _).sound (hp := h1)) _ _
  · exact h1

theorem restoreCheck_sound (hp : p.sound) : p.restoreCheck.sound := (restoreCheck_changes p).sound (hp := hp)

/-! ## Quiesce -/

theorem retainMode_sound (hp : p.sound) (i : Port) : (p.retainMode i).sound := by
  unfold Part.retainMode
  split
  · refine countNtf_sound (modNtf_sound hp i fun _ => ?_) _
    exact ⟨by decide, fun j => by decide +revert, Nat.zero_le _, fun h => by simp at h⟩
  · exact hp

theorem endIfActive_sound (hp : p.sound) (i : Port) : (p.endIfActive i).sound := by
  unfold Part.endIfActive
  split
  · exact endSession_sound hp _ _
  · exact hp

theorem quiesce_sound (hp : p.sound) (c : QuiesceCause) : (p.quiesce c).sound := by
  unfold Part.quiesce
  dsimp only
  refine foldl_sound (fun _ i h => endIfActive_sound h i) _ (foldl_sound (fun _ i h => retainMode_sound h i) _ ?_)
  exact ((((setMode_changes p _).trans (modRet_changes _ _)).trans (countRet_changes _ _)).trans
    (modCtl_changes _ _)).sound (hp := hp)

theorem drainCheck_sound (hp : p.sound) : p.drainCheck.sound := by
  unfold Part.drainCheck
  split
  · exact giveEntry_sound ((modCtl_changes p _).sound (hp := hp))
  · exact hp

/-! ## Events -/

theorem startWrites_sound (hp : p.sound) : p.startWrites.sound := by
  unfold Part.startWrites
  generalize allItems = items
  exact foldl_sound (fun _ i h => startWrite_sound h i) items hp

theorem react_sound (hp : p.sound) : p.react.sound := by
  unfold Part.react
  exact drainCheck_sound (restoreCheck_sound (coldCheck_sound (formatCheck_sound (startWrites_sound hp))))

theorem event_sound (hp : p.sound) {f : Part → Option Part} (hf : ∀ q, f p = some q → q.sound) : (p.event f).sound := by
  unfold Part.event
  split
  · split
    · next q hq =>
      split
      · exact react_sound (hf q hq)
      · exact hf q hq
    · exact hp
  · exact hp

/-- The end of an event leaves the traffic of the ports, the slots, the reads and DRAM alone. -/
theorem event_changes (p : Part) {fs : List Part.Field} {f : Part → Option Part}
    (hf : ∀ q, f p = some q → Part.Changes fs p q) : Part.Changes (fs ++ reactFields) p (p.event f) := by
  unfold Part.event
  split
  · split
    · next q hq =>
      split
      · exact (hf q hq).trans (react_changes q)
      · exact (hf q hq).mono fun x hx => List.mem_append_left _ hx
    · exact .refl _ p
  · exact .refl _ p

end

end Sys2Proof.Machine
end

