-- ==== Sys2Proof/Laws/Quiet.lean ====
section
/-! SUPPORT. The end of an event: what a directory write's start does to an entry, that `react` leaves nothing due, and
that it does nothing where nothing is due. -/

namespace Sys2Proof.Machine

set_option Elab.async false

/-! ## Indexed fields under `Changes` -/

namespace Part.Changes

variable {fs : List Part.Field} {p q : Part}

theorem link (h : Part.Changes fs p q) (i : Port) (hn : Part.Field.links ∉ fs := by decide) : q.link i = p.link i := by
  unfold Part.link; rw [h.links hn]
theorem req (h : Part.Changes fs p q) (i : Port) (hn : Part.Field.reqs ∉ fs := by decide) : q.req i = p.req i := by
  unfold Part.req; rw [h.reqs hn]
theorem ntf (h : Part.Changes fs p q) (i : Port) (hn : Part.Field.ntfs ∉ fs := by decide) : q.ntf i = p.ntf i := by
  unfold Part.ntf; rw [h.ntfs hn]
theorem journal (h : Part.Changes fs p q) (j : JournalId) (hn : Part.Field.journals ∉ fs := by decide) :
    q.journal j = p.journal j := by
  unfold Part.journal; rw [h.journals hn]
theorem waits (h : Part.Changes fs p q) (i : Port) (hn : Part.Field.waiting ∉ fs := by decide) :
    q.waits i = p.waits i := by
  unfold Part.waits; rw [h.waiting hn]
theorem slot (h : Part.Changes fs p q) (n : SlotId) (hn : Part.Field.slots ∉ fs := by decide) : q.slot n = p.slot n := by
  unfold Part.slot; rw [h.slots hn]
theorem readCtx (h : Part.Changes fs p q) (r : ReadId) (hn : Part.Field.reads ∉ fs := by decide) :
    q.readCtx r = p.readCtx r := by
  unfold Part.readCtx; rw [h.reads hn]
theorem dirOf (h : Part.Changes fs p q) (i : Item) (hj : Part.Field.journals ∉ fs := by decide)
    (hh : Part.Field.header ∉ fs := by decide) : q.dirOf i = p.dirOf i := by
  cases i
  · exact congrArg Journal.dir (h.journal _ hj)
  · exact congrArg DeviceHeader.dir (h.header hh)

end Part.Changes

/-! ## Items -/

theorem mem_allItems (i : Item) : i ∈ allItems := by
  cases i with
  | journal j => fin_cases j <;> decide
  | header => decide

theorem mem_allJournals (j : JournalId) : j ∈ allJournals := by fin_cases j <;> decide
theorem mem_allPorts (i : Port) : i ∈ allPorts := by fin_cases i <;> decide
theorem mem_allSlots (n : SlotId) : n ∈ allSlots := by fin_cases n <;> decide
theorem mem_allReads (r : ReadId) : r ∈ allReads := by fin_cases r <;> decide

section
variable (p : Part)

@[simp] theorem dirOf_modDir_self (i : Item) (f : DirWriter → DirWriter) : (p.modDir i f).dirOf i = f (p.dirOf i) := by
  cases i
  · change ((p.modJournal _ _).journal _).dir = _
    rw [modJournal_journal_self]; rfl
  · rfl

theorem dirOf_modDir_ne {i k : Item} (h : i ≠ k) (f : DirWriter → DirWriter) :
    (p.modDir i f).dirOf k = p.dirOf k := by
  cases i with
  | journal j =>
    cases k with
    | journal m =>
      have hne : j ≠ m := fun e => h (e ▸ rfl)
      change ((p.modJournal j _).journal m).dir = _
      rw [modJournal_journal_ne p j _ hne]; rfl
    | header => rfl
  | header =>
    cases k with
    | journal m => rfl
    | header => exact absurd rfl h

theorem modDir_journal_self (j : JournalId) (f : DirWriter → DirWriter) :
    (p.modDir (.journal j) f).journal j = { p.journal j with dir := f (p.journal j).dir } :=
  modJournal_journal_self p j _

theorem modDir_journal_ne {j m : JournalId} (h : j ≠ m) (f : DirWriter → DirWriter) :
    (p.modDir (.journal j) f).journal m = p.journal m := modJournal_journal_ne p j _ h

theorem modDir_header_journal (j : JournalId) (f : DirWriter → DirWriter) :
    (p.modDir .header f).journal j = p.journal j := rfl

/-! ## The start of a directory write (R18) -/

theorem startWrite_idle {i : Item} (h : p.dirDue i = false) : p.startWrite i = p := by
  unfold Part.startWrite
  dsimp only
  unfold Part.dirDue at h
  rw [h]
  rfl

theorem startWrite_journal_self (j : JournalId) : (p.startWrite (.journal j)).journal j = (p.journal j).started := by
  unfold Part.startWrite Journal.started
  dsimp only
  change Part.journal (if (p.journal j).dir.dirty && !(p.journal j).dir.inFlight then _ else _) j = _
  split
  · rw [(hand_noRead_changes _ rfl).journal]
    change ((p.modDir (.journal j) _).modJournal j _).journal j = _
    rw [modJournal_journal_self, modDir_journal_self]
  · rfl

theorem startWrite_journal_ne {i : Item} {j : JournalId} (h : i ≠ .journal j) :
    (p.startWrite i).journal j = p.journal j := by
  unfold Part.startWrite
  dsimp only
  split
  · rw [(hand_noRead_changes _ rfl).journal]
    cases i with
    | journal m =>
      have hne : m ≠ j := fun e => h (e ▸ rfl)
      change ((p.modDir (.journal m) _).modJournal m _).journal j = _
      rw [modJournal_journal_ne _ _ _ hne, modDir_journal_ne _ hne]
    | header => rfl
  · rfl

theorem startWrite_dirDue (i k : Item) : (p.startWrite i).dirDue k = (p.dirDue k && decide (i ≠ k)) := by
  by_cases hd : p.dirDue i = true
  · unfold Part.startWrite
    dsimp only
    unfold Part.dirDue at hd
    rw [if_pos hd]
    unfold Part.dirDue
    rw [(hand_noRead_changes _ rfl).dirOf]
    by_cases hk : i = k
    · subst hk
      cases i with
      | journal j =>
        change ((((p.modDir (.journal j) _).modJournal j _).journal j).dir.dirty && _) = _
        rw [modJournal_journal_self, modDir_journal_self]
        simp
      | header => simp [Part.bindFlight, Part.modDir, Part.dirOf]
    · have hb : ∀ q : Part, (q.bindFlight i).dirOf k = q.dirOf k := by
        intro q
        cases i with
        | journal j =>
          cases k with
          | journal m =>
            have hne : j ≠ m := fun e => hk (e ▸ rfl)
            change ((q.modJournal j _).journal m).dir = _
            rw [modJournal_journal_ne q j _ hne]; rfl
          | header => rfl
        | header => rfl
      rw [hb, dirOf_modDir_ne p hk]
      simp [hk]
  · rw [Bool.not_eq_true] at hd
    rw [startWrite_idle p hd]
    by_cases hk : i = k
    · subst hk; simp [hd]
    · simp [hk]

theorem foldl_startWrite_dirDue (l : List Item) : ∀ (p : Part) (k : Item),
    ((l.foldl Part.startWrite p).dirDue k) = (p.dirDue k && decide (k ∉ l)) := by
  induction l with
  | nil => intro p k; simp
  | cons a l ih =>
    intro p k
    rw [List.foldl_cons, ih, startWrite_dirDue]
    by_cases h1 : a = k
    · subst h1; simp
    · have h2 : k ≠ a := fun e => h1 e.symm
      simp [h1, h2]

theorem startWrites_dirDue (k : Item) : p.startWrites.dirDue k = false := by
  unfold Part.startWrites
  rw [foldl_startWrite_dirDue]
  simp [mem_allItems k]

theorem foldl_startWrite_journal (l : List Item) (hl : l.Nodup) : ∀ (p : Part) (j : JournalId),
    (l.foldl Part.startWrite p).journal j = if Item.journal j ∈ l then (p.journal j).started else p.journal j := by
  induction l with
  | nil => intro p j; simp
  | cons a l ih =>
    intro p j
    have hl' := (List.nodup_cons.1 hl)
    rw [List.foldl_cons, ih hl'.2]
    by_cases h : a = .journal j
    · subst h
      rw [if_neg hl'.1, startWrite_journal_self, if_pos List.mem_cons_self]
    · rw [startWrite_journal_ne p h]
      have hne : Item.journal j ≠ a := fun e => h e.symm
      simp [hne]

theorem startWrites_journal (j : JournalId) : p.startWrites.journal j = (p.journal j).started := by
  unfold Part.startWrites
  rw [foldl_startWrite_journal allItems (by decide), if_pos (mem_allItems _)]

theorem started_conf (e : Journal) : e.started.conf = e.conf := by unfold Journal.started; split <;> rfl
theorem started_epoch (e : Journal) : e.started.epoch = e.epoch := by unfold Journal.started; split <;> rfl
theorem started_watermark (e : Journal) : e.started.watermark = e.watermark := by
  unfold Journal.started; split <;> rfl
theorem started_newest (e : Journal) : e.started.dir.newest = e.dir.newest := by
  unfold Journal.started; split <;> rfl
theorem started_gen (e : Journal) : e.started.dir.gen = e.dir.gen := by unfold Journal.started; split <;> rfl

/-- An entry left dirty is in flight, either with the change or with an earlier snapshot. -/
theorem started_inFlight {e : Journal} (h : e.dir.dirty = true) : e.started.dir.inFlight = true := by
  unfold Journal.started
  rw [h]
  cases hi : e.dir.inFlight <;> simp [hi]

/-- A response bound to the next write is bound still, to that write or to the one that has started. -/
theorem started_bound {e : Journal} {b : Bound} (h : b ∈ e.boundNext) :
    b ∈ e.started.boundNext ++ e.started.boundFlight := by
  unfold Journal.started
  split
  · simpa using h
  · exact List.mem_append_left _ h

/-! ## The other checks -/

theorem setMode_mode (m : Mode) : (p.setMode m).ret.mode = m := by
  unfold Part.setMode
  dsimp only
  split <;> rfl

theorem setMode_running (m : Mode) : (p.setMode m).ret.running = p.ret.running := by
  unfold Part.setMode
  dsimp only
  split <;> rfl

theorem retain_running : p.retain.ret.running = false := rfl

theorem startGrace_other (j k : JournalId) :
    ((p.startGrace j).journal k).dir = (p.journal k).dir
      ∧ ((p.startGrace j).journal k).conf.map Conf.trim = (p.journal k).conf.map Conf.trim := by
  unfold Part.startGrace
  split
  · exact ⟨rfl, rfl⟩
  · split
    · next c hc _ t g ho =>
      rw [raise_journal]
      by_cases h : j = k
      · subst h
        rw [modConf_journal_self]
        refine ⟨rfl, ?_⟩
        dsimp only
        rw [hc]; rfl
      · rw [modConf_journal_ne p j _ h]
        exact ⟨rfl, rfl⟩
    · exact ⟨rfl, rfl⟩

theorem foldl_startGrace_other (l : List JournalId) : ∀ (p : Part) (k : JournalId),
    ((l.foldl Part.startGrace p).journal k).dir = (p.journal k).dir
      ∧ ((l.foldl Part.startGrace p).journal k).conf.map Conf.trim = (p.journal k).conf.map Conf.trim := by
  induction l with
  | nil => intro p k; exact ⟨rfl, rfl⟩
  | cons a l ih =>
    intro p k
    obtain ⟨h1, h2⟩ := ih (p.startGrace a) k
    obtain ⟨h3, h4⟩ := startGrace_other p a k
    exact ⟨h1.trans h3, h2.trans h4⟩

/-- What the tests of FORMAT and of the directory writers look at. -/
theorem formatDue_congr {p q : Part} (hf : q.formatPending = p.formatPending) (hs : q.slots = p.slots)
    (hc : ∀ j, (q.journal j).conf.map Conf.trim = (p.journal j).conf.map Conf.trim)
    (hd : ∀ i, q.dirOf i = p.dirOf i) : q.formatDue = p.formatDue := by
  have hs' : ∀ n, q.slot n = p.slot n := fun n => by unfold Part.slot; rw [hs]
  have hc' : ∀ j, ((q.journal j).conf.any fun c => c.trim.isSome) = ((p.journal j).conf.any fun c => c.trim.isSome) := by
    intro j
    have := hc j
    cases h1 : (q.journal j).conf <;> cases h2 : (p.journal j).conf <;> rw [h1, h2] at this <;> simp at this
    change Option.isSome _ = Option.isSome _
    rw [this]
  unfold Part.formatDue
  simp only [hf, hs', hc', hd]

theorem dirDue_congr {p q : Part} (hd : ∀ i, q.dirOf i = p.dirOf i) (i : Item) : q.dirDue i = p.dirDue i := by
  unfold Part.dirDue; rw [hd]

theorem formatItem_inFlight (i k : Item) :
    ((p.formatItem i).dirOf k).inFlight = ((p.dirOf k).inFlight || decide (i = k)) := by
  unfold Part.formatItem
  dsimp only
  rw [(hand_noRead_changes _ rfl).dirOf, (hand_noRead_changes _ rfl).dirOf]
  by_cases h : i = k
  · subst h; simp
  · rw [dirOf_modDir_ne p h]; simp [h]

theorem foldl_formatItem_inFlight (l : List Item) : ∀ (p : Part) (k : Item),
    ((l.foldl Part.formatItem p).dirOf k).inFlight = ((p.dirOf k).inFlight || decide (k ∈ l)) := by
  induction l with
  | nil => intro p k; simp
  | cons a l ih =>
    intro p k
    rw [List.foldl_cons, ih, formatItem_inFlight]
    by_cases h1 : a = k
    · subst h1; simp
    · have h2 : k ≠ a := fun e => h1 e.symm
      simp [h1, h2]

theorem formatNow_inFlight (k : Item) : (p.formatNow.dirOf k).inFlight = true := by
  have h := mem_allItems k
  unfold Part.formatNow
  dsimp only
  generalize allItems = items at h
  generalize allJournals = js
  rw [foldl_formatItem_inFlight, decide_eq_true h, Bool.or_true]

theorem formatNow_formatPending : p.formatNow.formatPending = false := by
  unfold Part.formatNow
  dsimp only
  generalize allItems = items
  generalize allJournals = js
  rw [(Part.Changes.foldl formatItem_changes items _).formatPending]
  exact (Part.Changes.foldl (fun q j => modJournal_changes q j _) js _).formatPending

theorem formatCheck_done : p.formatCheck.formatDue = false := by
  unfold Part.formatCheck
  split
  · unfold Part.formatDue; rw [formatNow_formatPending]; rfl
  · next h => exact Bool.eq_false_iff.2 h

theorem formatCheck_dirDue {k : Item} (h : p.dirDue k = false) : p.formatCheck.dirDue k = false := by
  unfold Part.formatCheck
  split
  · unfold Part.dirDue; rw [formatNow_inFlight]; simp
  · exact h

theorem coldDone_mode : p.coldDone.ret.mode = .serving := by
  unfold Part.coldDone
  exact setMode_mode _ _

theorem restoreDone_mode : p.restoreDone.ret.mode = .serving := by
  unfold Part.restoreDone
  dsimp only
  rw [modCtl_ret, setMode_mode]

theorem coldDue_mode {p : Part} (h : p.ret.mode ≠ .initializing) : p.coldDue = false := by
  unfold Part.coldDue; simp [h]
theorem restoreDue_mode {p : Part} (h : p.ret.mode ≠ .restoring) : p.restoreDue = false := by
  unfold Part.restoreDue; simp [h]
theorem drainDue_mode {p : Part} (h : p.ret.mode ≠ .quiescing) : p.drainDue = false := by
  unfold Part.drainDue; simp [h]

theorem drainDue_parts {p : Part} (h : p.drainDue = true) : p.ret.mode = .quiescing ∧ p.ctl.drainOrdered = false := by
  unfold Part.drainDue at h
  simp only [Bool.and_eq_true, decide_eq_true_iff, Bool.not_eq_true'] at h
  exact h.1

/-- The entry order of a quiesce leaves one of these behind. -/
theorem drainCheck_after {p : Part} (h : p.drainDue = true) :
    p.drainCheck.ret.running = false
      ∨ (p.drainCheck.ret.mode = .quiescing ∧ p.drainCheck.ctl.drainOrdered = true)
      ∨ (p.drainCheck.ret.mode = .restoring ∧ p.drainCheck.ctl.work = .restoreExit)
      ∨ p.drainCheck.ret.mode = .halted := by
  have hm := (drainDue_parts h).1
  unfold Part.drainCheck
  rw [if_pos h]
  have hq : ∀ q : Part, q.ret.mode = .quiescing → q.ctl.drainOrdered = true →
      q.entryDone.ret.running = false ∨ (q.entryDone.ret.mode = .quiescing ∧ q.entryDone.ctl.drainOrdered = true)
        ∨ (q.entryDone.ret.mode = .restoring ∧ q.entryDone.ctl.work = .restoreExit)
        ∨ q.entryDone.ret.mode = .halted := by
    intro q h1 h2
    unfold Part.entryDone
    rw [h1, h2]
    dsimp only
    rw [if_pos rfl]
    unfold Part.quiesceDone
    dsimp only
    split
    · exact Or.inl rfl
    · split
      · refine Or.inr (Or.inr (Or.inl ⟨?_, rfl⟩))
        exact setMode_mode _ _
      · exact Or.inr (Or.inr (Or.inr (setMode_mode _ _)))
  unfold Part.giveEntry
  split
  · refine Or.inr (Or.inl ⟨hm, rfl⟩)
  · exact hq _ hm rfl
  · split
    · exact Or.inr (Or.inl ⟨hm, rfl⟩)
    · exact hq _ hm rfl

/-- The end of an event leaves nothing due, or a stopped main domain. -/
theorem react_quiet : p.react.quiet = true := by
  unfold Part.react
  have hA1 : ∀ k, p.startWrites.formatCheck.dirDue k = false :=
    fun k => formatCheck_dirDue _ (startWrites_dirDue p k)
  have hF1 : p.startWrites.formatCheck.formatDue = false := formatCheck_done _
  generalize p.startWrites.formatCheck = q at hA1 hF1
  have hc := coldCheck_changes q
  have hA2 : ∀ k, q.coldCheck.dirDue k = false := fun k => (dirDue_congr (fun i => hc.dirOf i) k).trans (hA1 k)
  have hF2 : q.coldCheck.formatDue = false :=
    (formatDue_congr hc.formatPending hc.slots (fun j => by rw [hc.journal]) (fun i => hc.dirOf i)).trans hF1
  have hC2 : q.coldCheck.coldDue = false := by
    unfold Part.coldCheck
    split
    · exact coldDue_mode (by rw [coldDone_mode]; decide)
    · next h => exact Bool.eq_false_iff.2 h
  generalize q.coldCheck = q at hA2 hF2 hC2
  have hr := restoreCheck_changes q
  have hd : ∀ i, q.restoreCheck.dirOf i = q.dirOf i := by
    intro i
    unfold Part.restoreCheck
    split
    · cases i with
      | journal j =>
        change (q.restoreDone.journal j).dir = (q.journal j).dir
        unfold Part.restoreDone
        rw [modCtl_journal, (setMode_changes _ _).journal]
        exact (foldl_startGrace_other allJournals _ j).1
      | header => exact congrArg DeviceHeader.dir (restoreDone_changes q).header
    · rfl
  have ht : ∀ j, (q.restoreCheck.journal j).conf.map Conf.trim = (q.journal j).conf.map Conf.trim := by
    intro j
    unfold Part.restoreCheck
    split
    · unfold Part.restoreDone
      rw [modCtl_journal, (setMode_changes _ _).journal]
      exact (foldl_startGrace_other allJournals _ j).2
    · rfl
  have hA3 : ∀ k, q.restoreCheck.dirDue k = false := fun k => (dirDue_congr hd k).trans (hA2 k)
  have hF3 : q.restoreCheck.formatDue = false := (formatDue_congr hr.formatPending hr.slots ht hd).trans hF2
  have hCR : q.restoreCheck.coldDue = false ∧ q.restoreCheck.restoreDue = false := by
    unfold Part.restoreCheck
    split
    · exact ⟨coldDue_mode (by rw [restoreDone_mode]; decide), restoreDue_mode (by rw [restoreDone_mode]; decide)⟩
    · next h => exact ⟨hC2, Bool.eq_false_iff.2 h⟩
  generalize q.restoreCheck = q at hA3 hF3 hCR
  have hx := drainCheck_changes q
  have hA4 : ∀ k, q.drainCheck.dirDue k = false := fun k => (dirDue_congr (fun i => hx.dirOf i) k).trans (hA3 k)
  have hF4 : q.drainCheck.formatDue = false :=
    (formatDue_congr hx.formatPending hx.slots (fun j => by rw [hx.journal]) (fun i => hx.dirOf i)).trans hF3
  have hrest : q.drainCheck.ret.running = false
      ∨ (q.drainCheck.coldDue = false ∧ q.drainCheck.restoreDue = false ∧ q.drainCheck.drainDue = false) := by
    by_cases hD : q.drainDue = true
    · rcases drainCheck_after hD with h | ⟨h1, h2⟩ | ⟨h1, h2⟩ | h
      · exact Or.inl h
      · refine Or.inr ⟨coldDue_mode (by rw [h1]; decide), restoreDue_mode (by rw [h1]; decide), ?_⟩
        unfold Part.drainDue; rw [h2]; simp
      · refine Or.inr ⟨coldDue_mode (by rw [h1]; decide), ?_, drainDue_mode (by rw [h1]; decide)⟩
        unfold Part.restoreDue; rw [h2]; simp
      · exact Or.inr ⟨coldDue_mode (by rw [h]; decide), restoreDue_mode (by rw [h]; decide),
          drainDue_mode (by rw [h]; decide)⟩
    · have : q.drainCheck = q := by unfold Part.drainCheck; rw [if_neg hD]
      rw [this]
      exact Or.inr ⟨hCR.1, hCR.2, Bool.eq_false_iff.2 hD⟩
  unfold Part.quiet
  rcases hrest with h | ⟨h1, h2, h3⟩
  · rw [h]; rfl
  · have hall : (allItems.all fun i => !((q.drainCheck.dirOf i).dirty && !(q.drainCheck.dirOf i).inFlight)) = true := by
      rw [List.all_eq_true]
      intro i _
      have := hA4 i
      unfold Part.dirDue at this
      rw [this]; rfl
    unfold Part.nothingDue
    rw [hall, hF4, h1, h2, h3]
    simp

/-- Where nothing is due the end of an event does nothing. -/
theorem react_of_nothingDue {p : Part} (h : p.nothingDue = true) : p.react = p := by
  unfold Part.nothingDue at h
  simp only [Bool.and_eq_true, List.all_eq_true, Bool.not_eq_true'] at h
  obtain ⟨⟨⟨⟨h1, h2⟩, h3⟩, h4⟩, h5⟩ := h
  have hs : ∀ l : List Item, l.foldl Part.startWrite p = p := by
    intro l
    induction l with
    | nil => rfl
    | cons a l ih => rw [List.foldl_cons, startWrite_idle p (h1 a (mem_allItems a))]; exact ih
  unfold Part.react Part.startWrites
  have e2 : p.formatCheck = p := by unfold Part.formatCheck; rw [h2]; rfl
  have e3 : p.coldCheck = p := by unfold Part.coldCheck; rw [h3]; rfl
  have e4 : p.restoreCheck = p := by unfold Part.restoreCheck; rw [h4]; rfl
  have e5 : p.drainCheck = p := by unfold Part.drainCheck; rw [h5]; rfl
  rw [hs, e2, e3, e4, e5]

/-- In SERVING with no FORMAT pending, the end of an event starts the directory writes that are due and nothing else. -/
theorem react_serving {p : Part} (hm : p.ret.mode = .serving) (hf : p.formatPending = false) : p.react = p.startWrites := by
  have hc := startWrites_changes p
  unfold Part.react
  have h2 : p.startWrites.formatDue = false := by unfold Part.formatDue; rw [hc.formatPending, hf]; rfl
  have hm' : p.startWrites.ret.mode = .serving := by rw [hc.ret]; exact hm
  have h3 : p.startWrites.coldDue = false := coldDue_mode (by rw [hm']; decide)
  have h4 : p.startWrites.restoreDue = false := restoreDue_mode (by rw [hm']; decide)
  have h5 : p.startWrites.drainDue = false := drainDue_mode (by rw [hm']; decide)
  rw [Part.formatCheck, h2]
  simp only [Bool.false_eq_true, if_false]
  rw [Part.coldCheck, h3]
  simp only [Bool.false_eq_true, if_false]
  rw [Part.restoreCheck, h4]
  simp only [Bool.false_eq_true, if_false]
  rw [Part.drainCheck, h5]
  rfl

theorem event_quiet {p : Part} (h : p.quiet = true) (f : Part → Option Part) : (p.event f).quiet = true := by
  unfold Part.event
  split
  · split
    · next q _ =>
      split
      · exact react_quiet q
      · next hr => unfold Part.quiet; rw [Bool.eq_false_iff.2 hr]; rfl
    · exact h
  · exact h

/-- The running part of a state in which nothing due has been left undone has nothing due. -/
theorem nothingDue_of_quiet {p : Part} (h : p.quiet = true) (hr : p.ret.running = true) : p.nothingDue = true := by
  unfold Part.quiet at h
  rw [hr] at h
  simpa using h

end

end Sys2Proof.Machine
end

