-- ==== Sys2Proof/Laws/Commands.lean ====
section
/-! SUPPORT. What the effect of each command may change, and that it keeps `Part.sound`; then the same of the wrappers
(intake, transaction, completion) that the meanings are written with. -/

namespace Sys2Proof.Machine

set_option Elab.async false

section
variable (p : Part)

/-! ## Requests -/

theorem refuseEpoch_changes (i : Port) (r : Req) (st : Status) (j : JournalId) :
    Part.Changes [.reqs] p (p.refuseEpoch i r st j) := answer_changes p _ _

theorem attachNtf_changes (i : Port) : Part.Changes [.ntfs, .ntfCnt] p (p.attachNtf i) :=
  ((clearNtf_changes p i _).trans (modNtf_changes _ _ _)).mono

theorem attach_changes (i : Port) (r : Req) : Part.Changes [.reqs, .ntfs, .ntfCnt] p (p.attach i r) := by
  unfold Part.attach
  split
  · exact (answer_changes p _ _).mono
  · exact (((modReq_changes p _ _).trans (attachNtf_changes _ _)).trans (answer_changes _ _ _)).mono

theorem detach_changes (i : Port) (r : Req) : Part.Changes sessionFields p (p.detach i r) :=
  ((endSession_changes p _ _).trans (answer_changes _ _ _)).mono

theorem status_changes (i : Port) (r : Req) : Part.Changes [.reqs] p (p.status i r) := by
  unfold Part.status
  split
  · exact answer_changes p _ _
  · split
    · exact answer_changes p _ _
    · split
      · exact answer_changes p _ _
      · exact answer_changes p _ _

theorem subscribe_changes (i : Port) (r : Req) : Part.Changes [.reqs, .journals] p (p.subscribe i r) := by
  unfold Part.subscribe
  split
  · exact (answer_changes p _ _).mono
  · split
    · exact (answer_changes p _ _).mono
    · exact ((modConf_changes p _ _).trans (answer_changes _ _ _)).mono

theorem unsubscribe_changes (i : Port) (r : Req) : Part.Changes [.reqs, .journals] p (p.unsubscribe i r) := by
  unfold Part.unsubscribe
  split
  · exact (answer_changes p _ _).mono
  · exact ((modConf_changes p _ _).trans (answer_changes _ _ _)).mono

/-- The fields that an ownership request reaches, a transfer it begins included. -/
abbrev ownershipFields : List Part.Field := [.reqs, .journals, .ntfs, .ntfCnt, .slots, .appendCnt, .mem]

theorem grantClaim_changes (i : Port) (r : Req) (j : JournalId) :
    Part.Changes [.reqs, .journals, .ntfs, .ntfCnt] p (p.grantClaim i r j) :=
  ((((modJournal_changes p _ _).trans (markDirty_journal_changes _ j)).trans (enterTag_changes _ _ _)).trans
    (notifyOwner_changes _ _ _)).mono

theorem claim_changes (i : Port) (r : Req) : Part.Changes [.reqs, .journals, .ntfs, .ntfCnt] p (p.claim i r) := by
  unfold Part.claim
  split
  · exact (answer_changes p _ _).mono
  · split
    · exact (refuseEpoch_changes p _ _ _ _).mono
    · split
      · exact (refuseEpoch_changes p _ _ _ _).mono
      · exact grantClaim_changes p _ _ _

theorem grantRelease_changes (i : Port) (r : Req) (j : JournalId) :
    Part.Changes [.reqs, .journals, .ntfs, .ntfCnt] p (p.grantRelease i r j) :=
  ((((modJournal_changes p _ _).trans (markDirty_journal_changes _ j)).trans (enterTag_changes _ _ _)).trans
    (notifyOwner_changes _ _ _)).mono

theorem release_changes (i : Port) (r : Req) : Part.Changes [.reqs, .journals, .ntfs, .ntfCnt] p (p.release i r) := by
  unfold Part.release
  split
  · exact (answer_changes p _ _).mono
  · split
    · exact (refuseEpoch_changes p _ _ _ _).mono
    · exact grantRelease_changes p _ _ _

theorem beginTransfer_changes (j : JournalId) (c : Option Claimant) :
    Part.Changes [.journals, .ntfs, .ntfCnt, .slots, .appendCnt, .mem] p (p.beginTransfer j c) := by
  unfold Part.beginTransfer
  split
  · exact .refl _ p
  · split
    · dsimp only
      split
      · exact (((((modConf_changes p _ _).trans (markDirty_journal_changes _ j)).trans (fence_changes _ _ _)).trans
          (notify_changes _ _ _)).trans (transferCheck_changes _ _)).mono
      · exact ((((modConf_changes p _ _).trans (markDirty_journal_changes _ j)).trans (fence_changes _ _ _)).trans
          (transferCheck_changes _ _)).mono
    · exact .refl _ p

theorem takeover_changes (i : Port) (r : Req) : Part.Changes ownershipFields p (p.takeover i r) := by
  unfold Part.takeover
  split
  · exact (answer_changes p _ _).mono
  · split
    · exact (refuseEpoch_changes p _ _ _ _).mono
    · split
      · exact (refuseEpoch_changes p _ _ _ _).mono
      · exact ((enterTag_changes p _ _).trans (beginTransfer_changes _ _ _)).mono

theorem checked_changes {fs : List Part.Field} {p q : Part} (i : Port) (r : Req) (h : Part.Changes fs p q)
    (hr : Part.Field.reqs ∈ fs := by decide) : Part.Changes fs p (p.checked i r q) := by
  unfold Part.checked
  split
  · exact (answer_changes p _ _).mono fun f hf => by rw [List.mem_singleton.1 hf]; exact hr
  · exact h

theorem unknown_changes (i : Port) (r : Req) (b : Bool) : Part.Changes [.reqs] p (p.unknown i r b) := by
  unfold Part.unknown
  split
  · exact answer_changes p _ _
  · exact checked_changes i r (answer_changes p _ _)

/-- The frame leaves the buffer, then the request acts (R110). -/
theorem intake_changes {fs : List Part.Field} (i : Port) (isIt : List Byte → Bool) {serve : Req → Part → Part}
    (h : ∀ r q, Part.Changes fs q (serve r q)) :
    Part.Changes (([.reqs, .links] ++ fs) ++ reactFields) p (p.intake i isIt serve) := by
  unfold Part.intake
  refine event_changes p fun q hq => ?_
  obtain ⟨r, _, hr⟩ := Option.map_eq_some_iff.1 hq
  subst hr
  exact (((popFrame_changes p i).trans (countReq_changes _ i _)).mono (gs := [.reqs, .links])).trans (h r _)

/-! ## Appends -/

theorem fillCheck_changes (j : JournalId) (i : Port) : Part.Changes [.journals, .ntfs, .ntfCnt] p (p.fillCheck j i) := by
  unfold Part.fillCheck
  split
  · exact .refl _ p
  · split
    · exact ((modConf_changes p _ _).trans (notify_changes _ _ _)).mono
    · exact .refl _ p

theorem handPad_changes (n : SlotId) (i : Port) (j : JournalId) (c : Conf) (occ : Nat) :
    Part.Changes [.mem] p (p.handPad n i j c occ) := by
  unfold Part.handPad
  split
  · exact .refl _ p
  · exact handRun_changes p _ _ _ _ _

/-- The fields that an APPEND reaches. -/
abbrev appendFields : List Part.Field := [.reqs, .journals, .ntfs, .ntfCnt, .slots, .appendCnt, .mem]

theorem acceptAppend_changes (i : Port) (r : Req) (j : JournalId) (c : Conf) (n : SlotId) :
    Part.Changes appendFields p (p.acceptAppend i r j c n) :=
  (((((((setSlot_changes p _ _).trans (handPad_changes _ n i j c _)).trans (modConf_changes _ _ _)).trans
    (fillCheck_changes _ j i)).trans (enterTag_changes _ _ _)).trans (modReq_changes _ _ _)).trans
      (countAppend_changes _ _)).mono

theorem append_changes (i : Port) (r : Req) : Part.Changes appendFields p (p.append i r) := by
  unfold Part.append
  split
  · exact (answer_changes p _ _).mono
  · split
    · exact ((answer_changes p _ _).trans (countAppend_changes _ _)).mono
    · split
      · exact .refl _ p
      · exact acceptAppend_changes p _ _ _ _ _

theorem lateData_changes (i : Port) : Part.Changes [.links] p (p.lateData i) := modLink_changes p _ _

theorem endPayload_changes (n : SlotId) : Part.Changes [.slots, .appendCnt, .mem] p (p.endPayload n) := by
  unfold Part.endPayload
  split
  · exact .refl _ p
  · split
    · exact ((setSlot_changes p _ _).trans (handRun_changes _ _ _ _ _ _)).mono
    · exact voidSlot_changes p _ _

theorem takeData_changes (n : SlotId) (s : Slot) (bs : List Byte) :
    Part.Changes [.slots, .appendCnt, .mem] p (p.takeData n s bs) := by
  unfold Part.takeData
  dsimp only
  split
  · exact (((setSlot_changes p _ _).trans (handRun_changes _ _ _ _ _ _)).trans (endPayload_changes _ _)).mono
  · exact ((setSlot_changes p _ _).trans (handRun_changes _ _ _ _ _ _)).mono

theorem data_changes (i : Port) (pl : List Byte) : Part.Changes [.links, .slots, .appendCnt, .mem] p (p.data i pl) := by
  unfold Part.data
  split
  · exact (lateData_changes p i).mono
  · split
    · exact (lateData_changes p i).mono
    · split
      · exact (lateData_changes p i).mono
      · split
        · exact .refl _ p
        · split
          · exact (voidSlot_changes p _ _).mono
          · exact (takeData_changes p _ _ _).mono

theorem slotWritten_changes (n : SlotId) : Part.Changes [.slots, .journals, .appendCnt] p (p.slotWritten n) := by
  unfold Part.slotWritten
  split
  · exact .refl _ p
  · dsimp only
    split
    · split
      · exact (((setSlot_changes p _ _).trans (countAppend_changes _ _)).trans (frontierAdvance_changes _ _)).mono
      · exact (setSlot_changes p _ _).mono
    · split
      · exact ((setSlot_changes p _ _).trans (frontierAdvance_changes _ _)).mono
      · exact (setSlot_changes p _ _).mono
    · exact (setSlot_changes p _ _).mono

theorem serveDone_changes (i : Port) {q : Part} (h : p.serveDone i = some q) :
    Part.Changes [.waiting, .reqs, .slots, .journals, .ntfs, .ntfCnt] p q := by
  unfold Part.serveDone at h
  split at h
  · split at h
    · split at h
      · rw [← Option.some.inj h]
        exact ((setWaits_changes p _ _).trans (queueDone_changes _ _ _ _)).mono
      · simp at h
    · simp at h
  · simp at h

theorem serveWaiting_changes (i : Port) {q : Part} (h : p.serveWaiting i = some q) :
    Part.Changes [.waiting, .reqs] p q := by
  unfold Part.serveWaiting at h
  split at h
  · split at h
    · rw [← Option.some.inj h]
      exact (setWaits_changes p _ _).trans (queueDeferred_changes _ _ _)
    · simp at h
  · simp at h

theorem headerWritten_changes : Part.Changes [.journals, .header, .mem] p p.headerWritten :=
  ((modDir_changes p .header _).trans (startWrite_changes _ _)).mono

/-! ## Reading and trimming -/

theorem acceptRead_changes (i : Port) (r : Req) (j : JournalId) (c : Conf) (x : ReadId) :
    Part.Changes [.reqs, .journals, .reads, .readCnt, .mem] p (p.acceptRead i r j c x) :=
  (((((modConf_changes p _ _).trans (setRead_changes _ _ _)).trans (enterTag_changes _ _ _)).trans
    (countRead_changes _ _)).trans (stage_changes _ _)).mono

theorem readRequest_changes (i : Port) (r : Req) :
    Part.Changes [.reqs, .journals, .reads, .readCnt, .mem] p (p.readRequest i r) := by
  unfold Part.readRequest
  split
  · exact (answer_changes p _ _).mono
  · split
    · exact ((answer_changes p _ _).trans (countRead_changes _ _)).mono
    · split
      · exact .refl _ p
      · exact acceptRead_changes p _ _ _ _ _

theorem queueFrame_changes (r : ReadId) {q : Part} (h : p.queueFrame r = some q) :
    Part.Changes [.reqs, .readCnt, .reads, .mem] p q := by
  unfold Part.queueFrame at h
  split at h
  · simp at h
  · split at h
    · split at h
      · dsimp only at h
        split at h
        · rw [← Option.some.inj h]
          exact ((((queueResp_changes p _ _).trans (countRead_changes _ _)).trans (setRead_changes _ _ _)).trans
            (stage_changes _ _)).mono
        · rw [← Option.some.inj h]
          exact (((queueResp_changes p _ _).trans (countRead_changes _ _)).trans (setRead_changes _ _ _)).mono
      · simp at h
    · simp at h

theorem queueReadResponse_changes (r : ReadId) {q : Part} (h : p.queueReadResponse r = some q) :
    Part.Changes [.reqs, .reads, .journals, .readCnt] p q := by
  unfold Part.queueReadResponse at h
  split at h
  · simp at h
  · split at h
    · rw [← Option.some.inj h]
      exact (((queueDeferred_changes p _ _).trans (setRead_changes _ _ _)).trans (removePin_changes _ _ _)).mono
    · simp at h

theorem acceptTrim_changes (i : Port) (r : Req) (j : JournalId) (c : Conf) :
    Part.Changes [.reqs, .journals, .readCnt, .mem] p (p.acceptTrim i r j c) := by
  unfold Part.acceptTrim
  dsimp only
  split
  · exact (((modConf_changes p _ _).trans (enterTag_changes _ _ _)).trans (headAdvance_changes _ _)).mono
  · exact (((modConf_changes p _ _).trans (enterTag_changes _ _ _)).trans (hand_noRead_changes _ rfl)).mono

theorem trimRequest_changes (i : Port) (r : Req) :
    Part.Changes [.reqs, .journals, .readCnt, .mem] p (p.trimRequest i r) := by
  unfold Part.trimRequest
  split
  · exact (answer_changes p _ _).mono
  · split
    · exact (answer_changes p _ _).mono
    · exact acceptTrim_changes p _ _ _ _

theorem trimChecked_changes (j : JournalId) (bs : List Byte) :
    Part.Changes [.reqs, .waiting, .journals, .readCnt] p (p.trimChecked j bs) := by
  unfold Part.trimChecked
  split
  · exact .refl _ p
  · split
    · exact .refl _ p
    · split
      · exact .refl _ p
      · split
        · exact ((modConf_changes p _ _).trans (headAdvance_changes _ _)).mono
        · exact (((modConf_changes p _ _).trans (countRead_changes _ _)).trans (releaseAnswer_changes _ _ _)).mono

/-! ## The port link -/

theorem sendResponse_changes (i : Port) : Part.Changes [.reqs, .links] p (p.sendResponse i) := by
  unfold Part.sendResponse
  split
  · exact .refl _ p
  · exact (modReq_changes p _ _).trans (modLink_changes _ _ _)

theorem sendNotification_changes (i : Port) :
    Part.Changes [.ntfs, .ntfCnt, .reqs, .links] p (p.sendNotification i) := by
  unfold Part.sendNotification
  split
  · exact .refl _ p
  · exact (((takeNtf_changes p i).trans (modReq_changes _ _ _)).trans (modLink_changes _ _ _)).mono

theorem overrun_changes (i : Port) (f : BufFrame) : Part.Changes [.links, .reqs] p (p.overrun i f) := by
  unfold Part.overrun
  dsimp only
  split
  · exact (((modLink_changes p _ _).trans (queueResp_changes _ _ _)).trans (modReq_changes _ _ _)).mono
  · exact ((modLink_changes p _ _).trans (modReq_changes _ _ _)).mono

theorem deliver_changes (i : Port) (f : BufFrame) : Part.Changes [.links, .reqs] p (p.deliver i f) := by
  unfold Part.deliver
  split
  · exact ((modReq_changes p _ _).trans (modLink_changes _ _ _)).mono
  · exact overrun_changes p i f

theorem receiveInOrder_changes (i : Port) (t : SeqType) (pl : List Byte) :
    Part.Changes [.links, .reqs] p (p.receiveInOrder i t pl) := by
  unfold Part.receiveInOrder
  dsimp only
  split
  · exact ((modLink_changes p _ _).trans (deliver_changes _ _ _)).mono
  · exact ((modLink_changes p _ _).trans (deliver_changes _ _ _)).mono
  · exact ((modLink_changes p _ _).trans (modLink_changes _ _ _)).mono

theorem classify_changes (i : Port) (t : SeqType) (sq : Seq) (pl : List Byte) :
    Part.Changes [.links, .reqs] p (p.classify i t sq pl) := by
  unfold Part.classify
  split
  · exact receiveInOrder_changes p _ _ _
  · exact (modLink_changes p _ _).mono
  · exact (modLink_changes p _ _).mono

theorem goodSequenced_changes (i : Port) (t : SeqType) (h : Header) (pl : List Byte) :
    Part.Changes sessionFields p (p.goodSequenced i t h pl) := by
  unfold Part.goodSequenced
  dsimp only
  split
  · exact (modLink_changes p _ _).mono
  · exact ((modLink_changes p _ _).trans (modLink_changes _ _ _)).mono
  · split
    · exact ((((modLink_changes p _ _).trans (modLink_changes _ _ _)).trans (takeHeader_changes _ _ _)).trans
        (classify_changes _ _ _ _ _)).mono
    · exact (((modLink_changes p _ _).trans (modLink_changes _ _ _)).trans (takeHeader_changes _ _ _)).mono

theorem syncIdle_changes (i : Port) : Part.Changes [.links, .reqs] p (p.syncIdle i) := by
  unfold Part.syncIdle
  dsimp only
  split
  · exact (((modLink_changes p _ _).trans (modLink_changes _ _ _)).trans (modReq_changes _ _ _)).mono
  · exact (modLink_changes p _ _).mono

theorem goodIdle_changes (i : Port) (h : Header) : Part.Changes sessionFields p (p.goodIdle i h) := by
  unfold Part.goodIdle
  dsimp only
  split
  · split
    · exact ((modLink_changes p _ _).trans (modLink_changes _ _ _)).mono
    · exact (modLink_changes p _ _).mono
  · exact ((modLink_changes p _ _).trans (syncIdle_changes _ _)).mono
  · split
    · exact ((((modLink_changes p _ _).trans (modLink_changes _ _ _)).trans (takeHeader_changes _ _ _)).trans
        (modLink_changes _ _ _)).mono
    · exact (((modLink_changes p _ _).trans (modLink_changes _ _ _)).trans (takeHeader_changes _ _ _)).mono

theorem goodReset_changes (i : Port) (h : Header) : Part.Changes sessionFields p (p.goodReset i h) := by
  unfold Part.goodReset
  dsimp only
  split
  · split
    · exact ((modLink_changes p _ _).trans (modLink_changes _ _ _)).mono
    · exact (modLink_changes p _ _).mono
  · exact ((modLink_changes p _ _).trans (modLink_changes _ _ _)).mono
  · split
    · exact ((((modLink_changes p _ _).trans (modLink_changes _ _ _)).trans (takeHeader_changes _ _ _)).trans
        (linkDown_changes _ _ _)).mono
    · exact (((modLink_changes p _ _).trans (modLink_changes _ _ _)).trans (takeHeader_changes _ _ _)).mono

/-! ## The memory engine and the retention controller -/

theorem admitHeld_changes (c : Client) {q : Part} (h : p.admitHeld c = some q) : Part.Changes [.reads, .mem] p q := by
  unfold Part.admitHeld at h
  split at h
  · simp at h
  · split at h
    · simp at h
    · split at h
      · rw [← Option.some.inj h]
        exact ((modMem_changes p _).trans (enqueue_changes _ _)).mono
      · simp at h

theorem refreshOwed_changes : Part.Changes [.mem, .dram, .maint] p p.refreshOwed := by
  unfold Part.refreshOwed
  split
  · exact ((modMem_changes p _).trans (arbitrate_changes _)).mono
  · have h : Part.Changes [.dram] p { p with dram := Memory.writeCells p.dram (Config.lostBytes p.mem.missCount) } :=
      fun x hx => by cases x <;> first | (simp at hx; done) | rfl
    exact (((h.trans (modMem_changes _ _)).trans (raise_changes _ _)).trans (arbitrate_changes _)).mono

theorem initialiseDone_changes :
    Part.Changes [.dram, .mem, .journals, .header, .maint, .ctl] p p.initialiseDone := by
  have h : Part.Changes [.dram] p { p with dram := [] } :=
    fun x hx => by cases x <;> first | (simp at hx; done) | rfl
  unfold Part.initialiseDone
  dsimp only
  split
  · exact (((h.trans (modMem_changes _ _)).trans (arbitrate_changes _)).trans (coldFill_changes _)).mono
  · exact ((h.trans (modMem_changes _ _)).trans (arbitrate_changes _)).mono

theorem entryComplete_changes : Part.Changes allButDram p p.entryComplete :=
  (((modMem_changes p _).trans (modRet_changes _ _)).trans (entryDone_changes _)).mono

theorem exitComplete_changes : Part.Changes [.mem, .ret, .journals, .header, .maint, .ctl] p p.exitComplete := by
  have h := ((modMem_changes p MemEngine.exited).trans
    (modRet_changes _ fun r => { r with selfRefresh := false })).trans (arbitrate_changes _)
  unfold Part.exitComplete
  dsimp only
  split
  · exact h.mono
  · split
    · exact (h.trans (coldFill_changes _)).mono
    · exact (h.trans (loadHeader_changes _)).mono
    · exact h.mono

theorem pfailFalls_changes : Part.Changes allButDram p p.pfailFalls := by
  unfold Part.pfailFalls
  refine (event_changes (fs := allButDram) p fun q hq => ?_).mono
  split at hq
  · rw [← Option.some.inj hq]; exact abandon_changes p
  · rw [← Option.some.inj hq]; exact abandon_changes p
  · rw [← Option.some.inj hq]; exact (quiesce_changes p _).mono
  · rw [← Option.some.inj hq]; exact (retain_changes p).mono
  · simp at hq

/-! ## The maintenance port -/

theorem raiseLayout_changes : Part.Changes [.header] p p.raiseLayout :=
  ((modHeader_changes p _).trans (markDirty_header_changes _)).mono

theorem setLayout_changes (j : Byte) (b c : W16) : Part.Changes [.journals, .header, .maint] p (p.setLayout j b c) := by
  unfold Part.setLayout
  split
  · exact (respond_changes p _ _).mono
  · split
    · exact (respond_changes p _ _).mono
    · split
      · exact ((((modJournal_changes p _ _).trans (markDirty_journal_changes _ _)).trans (raiseLayout_changes _)).trans
          (respond_changes _ _ _)).mono
      · exact (respond_changes p _ _).mono

theorem clearLayout_changes (j : Byte) :
    Part.Changes [.journals, .header, .maint, .ntfs, .ntfCnt] p (p.clearLayout j) := by
  unfold Part.clearLayout
  split
  · exact (respond_changes p _ _).mono
  · split
    · exact (respond_changes p _ _).mono
    · dsimp only
      split
      · exact (((((notifyAll_changes p _ _).trans (modJournal_changes _ _ _)).trans
          (markDirty_journal_changes _ _)).trans (raiseLayout_changes _)).trans (respond_changes _ _ _)).mono
      · exact (respond_changes p _ _).mono

theorem replaceParam_changes (a b : Byte) (v : W16) {q : Part} (h : p.replaceParam a b v = some q) :
    Part.Changes [.maint, .journals] p q := by
  unfold Part.replaceParam at h
  dsimp only at h
  split at h
  · split at h
    · rw [← Option.some.inj h]; exact (modMaint_changes p _).mono
    · simp at h
  · split at h
    · rw [← Option.some.inj h]; exact (modMaint_changes p _).mono
    · simp at h
  · split at h
    · rw [← Option.some.inj h]; exact (modMaint_changes p _).mono
    · simp at h
  · obtain ⟨r, _, hr⟩ := Option.map_eq_some_iff.1 h
    subst hr; exact (modMaint_changes p _).mono
  · split at h
    · obtain ⟨r, _, hr⟩ := Option.map_eq_some_iff.1 h
      subst hr; exact (modJournal_changes p _ _).mono
    · simp at h
  · simp at h

theorem setParam_changes (a b : Byte) (v : W16) : Part.Changes [.maint, .journals, .header] p (p.setParam a b v) := by
  unfold Part.setParam
  split
  · next q hq =>
    exact (((replaceParam_changes p a b v hq).trans (markDirty_header_changes _)).trans (respond_changes _ _ _)).mono
  · exact (respond_changes p _ _).mono

theorem accepted_changes (c : DeferredCommand) : Part.Changes [.maint] p (p.accepted c) :=
  (modMaint_changes p _).both (respond_changes _ _ _)

/-- The fields that a FORCE_RELEASE reaches. -/
abbrev forceFields : List Part.Field := [.maint, .journals, .ntfs, .ntfCnt, .slots, .appendCnt, .mem]

theorem forceRelease_changes (j : Byte) : Part.Changes forceFields p (p.forceRelease j) := by
  unfold Part.forceRelease
  split
  · exact (respond_changes p _ _).mono
  · split
    · exact (respond_changes p _ _).mono
    · split
      · exact (respond_changes p _ _).mono
      · next k c _ _ =>
        unfold Part.forceJournal
        split
        · exact (respond_changes p _ _).mono
        · exact (respond_changes p _ _).mono
        · split
          · exact (respond_changes p _ _).mono
          · exact ((accepted_changes p _).trans (beginTransfer_changes _ _ _)).mono
        · split
          · exact (respond_changes p _ _).mono
          · exact ((((accepted_changes p _).trans (modJournal_changes _ _ _)).trans
              (markDirty_journal_changes _ k)).trans (notifyOwner_changes _ _ _)).mono

theorem format_changes : Part.Changes [.maint, .formatPending] p p.format := by
  unfold Part.format
  split
  · exact (respond_changes p _ _).mono
  · have h : Part.Changes [.formatPending] (p.accepted .format) { p.accepted .format with formatPending := true } :=
      fun x hx => by cases x <;> first | (simp at hx; done) | rfl
    exact ((accepted_changes p _).trans h).mono

theorem clearCounters_changes :
    Part.Changes [.links, .reqs, .ntfCnt, .appendCnt, .readCnt, .mem, .ctl, .maint] p p.clearCounters :=
  fun x hx => by cases x <;> first | (simp at hx; done) | rfl

theorem transaction_changes {fs : List Part.Field} (modes : List Mode) {act : Part → Part}
    (h : ∀ q, Part.Changes fs q (act q)) (hm : Part.Field.maint ∈ fs := by decide) :
    Part.Changes (fs ++ reactFields) p (p.transaction modes act) := by
  unfold Part.transaction
  refine event_changes p fun q hq => ?_
  rw [← Option.some.inj hq]
  have hmono : ∀ f ∈ [Part.Field.maint], f ∈ fs := fun f hf => by rw [List.mem_singleton.1 hf]; exact hm
  have h1 := (countMaint_changes p fun c => { c with completed := satInc c.completed }).mono hmono
  split
  · exact h1.both (h _)
  · exact h1.both ((respond_changes _ _ _).mono hmono)

end

/-! ## Soundness of the commands' effects -/

section
variable {p : Part}

theorem attach_sound (hp : p.sound) (i : Port) (r : Req) : (p.attach i r).sound := by
  unfold Part.attach
  split
  · exact answer_sound hp _ _
  · have h1 : (p.modReq i fun l => l.opened r.attachTag).sound :=
      modReq_sound hp i fun h => ⟨h.1, Nat.zero_le _, rfl, Nat.zero_le _, .nil⟩
    have h2 : ((p.modReq i fun l => l.opened r.attachTag).attachNtf i).sound := by
      unfold Part.attachNtf
      exact modNtf_sound (clearNtf_sound h1 _ _) i fun h => h
    exact answer_sound h2 _ _

theorem detach_sound (hp : p.sound) (i : Port) (r : Req) : (p.detach i r).sound := by
  have h := endSession_sound hp i .detach
  unfold Part.detach
  generalize p.endSession i .detach = q at h
  exact answer_sound h _ _

theorem status_sound (hp : p.sound) (i : Port) (r : Req) : (p.status i r).sound := by
  unfold Part.status
  split
  · exact answer_sound hp _ _
  · split
    · exact answer_sound hp _ _
    · split <;> exact answer_sound hp _ _

theorem subscribe_sound (hp : p.sound) (i : Port) (r : Req) : (p.subscribe i r).sound := by
  unfold Part.subscribe
  split
  · exact answer_sound hp _ _
  · split
    · exact answer_sound hp _ _
    · exact answer_sound ((modConf_changes p _ _).sound (hp := hp)) _ _

theorem unsubscribe_sound (hp : p.sound) (i : Port) (r : Req) : (p.unsubscribe i r).sound := by
  unfold Part.unsubscribe
  split
  · exact answer_sound hp _ _
  · exact answer_sound ((modConf_changes p _ _).sound (hp := hp)) _ _

theorem claim_sound (hp : p.sound) {i : Port} (ht : (p.req i).tags.length < Config.maxTags) (r : Req) :
    (p.claim i r).sound := by
  unfold Part.claim
  split
  · exact answer_sound hp _ _
  · split
    · exact answer_sound hp _ _
    · split
      · exact answer_sound hp _ _
      · exact notifyOwner_sound (enterTag_sound (((modJournal_changes p _ _).trans
          (markDirty_journal_changes _ _)).sound (hp := hp)) ht _) _ _

theorem releaseRequest_sound (hp : p.sound) {i : Port} (ht : (p.req i).tags.length < Config.maxTags) (r : Req) :
    (p.release i r).sound := by
  unfold Part.release
  split
  · exact answer_sound hp _ _
  · split
    · exact answer_sound hp _ _
    · exact notifyOwner_sound (enterTag_sound (((modJournal_changes p _ _).trans
        (markDirty_journal_changes _ _)).sound (hp := hp)) ht _) _ _

theorem beginTransfer_sound (hp : p.sound) (j : JournalId) (c : Option Claimant) : (p.beginTransfer j c).sound := by
  unfold Part.beginTransfer
  split
  · exact hp
  · split
    · next o t _ =>
      have h1 : (((p.modConf j fun c' => { c' with own := .transferring (some o) t c }).markDirty
          (.journal j)).fence j o).sound :=
        fence_sound (((modConf_changes p _ _).trans (markDirty_journal_changes _ j)).sound (hp := hp)) _ _
      dsimp only
      split
      · exact transferCheck_sound (notify_sound h1 _ _) _
      · exact transferCheck_sound h1 _
    · exact hp

theorem takeover_sound (hp : p.sound) {i : Port} (ht : (p.req i).tags.length < Config.maxTags) (r : Req) :
    (p.takeover i r).sound := by
  unfold Part.takeover
  split
  · exact answer_sound hp _ _
  · split
    · exact answer_sound hp _ _
    · split
      · exact answer_sound hp _ _
      · exact beginTransfer_sound (enterTag_sound hp ht _) _ _

theorem requestCheck_room {i : Port} {r : Req} (h : p.requestCheck i r = none) :
    (p.req i).tags.length < Config.maxTags := by
  unfold Part.requestCheck at h
  split at h
  · cases h
  · split at h
    · cases h
    · split at h
      · cases h
      · split at h
        · cases h
        · next hn => exact Nat.lt_of_not_le hn

/-- A request reaches its block with a tag table that has room (R111). -/
theorem checked_sound (hp : p.sound) {q : Part} {i : Port}
    (hq : (p.req i).tags.length < Config.maxTags → q.sound) (r : Req) : (p.checked i r q).sound := by
  unfold Part.checked
  split
  · exact answer_sound hp _ _
  · next h => exact hq (requestCheck_room h)

theorem unknown_sound (hp : p.sound) (i : Port) (r : Req) (b : Bool) : (p.unknown i r b).sound := by
  unfold Part.unknown
  split
  · exact answer_sound hp _ _
  · exact checked_sound hp (fun _ => answer_sound hp _ _) _

theorem intake_sound (hp : p.sound) (i : Port) (isIt : List Byte → Bool) {serve : Req → Part → Part}
    (h : ∀ r q, q.sound → (serve r q).sound) : (p.intake i isIt serve).sound := by
  unfold Part.intake
  refine event_sound hp fun q hq => ?_
  obtain ⟨r, _, hr⟩ := Option.map_eq_some_iff.1 hq
  subst hr
  exact h r _ (countReq_sound (popFrame_sound hp i) _ _)

theorem append_sound (hp : p.sound) {i : Port} (ht : (p.req i).tags.length < Config.maxTags) (r : Req) :
    (p.append i r).sound := by
  unfold Part.append
  split
  · exact answer_sound hp _ _
  · split
    · exact (countAppend_changes _ _).sound (hp := answer_sound hp _ _)
    · split
      · exact hp
      · unfold Part.acceptAppend
        dsimp only
        have hreq : ∀ n x k j c o f m, ((((p.setSlot n x).handPad n k j c o).modConf j f).fillCheck j m).req i = p.req i :=
          fun n x k j c o f m => ((((setSlot_changes p n x).trans (handPad_changes _ n k j c o)).trans
            (modConf_changes _ j f)).trans (fillCheck_changes _ j m)).req i
        refine (countAppend_changes _ _).sound
          (hp := modReq_sound (enterTag_sound ?_ (by rw [hreq]; exact ht) _) _ fun h => h)
        unfold Part.fillCheck
        have hpad : ∀ q : Part, q.sound → ∀ n k j c o, (q.handPad n k j c o).sound := by
          intro q hq n k j c o
          unfold Part.handPad
          split
          · exact hq
          · exact handRun_sound hq _ _ _ _
        have h1 : ∀ n x k j c o f, (((p.setSlot n x).handPad n k j c o).modConf j f).sound := by
          intro n x k j c o f
          exact (modConf_changes _ _ _).sound (hp := hpad _ ((setSlot_changes p _ _).sound (hp := hp)) _ _ _ _ _)
        split
        · exact h1 _ _ _ _ _ _ _
        · split
          · exact notify_sound ((modConf_changes _ _ _).sound (hp := h1 _ _ _ _ _ _ _)) _ _
          · exact h1 _ _ _ _ _ _ _

theorem lateData_sound (hp : p.sound) (i : Port) : (p.lateData i).sound := modLink_sound hp i fun h => h

theorem endPayload_sound (hp : p.sound) (n : SlotId) : (p.endPayload n).sound := by
  unfold Part.endPayload
  split
  · exact hp
  · split
    · exact handRun_sound ((setSlot_changes p _ _).sound (hp := hp)) _ _ _ _
    · exact voidSlot_sound hp _ _

theorem data_sound (hp : p.sound) (i : Port) (pl : List Byte) : (p.data i pl).sound := by
  unfold Part.data
  split
  · exact lateData_sound hp _
  · split
    · exact lateData_sound hp _
    · split
      · exact lateData_sound hp _
      · split
        · exact hp
        · split
          · exact voidSlot_sound hp _ _
          · unfold Part.takeData
            dsimp only
            split
            · exact endPayload_sound (handRun_sound ((setSlot_changes p _ _).sound (hp := hp)) _ _ _ _) _
            · exact handRun_sound ((setSlot_changes p _ _).sound (hp := hp)) _ _ _ _

theorem slotWritten_sound (hp : p.sound) (n : SlotId) : (p.slotWritten n).sound :=
  (slotWritten_changes p n).sound (hp := hp)

theorem serveDone_sound (hp : p.sound) (i : Port) {q : Part} (h : p.serveDone i = some q) : q.sound := by
  unfold Part.serveDone at h
  split at h
  · split at h
    · split at h
      · rw [← Option.some.inj h]
        exact queueDone_sound ((setWaits_changes p _ _).sound (hp := hp)) _ _ _
      · simp at h
    · simp at h
  · simp at h

theorem serveWaiting_sound (hp : p.sound) (i : Port) {q : Part} (h : p.serveWaiting i = some q) : q.sound := by
  unfold Part.serveWaiting at h
  split at h
  · split at h
    · rw [← Option.some.inj h]
      exact queueDeferred_sound ((setWaits_changes p _ _).sound (hp := hp)) _ _
    · simp at h
  · simp at h

theorem headerWritten_sound (hp : p.sound) : p.headerWritten.sound :=
  startWrite_sound ((modDir_changes p .header _).sound (hp := hp)) _

theorem readRequest_sound (hp : p.sound) {i : Port} (ht : (p.req i).tags.length < Config.maxTags) (r : Req) :
    (p.readRequest i r).sound := by
  unfold Part.readRequest
  split
  · exact answer_sound hp _ _
  · split
    · exact (countRead_changes _ _).sound (hp := answer_sound hp _ _)
    · split
      · exact hp
      · have h1 : ∀ j f x c t, (((p.modConf j f).setRead x c).enterTag i t).sound := fun j f x c t =>
          enterTag_sound (((modConf_changes p _ _).trans (setRead_changes _ _ _)).sound (hp := hp)) ht _
        exact stage_sound ((countRead_changes _ _).sound (hp := h1 _ _ _ _ _)) _

theorem queueFrame_sound (hp : p.sound) (r : ReadId) {q : Part} (h : p.queueFrame r = some q) : q.sound := by
  unfold Part.queueFrame at h
  split at h
  · simp at h
  · split at h
    · split at h
      · have h1 : ∀ i f g x c, (((p.queueResp i f).countRead g).setRead x c).sound := fun i f g x c =>
          ((countRead_changes _ _).trans (setRead_changes _ _ _)).sound (hp := queueResp_sound hp _ _)
        dsimp only at h
        split at h
        · rw [← Option.some.inj h]; exact stage_sound (h1 _ _ _ _ _) _
        · rw [← Option.some.inj h]; exact h1 _ _ _ _ _
      · simp at h
    · simp at h

theorem queueReadResponse_sound (hp : p.sound) (r : ReadId) {q : Part} (h : p.queueReadResponse r = some q) :
    q.sound := by
  unfold Part.queueReadResponse at h
  split at h
  · simp at h
  · split at h
    · rw [← Option.some.inj h]
      exact ((setRead_changes _ _ _).trans (removePin_changes _ _ _)).sound (hp := queueDeferred_sound hp _ _)
    · simp at h

theorem trimRequest_sound (hp : p.sound) {i : Port} (ht : (p.req i).tags.length < Config.maxTags) (r : Req) :
    (p.trimRequest i r).sound := by
  unfold Part.trimRequest
  split
  · exact answer_sound hp _ _
  · split
    · exact answer_sound hp _ _
    · unfold Part.acceptTrim
      dsimp only
      have h1 : ∀ j f, ((p.modConf j f).enterTag i r.tag).sound := fun j f =>
        enterTag_sound ((modConf_changes p _ _).sound (hp := hp)) ht _
      split
      · exact headAdvance_sound (h1 _ _) _
      · exact hand_sound (h1 _ _) _

theorem trimChecked_sound (hp : p.sound) (j : JournalId) (bs : List Byte) : (p.trimChecked j bs).sound := by
  unfold Part.trimChecked
  split
  · exact hp
  · split
    · exact hp
    · split
      · exact hp
      · split
        · exact headAdvance_sound ((modConf_changes p _ _).sound (hp := hp)) _
        · exact releaseAnswer_sound (((modConf_changes p _ _).trans (countRead_changes _ _)).sound (hp := hp)) _ _

theorem selects_ready {i : Port} {x : Source} (h : p.selects i = some x) : (p.link i).ready = true := by
  unfold Part.selects at h
  split at h
  · next hr => exact hr
  · simp at h

theorem sendResponse_sound (hp : p.sound) {i : Port} (hr : (p.link i).ready = true) : (p.sendResponse i).sound := by
  unfold Part.sendResponse
  split
  · exact hp
  · next f rest hq =>
    refine modLink_sound (modReq_sound hp i fun h => ⟨h.1, ?_, h.2.2⟩) i fun h => accept_sound h ?_ _ _
    · have := h.2.1
      rw [hq] at this
      rw [List.length_cons] at this
      exact Nat.le_of_succ_le this
    · rw [modReq_link]; exact hr

theorem sendNotification_sound (hp : p.sound) {i : Port} (hr : (p.link i).ready = true) :
    (p.sendNotification i).sound := by
  unfold Part.sendNotification
  split
  · exact hp
  · refine modLink_sound (modReq_sound (takeNtf_sound hp i) i fun h => h) i fun h => accept_sound h ?_ _ _
    rw [modReq_link, (takeNtf_changes p i).link]
    exact hr

theorem overrun_sound (hp : p.sound) (i : Port) (f : BufFrame) : (p.overrun i f).sound := by
  have h1 : (p.modLink i fun u => { u with cnt := { u.cnt with overruns := satInc u.cnt.overruns } }).sound :=
    modLink_sound hp i fun h => h
  unfold Part.overrun
  dsimp only
  split
  · exact modReq_sound (queueResp_sound h1 _ _) i fun h => h
  · exact modReq_sound h1 i fun h => h

theorem deliver_sound (hp : p.sound) (i : Port) (f : BufFrame) : (p.deliver i f).sound := by
  unfold Part.deliver
  split
  · next hl =>
    refine modLink_sound (modReq_sound hp i fun h => ⟨?_, h.2⟩) i fun h => ⟨h.1, ?_, h.2.2⟩
    · change ((p.req i).buffer ++ [f]).length ≤ _
      rw [List.length_append]; exact hl
    · exact Nat.le_trans (Nat.sub_le _ _) h.2.1
  · exact overrun_sound hp i f

theorem receiveInOrder_sound (hp : p.sound) (i : Port) (t : SeqType) (pl : List Byte) :
    (p.receiveInOrder i t pl).sound := by
  have h1 : (p.modLink i fun u => { u with expected := u.expected + 1, nak := .none }).sound :=
    modLink_sound hp i fun h => h
  unfold Part.receiveInOrder
  dsimp only
  split
  · exact deliver_sound h1 _ _
  · exact deliver_sound h1 _ _
  · exact modLink_sound h1 i fun h => h

theorem classify_sound (hp : p.sound) (i : Port) (t : SeqType) (sq : Seq) (pl : List Byte) :
    (p.classify i t sq pl).sound := by
  unfold Part.classify
  split
  · exact receiveInOrder_sound hp _ _ _
  · exact modLink_sound hp i fun h => h
  · exact modLink_sound hp i fun h => h

theorem checkFail_sound {u : LinkUnit} (h : u.sound) : u.checkFail.sound := by
  unfold LinkUnit.checkFail
  dsimp only
  split <;> exact h

theorem goodSequenced_sound (hp : p.sound) (i : Port) (t : SeqType) (h : Header) (pl : List Byte) :
    (p.goodSequenced i t h pl).sound := by
  have h1 : (p.modLink i LinkUnit.countGood).sound := modLink_sound hp i fun h => h
  have h2 : ((p.modLink i LinkUnit.countGood).modLink i LinkUnit.restartSilence).sound := modLink_sound h1 i fun h => h
  unfold Part.goodSequenced
  dsimp only
  split
  · exact h1
  · exact modLink_sound h1 i fun h => h
  · split
    · exact classify_sound (takeHeader_sound h2 _ _) _ _ _ _
    · exact takeHeader_sound h2 _ _

theorem enterSync_sound {u : LinkUnit} (h : u.sound) (hs : u.state = .down) : u.enterSync.sound := by
  obtain ⟨h1, h2, h3, h4, h5, h6, h7⟩ := h
  refine ⟨h1, h2, h3, Nat.zero_le _, h5, h6, fun _ => h7 (by rw [hs]; decide)⟩

theorem enterUp_sound {u : LinkUnit} (h : u.sound) : u.enterUp.sound :=
  ⟨Nat.zero_le _, Nat.le_refl _, Nat.le_refl _, h.2.2.2.1, rfl, rfl, fun hn => absurd rfl hn⟩

theorem syncIdle_sound (hp : p.sound) (i : Port) : (p.syncIdle i).sound := by
  have h1 : (p.modLink i fun u => { u.restartSilence with syncCount := u.syncCount + 1 }).sound :=
    modLink_sound hp i fun h => h
  unfold Part.syncIdle
  dsimp only
  split
  · exact modReq_sound (modLink_sound h1 i fun h => enterUp_sound h) i fun h => h
  · exact h1

theorem idleSeq_sound {u : LinkUnit} (h : u.sound) (sq : Seq) : (u.idleSeq sq).sound := by
  unfold LinkUnit.idleSeq
  split
  · split <;> exact h
  · exact h
  · exact h

theorem goodIdle_sound (hp : p.sound) (i : Port) (h : Header) : (p.goodIdle i h).sound := by
  have h1 : (p.modLink i LinkUnit.countGood).sound := modLink_sound hp i fun h => h
  have h2 : ((p.modLink i LinkUnit.countGood).modLink i LinkUnit.restartSilence).sound := modLink_sound h1 i fun h => h
  unfold Part.goodIdle
  dsimp only
  split
  · next hs =>
    split
    · refine modLink_sound h1 i fun h => enterSync_sound h ?_
      rw [modLink_link_self]; exact hs
    · exact h1
  · exact syncIdle_sound h1 i
  · split
    · exact modLink_sound (takeHeader_sound h2 _ _) i fun h => idleSeq_sound h _
    · exact takeHeader_sound h2 _ _

theorem goodReset_sound (hp : p.sound) (i : Port) (h : Header) : (p.goodReset i h).sound := by
  have h1 : (p.modLink i LinkUnit.countGood).sound := modLink_sound hp i fun h => h
  have h2 : ((p.modLink i LinkUnit.countGood).modLink i LinkUnit.restartSilence).sound := modLink_sound h1 i fun h => h
  unfold Part.goodReset
  dsimp only
  split
  · next hs =>
    split
    · refine modLink_sound h1 i fun h => enterSync_sound h ?_
      rw [modLink_link_self]; exact hs
    · exact h1
  · exact modLink_sound h1 i fun h => h
  · split
    · exact linkDown_sound (takeHeader_sound h2 _ _) _ _
    · exact takeHeader_sound h2 _ _

theorem sendIdle_sound {u : LinkUnit} (h : u.sound) : u.sendIdle.sound := by
  unfold LinkUnit.sendIdle
  split <;> exact h

theorem sendReset_sound {u : LinkUnit} (h : u.sound) : u.sendReset.sound :=
  ⟨h.1, h.2.1, h.2.2.1, Nat.min_le_left _ _, h.2.2.2.2⟩

theorem syncSilence_sound {u : LinkUnit} (h : u.sound) (hs : u.state = .sync) : u.syncSilence.sound := by
  obtain ⟨h1, h2, h3, h4, h5, h6, h7⟩ := h
  exact ⟨h1, h2, h3, Nat.zero_le _, h5, h6, fun _ => h7 (by rw [hs]; decide)⟩

theorem admitHeld_sound (hp : p.sound) (c : Client) {q : Part} (h : p.admitHeld c = some q) : q.sound := by
  unfold Part.admitHeld at h
  split at h
  · simp at h
  · split at h
    · simp at h
    · split at h
      · next hr =>
        rw [← Option.some.inj h]
        exact enqueue_sound (modMem_sound hp fun h => h) hr
      · simp at h

theorem refreshOwed_sound (hp : p.sound) : p.refreshOwed.sound := by
  unfold Part.refreshOwed
  split
  · next hd => exact arbitrate_sound (modMem_sound hp fun h => ⟨h.1, h.2.1, hd⟩)
  · obtain ⟨h1, h2, h3, h4, h5⟩ := hp
    have h : Part.sound { p with dram := Memory.writeCells p.dram (Config.lostBytes p.mem.missCount) } :=
      ⟨h1, h2, h3, h4, Memory.wf_writeCells _ h5⟩
    exact arbitrate_sound ((raise_changes _ _).sound (hp := modMem_sound (f := MemEngine.missed) h fun h => h))

theorem refreshed_sound {m : MemEngine} (h : m.sound) (k : RefreshKind) : (m.refreshed k).sound :=
  ⟨h.1, h.2.1, Nat.le_trans (Nat.sub_le _ _) h.2.2⟩

theorem initialiseDone_sound (hp : p.sound) : p.initialiseDone.sound := by
  obtain ⟨h1, h2, h3, h4, _⟩ := hp
  have h : Part.sound { p with dram := [] } := ⟨h1, h2, h3, h4, Memory.wf_nil⟩
  have hi := arbitrate_sound (modMem_sound (f := MemEngine.initialised) h fun h => ⟨h.1, h.2.1, Nat.zero_le _⟩)
  unfold Part.initialiseDone
  dsimp only
  split
  · exact coldFill_sound hi
  · exact hi

theorem entryComplete_sound (hp : p.sound) : p.entryComplete.sound := by
  have h := modMem_sound (f := MemEngine.entered) hp fun h => ⟨h.1, h.2.1, Nat.zero_le _⟩
  exact entryDone_sound ((modRet_changes _ _).sound (hp := h))

theorem exitComplete_sound (hp : p.sound) : p.exitComplete.sound := by
  have h := modMem_sound (f := MemEngine.exited) hp fun h => ⟨h.1, h.2.1, (by decide : 1 ≤ 8)⟩
  have h1 := arbitrate_sound ((modRet_changes _ fun r => { r with selfRefresh := false }).sound (hp := h))
  unfold Part.exitComplete
  dsimp only
  split
  · exact h1
  · split
    · exact coldFill_sound h1
    · exact loadHeader_sound h1
    · exact h1

theorem pfailFalls_sound (hp : p.sound) : p.pfailFalls.sound := by
  unfold Part.pfailFalls
  refine event_sound hp fun q hq => ?_
  split at hq
  · rw [← Option.some.inj hq]; exact abandon_sound hp
  · rw [← Option.some.inj hq]; exact abandon_sound hp
  · rw [← Option.some.inj hq]; exact quiesce_sound hp _
  · rw [← Option.some.inj hq]; exact (retain_changes p).sound (hp := hp)
  · simp at hq

theorem forceRelease_sound (hp : p.sound) (j : Byte) : (p.forceRelease j).sound := by
  have hr : ∀ st bs, (p.respond st bs).sound := fun st bs => (respond_changes p st bs).sound (hp := hp)
  have ha : ∀ c, (p.accepted c).sound := fun c => (accepted_changes p c).sound (hp := hp)
  unfold Part.forceRelease
  split
  · exact hr _ _
  · split
    · exact hr _ _
    · split
      · exact hr _ _
      · unfold Part.forceJournal
        split
        · exact hr _ _
        · exact hr _ _
        · split
          · exact hr _ _
          · exact beginTransfer_sound (ha _) _ _
        · split
          · exact hr _ _
          · exact notifyOwner_sound (((modJournal_changes _ _ _).trans (markDirty_journal_changes _ _)).sound
              (hp := ha _)) _ _

theorem clearLayout_sound (hp : p.sound) (j : Byte) : (p.clearLayout j).sound := by
  have hr : ∀ st bs, (p.respond st bs).sound := fun st bs => (respond_changes p st bs).sound (hp := hp)
  unfold Part.clearLayout
  split
  · exact hr _ _
  · split
    · exact hr _ _
    · dsimp only
      split
      · exact ((((modJournal_changes _ _ _).trans (markDirty_journal_changes _ _)).trans (raiseLayout_changes _)).trans
          (respond_changes _ _ _)).sound (hp := notifyAll_sound hp _ _)
      · exact hr _ _

theorem get_map {α β : Type} {n : Nat} (v : Vector α n) (f : α → β) (i : Fin n) : (v.map f).get i = f (v.get i) := by
  change (v.map f)[i.val] = f v[i.val]
  simp

theorem clearCounters_sound (hp : p.sound) : p.clearCounters.sound := by
  obtain ⟨h1, h2, h3, h4, h5⟩ := hp
  refine ⟨fun i => ?_, fun i => ?_, h3, h4, h5⟩
  · have : p.clearCounters.link i = { p.link i with cnt := {} } := get_map _ _ _
    rw [this]; exact h1 i
  · have : p.clearCounters.req i = { p.req i with cnt := {} } := get_map _ _ _
    rw [this]; exact h2 i

/-- The completion of an access: DRAM and banks change, then the client acts (R142). -/
theorem complete_sound {s t : State} (hs : s.part.sound) {act : Client → Option (Nat → List Byte → Part → Part)}
    (h : ∀ c f, act c = some f → ∀ a bs q, Part.sound q → Part.sound (f a bs q)) (ht : s.complete act = .next t) :
    t.part.sound := by
  unfold State.complete at ht
  split at ht
  · next a _ =>
    split at ht
    · cases ht; exact hs
    · next f hf =>
      split at ht
      · cases ht; exact hs
      · split at ht
        · cases ht
        · cases ht
          refine event_sound hs fun q hq => ?_
          rw [← Option.some.inj hq]
          exact h _ _ hf _ _ _ (carryOut_sound hs _)
  · cases ht; exact hs

theorem transaction_sound (hp : p.sound) (modes : List Mode) {act : Part → Part}
    (h : ∀ q, q.sound → (act q).sound) : (p.transaction modes act).sound := by
  unfold Part.transaction
  refine event_sound hp fun q hq => ?_
  rw [← Option.some.inj hq]
  have h1 := (countMaint_changes p fun c => { c with completed := satInc c.completed }).sound (hp := hp)
  split
  · exact h _ h1
  · exact (respond_changes _ _ _).sound (hp := h1)

end

end Sys2Proof.Machine
end

