-- ==== Sys2Proof/Laws/Run.lean ====
section
/-! SUPPORT. How a command runs: what `intake`, `checked`, `transaction`, `complete` and `event` answer when the conditions
of a statement hold, and what the end of an event leaves of each field. -/

namespace Sys2Proof.Machine

set_option Elab.async false

theorem putAt_putAt {α : Type} {n : Nat} (v : Vector α n) (i : Fin n) (x y : α) : putAt (putAt v i x) i y = putAt v i y := by
  unfold putAt
  simp

theorem putAt_get_eq {α : Type} {n : Nat} (v : Vector α n) (i : Fin n) : putAt v i (v.get i) = v := by
  unfold putAt
  change v.set i.val v[i.val] i.isLt = v
  simp

section
variable (p : Part)

theorem modReq_modReq (i : Port) (f g : RequestLayer → RequestLayer) :
    (p.modReq i f).modReq i g = p.modReq i fun r => g (f r) := by
  unfold Part.modReq Part.req
  simp only [putAt_putAt, putAt_get_self]

theorem modLink_modLink (i : Port) (f g : LinkUnit → LinkUnit) :
    (p.modLink i f).modLink i g = p.modLink i fun r => g (f r) := by
  unfold Part.modLink Part.link
  simp only [putAt_putAt, putAt_get_self]

theorem modJournal_modJournal (j : JournalId) (f g : Journal → Journal) :
    (p.modJournal j f).modJournal j g = p.modJournal j fun e => g (f e) := by
  unfold Part.modJournal Part.journal
  simp only [putAt_putAt, putAt_get_self]

theorem setSlot_setSlot (n : SlotId) (a b : Option Slot) : (p.setSlot n a).setSlot n b = p.setSlot n b := by
  unfold Part.setSlot
  simp only [putAt_putAt]

theorem setRead_setRead (n : ReadId) (a b : Option ReadCtx) : (p.setRead n a).setRead n b = p.setRead n b := by
  unfold Part.setRead
  simp only [putAt_putAt]

theorem modLink_modReq (i k : Port) (g : LinkUnit → LinkUnit) (f : RequestLayer → RequestLayer) :
    (p.modLink i g).modReq k f = (p.modReq k f).modLink i g := rfl

theorem served_modReq (i : Port) (f g : RequestLayer → RequestLayer) :
    (p.served i f).modReq i g = p.served i fun r => g (f r) := by
  unfold Part.served
  rw [modLink_modReq, modReq_modReq]

@[simp] theorem served_req_self (i : Port) (f : RequestLayer → RequestLayer) : (p.served i f).req i = f (p.req i) := by
  unfold Part.served; simp

@[simp] theorem served_req_ne {i k : Port} (f : RequestLayer → RequestLayer) (h : i ≠ k) :
    (p.served i f).req k = p.req k := by
  unfold Part.served; simp [h]

@[simp] theorem served_link_self (i : Port) (f : RequestLayer → RequestLayer) :
    (p.served i f).link i = (p.link i).credited 1 := by
  unfold Part.served; simp

@[simp] theorem served_link_ne {i k : Port} (f : RequestLayer → RequestLayer) (h : i ≠ k) :
    (p.served i f).link k = p.link k := by
  unfold Part.served; simp [h]

theorem served_changes (i : Port) (f : RequestLayer → RequestLayer) : Part.Changes [.reqs, .links] p (p.served i f) :=
  ((modReq_changes p i f).trans (modLink_changes _ i _)).mono

@[simp] theorem took_session (r : RequestLayer) : r.took.session = r.session := rfl
@[simp] theorem took_tags (r : RequestLayer) : r.took.tags = r.tags := rfl
@[simp] theorem took_respQ (r : RequestLayer) : r.took.respQ = r.respQ := rfl
@[simp] theorem took_prefers (r : RequestLayer) : r.took.prefers = r.prefers := rfl

theorem popFrame_countReq (i : Port) :
    ((p.popFrame i).countReq i fun c => { c with reqTaken := satInc c.reqTaken }) = p.served i RequestLayer.took := by
  unfold Part.popFrame Part.countReq Part.returnCredits Part.served
  rw [modLink_modReq, modReq_modReq]
  rfl

theorem runs_next {c : Instr} {s : State} {P : Part → Prop} {f : Part → Part} {q : Part}
    (hc : exec c s = .next (s.onPart f)) (hq : f s.part = q) (hp : P q) : Runs c s P := by
  refine ⟨q, ?_, hp⟩
  rw [hc, ← hq]
  rfl

/-! ## What the end of an event leaves -/

theorem react_link (i : Port) : p.react.link i = p.link i := (react_changes p).link i
theorem react_req (i : Port) : p.react.req i = p.req i := (react_changes p).req i
theorem react_ntf (i : Port) : p.react.ntf i = p.ntf i := (react_changes p).ntf i
theorem react_waits (i : Port) : p.react.waits i = p.waits i := (react_changes p).waits i
theorem react_slot (n : SlotId) : p.react.slot n = p.slot n := (react_changes p).slot n
theorem react_readCtx (r : ReadId) : p.react.readCtx r = p.readCtx r := (react_changes p).readCtx r
theorem react_dram : p.react.dram = p.dram := (react_changes p).dram
theorem react_appendCnt : p.react.appendCnt = p.appendCnt := (react_changes p).appendCnt
theorem react_readCnt : p.react.readCnt = p.readCnt := (react_changes p).readCnt
theorem react_ntfCnt : p.react.ntfCnt = p.ntfCnt := (react_changes p).ntfCnt

/-- In SERVING with no FORMAT pending an entry is as the start of a directory write leaves it. -/
theorem react_journal {p : Part} (hm : p.ret.mode = .serving) (hf : p.formatPending = false) (j : JournalId) :
    p.react.journal j = (p.journal j).started := by rw [react_serving hm hf, startWrites_journal]

theorem react_conf {p : Part} (hm : p.ret.mode = .serving) (hf : p.formatPending = false) (j : JournalId) :
    (p.react.journal j).conf = (p.journal j).conf := by rw [react_journal hm hf, started_conf]

theorem react_epoch {p : Part} (hm : p.ret.mode = .serving) (hf : p.formatPending = false) (j : JournalId) :
    (p.react.journal j).epoch = (p.journal j).epoch := by rw [react_journal hm hf, started_epoch]

/-- In an abandoned cold start or restore the end of an event leaves the retention controller alone. -/
theorem react_abandoned {p : Part} (ha : p.ctl.abandoned = true)
    (hm : p.ret.mode = .initializing ∨ p.ret.mode = .restoring) : p.react.ret = p.ret ∧ p.react.ctl = p.ctl := by
  have hc := (startWrites_changes p).trans (formatCheck_changes p.startWrites)
  have key : ∀ x : Part, x.ctl.abandoned = true → (x.ret.mode = .initializing ∨ x.ret.mode = .restoring) →
      x.coldCheck.restoreCheck.drainCheck = x := by
    intro x ha hm
    have e1 : x.coldDue = false := by unfold Part.coldDue; rw [ha]; simp
    have e2 : x.restoreDue = false := by unfold Part.restoreDue; rw [ha]; simp
    have e3 : x.drainDue = false := by unfold Part.drainDue; rcases hm with h | h <;> rw [h] <;> rfl
    unfold Part.coldCheck
    rw [e1, if_neg Bool.false_ne_true]
    unfold Part.restoreCheck
    rw [e2, if_neg Bool.false_ne_true]
    unfold Part.drainCheck
    rw [e3, if_neg Bool.false_ne_true]
  unfold Part.react
  rw [key _ (by rw [hc.ctl]; exact ha) (by rw [hc.ret]; exact hm)]
  exact ⟨hc.ret, hc.ctl⟩

/-- A command of an abandoned cold start or restore whose own effect leaves the retention controller alone completes and
leaves it alone. -/
theorem Ends.keepsRetention {c : Instr} {s : State} {P : Part → Prop} (h : Ends c s P) (ha : s.part.ctl.abandoned = true)
    (hm : s.part.ret.mode = .initializing ∨ s.part.ret.mode = .restoring)
    (hP : ∀ r, P r → r.ret = s.part.ret ∧ r.ctl = s.part.ctl) : KeepsRetention c s := by
  obtain ⟨r, hr, hp⟩ := h
  obtain ⟨h1, h2⟩ := hP r hp
  obtain ⟨h3, h4⟩ := react_abandoned (p := r) (by rw [h2]; exact ha) (by rw [h1]; exact hm)
  exact ⟨r.react, hr, h3.trans h1, h4.trans h2⟩

/-- The tests of what is due look at the mode, the control state, the sessions' states, slots, trims, directory writers,
FORMAT and the access queue. -/
theorem nothingDue_congr {p q : Part} (hret : q.ret.mode = p.ret.mode) (hctl : q.ctl = p.ctl)
    (hact : ∀ i, (q.req i).session.active = (p.req i).session.active) (hs : q.slots = p.slots)
    (hc : ∀ j, (q.journal j).conf.map Conf.trim = (p.journal j).conf.map Conf.trim)
    (hd : ∀ i, q.dirOf i = p.dirOf i) (hf : q.formatPending = p.formatPending) (hm : q.mem.queue = p.mem.queue) :
    q.nothingDue = p.nothingDue := by
  have hs' : ∀ n, q.slot n = p.slot n := fun n => by unfold Part.slot; rw [hs]
  have hc' : ∀ j, ((q.journal j).conf.any fun c => c.trim.isSome) = ((p.journal j).conf.any fun c => c.trim.isSome) := by
    intro j
    have := hc j
    cases h1 : (q.journal j).conf <;> cases h2 : (p.journal j).conf <;> rw [h1, h2] at this <;> simp at this
    change Option.isSome _ = Option.isSome _
    rw [this]
  unfold Part.nothingDue Part.formatDue Part.coldDue Part.restoreDue Part.drainDue Part.drained Part.directoryClean
    Part.copiesDone
  simp only [hret, hctl, hact, hs', hc', hd, hf, hm]

/-- A part that differs from a quiet one in none of these fields has nothing due. -/
theorem react_calm {fs : List Part.Field} {p q : Part} (hq : p.quiet = true) (hr : p.ret.running = true)
    (h : Part.Changes fs p q) (hact : ∀ i, (q.req i).session.active = (p.req i).session.active)
    (h1 : Part.Field.ret ∉ fs := by decide) (h2 : Part.Field.ctl ∉ fs := by decide)
    (h3 : Part.Field.slots ∉ fs := by decide) (h4 : Part.Field.journals ∉ fs := by decide)
    (h5 : Part.Field.header ∉ fs := by decide) (h6 : Part.Field.formatPending ∉ fs := by decide)
    (h7 : Part.Field.mem ∉ fs := by decide) : q.react = q := by
  refine react_of_nothingDue ?_
  rw [nothingDue_congr (p := p) (by rw [h.ret h1]) (h.ctl h2) hact (h.slots h3) (fun j => by rw [h.journal j h4])
    (fun i => h.dirOf i h4 h5) (h.formatPending h6) (by rw [h.mem h7])]
  exact nothingDue_of_quiet hq hr

/-- A served request that only changed its request layer leaves nothing due. -/
theorem react_served {p : Part} {i : Port} {f : RequestLayer → RequestLayer} (hq : p.quiet = true)
    (hr : p.ret.running = true) (hf : (f (p.req i)).session.active = (p.req i).session.active) :
    (p.served i f).react = p.served i f := by
  refine react_calm hq hr (served_changes p i f) fun k => ?_
  by_cases h : i = k
  · subst h; rw [served_req_self]; exact hf
  · rw [served_req_ne p f h]

/-- A change of the maintenance port alone leaves nothing due. -/
theorem react_maint {p : Part} {f : Maint → Maint} (hq : p.quiet = true) (hr : p.ret.running = true) :
    (p.modMaint f).react = p.modMaint f := react_calm hq hr (modMaint_changes p f) fun _ => rfl

/-- A change of a link unit alone leaves nothing due. -/
theorem react_modLink {p : Part} {i : Port} {f : LinkUnit → LinkUnit} (hq : p.quiet = true) (hr : p.ret.running = true) :
    (p.modLink i f).react = p.modLink i f := react_calm hq hr (modLink_changes p i f) fun _ => rfl

theorem modConf_served (i : Port) (j : JournalId) (f : RequestLayer → RequestLayer) (g : Conf → Conf) :
    (p.served i f).modConf j g = (p.modConf j g).served i f := rfl

/-- Two changes that agree on the entry's value are one. -/
theorem modConf_congr {p : Part} {j : JournalId} {c : Conf} {f g : Conf → Conf} (hc : (p.journal j).conf = some c)
    (h : f c = g c) : p.modConf j f = p.modConf j g := by
  unfold Part.modConf Part.modJournal
  dsimp only
  rw [hc, Option.map_some, Option.map_some, h]

/-- A change of an entry that keeps its trim changes nothing that the tests of what is due look at. -/
theorem nothingDue_modConf (j : JournalId) {g : Conf → Conf} (hg : ∀ c, (g c).trim = c.trim) :
    (p.modConf j g).nothingDue = p.nothingDue := by
  refine nothingDue_congr rfl rfl (fun _ => rfl) rfl (fun k => ?_) (fun it => ?_) rfl rfl
  · by_cases h : j = k
    · subst h; rw [modConf_journal_self]; cases (p.journal j).conf <;> simp [hg]
    · rw [modConf_journal_ne _ _ _ h]
  · cases it with
    | header => rfl
    | journal k =>
      change ((p.modConf j g).journal k).dir = (p.journal k).dir
      by_cases h : j = k
      · subst h; rw [modConf_journal_self]
      · rw [modConf_journal_ne _ _ _ h]

/-- A served request that also changed an entry, but not its trim, leaves nothing due. -/
theorem react_modConf_served {p : Part} {i : Port} {j : JournalId} {g : Conf → Conf} {f : RequestLayer → RequestLayer}
    (hq : p.quiet = true) (hr : p.ret.running = true) (hg : ∀ c, (g c).trim = c.trim)
    (hf : (f (p.req i)).session.active = (p.req i).session.active) :
    ((p.modConf j g).served i f).react = (p.modConf j g).served i f := by
  refine react_served ?_ hr hf
  unfold Part.quiet
  rw [nothingDue_modConf p j hg, nothingDue_of_quiet hq hr, Bool.or_true]

/-- The journal a byte below 8 names. -/
theorem journalOf_val {b : Byte} {j : JournalId} (h : b.toNat = j.val) : journalOf b = some j := by
  unfold journalOf
  have := j.isLt
  rw [dif_pos (by omega)]
  exact congrArg some (Fin.ext h)

theorem configured_some {p : Part} {b : Byte} {j : JournalId} {c : Conf} (h : b.toNat = j.val)
    (hc : (p.journal j).conf = some c) : p.configured b = some (j, c) := by
  unfold Part.configured
  rw [journalOf_val h]
  dsimp only
  rw [hc]
  rfl

theorem configured_none {p : Part} {b : Byte} (h : ∀ j : JournalId, b.toNat = j.val → (p.journal j).conf = none) :
    p.configured b = none := by
  unfold Part.configured
  cases hj : journalOf b with
  | none => rfl
  | some j =>
    dsimp only
    unfold journalOf at hj
    split at hj
    · next hlt => cases hj; rw [h ⟨b.toNat, hlt⟩ rfl]; rfl
    · cases hj

/-! ## Events -/

theorem event_run {p q : Part} {f : Part → Option Part} (h : p.ret.running = true) (hf : f p = some q)
    (hq : q.ret.running = true) : p.event f = q.react := by
  unfold Part.event
  rw [if_pos h, hf]
  dsimp only
  rw [if_pos hq]

/-- A taken REQ is served on the part whose request layer has taken it. -/
theorem intake_run {p : Part} {i : Port} {payload : List Byte} {isIt : List Byte → Bool} {serve : Req → Part → Part}
    (ht : p.takes i payload) (hi : isIt payload = true)
    (hr : (serve (Req.ofPayload payload) (p.served i RequestLayer.took)).ret.running = true) :
    p.intake i isIt serve = (serve (Req.ofPayload payload) (p.served i RequestLayer.took)).react := by
  obtain ⟨h1, h2, h3, h4⟩ := ht
  unfold Part.intake
  refine event_run h1 ?_ hr
  have : p.headReq i isIt = some (Req.ofPayload payload) := by
    unfold Part.headReq
    cases hb : (p.req i).buffer with
    | nil => rw [hb] at h2; cases h2
    | cons f rest =>
      rw [hb] at h2
      cases h2
      simp only [Bool.not_false, Bool.true_and, hi, h3]
      unfold Part.respRoom
      simp [h4]
  rw [this, Option.map_some, popFrame_countReq]

theorem requestCheck_admits {p : Part} {i : Port} {r : Req} (h : p.admits i r) : p.requestCheck i r = none := by
  obtain ⟨h1, h2, h3, h4⟩ := h
  unfold Part.requestCheck
  rw [if_neg (by simp [h1]), if_neg (by simp [h2]), if_neg h3, if_neg (by omega)]

theorem admits_served {p : Part} {i : Port} {r : Req} (h : p.admits i r) :
    (p.served i RequestLayer.took).admits i r := by
  refine ⟨h.1, ?_⟩
  rw [served_req_self]
  exact h.2

theorem checked_run {p q : Part} {i : Port} {r : Req} (h : p.admits i r) : p.checked i r q = q := by
  unfold Part.checked
  rw [requestCheck_admits h]

/-- An answer given at once while the response queue has room. -/
theorem answer_room {p : Part} {i : Port} (a : Rsp) (h : p.respRoom i = true) :
    p.answer i a = p.modReq i fun r => r.answered a := by
  unfold Part.answer Part.queueResp
  rw [h]
  simp only [if_true]
  unfold RequestLayer.answered
  by_cases hs : a.status = .ok
  · simp [hs]
  · simp only [hs, if_false]
    rw [modReq_modReq]

/-- An answer given at once to a request that has just been taken. -/
theorem answer_served {p : Part} {i : Port} {f : RequestLayer → RequestLayer} (a : Rsp)
    (h : (f (p.req i)).respQ.length < Config.responsePlaces) :
    (p.served i f).answer i a = p.served i fun r => (f r).answered a := by
  rw [answer_room a (by unfold Part.respRoom; rw [served_req_self]; simpa using h), served_modReq]

/-- A request that its serving answers at once, in a part with nothing due. -/
theorem answered_run {c : Instr} {s : State} {i : Port} {payload : List Byte} {isIt : List Byte → Bool}
    {serve : Req → Part → Part} {a : Rsp} (hc : exec c s = .next (s.onPart fun p => p.intake i isIt serve))
    (hq : s.part.quiet = true) (ht : s.part.takes i payload) (hi : isIt payload = true)
    (hs : serve (Req.ofPayload payload) (s.part.served i RequestLayer.took)
      = (s.part.served i RequestLayer.took).answer i a) :
    Runs c s fun q => q = s.part.served i fun l => l.took.answered a := by
  have hans := answer_served (p := s.part) (i := i) (f := RequestLayer.took) a (by rw [took_respQ]; exact ht.2.2.2)
  refine runs_next hc ?_ rfl
  rw [intake_run ht hi (by rw [hs, hans]; exact ht.1), hs, hans]
  refine react_served hq ht.1 ?_
  unfold RequestLayer.answered; rfl

theorem transaction_run {p : Part} {modes : List Mode} {act : Part → Part} (h : p.ret.running = true)
    (hm : p.ret.mode ∈ modes)
    (hr : (act (p.countMaint fun c => { c with completed := satInc c.completed })).ret.running = true) :
    p.transaction modes act = (act (p.countMaint fun c => { c with completed := satInc c.completed })).react := by
  unfold Part.transaction
  refine event_run h ?_ hr
  exact congrArg some (if_pos hm)

theorem transaction_refused {p : Part} {modes : List Mode} {act : Part → Part} (h : p.ret.running = true)
    (hm : p.ret.mode ∉ modes) :
    p.transaction modes act
      = ((p.countMaint fun c => { c with completed := satInc c.completed }).respond .notServing []).react := by
  unfold Part.transaction
  refine event_run h ?_ h
  exact congrArg some (if_neg hm)

theorem complete_run {s : State} {a : Access} {act : Client → Option (Nat → List Byte → Part → Part)}
    {f : Nat → List Byte → Part → Part} (h : s.part.completes a) (ha : act a.client = some f)
    (hr : (f a.addr (Memory.readBytes s.part.dram a.addr Config.burstBytes) (s.part.carryOut a)).ret.running = true) :
    s.complete act
      = .next { s with
          part := (f a.addr (Memory.readBytes s.part.dram a.addr Config.burstBytes) (s.part.carryOut a)).react } := by
  unfold State.complete
  rw [h.2.1]
  dsimp only
  rw [ha]
  dsimp only
  rw [if_neg (by rw [h.1]; decide), if_neg (Nat.not_lt.2 h.2.2)]
  exact congrArg (fun q : Part => (.next { s with part := q } : Result))
    (event_run (p := s.part)
      (f := fun p => some (f a.addr (Memory.readBytes p.dram a.addr Config.burstBytes) (p.carryOut a))) h.1 rfl hr)

end

/-! ## Commands that complete as events -/

section
variable {c : Instr} {s : State} {P : Part → Prop}

theorem ends_event {f : Part → Option Part} {r : Part} (hc : exec c s = .next (s.onPart fun p => p.event f))
    (hs : s.part.ret.running = true) (hf : f s.part = some r) (hr : r.ret.running = true) (hp : P r) : Ends c s P := by
  refine ⟨r, ?_, hp⟩
  rw [hc]
  exact congrArg (fun q : Part => (.next { s with part := q } : Result)) (event_run hs hf hr)

theorem ends_complete {act : Client → Option (Nat → List Byte → Part → Part)} {f : Nat → List Byte → Part → Part}
    {a : Access} (hc : exec c s = s.complete act) (h : s.part.completes a) (ha : act a.client = some f)
    (hr : (f a.addr (Memory.readBytes s.part.dram a.addr Config.burstBytes) (s.part.carryOut a)).ret.running = true)
    (hp : P (f a.addr (Memory.readBytes s.part.dram a.addr Config.burstBytes) (s.part.carryOut a))) : Ends c s P :=
  ⟨_, hc.trans (complete_run h ha hr), hp⟩

/-- A maintenance command taken in one of its modes. -/
theorem takes_run {modes : List Mode} {act : Part → Part} {Q : Part → Part → Prop} {p' : Part}
    (hc : exec c s = .next (s.onPart fun p => p.transaction modes act)) (hs : s.part.ret.running = true)
    (hm : s.part.ret.mode ∈ modes)
    (hp' : (s.part.modMaint fun m => { m with cnt := { m.cnt with completed := satInc m.cnt.completed } }) = p')
    (hr : (act p').ret.running = true) (hp : Q p' (act p')) : Takes c s Q := by
  subst hp'
  refine ⟨_, ?_, hp⟩
  rw [hc]
  exact congrArg (fun q : Part => (.next { s with part := q } : Result)) (transaction_run hs hm hr)

/-- A maintenance command refused in the present mode. -/
theorem takes_refused {modes : List Mode} {act : Part → Part}
    (hc : exec c s = .next (s.onPart fun p => p.transaction modes act)) (hs : s.part.ret.running = true)
    (hm : s.part.ret.mode ∉ modes) : Takes c s fun p' q => q = p'.replies .notServing [] := by
  refine ⟨_, ?_, rfl⟩
  rw [hc]
  exact congrArg (fun q : Part => (.next { s with part := q } : Result)) (transaction_refused hs hm)

end

end Sys2Proof.Machine
end

