-- ==== Sys2Proof/Laws/Notify.lean ====
section
/-! SUPPORT. What handing notifications leaves in each port's queue (R66, R93 to R95). -/

namespace Sys2Proof.Machine

set_option Elab.async false

section
variable (p : Part)

theorem joinNtf_self (i : Port) (e : Ntf) : (p.joinNtf i e).ntf i = (p.ntf i).joined e := by
  unfold Part.joinNtf NotifyPort.joined
  split
  · rw [countNtf_ntf, modNtf_ntf_self]
  · rw [countNtf_ntf, modNtf_ntf_self]

theorem joinNtf_ne {i k : Port} (h : i ≠ k) (e : Ntf) : (p.joinNtf i e).ntf k = p.ntf k := by
  unfold Part.joinNtf
  split
  · rw [countNtf_ntf, modNtf_ntf_ne _ _ _ h]
  · rw [countNtf_ntf, modNtf_ntf_ne _ _ _ h]

theorem placeNtf_self (i : Port) (e : Ntf) : (p.placeNtf i e).ntf i = (p.ntf i).placed e := by
  cases e <;> unfold Part.placeNtf NotifyPort.placed <;> dsimp only
  case frontier j a b =>
    split
    · rw [countNtf_ntf, modNtf_ntf_self]
    · exact joinNtf_self p i _
  case layout j =>
    split
    · rw [countNtf_ntf, modNtf_ntf_self]
    · exact joinNtf_self p i _
  all_goals exact joinNtf_self p i _

theorem placeNtf_ne {i k : Port} (h : i ≠ k) (e : Ntf) : (p.placeNtf i e).ntf k = p.ntf k := by
  cases e <;> unfold Part.placeNtf <;> dsimp only
  case frontier j a b =>
    split
    · rw [countNtf_ntf, modNtf_ntf_ne _ _ _ h]
    · exact joinNtf_ne p h _
  case layout j =>
    split
    · rw [countNtf_ntf, modNtf_ntf_ne _ _ _ h]
    · exact joinNtf_ne p h _
  all_goals exact joinNtf_ne p h _

/-- A port that an entry is handed to. -/
theorem notify_self (e : Ntf) (i : Port) : (p.notify e i).ntf i = p.handed i e := by
  unfold Part.notify Part.handed NotifyPort.handed
  split
  · exact placeNtf_self p i e
  · rfl

/-- A port that it is not handed to. -/
theorem notify_ne {i k : Port} (h : i ≠ k) (e : Ntf) : (p.notify e i).ntf k = p.ntf k := by
  unfold Part.notify
  split
  · exact placeNtf_ne p h e
  · rfl

theorem handed_congr {p q : Part} {i : Port} (hr : q.req i = p.req i) (hn : q.ntf i = p.ntf i) (e : Ntf) :
    q.handed i e = p.handed i e := by unfold Part.handed; rw [hr, hn]

theorem notify_handed {i k : Port} (h : i ≠ k) (e f : Ntf) : (p.notify f i).handed k e = p.handed k e :=
  handed_congr ((notify_changes p f i).req k) (notify_ne p h f) e

/-- An entry handed to a list of ports without repeats. -/
theorem notifyAll_ntf (e : Ntf) (l : List Port) (hl : l.Nodup) : ∀ (p : Part) (k : Port),
    (p.notifyAll e l).ntf k = if k ∈ l then p.handed k e else p.ntf k := by
  induction l with
  | nil => intro p k; simp [Part.notifyAll]
  | cons a l ih =>
    intro p k
    obtain ⟨ha, hl⟩ := List.nodup_cons.1 hl
    change ((p.notify e a).notifyAll e l).ntf k = _
    rw [ih hl]
    by_cases h : a = k
    · subst h
      rw [if_neg ha, if_pos List.mem_cons_self, notify_self]
    · rw [notify_handed p h, notify_ne p h]
      have hk : k ≠ a := fun x => h x.symm
      simp [hk]

theorem allPorts_nodup : allPorts.Nodup := by decide

/-- OWNER to the subscribers and one port more (R66). -/
theorem notifyOwner_ntf (j : JournalId) (other : Option Port) (k : Port) :
    (p.notifyOwner j other).ntf k
      = if k ∈ p.subscribers j ∨ other = some k then p.handed k (p.ownerEntry j) else p.ntf k := by
  unfold Part.notifyOwner
  rw [notifyAll_ntf _ _ (allPorts_nodup.filter _)]
  simp [mem_allPorts k]

end

end Sys2Proof.Machine
end

