-- ==== Sys2Proof/Laws/Spec.lean ====
section
/-! SUPPORT. What the shared operations of the commands leave in each record: slots voided and fenced, tags entered,
journals changed and dirtied. -/

namespace Sys2Proof.Machine

set_option Elab.async false

section
variable (p : Part)

/-! ## Slots -/

/-- A slot after a void cause has reached it (R36). -/
theorem voidSlot_self (n : SlotId) (r : VoidReason) :
    (p.voidSlot n r).slot n = (p.slot n).map fun s => if s.state = .receiving then s.voided r else s := by
  unfold Part.voidSlot
  cases hs : p.slot n with
  | none => simp [hs]
  | some s =>
    dsimp only
    split
    · next h =>
      rw [(handRun_changes _ _ _ _ _ _).slot, countAppend_slot, setSlot_slot_self]
      simp [h]
    · next h => rw [hs]; simp [h]

theorem voidSlot_ne {n m : SlotId} (h : n ≠ m) (r : VoidReason) : (p.voidSlot n r).slot m = p.slot m := by
  unfold Part.voidSlot
  split
  · rfl
  · split
    · rw [(handRun_changes _ _ _ _ _ _).slot, countAppend_slot, setSlot_slot_ne _ _ _ h]
    · rfl

theorem voidAll_slot (r : VoidReason) (l : List SlotId) (hl : l.Nodup) : ∀ (p : Part) (n : SlotId),
    (p.voidAll l r).slot n
      = if n ∈ l then (p.slot n).map fun s => if s.state = .receiving then s.voided r else s else p.slot n := by
  induction l with
  | nil => intro p n; simp [Part.voidAll]
  | cons a l ih =>
    intro p n
    obtain ⟨ha, hl⟩ := List.nodup_cons.1 hl
    change ((p.voidSlot a r).voidAll l r).slot n = _
    rw [ih hl]
    by_cases h : a = n
    · subst h
      rw [if_neg ha, if_pos List.mem_cons_self, voidSlot_self]
    · rw [voidSlot_ne p h]
      have hn : n ≠ a := fun x => h x.symm
      simp [hn]

theorem mem_slotsWith (f : Slot → Bool) (n : SlotId) : n ∈ p.slotsWith f ↔ (p.slot n).any f = true := by
  unfold Part.slotsWith
  simp [mem_allSlots n]

theorem slotsWith_nodup (f : Slot → Bool) : (p.slotsWith f).Nodup := by
  unfold Part.slotsWith
  exact List.Nodup.filter _ (by decide)

/-- The slots that a test holds of are voided, the others stand. -/
theorem voidWith_slot (f : Slot → Bool) (r : VoidReason) (n : SlotId) :
    (p.voidAll (p.slotsWith f) r).slot n
      = (p.slot n).map fun s => if f s = true ∧ s.state = .receiving then s.voided r else s := by
  rw [voidAll_slot r _ (slotsWith_nodup p f)]
  cases hs : p.slot n with
  | none => simp
  | some s =>
    have := mem_slotsWith p f n
    rw [hs] at this
    by_cases hf : f s = true
    · rw [if_pos (this.2 (by simpa using hf))]; simp [hf]
    · rw [if_neg (fun h => hf (by simpa using this.1 h))]; simp [hf]

/-- The fencing of a session on a journal (R39). -/
theorem fence_slot (j : JournalId) (o : SessionId) (n : SlotId) :
    (p.fence j o).slot n
      = (p.slot n).map fun s =>
          if s.journal = j ∧ s.session = o ∧ s.state = .receiving then s.voided .fenced else s := by
  unfold Part.fence
  rw [voidWith_slot]
  simp only [Bool.and_eq_true, decide_eq_true_iff, and_assoc]

/-! ## Requests -/

theorem enterTag_new {i : Port} {t : Byte} (h : t ∉ (p.req i).tags) :
    p.enterTag i t = p.modReq i fun r => r.entered t := by
  unfold Part.enterTag Part.modReq RequestLayer.entered
  dsimp only
  rw [if_neg h]

@[simp] theorem entered_session (r : RequestLayer) (t : Byte) : (r.entered t).session = r.session := rfl

/-! ## Journals -/

theorem markDirty_journal_self (j : JournalId) : (p.markDirty (.journal j)).journal j = (p.journal j).dirtied := by
  unfold Part.markDirty
  rw [modDir_journal_self]
  rfl

theorem markDirty_journal_ne {j k : JournalId} (h : j ≠ k) : (p.markDirty (.journal j)).journal k = p.journal k := by
  unfold Part.markDirty
  rw [modDir_journal_ne p h]

/-- FORMAT is not due while a journal's write is in flight (R23). -/
theorem formatDue_inFlight {p : Part} {j : JournalId} (h : (p.journal j).dir.inFlight = true) : p.formatDue = false := by
  have : (allItems.all fun i => !(p.dirOf i).inFlight) = false := by
    have hm := mem_allItems (.journal j)
    generalize allItems = items at hm
    rw [Bool.eq_false_iff]
    intro hall
    have := (List.all_eq_true.1 hall) (.journal j) hm
    change (!(p.journal j).dir.inFlight) = true at this
    rw [h] at this
    cases this
  unfold Part.formatDue
  rw [this, Bool.and_false]

/-- In SERVING the end of an event that has left an entry dirty starts directory writes and nothing else. -/
theorem react_dirtied {p : Part} (hm : p.ret.mode = .serving) {j : JournalId} (hd : (p.journal j).dir.dirty = true) :
    p.react = p.startWrites := by
  have hc := startWrites_changes p
  unfold Part.react
  have h2 : p.startWrites.formatDue = false :=
    formatDue_inFlight (j := j) (by rw [startWrites_journal]; exact started_inFlight hd)
  have hm' : p.startWrites.ret.mode = .serving := by rw [hc.ret]; exact hm
  have h3 : p.startWrites.coldDue = false := coldDue_mode (by rw [hm']; decide)
  have h4 : p.startWrites.restoreDue = false := restoreDue_mode (by rw [hm']; decide)
  have h5 : p.startWrites.drainDue = false := drainDue_mode (by rw [hm']; decide)
  rw [Part.formatCheck, h2]
  simp only [Bool.false_eq_true, if_false]
  rw [Part.coldCheck, h3]
  simp only [Bool.false_eq_true, if_false]
  rw [Part.restoreCheck, h4]
  simp only [Bool.false_eq_true, if_false]
  rw [Part.drainCheck, h5]
  rfl

theorem react_dirtied_journal {p : Part} (hm : p.ret.mode = .serving) {j : JournalId}
    (hd : (p.journal j).dir.dirty = true) (k : JournalId) : p.react.journal k = (p.journal k).started := by
  rw [react_dirtied hm hd, startWrites_journal]

/-- An entry of a part with nothing due does not start a write. -/
theorem started_of_quiet {p : Part} (hq : p.quiet = true) (hr : p.ret.running = true) (k : JournalId) :
    (p.journal k).started = p.journal k := by
  have := nothingDue_of_quiet hq hr
  unfold Part.nothingDue at this
  simp only [Bool.and_eq_true, List.all_eq_true, Bool.not_eq_true'] at this
  have := this.1.1.1.1 (.journal k) (mem_allItems _)
  change ((p.journal k).dir.dirty && !(p.journal k).dir.inFlight) = false at this
  unfold Journal.started
  rw [this]
  rfl

end

/-! ## A change of ownership that binds an answer -/

/-- The part after a granted CLAIM or an accepted RELEASE (R52, R53, R55). -/
def Part.owned (p : Part) (i : Port) (t : Byte) (j : JournalId) (own : Ownership) (ep : W32) (bs : List Bound) : Part :=
  (((p.modJournal j fun e => e.change own ep bs).markDirty (.journal j)).enterTag i t).notifyOwner j none

/-- The entry a change of ownership leaves. -/
def Journal.changed (e : Journal) (c : Conf) (own : Ownership) (ep : W32) (bs : List Bound) : Journal :=
  { e.dirtied with conf := some { c with own := own }, epoch := ep, boundNext := e.boundNext ++ bs }

section
variable {p : Part} {i : Port} {t : Byte} {j : JournalId} {own : Ownership} {ep : W32} {bs : List Bound} {c : Conf}

theorem owned_changes : Part.Changes [.journals, .reqs, .ntfs, .ntfCnt] p (p.owned i t j own ep bs) := by
  unfold Part.owned
  exact ((((modJournal_changes _ _ _).trans (markDirty_journal_changes _ _)).trans (enterTag_changes _ _ _)).trans
    (notifyOwner_changes _ _ _)).mono

theorem owned_journal (hc : (p.journal j).conf = some c) (k : JournalId) :
    (p.owned i t j own ep bs).journal k = if j = k then (p.journal j).changed c own ep bs else p.journal k := by
  unfold Part.owned
  rw [(notifyOwner_changes _ _ _).journal, (enterTag_changes _ _ _).journal]
  by_cases h : j = k
  · subst h
    rw [markDirty_journal_self, modJournal_journal_self, if_pos rfl]
    unfold Journal.change
    rw [hc]
    rfl
  · rw [markDirty_journal_ne _ h, modJournal_journal_ne _ _ _ h, if_neg h]

theorem owned_req (ht : t ∉ (p.req i).tags) : (p.owned i t j own ep bs).req i = (p.req i).entered t := by
  unfold Part.owned
  rw [(notifyOwner_changes _ _ _).req, enterTag_new, modReq_req_self, (markDirty_changes _ _).req, modJournal_req]
  rw [(markDirty_changes _ _).req, modJournal_req]
  exact ht

theorem owned_ntf (hc : (p.journal j).conf = some c) (k : Port) :
    (p.owned i t j own ep bs).ntf k
      = if k ∈ c.subs then
          p.handed k (.owner j (Conf.state { c with own := own }) ep (Conf.ownerTag { c with own := own }))
        else p.ntf k := by
  have hh := owned_journal (i := i) (t := t) (own := own) (ep := ep) (bs := bs) hc j
  rw [if_pos rfl] at hh
  unfold Part.owned at hh ⊢
  generalize hG : Part.enterTag _ _ _ = G at hh ⊢
  rw [(notifyOwner_changes _ _ _).journal] at hh
  rw [notifyOwner_ntf]
  have hn : G.ntf k = p.ntf k := by rw [← hG, (enterTag_changes _ _ _).ntf, (markDirty_changes _ _).ntf, modJournal_ntf]
  have ha : (G.req k).session = (p.req k).session := by
    rw [← hG]
    unfold Part.enterTag
    by_cases h : i = k
    · subst h; rw [modReq_req_self, (markDirty_changes _ _).req, modJournal_req]
    · rw [modReq_req_ne _ _ _ h, (markDirty_changes _ _).req, modJournal_req]
  have hs : G.subscribers j = c.subs := by unfold Part.subscribers; rw [hh]; rfl
  have hent : G.ownerEntry j = .owner j (Conf.state { c with own := own }) ep (Conf.ownerTag { c with own := own }) := by
    unfold Part.ownerEntry; rw [hh]; rfl
  rw [hs, hent, Part.handed, hn, ha]
  simp

/-- What the whole command leaves, its answer bound to a directory write of the entry. -/
theorem owned_react (hq : p.quiet = true) (hr : p.ret.running = true) (hm : p.ret.mode = .serving)
    (hc : (p.journal j).conf = some c) :
    (p.owned i t j own ep bs).react.journal j = ((p.journal j).changed c own ep bs).started
      ∧ ∀ k, k ≠ j → (p.owned i t j own ep bs).react.journal k = p.journal k := by
  have hmode : (p.owned i t j own ep bs).ret.mode = .serving := by rw [owned_changes.ret]; exact hm
  have hdir : ((p.owned i t j own ep bs).journal j).dir.dirty = true := by rw [owned_journal hc, if_pos rfl]; rfl
  refine ⟨?_, fun k hk => ?_⟩
  · rw [react_dirtied_journal hmode hdir, owned_journal hc, if_pos rfl]
  · rw [react_dirtied_journal hmode hdir, owned_journal hc, if_neg (Ne.symm hk), started_of_quiet hq hr]

end

/-- A request that reaches its block runs what the block makes of it, and the end of its event. -/
theorem block_run {c : Instr} {s : State} {i : Port} {payload : List Byte} {code : Byte} {serve : Req → Part → Part}
    {P : Part → Prop}
    (hc : exec c s = .next (s.onPart fun p => p.intake i (isRequest code) fun r p => p.checked i r (serve r p)))
    (ht : s.part.reachesBlock i code payload) (q : Part)
    (hs : serve (Req.ofPayload payload) (s.part.served i RequestLayer.took) = q) (hr : q.ret.running = true)
    (hp : P q.react) : Runs c s P := by
  refine runs_next hc (intake_run ht.1 ht.2.1 ?_) ?_
  · rw [checked_run (admits_served ht.2.2), hs]; exact hr
  · rw [checked_run (admits_served ht.2.2), hs]; exact hp

/-- A request that its block answers at once. -/
theorem block_answered {c : Instr} {s : State} {i : Port} {payload : List Byte} {code : Byte}
    {serve : Req → Part → Part} {a : Rsp}
    (hc : exec c s = .next (s.onPart fun p => p.intake i (isRequest code) fun r p => p.checked i r (serve r p)))
    (hq : s.part.quiet = true) (ht : s.part.reachesBlock i code payload)
    (hs : serve (Req.ofPayload payload) (s.part.served i RequestLayer.took)
      = (s.part.served i RequestLayer.took).answer i a) :
    Runs c s fun q => q = s.part.served i fun l => l.took.answered a := by
  refine answered_run hc hq ht.1 ht.2.1 ?_
  rw [checked_run (admits_served ht.2.2), hs]

/-- The request layer's own step leaves nothing due. -/
theorem served_quiet {p : Part} {i : Port} {f : RequestLayer → RequestLayer} (hq : p.quiet = true)
    (hr : p.ret.running = true) (hf : (f (p.req i)).session.active = (p.req i).session.active) :
    (p.served i f).quiet = true := by
  have hact : ∀ k, ((p.served i f).req k).session.active = (p.req k).session.active := by
    intro k
    by_cases h : i = k
    · subst h; rw [served_req_self]; exact hf
    · rw [served_req_ne p f h]
  have := nothingDue_congr (p := p) (q := p.served i f) rfl rfl hact rfl (fun _ => rfl)
    (fun k => (served_changes p i f).dirOf k) rfl rfl
  unfold Part.quiet
  rw [this, nothingDue_of_quiet hq hr, Bool.or_true]

end Sys2Proof.Machine
end

