-- ==== Sys2Proof/Laws/Transfer.lean ====
section
/-! SUPPORT. What the beginning and the completion of a transfer leave (R57, R59, R60, R61). -/

namespace Sys2Proof.Machine

set_option Elab.async false

theorem live_iff {p : Part} {o : SessionId} :
    p.live o = true ↔ (p.req o.port).session.active = true ∧ (p.req o.port).session.gen = o.gen := by
  unfold Part.live; simp

/-- The part of an accepted TAKEOVER or FORCE_RELEASE: the owner fenced and told, the completion check to follow. -/
def Part.fenced (p : Part) (j : JournalId) (o : SessionId) (t : W32) (claimant : Option Claimant) : Part :=
  let q := ((p.modConf j fun c => { c with own := .transferring (some o) t claimant }).markDirty (.journal j)).fence j o
  if q.live o then q.notify (q.ownerEntry j) o.port else q

section
variable {p : Part} {j : JournalId} {c : Conf} {o : SessionId} {t : W32} {cl : Option Claimant}

theorem beginTransfer_eq (hc : (p.journal j).conf = some c) (ho : c.own = .owned o t) :
    p.beginTransfer j cl = (p.fenced j o t cl).transferCheck j := by
  unfold Part.beginTransfer Part.fenced
  rw [hc]
  dsimp only
  rw [ho]

theorem fenced_changes : Part.Changes [.journals, .slots, .appendCnt, .mem, .ntfs, .ntfCnt] p (p.fenced j o t cl) := by
  unfold Part.fenced
  dsimp only
  have h := (((modConf_changes p j fun c => { c with own := .transferring (some o) t cl }).trans
    (markDirty_journal_changes _ j)).trans (fence_changes _ j o))
  generalize Part.fence _ j o = q at h
  split
  · exact (h.trans (notify_changes _ _ _)).mono
  · exact h.mono

theorem notifyIf_journal {q : Part} {b : Bool} {e : Ntf} {i : Port} (k : JournalId) :
    (if b then q.notify e i else q).journal k = q.journal k := by
  split
  · exact (notify_changes _ _ _).journal k
  · rfl

theorem notifyIf_slot {q : Part} {b : Bool} {e : Ntf} {i : Port} (n : SlotId) :
    (if b then q.notify e i else q).slot n = q.slot n := by
  split
  · exact (notify_changes _ _ _).slot n
  · rfl

theorem fenced_journal (hc : (p.journal j).conf = some c) (k : JournalId) :
    (p.fenced j o t cl).journal k
      = if j = k then { (p.journal j).dirtied with conf := some { c with own := .transferring (some o) t cl } }
        else p.journal k := by
  unfold Part.fenced
  dsimp only
  rw [notifyIf_journal, (fence_changes _ _ _).journal]
  by_cases h : j = k
  · subst h
    rw [markDirty_journal_self, modConf_journal_self, hc, if_pos rfl]; rfl
  · rw [markDirty_journal_ne _ h, modConf_journal_ne _ _ _ h, if_neg h]

theorem fenced_slot (n : SlotId) :
    (p.fenced j o t cl).slot n
      = (p.slot n).map fun x =>
          if x.journal = j ∧ x.session = o ∧ x.state = .receiving then x.voided .fenced else x := by
  unfold Part.fenced
  dsimp only
  rw [notifyIf_slot, fence_slot, (markDirty_changes _ _).slot, modConf_slot]

theorem fenced_ntf (hc : (p.journal j).conf = some c) (k : Port) :
    (p.fenced j o t cl).ntf k
      = if k = o.port ∧ p.live o = true then p.handed k (.owner j .transferring (p.journal j).epoch (some t))
        else p.ntf k := by
  have hch : Part.Changes [.journals, .slots, .appendCnt, .mem] p
      (((p.modConf j fun c => { c with own := .transferring (some o) t cl }).markDirty (.journal j)).fence j o) :=
    ((((modConf_changes _ _ _).trans (markDirty_journal_changes _ _)).trans (fence_changes _ _ _)).mono)
  have hj : (((p.modConf j fun c => { c with own := .transferring (some o) t cl }).markDirty (.journal j)).fence j
      o).journal j = { (p.journal j).dirtied with conf := some { c with own := .transferring (some o) t cl } } := by
    rw [(fence_changes _ _ _).journal, markDirty_journal_self, modConf_journal_self, hc]; rfl
  unfold Part.fenced
  dsimp only
  generalize Part.fence _ j o = q at hch hj
  have hl : q.live o = p.live o := by unfold Part.live; rw [hch.req]
  have he : q.ownerEntry j = .owner j .transferring (p.journal j).epoch (some t) := by
    unfold Part.ownerEntry; rw [hj]; rfl
  rw [hl, he]
  split
  · next h =>
    by_cases hk : o.port = k
    · subst hk
      rw [notify_self, if_pos ⟨rfl, h⟩, Part.handed, hch.ntf, hch.req]
    · rw [notify_ne _ hk, if_neg (fun x => hk x.1.symm), hch.ntf]
  · next h => rw [if_neg (fun x => h x.2), hch.ntf]

end

section
variable {p : Part} {j : JournalId} {c : Conf} {ow : Option SessionId} {cl : Option Claimant}

theorem completeTransfer_journal (hc : (p.journal j).conf = some c) (k : JournalId) :
    (p.completeTransfer j ow cl).journal k
      = if j = k then
          (p.journal j).changed c (p.transferred j cl).1 ((p.journal j).epoch + 1) (p.transferred j cl).2
        else p.journal k := by
  unfold Part.completeTransfer
  rw [(notifyOwner_changes _ _ _).journal]
  by_cases h : j = k
  · subst h
    rw [markDirty_journal_self, modJournal_journal_self, if_pos rfl]
    unfold Journal.change
    rw [hc]; rfl
  · rw [markDirty_journal_ne _ h, modJournal_journal_ne _ _ _ h, if_neg h]

theorem completeTransfer_ntf (hc : (p.journal j).conf = some c) (k : Port) :
    (p.completeTransfer j ow cl).ntf k
      = if k ∈ c.subs ∨ p.attachedPort ow = some k then
          p.handed k
            (.owner j (Conf.state { c with own := (p.transferred j cl).1 }) ((p.journal j).epoch + 1)
              (Conf.ownerTag { c with own := (p.transferred j cl).1 }))
        else p.ntf k := by
  have hh := completeTransfer_journal (ow := ow) (cl := cl) hc j
  rw [if_pos rfl] at hh
  unfold Part.completeTransfer at hh ⊢
  rw [notifyOwner_ntf]
  rw [(notifyOwner_changes _ _ _).journal] at hh
  have h1 : ∀ G : Part, G = ((p.modJournal j fun e => e.change (p.transferred j cl).1 (e.epoch + 1)
      (p.transferred j cl).2).markDirty (.journal j)) → G.ntf k = p.ntf k ∧ G.req k = p.req k := by
    rintro G rfl
    exact ⟨by rw [(markDirty_changes _ _).ntf, modJournal_ntf], by rw [(markDirty_changes _ _).req, modJournal_req]⟩
  generalize hG : Part.markDirty _ _ = G at hh
  have hs : G.subscribers j = c.subs := by unfold Part.subscribers; rw [hh]; rfl
  have hent : G.ownerEntry j = .owner j (Conf.state { c with own := (p.transferred j cl).1 }) ((p.journal j).epoch + 1)
      (Conf.ownerTag { c with own := (p.transferred j cl).1 }) := by
    unfold Part.ownerEntry; rw [hh]; rfl
  obtain ⟨h2, h3⟩ := h1 G hG.symm
  rw [hs, hent, Part.handed, h2, h3]

theorem transferCheck_open (hc : (p.journal j).conf = some c) (h : c.openSlots ≠ 0) : p.transferCheck j = p := by
  unfold Part.transferCheck
  rw [hc]
  dsimp only
  split
  · rw [if_neg h]
  · rfl

theorem transferCheck_done {t : W32} (hc : (p.journal j).conf = some c) (ho : c.own = .transferring ow t cl)
    (h : c.openSlots = 0) : p.transferCheck j = p.completeTransfer j ow cl := by
  unfold Part.transferCheck
  rw [hc]
  dsimp only
  rw [ho]
  dsimp only
  rw [if_pos h]

theorem transferCheck_other (hc : (p.journal j).conf = some c) (ho : ∀ ow t cl, c.own ≠ .transferring ow t cl) :
    p.transferCheck j = p := by
  unfold Part.transferCheck
  rw [hc]
  dsimp only
  split
  · next h => exact absurd h (ho _ _ _)
  · rfl

theorem transferCheck_none (hc : (p.journal j).conf = none) : p.transferCheck j = p := by
  unfold Part.transferCheck
  rw [hc]

end

end Sys2Proof.Machine
end

