-- ==== Sys2Proof/Laws/Handed.lean ====
section
/-! SUPPORT. What handing accesses leaves of the memory engine (R141), and when a part whose slots or trims are in use has
nothing due. -/

namespace Sys2Proof.Machine

set_option Elab.async false

section
variable (p : Part)

theorem countHanded_mem (c : Client) : (p.countHanded c).mem = p.mem := (countHanded_changes p c).mem
theorem countHanded_maint (c : Client) : (p.countHanded c).maint = p.maint := (countHanded_changes p c).maint

theorem hand_mem (a : Access) : (p.hand a).mem = p.memAfter [a] := by
  unfold Part.hand Part.memAfter MemEngine.handedAll
  rw [List.foldl_cons, List.foldl_nil]
  unfold MemEngine.handed
  split
  · unfold Part.enqueue Part.arbitrate
    change MemEngine.arbitrate _ _ = _
    rw [modMem_mem, countHanded_mem, modMem_maint, countHanded_maint]
  · rfl

theorem hand_maint (a : Access) : (p.hand a).maint = p.maint := (hand_changes p a).maint

theorem handAll_mem (as : List Access) : ∀ p : Part, (p.handAll as).mem = p.memAfter as := by
  induction as with
  | nil => intro p; rfl
  | cons a as ih =>
    intro p
    change ((p.hand a).handAll as).mem = _
    rw [ih, Part.memAfter, hand_mem, hand_maint]
    rfl

theorem handRun_mem (client : Client) (j : JournalId) (pos : Nat) (bytes : List Byte) {c : Conf}
    (hc : (p.journal j).conf = some c) :
    (p.handRun client j pos bytes).mem = p.memAfter (runWrites client bytes.length (c.address pos) bytes) := by
  unfold Part.handRun
  rw [hc]
  exact handAll_mem _ p

theorem runWrites_length (c d : Client) (fuel : Nat) : ∀ (addr : Nat) (bs : List Byte),
    (runWrites c fuel addr bs).length = (runWrites d fuel addr bs).length := by
  induction fuel with
  | zero => intro addr bs; rfl
  | succ n ih =>
    intro addr bs
    unfold runWrites
    split
    · rfl
    · dsimp only
      rw [List.length_cons, List.length_cons, ih]

/-- While a slot is in use, the tests look at no slot, no session and no access. -/
theorem nothingDue_slot {p q : Part} {n : SlotId} (hp : (p.slot n).isSome = true) (hq : (q.slot n).isSome = true)
    (hmode : q.ret.mode = p.ret.mode) (hctl : q.ctl = p.ctl) (hd : ∀ i, q.dirOf i = p.dirOf i) :
    q.nothingDue = p.nothingDue := by
  have hf : ∀ x : Part, (x.slot n).isSome = true → x.formatDue = false ∧ x.drainDue = false := by
    intro x hx
    have : (allSlots.all fun n => (x.slot n).isNone) = false := by
      rw [Bool.eq_false_iff]
      intro h
      have := (List.all_eq_true.1 h) n (mem_allSlots n)
      rw [Option.isNone_iff_eq_none] at this
      rw [this] at hx
      cases hx
    constructor
    · unfold Part.formatDue; rw [this]; simp
    · unfold Part.drainDue Part.drained; rw [this]; simp
  have hc : ∀ j, (q.journal j).dir = (p.journal j).dir := fun j => hd (.journal j)
  unfold Part.nothingDue
  rw [(hf p hp).1, (hf p hp).2, (hf q hq).1, (hf q hq).2]
  unfold Part.coldDue Part.restoreDue Part.copiesDone Part.directoryClean
  simp only [hd, hmode, hctl]

/-- A part whose slot was and stays in use, with the directory, the mode and the control state of a quiet one, has nothing
due. -/
theorem react_slot_inUse {p q : Part} {n : SlotId} (hqt : p.quiet = true) (hr : p.ret.running = true)
    (hp : (p.slot n).isSome = true) (hq : (q.slot n).isSome = true) (hmode : q.ret.mode = p.ret.mode)
    (hctl : q.ctl = p.ctl) (hd : ∀ i, q.dirOf i = p.dirOf i) : q.react = q :=
  react_of_nothingDue (by rw [nothingDue_slot hp hq hmode hctl hd]; exact nothingDue_of_quiet hqt hr)

/-- FORMAT is not due while a slot is in use (R23). -/
theorem formatDue_slot {p : Part} {n : SlotId} (h : (p.slot n).isSome = true) : p.formatDue = false := by
  have : (allSlots.all fun n => (p.slot n).isNone) = false := by
    rw [Bool.eq_false_iff]
    intro hall
    have := (List.all_eq_true.1 hall) n (mem_allSlots n)
    rw [Option.isNone_iff_eq_none] at this
    rw [this] at h
    cases h
  unfold Part.formatDue
  rw [this]
  simp

/-- FORMAT is not due while a journal has a pending trim (R23). -/
theorem formatDue_trim {p : Part} {j : JournalId} {c : Conf} (hc : (p.journal j).conf = some c)
    (h : c.trim.isSome = true) : p.formatDue = false := by
  have : (allJournals.all fun j => !(p.journal j).conf.any fun c => c.trim.isSome) = false := by
    have hm := mem_allJournals j
    generalize allJournals = js at hm
    rw [Bool.eq_false_iff]
    intro hall
    have := (List.all_eq_true.1 hall) j hm
    rw [hc] at this
    simp [h] at this
  unfold Part.formatDue
  rw [this]
  simp

/-- In SERVING, with the directory of a quiet part and FORMAT not due, nothing is due. -/
theorem react_serving_calm {p q : Part} (hqt : p.quiet = true) (hr : p.ret.running = true)
    (hm : q.ret.mode = .serving) (hf : q.formatDue = false) (hd : ∀ i, q.dirOf i = p.dirOf i) : q.react = q := by
  refine react_of_nothingDue ?_
  have hn := nothingDue_of_quiet hqt hr
  unfold Part.nothingDue at hn ⊢
  simp only [Bool.and_eq_true] at hn
  simp only [hd]
  rw [hn.1.1.1.1, hf, coldDue_mode (by rw [hm]; decide), restoreDue_mode (by rw [hm]; decide),
    drainDue_mode (by rw [hm]; decide)]
  rfl

end

end Sys2Proof.Machine
end

