-- ==== Sys2Proof/Laws/Tables.lean ====
section
/-! SUPPORT. Every shared operation and every command's effect keeps `Part.tablesSound`: open appends, open-slot counts and
read pins within their bounds. -/

namespace Sys2Proof.Machine

set_option Elab.async false

/-! ## Counting -/

theorem countP_update {α : Type} [DecidableEq α] {f g : α → Bool} {a : α} (h : ∀ x, x ≠ a → g x = f x) :
    ∀ l : List α, l.Nodup → a ∈ l →
      l.countP g + (if f a then 1 else 0) = l.countP f + (if g a then 1 else 0) := by
  intro l
  induction l with
  | nil => intro _ h; cases h
  | cons b l ih =>
    intro hn hm
    obtain ⟨hb, hn⟩ := List.nodup_cons.1 hn
    rw [List.countP_cons, List.countP_cons]
    by_cases hab : b = a
    · subst hab
      have : l.countP g = l.countP f :=
        List.countP_congr fun x hx => by rw [h x fun e => hb (e ▸ hx)]
      omega
    · have := ih hn ((List.mem_cons.1 hm).resolve_left fun e => hab e.symm)
      rw [h b hab]
      omega

section
variable (p : Part)

theorem slotsWith_count (f : Slot → Bool) : (p.slotsWith f).length = allSlots.countP fun n => (p.slot n).any f :=
  List.countP_eq_length_filter.symm

/-- One slot set: the count of the slots that a test holds of. -/
theorem setSlot_count (n : SlotId) (y : Option Slot) (f : Slot → Bool) :
    ((p.setSlot n y).slotsWith f).length + (if (p.slot n).any f then 1 else 0)
      = (p.slotsWith f).length + (if y.any f then 1 else 0) := by
  rw [slotsWith_count, slotsWith_count]
  have := countP_update (f := fun m => (p.slot m).any f) (g := fun m => ((p.setSlot n y).slot m).any f) (a := n)
    (fun x hx => by rw [setSlot_slot_ne _ _ _ (Ne.symm hx)]) allSlots (by decide) (mem_allSlots n)
  rw [setSlot_slot_self] at this
  exact this

/-- The pin that a read context holds (R75); in DRAINING it holds none (R79). -/
def ReadCtx.pin (x : ReadCtx) : Option (JournalId × W64) := if x.state = .draining then none else some (x.journal, x.start)

theorem readsAt_eq (j : JournalId) (pos : W64) :
    p.readsAt j pos = allReads.countP fun r => decide ((p.readCtx r).bind ReadCtx.pin = some (j, pos)) := by
  unfold Part.readsAt
  refine List.countP_congr fun r _ => ?_
  cases p.readCtx r with
  | none => simp
  | some x => by_cases h : x.state = .draining <;> simp [ReadCtx.pin, h]

theorem setRead_count (r : ReadId) (y : Option ReadCtx) (j : JournalId) (pos : W64) :
    (p.setRead r y).readsAt j pos + (if (p.readCtx r).bind ReadCtx.pin = some (j, pos) then 1 else 0)
      = p.readsAt j pos + (if y.bind ReadCtx.pin = some (j, pos) then 1 else 0) := by
  rw [readsAt_eq, readsAt_eq]
  have := countP_update (f := fun m => decide ((p.readCtx m).bind ReadCtx.pin = some (j, pos)))
    (g := fun m => decide (((p.setRead r y).readCtx m).bind ReadCtx.pin = some (j, pos))) (a := r)
    (fun x hx => by rw [setRead_readCtx_ne _ _ _ (Ne.symm hx)]) allReads (by decide) (mem_allReads r)
  rw [setRead_readCtx_self] at this
  simpa using this

/-- The start positions of the reads in flight on a journal. -/
def Part.starts (j : JournalId) : List W64 :=
  allReads.filterMap fun r => ((p.readCtx r).bind ReadCtx.pin).bind fun k => if k.1 = j then some k.2 else none

theorem starts_count (j : JournalId) (pos : W64) : (p.starts j).count pos = p.readsAt j pos := by
  rw [readsAt_eq]
  unfold Part.starts
  rw [List.count_filterMap]
  refine List.countP_congr fun r _ => ?_
  cases (p.readCtx r).bind ReadCtx.pin with
  | none => simp
  | some k =>
    obtain ⟨a, b⟩ := k
    by_cases h : a = j <;> simp [h]

variable {p}

/-- What of `Part.tablesSound` does not follow from the rest. -/
theorem tables_of (h1 : ∀ sid, p.openAppends sid ≤ 4)
    (h2 : ∀ j c, (p.journal j).conf = some c →
      c.openSlots ≤ (p.slotsWith fun x => decide (x.journal = j)).length ∧ ∀ pos, c.pins.count pos ≤ p.readsAt j pos) :
    p.tablesSound := by
  refine ⟨h1, fun j c hc => ⟨⟨(h2 j c hc).1, Nat.le_trans (h2 j c hc).1 ?_⟩, (h2 j c hc).2, ?_⟩⟩
  · exact List.length_filter_le _ _
  · have hs : c.pins.Subperm (p.starts j) :=
      List.subperm_ext_iff.2 fun x _ => by rw [starts_count]; exact (h2 j c hc).2 x
    exact Nat.le_trans hs.length_le (List.length_filterMap_le _ _)

end

/-! ## Operations that keep what the tables count -/

/-- The entry keeps its open-slot count and its pins, or has none. -/
def Journal.Tallied (e e' : Journal) : Prop :=
  ∀ d, e'.conf = some d →
    (d.openSlots = 0 ∧ d.pins = [])
      ∨ ∃ c, e.conf = some c ∧ d.openSlots = c.openSlots ∧ d.pins = c.pins

theorem Journal.Tallied.refl (e : Journal) : e.Tallied e := fun d h => .inr ⟨d, h, rfl, rfl⟩

theorem Journal.Tallied.of_eq {e e' : Journal} (h : e'.conf = e.conf) : e.Tallied e' :=
  fun d hd => .inr ⟨d, h ▸ hd, rfl, rfl⟩

theorem Journal.Tallied.of_none {e e' : Journal} (h : e'.conf = none) : e.Tallied e' :=
  fun d hd => by rw [h] at hd; cases hd

theorem Journal.Tallied.of_map {e e' : Journal} {f : Conf → Conf} (h : e'.conf = e.conf.map f)
    (hf : ∀ c, (f c).openSlots = c.openSlots ∧ (f c).pins = c.pins) : e.Tallied e' := by
  intro d hd
  rw [h] at hd
  obtain ⟨c, hc, rfl⟩ := Option.map_eq_some_iff.1 hd
  exact .inr ⟨c, hc, hf c⟩

theorem Journal.Tallied.trans {a b c : Journal} (h : a.Tallied b) (h' : b.Tallied c) : a.Tallied c := by
  intro d hd
  rcases h' d hd with h0 | ⟨e, he, h1, h2⟩
  · exact .inl h0
  · rcases h e he with h0 | ⟨f, hf, h3, h4⟩
    · exact .inl ⟨h1.trans h0.1, h2.trans h0.2⟩
    · exact .inr ⟨f, hf, h1.trans h3, h2.trans h4⟩

/-- What the tables count of a slot. -/
def Slot.key (x : Slot) : SessionId × JournalId := (x.session, x.journal)

/-- `q` has the slots' sessions and journals, the contexts' pins and the entries' counts and pins of `p`, or entries that
count none. -/
def Part.Same (p q : Part) : Prop :=
  (∀ n, (q.slot n).map Slot.key = (p.slot n).map Slot.key)
    ∧ (∀ r, (q.readCtx r).bind ReadCtx.pin = (p.readCtx r).bind ReadCtx.pin)
    ∧ ∀ j, (p.journal j).Tallied (q.journal j)

theorem any_key {o o' : Option Slot} (h : o'.map Slot.key = o.map Slot.key) (g : SessionId × JournalId → Bool) :
    (o'.any fun x => g x.key) = o.any fun x => g x.key := by
  cases o <;> cases o' <;> simp_all

namespace Part.Same

variable {p q r : Part}

theorem refl (p : Part) : p.Same p := ⟨fun _ => rfl, fun _ => rfl, fun _ => .refl _⟩

theorem trans (h : p.Same q) (h' : q.Same r) : p.Same r :=
  ⟨fun n => (h'.1 n).trans (h.1 n), fun x => (h'.2.1 x).trans (h.2.1 x), fun j => (h.2.2 j).trans (h'.2.2 j)⟩

theorem foldl {α : Type} {op : Part → α → Part} (h : ∀ (p : Part) (a : α), p.Same (op p a)) (l : List α) :
    ∀ p : Part, p.Same (l.foldl op p) := by
  induction l with
  | nil => exact refl
  | cons a l ih => exact fun p => (h p a).trans (ih _)

theorem slotsWith (h : p.Same q) (g : SessionId × JournalId → Bool) :
    q.slotsWith (fun x => g x.key) = p.slotsWith fun x => g x.key := by
  unfold Part.slotsWith
  exact List.filter_congr fun n _ => any_key (h.1 n) g

theorem readsAt (h : p.Same q) (j : JournalId) (pos : W64) : q.readsAt j pos = p.readsAt j pos := by
  rw [readsAt_eq, readsAt_eq]
  exact List.countP_congr fun r _ => by rw [h.2.1 r]

theorem tables (h : p.Same q) (hp : p.tablesSound) : q.tablesSound := by
  refine tables_of (fun sid => ?_) fun j d hd => ?_
  · exact (congrArg List.length (h.slotsWith fun k => decide (k.1 = sid))).trans_le (hp.1 sid)
  · have hs := congrArg List.length (h.slotsWith fun k => decide (k.2 = j))
    rcases h.2.2 j d hd with ⟨h1, h2⟩ | ⟨c, hc, h1, h2⟩
    · exact ⟨by rw [h1]; exact Nat.zero_le _, fun pos => by rw [h2]; exact Nat.zero_le _⟩
    · have := hp.2 j c hc
      exact ⟨by rw [h1]; exact this.1.1.trans_eq hs.symm, fun pos => by rw [h2, h.readsAt]; exact this.2.1 pos⟩

end Part.Same

theorem Part.Changes.same {fs : List Part.Field} {p q : Part} (h : Part.Changes fs p q)
    (hs : Part.Field.slots ∉ fs := by decide) (hr : Part.Field.reads ∉ fs := by decide)
    (hj : Part.Field.journals ∉ fs := by decide) : p.Same q :=
  ⟨fun n => by rw [h.slot n hs], fun r => by rw [h.readCtx r hr], fun j => .of_eq (by rw [h.journal j hj])⟩

section
variable (p : Part)

theorem modJournal_same (j : JournalId) {f : Journal → Journal} (h : (p.journal j).Tallied (f (p.journal j))) :
    p.Same (p.modJournal j f) := by
  refine ⟨fun _ => rfl, fun _ => rfl, fun k => ?_⟩
  by_cases hk : j = k
  · subst hk; rw [modJournal_journal_self]; exact h
  · rw [modJournal_journal_ne _ _ _ hk]; exact .refl _

theorem modConf_same (j : JournalId) {f : Conf → Conf}
    (hf : ∀ c, (f c).openSlots = c.openSlots ∧ (f c).pins = c.pins := by exact fun _ => ⟨rfl, rfl⟩) :
    p.Same (p.modConf j f) := modJournal_same p j (.of_map rfl hf)

theorem setSlot_same {n : SlotId} {y : Option Slot} (h : y.map Slot.key = (p.slot n).map Slot.key) :
    p.Same (p.setSlot n y) := by
  refine ⟨fun k => ?_, fun _ => rfl, fun _ => .refl _⟩
  by_cases hk : n = k
  · subst hk; rw [setSlot_slot_self]; exact h
  · rw [setSlot_slot_ne _ _ _ hk]

theorem setRead_same {r : ReadId} {y : Option ReadCtx} (h : y.bind ReadCtx.pin = (p.readCtx r).bind ReadCtx.pin) :
    p.Same (p.setRead r y) := by
  refine ⟨fun _ => rfl, fun k => ?_, fun _ => .refl _⟩
  by_cases hk : r = k
  · subst hk; rw [setRead_readCtx_self]; exact h
  · rw [setRead_readCtx_ne _ _ _ hk]

theorem modDir_same (i : Item) (f : DirWriter → DirWriter) : p.Same (p.modDir i f) := by
  cases i
  · exact modJournal_same p _ (.of_eq rfl)
  · exact (modHeader_changes p _).same

theorem markDirty_same (i : Item) : p.Same (p.markDirty i) := modDir_same p i _

theorem bindFlight_same (i : Item) : p.Same (p.bindFlight i) := by
  cases i
  · exact modJournal_same p _ (.of_eq rfl)
  · exact .refl p

/-! ## The memory engine and the directory -/

theorem countHanded_same (c : Client) : p.Same (p.countHanded c) := by
  unfold Part.countHanded
  split
  · next r =>
    refine setRead_same p ?_
    cases p.readCtx r <;> rfl
  · exact .refl p

theorem enqueue_same (a : Access) : p.Same (p.enqueue a) :=
  (countHanded_same p _).trans ((modMem_changes _ _).trans (arbitrate_changes _)).same

theorem hand_same (a : Access) : p.Same (p.hand a) := by
  unfold Part.hand
  split
  · exact enqueue_same p a
  · exact (modMem_changes p _).same

theorem handAll_same (as : List Access) : p.Same (p.handAll as) := .foldl hand_same as p

theorem startWrite_same (i : Item) : p.Same (p.startWrite i) := by
  unfold Part.startWrite
  dsimp only
  split
  · exact ((modDir_same p i _).trans (bindFlight_same _ i)).trans (hand_same _ _)
  · exact .refl p

theorem startWrites_same : p.Same p.startWrites := .foldl startWrite_same _ p

theorem rewriteItem_same (client : Item → Copy → Client) (i : Item) : p.Same (p.rewriteItem client i) :=
  ((modDir_same p i _).trans (hand_same _ _)).trans (hand_same _ _)

/-! ## Append slots and transfers -/

theorem setSlot_some_same {n : SlotId} {x y : Slot} (hn : p.slot n = some x)
    (h : y.key = x.key := by rfl) :
    p.Same (p.setSlot n (some y)) := setSlot_same p (by rw [hn]; exact congrArg some h)

theorem voidSlot_same (n : SlotId) (r : VoidReason) : p.Same (p.voidSlot n r) := by
  unfold Part.voidSlot
  split
  · exact .refl p
  · next x hx =>
    split
    · exact (setSlot_some_same p hx).trans
        ((countAppend_changes _ _).trans (handRun_changes _ _ _ _ _ _)).same
    · exact .refl p

theorem voidAll_same (ns : List SlotId) (r : VoidReason) : p.Same (p.voidAll ns r) :=
  .foldl (fun p n => voidSlot_same p n r) ns p

theorem fence_same (j : JournalId) (s : SessionId) : p.Same (p.fence j s) := voidAll_same p _ _

theorem passSlot_same (j : JournalId) (n : SlotId) : p.Same (p.passSlot j n) := by
  unfold Part.passSlot
  split
  · exact .refl p
  · next x hx => exact (modConf_same p j).trans (setSlot_some_same _ hx)

theorem passSlots_same (k : Nat) (j : JournalId) : ∀ p : Part, p.Same (Part.passSlots k p j) := by
  induction k with
  | zero => exact .refl
  | succ k ih =>
    intro p
    unfold Part.passSlots
    split
    · exact .refl p
    · exact (passSlot_same p j _).trans (ih _)

theorem frontierAdvance_same (j : JournalId) : p.Same (p.frontierAdvance j) := by
  unfold Part.frontierAdvance
  split
  · exact .refl p
  · exact (passSlots_same 12 j p).trans (markDirty_same _ _)

theorem change_tallied (e : Journal) (own : Ownership) (ep : W32) (bs : List Bound) : e.Tallied (e.change own ep bs) :=
  .of_map rfl fun _ => ⟨rfl, rfl⟩

theorem completeTransfer_same (j : JournalId) (o : Option SessionId) (c : Option Claimant) :
    p.Same (p.completeTransfer j o c) :=
  ((modJournal_same p j (change_tallied _ _ _ _)).trans (markDirty_same _ _)).trans (notifyOwner_changes _ _ _).same

theorem transferCheck_same (j : JournalId) : p.Same (p.transferCheck j) := by
  unfold Part.transferCheck
  split
  · exact .refl p
  · split
    · split
      · exact completeTransfer_same p _ _ _
      · exact .refl p
    · exact .refl p

theorem beginTransfer_same (j : JournalId) (c : Option Claimant) : p.Same (p.beginTransfer j c) := by
  unfold Part.beginTransfer
  split
  · exact .refl p
  · split
    · next o t _ =>
      have h := ((modConf_same p j (f := fun c' => { c' with own := .transferring (some o) t c })).trans
        (markDirty_same _ (.journal j))).trans (fence_same _ j o)
      dsimp only
      split
      · exact (h.trans (notify_changes _ _ _).same).trans (transferCheck_same _ _)
      · exact h.trans (transferCheck_same _ _)
    · exact .refl p

/-! ## Trims and directory completions -/

theorem headAdvance_same (j : JournalId) : p.Same (p.headAdvance j) := by
  unfold Part.headAdvance
  split
  · exact .refl p
  · split
    · exact .refl p
    · split
      · exact ((modConf_same p j).trans (markDirty_same _ _)).trans (countRead_changes _ _).same
      · exact .refl p

theorem trimEnd_same (j : JournalId) : p.Same (p.trimEnd j) := by
  unfold Part.trimEnd
  split
  · exact .refl p
  · split
    · exact .refl p
    · split
      · exact (modConf_same p j (f := fun c => { c with trim := none })).trans
          (releaseAnswer_changes _ _ _).same
      · exact .refl p

theorem takeSnapshot_same (j : JournalId) : p.Same (p.takeSnapshot j) := by
  unfold Part.takeSnapshot
  split
  · exact modConf_same p j
  · exact .refl p

theorem trimChecked_same (j : JournalId) (bs : List Byte) : p.Same (p.trimChecked j bs) := by
  unfold Part.trimChecked
  split
  · exact .refl p
  · split
    · exact .refl p
    · next t _ =>
      split
      · exact .refl p
      · split
        · exact (modConf_same p j (f := fun c => { c with trim := some { t with phase := .held } })).trans (headAdvance_same _ _)
        · exact (modConf_same p j (f := fun c => { c with trim := none })).trans
            ((countRead_changes _ _).trans (releaseAnswer_changes _ _ _)).same

/-! ## Reads -/

theorem stage_same {r : ReadId} {x : ReadCtx} (h : p.readCtx r = some x) (hx : x.state ≠ .draining) :
    p.Same (p.stage r) := by
  unfold Part.stage
  rw [h]
  dsimp only
  split
  · exact .refl p
  · refine (setRead_same p ?_).trans (handAll_same _ _)
    rw [h]
    simp [ReadCtx.pin, hx]

theorem burstArrived_same (r : ReadId) (a : Nat) (bs : List Byte) : p.Same (p.burstArrived r a bs) := by
  unfold Part.burstArrived
  split
  · exact .refl p
  · next x hx =>
    dsimp only
    split
    · next hs =>
      refine setRead_same p ?_
      rw [hx]
      simp only [Option.bind_some, ReadCtx.pin, hs]
      split <;> simp
    · next hs =>
      refine setRead_same p ?_
      rw [hx]
      split <;> simp [ReadCtx.pin, hs]
    · refine setRead_same p ?_
      rw [hx]
      rfl

theorem queueFrame_same (r : ReadId) {q : Part} (h : p.queueFrame r = some q) : p.Same q := by
  unfold Part.queueFrame at h
  split at h
  · simp at h
  · next x hx =>
    split at h
    · next st hst _ =>
      split at h
      · dsimp only at h
        have h1 : ∀ i f g, p.Same ((p.queueResp i f).countRead g) := fun i f g =>
          ((queueResp_changes p i f).trans (countRead_changes _ g)).same
        have h2 : ∀ i f g y, y.pin = x.pin → p.Same (((p.queueResp i f).countRead g).setRead r (some y)) :=
          fun i f g y hy => (h1 i f g).trans (setRead_same _ (by
            have hc : ((p.queueResp i f).countRead g).readCtx r = some x := by
              rw [((queueResp_changes p i f).trans (countRead_changes _ g)).readCtx]; exact hx
            rw [hc]; exact hy))
        split at h
        · rw [← Option.some.inj h]
          exact (h2 _ _ _ _ (by simp [ReadCtx.pin, hst])).trans
            (stage_same _ (setRead_readCtx_self _ _ _) (by simp))
        · rw [← Option.some.inj h]
          exact h2 _ _ _ _ (by simp [ReadCtx.pin, hst])
      · simp at h
    · simp at h

theorem admitHeld_same (c : Client) {q : Part} (h : p.admitHeld c = some q) : p.Same q := by
  unfold Part.admitHeld at h
  split at h
  · simp at h
  · split at h
    · simp at h
    · split at h
      · rw [← Option.some.inj h]
        exact (modMem_changes p _).same.trans (enqueue_same _ _)
      · simp at h

/-! ## Sessions -/

theorem unsubscribeAll_same (i : Port) : p.Same (p.unsubscribeAll i) :=
  .foldl (fun p j => modConf_same p j) _ p

theorem sessionEnded_tally (c : Conf) (s : SessionId) (g : W16) :
    (c.sessionEnded s g).openSlots = c.openSlots ∧ (c.sessionEnded s g).pins = c.pins := by
  unfold Conf.sessionEnded
  split
  · split <;> exact ⟨rfl, rfl⟩
  · exact ⟨rfl, rfl⟩
  · exact ⟨rfl, rfl⟩

theorem leaveJournal_same (s : SessionId) (j : JournalId) : p.Same (p.leaveJournal s j) := by
  have h := modConf_same p j (f := fun c => c.sessionEnded s p.maint.params.grace)
    fun c => sessionEnded_tally c s p.maint.params.grace
  unfold Part.leaveJournal
  dsimp only
  split
  · exact (h.trans (markDirty_same _ _)).trans ((notifyOwner_changes _ _ _).trans (raise_changes _ _)).same
  · exact h

/-! ## Cold start, FORMAT and restore -/

theorem foldJournals_same {f : JournalId → Journal → Journal} (h : ∀ j (e : Journal), e.Tallied (f j e)) (js : List JournalId) :
    p.Same (js.foldl (fun q j => q.modJournal j (f j)) p) := .foldl (fun q j => modJournal_same q j (h j _)) js p

theorem cleared_tallied (e : Journal) : e.Tallied e.cleared := .of_none rfl

theorem coldFill_same : p.Same p.coldFill := by
  unfold Part.coldFill
  dsimp only
  generalize allItems = items
  refine Part.Same.trans ?_ (.foldl (fun q i => rewriteItem_same q _ i) items _)
  exact (foldJournals_same p (fun _ _ => .of_none rfl) _).trans
    (((modHeader_changes _ _).trans (modMaint_changes _ _)).trans (modCtl_changes _ _)).same

theorem formatItem_same (i : Item) : p.Same (p.formatItem i) :=
  ((modDir_same p i _).trans (hand_same _ _)).trans (hand_same _ _)

theorem formatNow_same : p.Same p.formatNow := by
  have h0 : p.Same { p with formatPending := false } := ⟨fun _ => rfl, fun _ => rfl, fun _ => .refl _⟩
  unfold Part.formatNow
  dsimp only
  generalize allItems = items
  refine Part.Same.trans ?_ (.foldl formatItem_same items _)
  exact (h0.trans (foldJournals_same _ (f := fun _ => Journal.cleared) (fun _ e => cleared_tallied e) _)).trans
    (modHeader_changes _ _).same

theorem formatCheck_same : p.Same p.formatCheck := by
  unfold Part.formatCheck
  split
  · exact formatNow_same p
  · exact .refl p

theorem formatWritten_same (i : Item) (c : Copy) : p.Same (p.formatWritten i c) := by
  unfold Part.formatWritten
  dsimp only
  split
  · exact (modDir_same p i _).trans (deferredDone_changes _).same
  · exact modDir_same p i _

theorem loadItem_same (i : Item) : p.Same (p.loadItem i) := (hand_same p _).trans (hand_same _ _)

theorem loadHeader_same : p.Same p.loadHeader := (modCtl_changes p _).same.trans (loadItem_same _ _)

theorem headerTaken_same (c : Copy) (bs : List Byte) (h : HeaderRecord) : p.Same (p.headerTaken c bs h) := by
  unfold Part.headerTaken
  dsimp only
  refine Part.Same.trans ?_ (.foldl (fun q j => loadItem_same q (.journal j)) _ _)
  exact (foldJournals_same p (f := fun j e => { e with watermark := byteAt h.watermarks j.val })
    (fun _ _ => .of_eq rfl) _).trans
    (((modHeader_changes _ _).trans (modMaint_changes _ _)).trans (modCtl_changes _ _)).same

theorem directoryLost_same : p.Same p.directoryLost := by
  unfold Part.directoryLost
  dsimp only
  refine Part.Same.trans ?_ (.foldl (fun q j => rewriteItem_same q _ (.journal j)) _ _)
  exact (((raise_changes p causeDirectoryLost).trans (countRet_changes _ _)).same.trans
    (foldJournals_same _ (f := fun _ e => { e.cleared with watermark := Config.defaultWatermark })
      (fun _ _ => .of_none rfl) _)).trans
    (((modHeader_changes _ _).trans (modMaint_changes _ _)).trans (modCtl_changes _ _)).same

theorem selectHeader_same : p.Same p.selectHeader := by
  unfold Part.selectHeader
  split
  · split
    · split
      · exact headerTaken_same p _ _ _
      · exact directoryLost_same p
    · exact directoryLost_same p
  · exact .refl p

theorem journalLost_same (j : JournalId) : p.Same (p.journalLost j) :=
  (((raise_changes p causeDirectoryLost).trans (countRet_changes _ _)).same.trans
    (modJournal_same _ j (cleared_tallied _))).trans (rewriteItem_same _ _ _)

theorem rebuilt_tallied (e : Journal) (c : Copy) (g : W32) (x : EntryRecord) (st : JournalState) :
    e.Tallied (e.rebuilt c g x st) := by
  intro d hd
  left
  unfold Journal.rebuilt at hd
  split at hd
  · cases hd
  · cases hd
    exact ⟨rfl, rfl⟩

theorem selectEntry_same (j : JournalId) : p.Same (p.selectEntry j) := by
  unfold Part.selectEntry
  split
  · refine Part.Same.trans ?_ (modCtl_changes _ _).same
    split
    · dsimp only
      split
      · split
        · exact modJournal_same p j (rebuilt_tallied _ _ _ _ _)
        · exact journalLost_same p j
      · exact journalLost_same p j
    · exact journalLost_same p j
  · exact .refl p

theorem loadArrived_same (i : Item) (c : Copy) (bs : List Byte) : p.Same (p.loadArrived i c bs) := by
  unfold Part.loadArrived
  split
  · exact .refl p
  · cases i
    · exact (modCtl_changes p _).same.trans (selectEntry_same _ _)
    · exact (modCtl_changes p _).same.trans (selectHeader_same _)

theorem rewritten_same (i : Item) : p.Same (p.rewritten i) := by
  unfold Part.rewritten
  dsimp only
  split
  · exact ((modDir_same p i _).trans (modCtl_changes _ _).same).trans (rewriteItem_same _ _ _)
  · exact modDir_same p i _

theorem startGrace_same (j : JournalId) : p.Same (p.startGrace j) := by
  unfold Part.startGrace
  split
  · exact .refl p
  · split
    · exact (modConf_same p j).trans (raise_changes _ _).same
    · exact .refl p

theorem restoreDone_same : p.Same p.restoreDone := by
  unfold Part.restoreDone
  dsimp only
  generalize allJournals = js
  exact ((modRet_changes p _).same.trans (.foldl startGrace_same js _)).trans
    ((setMode_changes _ _).trans (modCtl_changes _ _)).same

theorem restoreCheck_same : p.Same p.restoreCheck := by
  unfold Part.restoreCheck
  split
  · exact restoreDone_same p
  · exact .refl p

theorem initialiseDone_same : p.Same p.initialiseDone := by
  have h : Part.Changes [.dram] p { p with dram := [] } :=
    fun x hx => by cases x <;> first | (simp at hx; done) | rfl
  have h1 := ((h.trans (modMem_changes _ MemEngine.initialised)).trans (arbitrate_changes _)).same
  unfold Part.initialiseDone
  dsimp only
  split
  · exact h1.trans (coldFill_same _)
  · exact h1

theorem exitComplete_same : p.Same p.exitComplete := by
  have h := (((modMem_changes p MemEngine.exited).trans
    (modRet_changes _ fun r => { r with selfRefresh := false })).trans (arbitrate_changes _)).same
  unfold Part.exitComplete
  dsimp only
  split
  · exact h
  · split
    · exact h.trans (coldFill_same _)
    · exact h.trans (loadHeader_same _)
    · exact h

theorem endPayload_same (n : SlotId) : p.Same (p.endPayload n) := by
  unfold Part.endPayload
  split
  · exact .refl p
  · next x hx =>
    split
    · exact (setSlot_some_same p hx).trans (handRun_changes _ _ _ _ _ _).same
    · exact voidSlot_same p _ _

theorem takeData_same {n : SlotId} {x : Slot} (hx : p.slot n = some x) (bs : List Byte) : p.Same (p.takeData n x bs) := by
  unfold Part.takeData
  dsimp only
  split
  · exact ((setSlot_some_same p hx).trans (handRun_changes _ _ _ _ _ _).same).trans (endPayload_same _ _)
  · exact (setSlot_some_same p hx).trans (handRun_changes _ _ _ _ _ _).same

theorem data_same (i : Port) (pl : List Byte) : p.Same (p.data i pl) := by
  unfold Part.data
  split
  · exact (lateData_changes p i).same
  · split
    · exact (lateData_changes p i).same
    · split
      · exact (lateData_changes p i).same
      · split
        · exact .refl p
        · next x hx =>
          split
          · exact voidSlot_same p _ _
          · exact takeData_same p hx _

theorem slotWritten_same (n : SlotId) : p.Same (p.slotWritten n) := by
  unfold Part.slotWritten
  split
  · exact .refl p
  · next x hx =>
    dsimp only
    split
    · split
      · exact ((setSlot_some_same p hx).trans (countAppend_changes _ _).same).trans (frontierAdvance_same _ _)
      · exact setSlot_some_same p hx
    · split
      · exact (setSlot_some_same p hx).trans (frontierAdvance_same _ _)
      · exact setSlot_some_same p hx
    · exact setSlot_some_same p hx

/-! ## Requests and maintenance commands that count nothing -/

theorem subscribe_same (i : Port) (r : Req) : p.Same (p.subscribe i r) := by
  unfold Part.subscribe
  split
  · exact (answer_changes p _ _).same
  · split
    · exact (answer_changes p _ _).same
    · exact (modConf_same p _).trans (answer_changes _ _ _).same

theorem unsubscribe_same (i : Port) (r : Req) : p.Same (p.unsubscribe i r) := by
  unfold Part.unsubscribe
  split
  · exact (answer_changes p _ _).same
  · exact (modConf_same p _).trans (answer_changes _ _ _).same

theorem claim_same (i : Port) (r : Req) : p.Same (p.claim i r) := by
  unfold Part.claim
  split
  · exact (answer_changes p _ _).same
  · split
    · exact (answer_changes p _ _).same
    · split
      · exact (answer_changes p _ _).same
      · exact ((modJournal_same p _ (change_tallied _ _ _ _)).trans (markDirty_same _ _)).trans
          ((enterTag_changes _ _ _).trans (notifyOwner_changes _ _ _)).same

theorem release_same (i : Port) (r : Req) : p.Same (p.release i r) := by
  unfold Part.release
  split
  · exact (answer_changes p _ _).same
  · split
    · exact (answer_changes p _ _).same
    · exact ((modJournal_same p _ (change_tallied _ _ _ _)).trans (markDirty_same _ _)).trans
        ((enterTag_changes _ _ _).trans (notifyOwner_changes _ _ _)).same

theorem takeover_same (i : Port) (r : Req) : p.Same (p.takeover i r) := by
  unfold Part.takeover
  split
  · exact (answer_changes p _ _).same
  · split
    · exact (answer_changes p _ _).same
    · split
      · exact (answer_changes p _ _).same
      · exact (enterTag_changes p _ _).same.trans (beginTransfer_same _ _ _)

theorem trimRequest_same (i : Port) (r : Req) : p.Same (p.trimRequest i r) := by
  unfold Part.trimRequest
  split
  · exact (answer_changes p _ _).same
  · split
    · exact (answer_changes p _ _).same
    · unfold Part.acceptTrim
      dsimp only
      split
      · exact ((modConf_same p _).trans (enterTag_changes _ _ _).same).trans (headAdvance_same _ _)
      · exact ((modConf_same p _).trans (enterTag_changes _ _ _).same).trans (hand_same _ _)

theorem headerWritten_same : p.Same p.headerWritten := (modDir_same p .header _).trans (startWrite_same _ _)

theorem setLayout_same (j : Byte) (b c : W16) : p.Same (p.setLayout j b c) := by
  unfold Part.setLayout
  split
  · exact (respond_changes p _ _).same
  · split
    · exact (respond_changes p _ _).same
    · split
      · refine ((modJournal_same p _ ?_).trans (markDirty_same _ _)).trans
          ((raiseLayout_changes _).trans (respond_changes _ _ _)).same
        intro d hd
        cases hd
        exact .inl ⟨rfl, rfl⟩
      · exact (respond_changes p _ _).same

theorem clearLayout_same (j : Byte) : p.Same (p.clearLayout j) := by
  unfold Part.clearLayout
  split
  · exact (respond_changes p _ _).same
  · split
    · exact (respond_changes p _ _).same
    · dsimp only
      split
      · exact (((notifyAll_changes p _ _).same.trans (modJournal_same _ _ (.of_none rfl))).trans
          (markDirty_same _ _)).trans ((raiseLayout_changes _).trans (respond_changes _ _ _)).same
      · exact (respond_changes p _ _).same

theorem replaceParam_same (a b : Byte) (v : W16) {q : Part} (h : p.replaceParam a b v = some q) : p.Same q := by
  have hm : ∀ f, p.Same (p.modMaint f) := fun f => (modMaint_changes p f).same
  unfold Part.replaceParam at h
  dsimp only at h
  split at h
  · split at h
    · rw [← Option.some.inj h]; exact hm _
    · simp at h
  · split at h
    · rw [← Option.some.inj h]; exact hm _
    · simp at h
  · split at h
    · rw [← Option.some.inj h]; exact hm _
    · simp at h
  · obtain ⟨r, _, hr⟩ := Option.map_eq_some_iff.1 h
    subst hr; exact hm _
  · split at h
    · obtain ⟨r, _, hr⟩ := Option.map_eq_some_iff.1 h
      subst hr; exact modJournal_same p _ (.of_eq rfl)
    · simp at h
  · simp at h

theorem setParam_same (a b : Byte) (v : W16) : p.Same (p.setParam a b v) := by
  unfold Part.setParam
  split
  · next q hq => exact ((replaceParam_same p a b v hq).trans (markDirty_same _ _)).trans (respond_changes _ _ _).same
  · exact (respond_changes p _ _).same

theorem forceRelease_same (j : Byte) : p.Same (p.forceRelease j) := by
  have hr : ∀ st bs, p.Same (p.respond st bs) := fun st bs => (respond_changes p st bs).same
  unfold Part.forceRelease
  split
  · exact hr _ _
  · split
    · exact hr _ _
    · split
      · exact hr _ _
      · unfold Part.forceJournal
        split
        · exact hr _ _
        · exact hr _ _
        · split
          · exact hr _ _
          · exact (accepted_changes p _).same.trans (beginTransfer_same _ _ _)
        · split
          · exact hr _ _
          · exact (((accepted_changes p _).same.trans (modJournal_same _ _ (change_tallied _ _ _ _))).trans
              (markDirty_same _ _)).trans (notifyOwner_changes _ _ _).same

end

/-! ## Slots and pins that come and go -/

section
variable {p : Part}

/-- A slot becomes FREE and its journal's open-slot count falls with it (R44). -/
theorem freeSlot_tables (hp : p.tablesSound) (n : SlotId) : (p.freeSlot n).tablesSound := by
  unfold Part.freeSlot
  split
  · exact hp
  · next s hs =>
    refine (transferCheck_same _ _).tables (tables_of (fun sid => ?_) fun j d hd => ?_)
    · have h := setSlot_count p n none fun x => decide (x.session = sid)
      have h0 := hp.1 sid
      unfold Part.openAppends at h0 ⊢
      change ((p.setSlot n none).slotsWith _).length ≤ 4
      simp only [Option.any_none, Bool.false_eq_true, if_false] at h
      omega
    · have h := setSlot_count p n none fun x => decide (x.journal = j)
      rw [hs] at h
      simp only [Option.any_none, Option.any_some, Bool.false_eq_true, if_false, decide_eq_true_iff] at h
      have hr : ∀ pos, ((p.setSlot n none).modConf s.journal fun c => { c with openSlots := c.openSlots - 1 }).readsAt j pos
          = p.readsAt j pos := fun _ => rfl
      change d.openSlots ≤ ((p.setSlot n none).slotsWith _).length ∧ _
      by_cases hj : s.journal = j
      · subst hj
        rw [modConf_journal_self] at hd
        obtain ⟨c, hc, rfl⟩ := Option.map_eq_some_iff.1 hd
        have h0 := hp.2 _ c hc
        rw [if_pos rfl] at h
        exact ⟨by dsimp only; have := h0.1.1; omega, fun pos => (h0.2.1 pos).trans_eq (hr pos).symm⟩
      · rw [modConf_journal_ne _ _ _ hj] at hd
        have h0 := hp.2 _ d hd
        rw [if_neg hj] at h
        exact ⟨by have := h0.1.1; omega, fun pos => (h0.2.1 pos).trans_eq (hr pos).symm⟩

theorem foldl_tables {α : Type} {op : Part → α → Part} (h : ∀ (p : Part) (a : α), p.tablesSound → (op p a).tablesSound)
    (l : List α) : ∀ {p : Part}, p.tablesSound → (l.foldl op p).tablesSound := by
  induction l with
  | nil => exact fun hp => hp
  | cons a l ih => exact fun hp => ih (h _ a hp)

theorem dropWaiting_tables (hp : p.tablesSound) (w : Waiting) : (p.dropWaiting w).tablesSound := by
  cases w
  · exact freeSlot_tables hp _
  · exact hp

theorem queueDone_tables (hp : p.tablesSound) (i : Port) (n : SlotId) (s : Slot) : (p.queueDone i n s).tablesSound :=
  freeSlot_tables (((queueDeferred_changes p _ _).trans (modReq_changes _ _ _)).same.tables hp) _

theorem releaseSlot_tables (hp : p.tablesSound) (n : SlotId) : (p.releaseSlot n).tablesSound := by
  unfold Part.releaseSlot
  split
  · exact hp
  · split
    · split
      · exact queueDone_tables hp _ _ _
      · exact (setWaits_changes p _ _).same.tables hp
    · exact freeSlot_tables hp _

theorem serveDone_tables (hp : p.tablesSound) (i : Port) {q : Part} (h : p.serveDone i = some q) : q.tablesSound := by
  unfold Part.serveDone at h
  split at h
  · split at h
    · split at h
      · rw [← Option.some.inj h]
        exact queueDone_tables ((setWaits_changes p _ _).same.tables hp) _ _ _
      · simp at h
    · simp at h
  · simp at h

theorem releaseAll_tables (hp : p.tablesSound) (j : JournalId) : (p.releaseAll j).tablesSound := by
  have h1 := (trimEnd_same _ j).tables (foldl_tables (fun _ n h => releaseSlot_tables h n) (p.durableSlots j) hp)
  exact foldl_tables (fun q b h => (releaseBound_changes q b).same.tables h) _ ((modJournal_same _ j (.of_eq rfl)).tables h1)

/-- The completion of a directory write (R19). -/
theorem journalWritten_tables (hp : p.tablesSound) (j : JournalId) : (p.journalWritten j).tablesSound := by
  have h1 := ((modDir_same p (.journal j) DirWriter.written).trans (takeSnapshot_same _ j)).tables hp
  have h2 := (notifyFrontier_changes _ j (((p.journal j).conf.map Conf.durable).getD 0)).same.tables
    (releaseAll_tables h1 j)
  exact ((modDir_same _ (.journal j) _).trans (startWrite_same _ _)).tables h2

/-- A FREE slot taken for a session with fewer than 4 open appends, its journal's open-slot count rising with it (R15,
R26, R28). -/
theorem reserved_tables (hp : p.tablesSound) {n : SlotId} {x : Slot} (hn : p.slot n = none)
    (hs : p.openAppends x.session < 4) {q : Part} (hq : Part.Changes [.mem] (p.setSlot n (some x)) q) (occ : Nat) :
    (q.modConf x.journal fun c => c.reserved occ).tablesSound := by
  have hcount : ∀ f : Slot → Bool, (q.slotsWith f).length = (p.slotsWith f).length + (if f x then 1 else 0) := by
    intro f
    have h := setSlot_count p n (some x) f
    rw [hn] at h
    simp only [Option.any_none, Option.any_some, Bool.false_eq_true, if_false, Nat.add_zero] at h
    rw [← h, slotsWith_count, slotsWith_count]
    simp only [hq.slot]
  have hreads : ∀ j pos, q.readsAt j pos = p.readsAt j pos := fun j pos => by
    unfold Part.readsAt
    simp only [hq.readCtx]
    rfl
  refine tables_of (fun sid => ?_) fun j d hd => ?_
  · refine (hcount fun y => decide (y.session = sid)).trans_le ?_
    by_cases h : x.session = sid
    · subst h
      simp only [decide_true, if_true]
      exact hs
    · simp only [h, decide_false, Bool.false_eq_true, if_false]
      exact hp.1 sid
  · have hc := hcount fun y => decide (y.journal = j)
    have hr : ∀ pos, (q.modConf x.journal fun c => c.reserved occ).readsAt j pos = p.readsAt j pos := hreads j
    change d.openSlots ≤ (q.slotsWith _).length ∧ _
    rw [hc]
    by_cases hj : x.journal = j
    · subst hj
      rw [modConf_journal_self, hq.journal] at hd
      obtain ⟨c, hc, rfl⟩ := Option.map_eq_some_iff.1 hd
      have h0 := hp.2 _ c hc
      simp only [decide_true, if_true]
      exact ⟨Nat.succ_le_succ h0.1.1, fun pos => (h0.2.1 pos).trans_eq (hr pos).symm⟩
    · rw [modConf_journal_ne _ _ _ hj, hq.journal] at hd
      have h0 := hp.2 _ d hd
      exact ⟨Nat.le_add_right_of_le h0.1.1, fun pos => (h0.2.1 pos).trans_eq (hr pos).symm⟩

theorem appendCheck_room {i : Port} {r : Req} {j : JournalId} {c : Conf} (h : p.appendCheck i r j c = none) :
    p.openAppends (p.sessionOf i) < 4 := by
  unfold Part.appendCheck at h
  dsimp only at h
  repeat' split at h
  all_goals first | cases h | skip
  next hn _ => exact Nat.lt_of_not_le hn

theorem fillCheck_same (p : Part) (j : JournalId) (i : Port) : p.Same (p.fillCheck j i) := by
  unfold Part.fillCheck
  split
  · exact .refl p
  · split
    · exact (modConf_same p j).trans (notify_changes _ _ _).same
    · exact .refl p

theorem append_tables (hp : p.tablesSound) (i : Port) (r : Req) : (p.append i r).tablesSound := by
  unfold Part.append
  split
  · exact (answer_changes p _ _).same.tables hp
  · split
    · exact ((answer_changes p _ _).trans (countAppend_changes _ _)).same.tables hp
    · next hcheck =>
      split
      · exact hp
      · next n hn =>
        have hfree : p.slot n = none := by
          have := List.find?_some hn
          exact Option.isNone_iff_eq_none.1 this
        unfold Part.acceptAppend
        dsimp only
        refine ((((enterTag_changes _ _ _).trans (modReq_changes _ _ _)).trans (countAppend_changes _ _)).same).tables
          ((fillCheck_same _ _ _).tables ?_)
        exact reserved_tables hp hfree (appendCheck_room hcheck) (handPad_changes _ _ _ _ _ _) _

/-! ## Reads -/

/-- The pin of a read that ends leaves its journal's pin set (R78, R79). -/
theorem removePin_tables (hp : p.tablesSound) {r : ReadId} {x : ReadCtx} (hx : p.readCtx r = some x) {y : Option ReadCtx}
    (hy : y.bind ReadCtx.pin = none) {q : Part} (hq : Part.Changes [.mem, .reqs, .readCnt] (p.setRead r y) q) :
    (q.removePin x.journal x.start).tablesSound := by
  have hslots : ∀ f, q.slotsWith f = p.slotsWith f := fun f => by
    unfold Part.slotsWith
    simp only [hq.slot]
    rfl
  have hreads : ∀ j pos, p.readsAt j pos ≤ q.readsAt j pos + (if (x.journal, x.start) = (j, pos) then 1 else 0) := by
    intro j pos
    have h := setRead_count p r y j pos
    have he : q.readsAt j pos = (p.setRead r y).readsAt j pos := by
      unfold Part.readsAt
      simp only [hq.readCtx]
    rw [hy, hx] at h
    rw [he]
    simp only [reduceCtorEq, if_false, Nat.add_zero, Option.bind_some, ReadCtx.pin] at h
    by_cases hd : x.state = .draining
    · simp only [hd, if_true, reduceCtorEq, if_false] at h
      omega
    · simp only [hd, if_false, Option.some.injEq] at h
      omega
  refine (headAdvance_same _ _).tables (tables_of (fun sid => ?_) fun j d hd => ?_)
  · exact (congrArg List.length (hslots _)).trans_le (hp.1 sid)
  · change d.openSlots ≤ (q.slotsWith _).length ∧ ∀ pos, d.pins.count pos ≤ q.readsAt j pos
    rw [hslots]
    by_cases hj : x.journal = j
    · subst hj
      rw [modConf_journal_self, hq.journal] at hd
      obtain ⟨c, hc, rfl⟩ := Option.map_eq_some_iff.1 hd
      have h0 := hp.2 _ c hc
      refine ⟨h0.1.1, fun pos => ?_⟩
      have h1 := h0.2.1 pos
      have h2 := hreads x.journal pos
      dsimp only
      rw [List.count_erase]
      by_cases hs : x.start = pos
      · subst hs
        simp at h2 ⊢
        omega
      · have hne : (x.journal, x.start) ≠ (x.journal, pos) := fun e => hs (Prod.mk.inj e).2
        rw [if_neg hne] at h2
        have hb : (x.start == pos) = false := by simpa using hs
        rw [hb]
        simp only [Bool.false_eq_true, if_false, Nat.sub_zero]
        omega
    · rw [modConf_journal_ne _ _ _ hj, hq.journal] at hd
      have h0 := hp.2 _ d hd
      refine ⟨h0.1.1, fun pos => ?_⟩
      have h1 := h0.2.1 pos
      have h2 := hreads j pos
      rw [if_neg fun e => hj (Prod.mk.inj e).1] at h2
      omega

theorem cancelRead_tables (hp : p.tablesSound) (r : ReadId) : (p.cancelRead r).tablesSound := by
  unfold Part.cancelRead
  split
  · exact hp
  · next x hx =>
    have hm : ∀ f, (p.modMem f).tablesSound := fun f => (modMem_changes p f).same.tables hp
    refine removePin_tables (hm _) (r := r) (x := x) hx (y := if x.outstanding = 0 then none
      else some { x with state := .draining, staged := none }) ?_ ((countRead_changes _ _).mono)
    split
    · rfl
    · simp [ReadCtx.pin]

theorem queueReadResponse_tables (hp : p.tablesSound) (r : ReadId) {q : Part} (h : p.queueReadResponse r = some q) :
    q.tablesSound := by
  unfold Part.queueReadResponse at h
  split at h
  · simp at h
  · next x hx =>
    split at h
    · rw [← Option.some.inj h]
      have h1 : (p.queueDeferred (portOfRead r) x.response).tablesSound := (queueDeferred_changes p _ _).same.tables hp
      exact removePin_tables h1 (r := r) (x := x) (by rw [(queueDeferred_changes p _ _).readCtx]; exact hx) (y := none) rfl
        (.refl _ _)
    · simp at h

/-- An accepted READ pins its start position with the context that reads it (R75). -/
theorem readRequest_tables (hp : p.tablesSound) (i : Port) (r : Req) : (p.readRequest i r).tablesSound := by
  unfold Part.readRequest
  split
  · exact (answer_changes p _ _).same.tables hp
  · next j c hj =>
    split
    · exact ((answer_changes p _ _).trans (countRead_changes _ _)).same.tables hp
    · split
      · exact hp
      · next n hn =>
        have hfree : p.readCtx n = none := by
          have := List.find?_some hn
          simp only [Bool.and_eq_true] at this
          exact Option.isNone_iff_eq_none.1 this.2
        unfold Part.acceptRead
        dsimp only
        have hst : (newRead r j c (p.req i).session.gen).state ≠ .draining := by simp [newRead]
        have hpin : (newRead r j c (p.req i).session.gen).pin = some (j, r.readPosition) := by
          unfold ReadCtx.pin
          rw [if_neg hst]; rfl
        generalize newRead r j c (p.req i).session.gen = x at hst hpin ⊢
        have h1 : ∀ f g t, (((p.modConf j f).setRead n (some x)).enterTag i t |>.countRead g).readCtx n = some x :=
          fun f g t => setRead_readCtx_self _ _ _
        refine (stage_same _ (h1 _ _ _) hst).tables ?_
        refine (((enterTag_changes _ _ _).trans (countRead_changes _ _)).same).tables ?_
        refine tables_of (fun sid => hp.1 sid) fun k d hd => ?_
        have hr : ∀ f k pos, ((p.modConf j f).setRead n (some x)).readsAt k pos
            = p.readsAt k pos + (if (j, r.readPosition) = (k, pos) then 1 else 0) := by
          intro f k pos
          have h := setRead_count (p.modConf j f) n (some x) k pos
          have hf : (p.modConf j f).readCtx n = none := hfree
          rw [hf] at h
          simp only [Option.bind_none, reduceCtorEq, if_false, Nat.add_zero, Option.bind_some, hpin,
            Option.some.injEq] at h
          exact h
        refine ⟨?_, fun pos => ?_⟩
        · change d.openSlots ≤ (p.slotsWith _).length
          rw [setRead_journal] at hd
          by_cases hk : j = k
          · subst hk
            rw [modConf_journal_self] at hd
            obtain ⟨e, he, rfl⟩ := Option.map_eq_some_iff.1 hd
            exact (hp.2 _ e he).1.1
          · rw [modConf_journal_ne _ _ _ hk] at hd
            exact (hp.2 _ d hd).1.1
        · rw [hr]
          rw [setRead_journal] at hd
          by_cases hk : j = k
          · subst hk
            rw [modConf_journal_self] at hd
            obtain ⟨e, he, rfl⟩ := Option.map_eq_some_iff.1 hd
            have h0 := (hp.2 _ e he).2.1 pos
            dsimp only
            rw [List.count_append, List.count_singleton]
            by_cases hpos : r.readPosition = pos
            · subst hpos
              simpa using h0
            · have hb : (r.readPosition == pos) = false := by simpa using hpos
              rw [hb, if_neg fun e => hpos (Prod.mk.inj e).2]
              simpa using h0
          · rw [modConf_journal_ne _ _ _ hk] at hd
            exact Nat.le_add_right_of_le ((hp.2 _ d hd).2.1 pos)

/-! ## Sessions and links -/

theorem endSession_tables (hp : p.tablesSound) (i : Port) (c : EndCause) : (p.endSession i c).tablesSound := by
  unfold Part.endSession
  dsimp only
  generalize allJournals = js
  refine foldl_tables (fun _ w h => dropWaiting_tables h w) _ ((setWaits_changes _ _ _).same.tables ?_)
  refine (Part.Same.foldl (fun q j => leaveJournal_same q _ j) _ _).tables ?_
  refine foldl_tables (fun _ r h => cancelRead_tables h r) _ ((voidAll_same _ _ _).tables ?_)
  exact (clearNtf_changes _ _ _).same.tables
    ((unsubscribeAll_same _ _).tables ((closeRequests_changes p i c).same.tables hp))

theorem detach_tables (hp : p.tablesSound) (i : Port) (r : Req) : (p.detach i r).tablesSound :=
  (answer_changes _ _ _).same.tables (endSession_tables hp _ _)

theorem linkDown_tables (hp : p.tablesSound) (i : Port) (c : DownCause) : (p.linkDown i c).tablesSound := by
  have h2 : (((p.modLink i fun u => u.down c).raise (causeLinkDown i)).modReq i fun r =>
      { r with buffer := [], respQ := [] }).tablesSound :=
    (((modLink_changes _ _ _).trans (raise_changes _ _)).trans (modReq_changes _ _ _)).same.tables hp
  unfold Part.linkDown
  dsimp only
  refine ((clearNtf_changes _ _ _).trans (modNtf_changes _ _ _)).same.tables ?_
  split
  · exact endSession_tables h2 _ _
  · exact h2

theorem replayTrigger_tables (hp : p.tablesSound) (i : Port) : (p.replayTrigger i).tablesSound := by
  unfold Part.replayTrigger
  dsimp only
  split
  · exact hp
  · split
    · exact (modLink_changes p _ _).same.tables hp
    · exact linkDown_tables hp _ _

theorem takeHeader_tables (hp : p.tablesSound) (i : Port) (h : Header) : (p.takeHeader i h).tablesSound := by
  have h1 := (modLink_changes p i fun u => (u.takeAck h.ack).takeCredit h.credit).same.tables hp
  unfold Part.takeHeader
  dsimp only
  split
  · exact replayTrigger_tables h1 i
  · exact h1

theorem goodFrame_tables (hp : p.tablesSound) (i : Port) (f g : LinkUnit → LinkUnit) (h : Header) :
    (((p.modLink i f).modLink i g).takeHeader i h).tablesSound :=
  takeHeader_tables (((modLink_changes p _ _).trans (modLink_changes _ _ _)).same.tables hp) _ _

theorem goodSequenced_tables (hp : p.tablesSound) (i : Port) (t : SeqType) (h : Header) (pl : List Byte) :
    (p.goodSequenced i t h pl).tablesSound := by
  unfold Part.goodSequenced
  dsimp only
  split
  · exact (modLink_changes p _ _).same.tables hp
  · exact ((modLink_changes p _ _).trans (modLink_changes _ _ _)).same.tables hp
  · split
    · exact (classify_changes _ _ _ _ _).same.tables (goodFrame_tables hp _ _ _ _)
    · exact goodFrame_tables hp _ _ _ _

theorem goodIdle_tables (hp : p.tablesSound) (i : Port) (h : Header) : (p.goodIdle i h).tablesSound := by
  unfold Part.goodIdle
  dsimp only
  split
  · split
    · exact ((modLink_changes p _ _).trans (modLink_changes _ _ _)).same.tables hp
    · exact (modLink_changes p _ _).same.tables hp
  · exact ((modLink_changes p _ _).trans (syncIdle_changes _ _)).same.tables hp
  · split
    · exact (modLink_changes _ _ _).same.tables (goodFrame_tables hp _ _ _ _)
    · exact goodFrame_tables hp _ _ _ _

theorem goodReset_tables (hp : p.tablesSound) (i : Port) (h : Header) : (p.goodReset i h).tablesSound := by
  unfold Part.goodReset
  dsimp only
  split
  · split
    · exact ((modLink_changes p _ _).trans (modLink_changes _ _ _)).same.tables hp
    · exact (modLink_changes p _ _).same.tables hp
  · exact ((modLink_changes p _ _).trans (modLink_changes _ _ _)).same.tables hp
  · split
    · exact linkDown_tables (goodFrame_tables hp _ _ _ _) _ _
    · exact goodFrame_tables hp _ _ _ _

/-! ## Starts, stops and quiesce -/

/-- The start values of the blocks hold no slot, no read and no configured journal. -/
theorem fresh_tables (r : Retention) (d : List Host.Cell) (n : Nat) : (Part.fresh r d n).tablesSound := by
  have hj : ∀ j, ((Part.fresh r d n).journal j).conf = none := fun j => congrArg Journal.conf (fresh_get _ _)
  refine tables_of (fun sid => ?_) fun j c hc => absurd (hj j) (by rw [hc]; simp)
  have : ∀ f, (Part.fresh r d n).slotsWith f = [] := fun f => List.filter_eq_nil_iff.2 fun m _ => by
    have : (Part.fresh r d n).slot m = none := fresh_get _ _
    rw [this]; simp
  unfold Part.openAppends
  rw [this]
  exact Nat.zero_le _

theorem stopMain_tables : p.stopMain.tablesSound := by
  unfold Part.stopMain
  split
  · split <;> exact fresh_tables _ _ _
  · exact fresh_tables _ _ _

theorem startBlocks_tables : p.startBlocks.tablesSound := by
  unfold Part.startBlocks
  dsimp only
  split
  · exact ((modRet_changes _ _).trans (setMode_changes _ _)).same.tables (fresh_tables _ _ _)
  · exact (modRet_changes _ _).same.tables (fresh_tables _ _ _)

theorem startHigh_tables : p.startHigh.tablesSound := by
  unfold Part.startHigh
  dsimp only
  split
  · exact ((modCtl_changes _ _).trans (giveExit_changes _)).same.tables startBlocks_tables
  · exact (beginCold_changes _).same.tables startBlocks_tables

theorem start_tables : p.start.tablesSound := by
  unfold Part.start
  split
  · exact startHigh_tables
  · exact (((countRet_changes _ _).trans (modCtl_changes _ _)).trans (retain_changes _)).same.tables startBlocks_tables

theorem retainOrStart_tables (hp : p.tablesSound) : p.retainOrStart.tablesSound := by
  unfold Part.retainOrStart
  dsimp only
  split
  · exact startHigh_tables
  · exact (retain_changes p).same.tables hp

theorem entryDone_tables (hp : p.tablesSound) : p.entryDone.tablesSound := by
  unfold Part.entryDone
  split
  · split
    · exact (quiesceDone_changes p).same.tables hp
    · exact hp
  · split
    · exact retainOrStart_tables hp
    · exact hp
  · split
    · exact retainOrStart_tables hp
    · exact hp
  · exact hp

theorem giveEntry_tables (hp : p.tablesSound) : p.giveEntry.tablesSound := by
  unfold Part.giveEntry
  split
  · exact ((modMem_changes p _).trans (arbitrate_changes _)).same.tables hp
  · exact entryDone_tables hp
  · split
    · exact (modMem_changes p _).same.tables hp
    · exact entryDone_tables hp

theorem abandon_tables (hp : p.tablesSound) : p.abandon.tablesSound := by
  unfold Part.abandon
  split
  · exact hp
  · exact giveEntry_tables (((countRet_changes p _).trans (modCtl_changes _ _)).same.tables hp)

theorem entryComplete_tables (hp : p.tablesSound) : p.entryComplete.tablesSound :=
  entryDone_tables (((modMem_changes p _).trans (modRet_changes _ _)).same.tables hp)

theorem endIfActive_tables (hp : p.tablesSound) (i : Port) : (p.endIfActive i).tablesSound := by
  unfold Part.endIfActive
  split
  · exact endSession_tables hp _ _
  · exact hp

theorem quiesce_tables (hp : p.tablesSound) (c : QuiesceCause) : (p.quiesce c).tablesSound := by
  unfold Part.quiesce
  dsimp only
  refine foldl_tables (fun _ i h => endIfActive_tables h i) _
    (foldl_tables (fun q i h => (retainMode_changes q i).same.tables h) _ ?_)
  exact ((((setMode_changes p _).trans (modRet_changes _ _)).trans (countRet_changes _ _)).trans
    (modCtl_changes _ _)).same.tables hp

theorem react_tables (hp : p.tablesSound) : p.react.tablesSound := by
  unfold Part.react
  exact (drainCheck_changes _).same.tables ((restoreCheck_same _).tables ((coldCheck_changes _).same.tables
    ((formatCheck_same _).tables ((startWrites_same p).tables hp))))

theorem expireGrace_tables (hp : p.tablesSound) (j : JournalId) : (p.modConf j Conf.expireGrace).tablesSound :=
  (modConf_same p j fun c => by unfold Conf.expireGrace; split <;> exact ⟨rfl, rfl⟩).tables hp

/-! ## The wrappers of the meanings -/

theorem event_tables (hp : p.tablesSound) {f : Part → Option Part} (hf : ∀ q, f p = some q → q.tablesSound) :
    (p.event f).tablesSound := by
  unfold Part.event
  split
  · split
    · next q hq =>
      split
      · exact react_tables (hf q hq)
      · exact hf q hq
    · exact hp
  · exact hp

theorem pfailFalls_tables (hp : p.tablesSound) : p.pfailFalls.tablesSound := by
  unfold Part.pfailFalls
  refine event_tables hp fun q hq => ?_
  split at hq
  · rw [← Option.some.inj hq]; exact abandon_tables hp
  · rw [← Option.some.inj hq]; exact abandon_tables hp
  · rw [← Option.some.inj hq]; exact quiesce_tables hp _
  · rw [← Option.some.inj hq]; exact (retain_changes p).same.tables hp
  · simp at hq

theorem checked_tables (hp : p.tablesSound) {q : Part} (hq : q.tablesSound) (i : Port) (r : Req) :
    (p.checked i r q).tablesSound := by
  unfold Part.checked
  split
  · exact (answer_changes p _ _).same.tables hp
  · exact hq

theorem intake_tables (hp : p.tablesSound) (i : Port) (isIt : List Byte → Bool) {serve : Req → Part → Part}
    (h : ∀ r q, q.tablesSound → (serve r q).tablesSound) : (p.intake i isIt serve).tablesSound := by
  unfold Part.intake
  refine event_tables hp fun q hq => ?_
  obtain ⟨r, _, hr⟩ := Option.map_eq_some_iff.1 hq
  subst hr
  exact h r _ (((popFrame_changes p i).trans (countReq_changes _ i _)).same.tables hp)

theorem complete_tables {s t : State} (hs : s.part.tablesSound)
    {act : Client → Option (Nat → List Byte → Part → Part)}
    (h : ∀ c f, act c = some f → ∀ a bs q, Part.tablesSound q → Part.tablesSound (f a bs q))
    (ht : s.complete act = .next t) : t.part.tablesSound := by
  unfold State.complete at ht
  split at ht
  · next a _ =>
    split at ht
    · cases ht; exact hs
    · next f hf =>
      split at ht
      · cases ht; exact hs
      · split at ht
        · cases ht
        · cases ht
          refine event_tables hs fun q hq => ?_
          rw [← Option.some.inj hq]
          exact h _ _ hf _ _ _ ((carryOut_changes _ _).same.tables hs)
  · cases ht; exact hs

theorem transaction_tables (hp : p.tablesSound) (modes : List Mode) {act : Part → Part}
    (h : ∀ q, q.tablesSound → (act q).tablesSound) : (p.transaction modes act).tablesSound := by
  unfold Part.transaction
  refine event_tables hp fun q hq => ?_
  rw [← Option.some.inj hq]
  have h1 := (countMaint_changes p fun c => { c with completed := satInc c.completed }).same.tables hp
  split
  · exact h _ h1
  · exact (respond_changes _ _ _).same.tables h1

end

end Sys2Proof.Machine
end

