-- ==== Sys2Proof/Laws/Freed.lean ====
section
/-! SUPPORT. What slots that become FREE leave in their journal's entry and in the notification queues, the completion of a
transfer included (R44, R59, R60, R66). -/

namespace Sys2Proof.Machine

set_option Elab.async false

/-! ## The entry -/

section
variable {p q : Part}

/-- What identifies a session: the open-append count aside. -/
def Session.who (s : Session) : Bool × W32 × Option W32 := (s.active, s.gen, s.tag)

theorem active_of_who {a b : Session} (h : a.who = b.who) : a.active = b.active := congrArg Prod.fst h
theorem gen_of_who {a b : Session} (h : a.who = b.who) : a.gen = b.gen := congrArg (fun x => x.2.1) h
theorem tag_of_who {a b : Session} (h : a.who = b.who) : a.tag = b.tag := congrArg (fun x => x.2.2) h

theorem live_congr (hs : ∀ k, (q.req k).session.who = (p.req k).session.who) (o : SessionId) : q.live o = p.live o := by
  unfold Part.live
  rw [active_of_who (hs _), gen_of_who (hs _)]

/-- The entry's change looks at the sessions and at the deferred command only. -/
theorem freedEntry_congr (hs : ∀ k, (q.req k).session.who = (p.req k).session.who)
    (hd : q.maint.deferred = p.maint.deferred) (j : JournalId) (e : Journal) (k : Nat) : q.freedEntry j e k = p.freedEntry j e k := by
  have ht : ∀ k, (q.req k).session.tag = (p.req k).session.tag := fun k => tag_of_who (hs k)
  unfold Part.freedEntry
  simp only [ht, hd]

theorem ownerGoesTo_congr (hs : ∀ k, (q.req k).session.who = (p.req k).session.who) (e : Journal) (k : Port) :
    q.ownerGoesTo e k = p.ownerGoesTo e k := by
  unfold Part.ownerGoesTo
  simp only [live_congr hs]

end

section
variable (p : Part) (j : JournalId) (e : Journal)

theorem completesAt_zero (c : Conf) : c.completesAt 0 = false := by simp [Conf.completesAt]

theorem freedEntry_zero : p.freedEntry j e 0 = e := by
  unfold Part.freedEntry
  cases hc : e.conf with
  | none => rfl
  | some c =>
    dsimp only
    have h0 : ({ c with openSlots := c.openSlots - 0 } : Conf) = c := rfl
    rw [h0, completesAt_zero, ← hc]
    cases c.own <;> rfl

theorem completesAt_own {c : Conf} {k : Nat} (h : c.completesAt k = true) :
    ∃ o t cl, c.own = .transferring o t cl := by
  unfold Conf.completesAt Conf.state at h
  cases ho : c.own with
  | transferring o t cl => exact ⟨o, t, cl, rfl⟩
  | _ => rw [ho] at h; simp at h

theorem completesAt_transferring {c : Conf} {o : Option SessionId} {t : W32} {cl : Option Claimant}
    (ho : c.own = .transferring o t cl) (k : Nat) :
    c.completesAt k = (decide (1 ≤ k) && decide (c.openSlots ≤ k)) := by
  unfold Conf.completesAt Conf.state
  rw [ho]
  simp

variable {e} {c : Conf}

/-- The slots of a journal that completes no transfer. -/
theorem freedEntry_open (hc : e.conf = some c) {k : Nat} (h : c.completesAt k = false) :
    p.freedEntry j e k = { e with conf := some { c with openSlots := c.openSlots - k } } := by
  unfold Part.freedEntry
  rw [hc]
  dsimp only
  rw [h]
  cases c.own <;> rfl

theorem freedEntry_none (hc : e.conf = none) (k : Nat) : p.freedEntry j e k = e := by
  unfold Part.freedEntry
  rw [hc]

/-- The slots whose release completes the transfer. -/
theorem freedEntry_done (hc : e.conf = some c) {k : Nat} {o : Option SessionId} {t : W32} {cl : Option Claimant}
    (ho : c.own = .transferring o t cl) (h : c.completesAt k = true) :
    p.freedEntry j e k
      = e.handedOver { c with openSlots := c.openSlots - k } cl
          ((cl.bind fun x => (p.req x.session.port).session.tag).getD 0)
          (decide (p.maint.deferred = .waiting (.forceRelease j))
            && !decide (.forceRelease ∈ e.boundNext ++ e.boundFlight)) := by
  unfold Part.freedEntry
  rw [hc]
  dsimp only
  rw [h, ho]
  rfl

theorem handedOver_own (cl : Option Claimant) (tag : W32) (f : Bool) :
    ∃ d, (e.handedOver c cl tag f).conf = some d ∧ (∀ o t x, d.own ≠ .transferring o t x) ∧ d.openSlots = c.openSlots := by
  refine ⟨_, rfl, fun o t x h => ?_, rfl⟩
  cases cl <;> cases h

theorem completesAt_other {c : Conf} (h : ∀ o t x, c.own ≠ .transferring o t x) (k : Nat) : c.completesAt k = false := by
  rw [Bool.eq_false_iff]
  intro hk
  obtain ⟨o, t, x, ho⟩ := completesAt_own hk
  exact h o t x ho

/-- Releases add up. -/
theorem freedEntry_add (e : Journal) (a b : Nat) : p.freedEntry j (p.freedEntry j e a) b = p.freedEntry j e (a + b) := by
  cases hc : e.conf with
  | none => rw [freedEntry_none p j hc, freedEntry_none p j hc, freedEntry_none p j hc]
  | some c =>
    cases ha : c.completesAt a with
    | false =>
      rw [freedEntry_open p j hc ha]
      have hsub : ({ c with openSlots := c.openSlots - a - b } : Conf) = { c with openSlots := c.openSlots - (a + b) } := by
        rw [Nat.sub_sub]
      have hcount : Conf.completesAt { c with openSlots := c.openSlots - a } b = c.completesAt (a + b) := by
        by_cases ht : ∃ o t x, c.own = .transferring o t x
        · obtain ⟨o, t, x, ho⟩ := ht
          rw [completesAt_transferring ho] at ha ⊢
          rw [completesAt_transferring (c := { c with openSlots := c.openSlots - a }) ho]
          rw [Bool.eq_iff_iff]
          simp only [Bool.and_eq_true, decide_eq_true_iff, Bool.and_eq_false_iff, decide_eq_false_iff_not] at ha ⊢
          omega
        · have ht' : ∀ o t x, c.own ≠ .transferring o t x := fun o t x h => ht ⟨o, t, x, h⟩
          rw [completesAt_other ht', completesAt_other (c := { c with openSlots := c.openSlots - a }) ht']
      cases hb : c.completesAt (a + b) with
      | false => rw [freedEntry_open p j rfl (hcount.trans hb), freedEntry_open p j hc hb, hsub]
      | true =>
        obtain ⟨o, t, cl, ho⟩ := completesAt_own hb
        rw [freedEntry_done p j hc ho hb,
          freedEntry_done p j (c := { c with openSlots := c.openSlots - a }) rfl ho (hcount.trans hb), hsub]
        rfl
    | true =>
      obtain ⟨o, t, cl, ho⟩ := completesAt_own ha
      have hab : c.completesAt (a + b) = true := by
        rw [completesAt_transferring ho] at ha ⊢
        simp only [Bool.and_eq_true, decide_eq_true_iff] at ha ⊢
        omega
      rw [freedEntry_done p j hc ho ha, freedEntry_done p j hc ho hab]
      generalize (cl.bind fun x => (p.req x.session.port).session.tag).getD 0 = tag
      generalize (decide (p.maint.deferred = .waiting (.forceRelease j))
        && !decide (.forceRelease ∈ e.boundNext ++ e.boundFlight)) = f
      obtain ⟨d, hd, hown, _⟩ := handedOver_own (e := e) (c := { c with openSlots := c.openSlots - a }) cl tag f
      rw [freedEntry_open p j hd (completesAt_other hown b)]
      cases hd
      unfold Journal.handedOver
      dsimp only
      rw [Nat.sub_sub]

/-- Whether later releases complete a transfer. -/
theorem freedEntry_completes (e : Journal) (a b : Nat) :
    ((p.freedEntry j e a).conf.any fun c => c.completesAt b)
      = (!(e.conf.any fun c => c.completesAt a) && e.conf.any fun c => c.completesAt (a + b)) := by
  cases hc : e.conf with
  | none => rw [freedEntry_none p j hc, hc]; rfl
  | some c =>
    cases ha : c.completesAt a with
    | false =>
      rw [freedEntry_open p j hc ha]
      simp only [Option.any_some, ha, Bool.not_false, Bool.true_and]
      by_cases ht : ∃ o t x, c.own = .transferring o t x
      · obtain ⟨o, t, x, ho⟩ := ht
        rw [completesAt_transferring ho] at ha ⊢
        rw [completesAt_transferring (c := { c with openSlots := c.openSlots - a }) ho, Bool.eq_iff_iff]
        simp only [Bool.and_eq_true, decide_eq_true_iff, Bool.and_eq_false_iff, decide_eq_false_iff_not] at ha ⊢
        omega
      · have ht' : ∀ o t x, c.own ≠ .transferring o t x := fun o t x h => ht ⟨o, t, x, h⟩
        rw [completesAt_other ht', completesAt_other (c := { c with openSlots := c.openSlots - a }) ht']
    | true =>
      obtain ⟨o, t, cl, ho⟩ := completesAt_own ha
      rw [freedEntry_done p j hc ho ha]
      obtain ⟨d, hd, hown, _⟩ := handedOver_own (e := e) (c := { c with openSlots := c.openSlots - a }) cl
        ((cl.bind fun x => (p.req x.session.port).session.tag).getD 0)
        (decide (p.maint.deferred = .waiting (.forceRelease j))
          && !decide (.forceRelease ∈ e.boundNext ++ e.boundFlight))
      rw [hd]
      simp only [Option.any_some, ha, Bool.not_true, Bool.false_and]
      exact completesAt_other hown b

/-- A release that completes no transfer keeps the state, the epoch and the owner tag. -/
theorem freedEntry_ownerEntry (e : Journal) (k : JournalId) {n : Nat} (h : (e.conf.any fun c => c.completesAt n) = false) :
    (p.freedEntry j e n).ownerEntry k = e.ownerEntry k := by
  cases hc : e.conf with
  | none => rw [freedEntry_none p j hc]
  | some c =>
    rw [hc, Option.any_some] at h
    rw [freedEntry_open p j hc h]
    unfold Journal.ownerEntry Journal.state Journal.ownerTag
    rw [hc]
    rfl

theorem freedEntry_ownerGoesTo (e : Journal) (i : Port) {n : Nat} (h : (e.conf.any fun c => c.completesAt n) = false) :
    p.ownerGoesTo (p.freedEntry j e n) i = p.ownerGoesTo e i := by
  cases hc : e.conf with
  | none => rw [freedEntry_none p j hc]
  | some c =>
    rw [hc, Option.any_some] at h
    rw [freedEntry_open p j hc h]
    unfold Part.ownerGoesTo
    rw [hc]
    rfl

end

/-! ## One slot -/

section
variable {p : Part} {n : SlotId} {x : Slot}

theorem forceDue_eq (j : JournalId) :
    p.forceDue j = (decide (p.maint.deferred = .waiting (.forceRelease j))
      && !decide (.forceRelease ∈ (p.journal j).boundNext ++ (p.journal j).boundFlight)) := by
  unfold Part.forceDue
  rw [Bool.eq_iff_iff]
  simp only [Bool.and_eq_true, Bool.not_eq_true', List.any_eq_false, decide_eq_true_iff, decide_eq_false_iff_not]
  refine and_congr_right fun _ => ⟨fun h hm => h _ hm rfl, fun h b hb e => h (e ▸ hb)⟩

theorem attachedPort_iff (o : Option SessionId) (k : Port) :
    p.attachedPort o = some k ↔ ∃ s, o = some s ∧ s.port = k ∧ p.live s = true := by
  unfold Part.attachedPort
  cases o with
  | none => simp
  | some s =>
    by_cases h : p.live s = true
    · simp [h]
    · simp [h]

/-- A slot that is in use becomes FREE (R44). -/
theorem freeSlot_spec (hs : p.slot n = some x) :
    (∀ k, (p.freeSlot n).journal k
        = if x.journal = k then p.freedEntry k (p.journal k) 1 else p.journal k)
      ∧ ∀ i, (p.freeSlot n).ntf i = p.freedNtf x.journal (p.journal x.journal) 1 i := by
  unfold Part.freeSlot
  rw [hs]
  dsimp only
  have hch := (setSlot_changes p n none).trans
    (modConf_changes (p.setSlot n none) x.journal fun c => { c with openSlots := c.openSlots - 1 })
  have hj : ∀ k, ((p.setSlot n none).modConf x.journal fun c => { c with openSlots := c.openSlots - 1 }).journal k
      = if x.journal = k then
          { p.journal k with conf := (p.journal k).conf.map fun c => { c with openSlots := c.openSlots - 1 } }
        else p.journal k := by
    intro k
    by_cases h : x.journal = k
    · subst h; rw [modConf_journal_self, if_pos rfl]; rfl
    · rw [modConf_journal_ne _ _ _ h, if_neg h]; rfl
  have hself := hj x.journal
  rw [if_pos rfl] at hself
  generalize (p.setSlot n none).modConf x.journal (fun c => { c with openSlots := c.openSlots - 1 }) = q at hch hj hself
  cases hc : (p.journal x.journal).conf with
  | none =>
    have hq : (q.journal x.journal).conf = none := by rw [hself, hc]; rfl
    rw [transferCheck_none hq]
    refine ⟨fun k => ?_, fun i => ?_⟩
    · rw [hj]
      by_cases h : x.journal = k
      · subst h
        rw [if_pos rfl, if_pos rfl, freedEntry_none p _ hc, hc]
        exact congrArg (fun o => ({ p.journal x.journal with conf := o } : Journal)) hc.symm
      · rw [if_neg h, if_neg h]
    · unfold Part.freedNtf
      rw [hc, hch.ntf]
      rfl
  | some c =>
    have hq : (q.journal x.journal).conf = some { c with openSlots := c.openSlots - 1 } := by rw [hself, hc]; rfl
    have hopen : c.completesAt 1 = false → q.transferCheck x.journal = q := by
      intro h
      by_cases ht : ∃ o t cl, c.own = .transferring o t cl
      · obtain ⟨o, t, cl, ho⟩ := ht
        refine transferCheck_open hq ?_
        rw [completesAt_transferring ho] at h
        simp at h
        exact Nat.sub_ne_zero_of_lt h
      · exact transferCheck_other hq fun o t cl ho => ht ⟨o, t, cl, ho⟩
    cases h1 : c.completesAt 1 with
    | false =>
      rw [hopen h1]
      refine ⟨fun k => ?_, fun i => ?_⟩
      · rw [hj]
        by_cases h : x.journal = k
        · subst h
          rw [if_pos rfl, if_pos rfl, freedEntry_open p _ hc h1, hc]
          rfl
        · rw [if_neg h, if_neg h]
      · unfold Part.freedNtf
        rw [hc, Option.any_some, h1, hch.ntf]
        rfl
    | true =>
      obtain ⟨o, t, cl, ho⟩ := completesAt_own h1
      have hz : c.openSlots - 1 = 0 := by
        rw [completesAt_transferring ho] at h1
        simp at h1
        omega
      rw [transferCheck_done hq ho hz]
      have hep : (q.journal x.journal).epoch = (p.journal x.journal).epoch := by rw [hself]
      have hb : (q.journal x.journal).boundNext = (p.journal x.journal).boundNext := by rw [hself]
      have hf : q.forceDue x.journal = p.forceDue x.journal := by
        unfold Part.forceDue
        rw [hch.maint, hself]
      have hd : ∀ cl, q.transferred x.journal cl = p.transferred x.journal cl := by
        intro cl
        unfold Part.transferred
        cases cl with
        | none => rw [hf]
        | some y => dsimp only; rw [hch.req, hep]
      have hent : (q.journal x.journal).changed { c with openSlots := c.openSlots - 1 } (q.transferred x.journal cl).1
          ((q.journal x.journal).epoch + 1) (q.transferred x.journal cl).2
            = p.freedEntry x.journal (p.journal x.journal) 1 := by
        rw [freedEntry_done p _ hc ho h1, hd, hself]
        unfold Journal.changed Journal.handedOver Part.transferred Journal.dirtied
        cases cl with
        | none => dsimp only; rw [forceDue_eq]
        | some y => rfl
      refine ⟨fun k => ?_, fun i => ?_⟩
      · rw [completeTransfer_journal hq]
        by_cases h : x.journal = k
        · subst h
          rw [if_pos rfl, if_pos rfl, hent]
        · rw [if_neg h, if_neg h, hj, if_neg h]
      · rw [completeTransfer_ntf hq]
        have hlive : ∀ s, q.live s = p.live s := live_congr fun k => by rw [hch.req]
        have hgo : (i ∈ c.subs ∨ q.attachedPort o = some i) ↔ p.ownerGoesTo (p.journal x.journal) i = true := by
          unfold Part.ownerGoesTo
          rw [hc, Option.any_some, ho, attachedPort_iff]
          cases o with
          | none => simp
          | some s => simp [hlive]
        unfold Part.freedNtf
        rw [hc, Option.any_some, h1, Bool.true_and]
        by_cases hg : p.ownerGoesTo (p.journal x.journal) i = true
        · rw [if_pos (hgo.2 hg), if_pos hg, ← hent, handed_congr (hch.req i) (hch.ntf i)]
          rfl
        · rw [if_neg (fun h => hg (hgo.1 h)), if_neg hg, hch.ntf]

end

/-! ## Several slots -/

section
variable (p : Part)

/-- How many slots of a journal wait for a frame in a list of waiting responses. -/
def Part.heldBy (p : Part) (ws : List Waiting) (j : JournalId) : Nat :=
  allSlots.countP fun n => decide (.appendDone n ∈ ws) && (p.slot n).any fun x => decide (x.journal = j)

theorem heldBy_congr {p q : Part} (h : ∀ n, q.slot n = p.slot n) (ws : List Waiting) (j : JournalId) :
    q.heldBy ws j = p.heldBy ws j := by
  unfold Part.heldBy
  simp only [h]

theorem heldBy_answer (r : Rsp) (ws : List Waiting) (j : JournalId) : p.heldBy (.answer r :: ws) j = p.heldBy ws j := by
  unfold Part.heldBy
  refine List.countP_congr fun n _ => ?_
  simp

theorem freeSlot_slot (m n : SlotId) : (p.freeSlot m).slot n = if m = n then none else p.slot n := by
  unfold Part.freeSlot
  cases hm : p.slot m with
  | none =>
    by_cases h : m = n
    · subst h; rw [if_pos rfl, hm]
    · rw [if_neg h]
  | some s =>
    dsimp only
    rw [(transferCheck_changes _ _).slot, modConf_slot]
    by_cases h : m = n
    · subst h; rw [setSlot_slot_self, if_pos rfl]
    · rw [setSlot_slot_ne _ _ _ h, if_neg h]

theorem freeSlot_none {n : SlotId} (h : p.slot n = none) : p.freeSlot n = p := by
  unfold Part.freeSlot
  rw [h]

theorem dropAll_slot (ws : List Waiting) : ∀ (p : Part) (n : SlotId),
    (ws.foldl Part.dropWaiting p).slot n = if .appendDone n ∈ ws then none else p.slot n := by
  induction ws with
  | nil => intro p n; simp
  | cons w ws ih =>
    intro p n
    rw [List.foldl_cons, ih]
    cases w with
    | answer r => simp [Part.dropWaiting]
    | appendDone m =>
      rw [show p.dropWaiting (.appendDone m) = p.freeSlot m from rfl, freeSlot_slot]
      by_cases h : m = n
      · subst h; simp
      · have hn : n ≠ m := fun e => h e.symm
        simp [h, hn]

theorem heldBy_slot {n : SlotId} {x : Slot} (hs : p.slot n = some x) (ws : List Waiting) (j : JournalId) :
    p.heldBy (.appendDone n :: ws) j = (if x.journal = j then 1 else 0) + (p.freeSlot n).heldBy ws j := by
  have h := countP_update
    (f := fun m => decide (.appendDone m ∈ Waiting.appendDone n :: ws) && (p.slot m).any fun x => decide (x.journal = j))
    (g := fun m => decide (.appendDone m ∈ ws) && ((p.freeSlot n).slot m).any fun x => decide (x.journal = j)) (a := n)
    (fun m hm => by
      rw [freeSlot_slot, if_neg (Ne.symm hm)]
      simp [hm]) allSlots (by decide) (mem_allSlots n)
  rw [freeSlot_slot, if_pos rfl, hs] at h
  simp only [List.mem_cons_self, decide_true, Bool.true_and, Option.any_some, Option.any_none, Bool.and_false,
    Bool.false_eq_true, if_false, Nat.add_zero, decide_eq_true_iff] at h
  unfold Part.heldBy
  omega

theorem heldBy_none {n : SlotId} (hs : p.slot n = none) (ws : List Waiting) (j : JournalId) :
    p.heldBy (.appendDone n :: ws) j = p.heldBy ws j := by
  unfold Part.heldBy
  refine List.countP_congr fun m _ => ?_
  by_cases h : m = n
  · subst h; simp [hs]
  · simp [h]

/-- The OWNER entries of completed transfers, handed to the ports they go to. -/
def Part.told (p q : Part) (e : JournalId → Journal) (js : List JournalId) (k : Port) (n : NotifyPort) : NotifyPort :=
  (js.filter fun j => p.ownerGoesTo (e j) k).foldl
    (fun n j => n.handed (p.req k).session.active ((q.journal j).ownerEntry j)) n

theorem told_congr {p p' q q' : Part} {e e' : JournalId → Journal} {js : List JournalId} {k : Port} {n : NotifyPort}
    (hs : ∀ k, (p'.req k).session.who = (p.req k).session.who)
    (hg : ∀ j ∈ js, p.ownerGoesTo (e' j) k = p.ownerGoesTo (e j) k)
    (ho : ∀ j ∈ js, (q'.journal j).ownerEntry j = (q.journal j).ownerEntry j) :
    Part.told p' q' e' js k n = Part.told p q e js k n := by
  unfold Part.told
  rw [List.filter_congr (q := fun j => p.ownerGoesTo (e j) k) fun j hj => by rw [ownerGoesTo_congr hs, hg j hj],
    active_of_who (hs k)]
  generalize hl : js.filter (fun j => p.ownerGoesTo (e j) k) = l
  have hm : ∀ j ∈ l, j ∈ js := fun j hj => by rw [← hl] at hj; exact List.mem_of_mem_filter hj
  clear hl
  induction l generalizing n with
  | nil => rfl
  | cons a l ih =>
    rw [List.foldl_cons, List.foldl_cons, ho a (hm a List.mem_cons_self)]
    exact ih fun j hj => hm j (List.mem_cons_of_mem _ hj)

/-- Waiting responses discarded (R45): each journal's slots become FREE, and the transfers that this completes are told in
one order for all ports (R59, R66). -/
theorem dropAll_spec (ws : List Waiting) : ∀ p : Part,
    let q := ws.foldl Part.dropWaiting p
    (∀ j, q.journal j = p.freedEntry j (p.journal j) (p.heldBy ws j))
      ∧ ∃ done : List JournalId, done.Nodup
        ∧ (∀ j, j ∈ done ↔ ((p.journal j).conf.any fun c => c.completesAt (p.heldBy ws j)) = true)
        ∧ ∀ k, q.ntf k = Part.told p q p.journal done k (p.ntf k) := by
  induction ws with
  | nil =>
    intro p
    have h0 : ∀ j, p.heldBy [] j = 0 := fun j => by
      unfold Part.heldBy
      exact List.countP_eq_zero.2 fun n _ => by simp
    refine ⟨fun j => ?_, [], List.nodup_nil, fun j => ?_, fun k => rfl⟩
    · rw [h0, freedEntry_zero]; rfl
    · rw [h0]
      cases (p.journal j).conf with
      | none => simp
      | some c => simp [completesAt_zero]
  | cons w ws ih =>
    intro p
    dsimp only
    rw [List.foldl_cons]
    cases w with
    | answer r =>
      rw [show p.dropWaiting (.answer r) = p from rfl]
      simp only [heldBy_answer]
      exact ih p
    | appendDone n =>
      rw [show p.dropWaiting (.appendDone n) = p.freeSlot n from rfl]
      cases hs : p.slot n with
      | none =>
        rw [freeSlot_none p hs]
        simp only [heldBy_none p hs]
        exact ih p
      | some x =>
        simp only [heldBy_slot p hs]
        have hch := freeSlot_changes p n
        obtain ⟨f1, f2⟩ := freeSlot_spec hs
        obtain ⟨i1, done, i2, i3, i4⟩ := ih (p.freeSlot n)
        generalize p.freeSlot n = p1 at *
        generalize ws.foldl Part.dropWaiting p1 = q at *
        have hse : ∀ k, (p1.req k).session.who = (p.req k).session.who := fun k => by rw [hch.req]
        have hde : p1.maint.deferred = p.maint.deferred := by rw [hch.maint]
        have hj1 : ∀ j, p1.journal j = p.freedEntry j (p.journal j) (if x.journal = j then 1 else 0) := by
          intro j
          rw [f1]
          by_cases h : x.journal = j
          · rw [if_pos h, if_pos h]
          · rw [if_neg h, if_neg h, freedEntry_zero]
        have hjq : ∀ j, q.journal j
            = p.freedEntry j (p.journal j) ((if x.journal = j then 1 else 0) + p1.heldBy ws j) := by
          intro j
          rw [i1, freedEntry_congr hse hde, hj1, freedEntry_add]
        have hcomp : ∀ j, ((p1.journal j).conf.any fun c => c.completesAt (p1.heldBy ws j))
            = (!((p.journal j).conf.any fun c => c.completesAt (if x.journal = j then 1 else 0))
              && (p.journal j).conf.any fun c => c.completesAt ((if x.journal = j then 1 else 0) + p1.heldBy ws j)) := by
          intro j
          rw [hj1, freedEntry_completes]
        have hnot : ∀ j ∈ done, ((p.journal j).conf.any fun c => c.completesAt (if x.journal = j then 1 else 0)) = false := by
          intro j hj
          have := (i3 j).1 hj
          rw [hcomp, Bool.and_eq_true, Bool.not_eq_true'] at this
          exact this.1
        have htold : ∀ k m, Part.told p1 q p1.journal done k m = Part.told p q p.journal done k m := by
          intro k m
          refine told_congr hse (fun j hj => ?_) fun _ _ => rfl
          rw [hj1, freedEntry_ownerGoesTo _ _ _ _ (hnot j hj)]
        refine ⟨hjq, ?_⟩
        by_cases hd : ((p.journal x.journal).conf.any fun c => c.completesAt 1) = true
        · have hnd : x.journal ∉ done := fun hm => by
            have := hnot _ hm
            rw [if_pos rfl, hd] at this
            cases this
          refine ⟨x.journal :: done, List.nodup_cons.2 ⟨hnd, i2⟩, fun j => ?_, fun k => ?_⟩
          · rw [List.mem_cons]
            by_cases h : x.journal = j
            · subst h
              simp only [true_or, if_true, true_iff]
              cases hc : (p.journal x.journal).conf with
              | none => rw [hc] at hd; cases hd
              | some c =>
                rw [hc, Option.any_some] at hd
                obtain ⟨o, t, cl, ho⟩ := completesAt_own hd
                rw [Option.any_some]
                rw [completesAt_transferring ho] at hd ⊢
                simp only [Bool.and_eq_true, decide_eq_true_iff] at hd ⊢
                omega
            · rw [i3, hcomp]
              have h0 : ((p.journal j).conf.any fun c => c.completesAt 0) = false := by
                cases (p.journal j).conf with
                | none => rfl
                | some c => exact completesAt_zero c
              simp [h, Ne.symm h, h0]
          · rw [i4, htold, f2]
            unfold Part.told Part.freedNtf
            rw [hd, Bool.true_and]
            by_cases hg : p.ownerGoesTo (p.journal x.journal) k = true
            · have ho := freedEntry_ownerEntry p x.journal (p.freedEntry x.journal (p.journal x.journal) 1) x.journal
                (n := p1.heldBy ws x.journal) (by rw [freedEntry_completes, hd]; rfl)
              rw [if_pos hg, List.filter_cons_of_pos (by exact hg), List.foldl_cons, hjq, if_pos rfl, ← freedEntry_add, ho]
            · rw [if_neg hg, List.filter_cons_of_neg (by exact hg)]
        · have hd' : ((p.journal x.journal).conf.any fun c => c.completesAt 1) = false := Bool.eq_false_iff.2 hd
          refine ⟨done, i2, fun j => ?_, fun k => ?_⟩
          · rw [i3, hcomp]
            by_cases h : x.journal = j
            · subst h
              rw [if_pos rfl, hd']
              rfl
            · have h0 : ((p.journal j).conf.any fun c => c.completesAt 0) = false := by
                cases (p.journal j).conf with
                | none => rfl
                | some c => exact completesAt_zero c
              rw [if_neg h, h0]
              rfl
          · rw [i4, htold, f2]
            unfold Part.freedNtf
            rw [hd', Bool.false_and]
            rfl

end

/-! ## Slots released (R44, R45) -/

/-- How many slots in use lie on a journal. -/
def Part.slotsOn (p : Part) (j : JournalId) : Nat := (p.slotsWith fun x => decide (x.journal = j)).length

/-- From `p` to `q`, `k` slots of journal j have become FREE, and of the journal table and the notification queues nothing
else has changed. -/
structure Part.Released (p q : Part) (j : JournalId) (k : Nat) : Prop where
  journal : ∀ i, q.journal i = if j = i then p.freedEntry i (p.journal i) k else p.journal i
  ntf : ∀ i, q.ntf i = p.freedNtf j (p.journal j) k i
  who : ∀ i, (q.req i).session.who = (p.req i).session.who
  maint : q.maint = p.maint
  slot : ∀ n, q.slot n = p.slot n ∨ (q.slot n = none ∧ ((p.slot n).any fun x => decide (x.journal = j)) = true)
  count : q.slotsOn j + k = p.slotsOn j

namespace Part.Released

variable {p q r : Part} {j : JournalId} {a b : Nat}

/-- None released. -/
theorem none (hj : ∀ i, q.journal i = p.journal i) (hn : ∀ i, q.ntf i = p.ntf i)
    (hw : ∀ i, (q.req i).session.who = (p.req i).session.who) (hm : q.maint = p.maint)
    (hs : ∀ n, q.slot n = p.slot n) : p.Released q j 0 := by
  refine ⟨fun i => ?_, fun i => ?_, hw, hm, fun n => .inl (hs n), ?_⟩
  · rw [freedEntry_zero, hj]
    split <;> rfl
  · have h0 : ((p.journal j).conf.any fun c => c.completesAt 0) = false := by
      cases (p.journal j).conf with
      | none => rfl
      | some c => exact completesAt_zero c
    unfold Part.freedNtf
    rw [h0, hn]
    rfl
  · unfold Part.slotsOn Part.slotsWith
    simp only [hs, Nat.add_zero]

theorem trans (h : p.Released q j a) (h' : q.Released r j b) : p.Released r j (a + b) := by
  have hd : q.maint.deferred = p.maint.deferred := by rw [h.maint]
  have hj : q.journal j = p.freedEntry j (p.journal j) a := by rw [h.journal, if_pos rfl]
  refine ⟨fun i => ?_, fun i => ?_, fun i => (h'.who i).trans (h.who i), h'.maint.trans h.maint, fun n => ?_, ?_⟩
  · rw [h'.journal, h.journal]
    split
    · rw [freedEntry_congr h.who hd, freedEntry_add]
    · rfl
  · have hc := freedEntry_completes p j (p.journal j) a b
    rw [h'.ntf]
    unfold Part.freedNtf
    rw [hj, hc, ownerGoesTo_congr h.who, freedEntry_congr h.who hd, freedEntry_add]
    cases ha : (p.journal j).conf.any fun c => c.completesAt a with
    | true =>
      have hab : ((p.journal j).conf.any fun c => c.completesAt (a + b)) = true := by
        cases hcf : (p.journal j).conf with
        | none => rw [hcf] at ha; cases ha
        | some c =>
          rw [hcf, Option.any_some] at ha
          obtain ⟨o, t, cl, ho⟩ := completesAt_own ha
          rw [Option.any_some]
          rw [completesAt_transferring ho] at ha ⊢
          simp only [Bool.and_eq_true, decide_eq_true_iff] at ha ⊢
          omega
      have he : (p.freedEntry j (p.journal j) (a + b)).ownerEntry j = (p.freedEntry j (p.journal j) a).ownerEntry j := by
        rw [← freedEntry_add]
        refine freedEntry_ownerEntry _ _ _ _ ?_
        rw [hc, ha]
        rfl
      rw [hab, h.ntf, he]
      unfold Part.freedNtf
      rw [ha]
      simp
    | false =>
      rw [freedEntry_ownerGoesTo _ _ _ _ ha, Part.handed, h.ntf, active_of_who (h.who i)]
      unfold Part.freedNtf
      rw [ha]
      simp
  · rcases h'.slot n with h1 | ⟨h1, h2⟩
    · rw [h1]; exact h.slot n
    · rcases h.slot n with h3 | ⟨h3, h4⟩
      · exact .inr ⟨h1, by rw [← h3]; exact h2⟩
      · exact .inr ⟨h1, h4⟩
  · have := h.count
    have := h'.count
    omega

end Part.Released

section
variable {p : Part} {n : SlotId} {x : Slot}

theorem freeSlot_released (hs : p.slot n = some x) : p.Released (p.freeSlot n) x.journal 1 := by
  obtain ⟨h1, h2⟩ := freeSlot_spec hs
  have hch := freeSlot_changes p n
  refine ⟨h1, h2, fun i => by rw [hch.req], hch.maint, fun m => ?_, ?_⟩
  · rw [freeSlot_slot]
    by_cases h : n = m
    · subst h; rw [if_pos rfl, hs]; exact .inr ⟨rfl, by simp⟩
    · rw [if_neg h]; exact .inl rfl
  · have hc := setSlot_count p n none fun y => decide (y.journal = x.journal)
    rw [hs] at hc
    simp only [Option.any_some, decide_true, if_true, Option.any_none, Bool.false_eq_true, if_false, Nat.add_zero] at hc
    have hsame : (p.freeSlot n).slotsWith (fun y => decide (y.journal = x.journal))
        = (p.setSlot n none).slotsWith fun y => decide (y.journal = x.journal) := by
      unfold Part.slotsWith
      refine List.filter_congr fun m _ => ?_
      rw [freeSlot_slot]
      by_cases h : n = m
      · subst h; rw [if_pos rfl, setSlot_slot_self]
      · rw [if_neg h, setSlot_slot_ne _ _ _ h]
    unfold Part.slotsOn
    rw [hsame]
    exact hc

theorem queueDeferred_released (i : Port) (a : Rsp) (f : RequestLayer → RequestLayer)
    (hf : ∀ l, (f l).session.who = l.session.who) (j : JournalId) :
    p.Released ((p.queueDeferred i a).modReq i f) j 0 := by
  have hc := (queueDeferred_changes p i a).trans (modReq_changes (p.queueDeferred i a) i f)
  refine .none hc.journal hc.ntf (fun k => ?_) hc.maint hc.slot
  have h1 : ((p.queueDeferred i a).req k).session = (p.req k).session := by
    unfold Part.queueDeferred Part.leaveTag Part.queueResp
    split
    · by_cases h : i = k
      · subst h; rw [modReq_req_self, modReq_req_self]
      · rw [modReq_req_ne _ _ _ h, modReq_req_ne _ _ _ h]
    · by_cases h : i = k
      · subst h; rw [modReq_req_self]
      · rw [modReq_req_ne _ _ _ h]
  by_cases h : i = k
  · subst h; rw [modReq_req_self, hf, h1]
  · rw [modReq_req_ne _ _ _ h, h1]

theorem queueDone_released (hs : p.slot n = some x) (i : Port) : p.Released (p.queueDone i n x) x.journal 1 := by
  unfold Part.queueDone
  have h := queueDeferred_released (p := p) i x.appendDone
    (fun r => { r with session := { r.session with openAppends := r.session.openAppends - 1 } }) (fun _ => rfl) x.journal
  refine Nat.zero_add 1 ▸ h.trans (freeSlot_released ?_)
  rw [((queueDeferred_changes p i x.appendDone).trans (modReq_changes _ i _)).slot]
  exact hs

/-- A durable slot released: it has become FREE, or it waits for a frame (R44, R45). -/
theorem releaseSlot_released (hs : p.slot n = some x) :
    (p.Released (p.releaseSlot n) x.journal 1 ∧ (p.releaseSlot n).slot n = none)
      ∨ (p.Released (p.releaseSlot n) x.journal 0 ∧ p.live x.session = true
        ∧ .appendDone n ∈ (p.releaseSlot n).waits x.session.port) := by
  have hf : ∀ i, (p.queueDone i n x).slot n = none := by
    intro i
    unfold Part.queueDone
    rw [freeSlot_slot, if_pos rfl]
  unfold Part.releaseSlot
  rw [hs]
  dsimp only
  split
  · next hl =>
    split
    · exact .inl ⟨queueDone_released hs _, hf _⟩
    · refine .inr ⟨?_, hl, ?_⟩
      · have hc := setWaits_changes p x.session.port (p.waits x.session.port ++ [.appendDone n])
        exact .none hc.journal hc.ntf (fun k => by rw [hc.req]) hc.maint hc.slot
      · rw [setWaits_waits_self]
        exact List.mem_append_right _ List.mem_cons_self
  · exact .inl ⟨freeSlot_released hs, by rw [freeSlot_slot, if_pos rfl]⟩

end

end Sys2Proof.Machine
end

