-- ==== Sys2Proof/Laws/Left.lean ====
section
/-! SUPPORT. What each part of the end of a session leaves: slots voided (R36, R40), reads cancelled with the head-advance
checks (R79, R85), journals left with their notifications (R63, R64, R66); and what a fencing leaves (R39). -/

namespace Sys2Proof.Machine

set_option Elab.async false

/-! ## Counters -/

theorem satAdd_zero (c : W32) : satAdd c 0 = c := by
  unfold satAdd
  rw [if_pos (by have := c.isLt; omega)]
  simp

theorem satAdd_toNat (c : W32) (n : Nat) : (satAdd c n).toNat = min 4294967295 (c.toNat + n) := by
  have hc := c.isLt
  unfold satAdd
  split
  · rw [BitVec.toNat_add, BitVec.toNat_ofNat]
    omega
  · change 4294967295 = _
    omega

theorem satAdd_satAdd (c : W32) (a b : Nat) : satAdd (satAdd c a) b = satAdd c (a + b) := by
  apply BitVec.eq_of_toNat_eq
  rw [satAdd_toNat, satAdd_toNat, satAdd_toNat]
  omega

/-! ## Slots voided -/

theorem leBytes_length (n v : Nat) : (leBytes n v).length = n := by
  induction n generalizing v with
  | zero => rfl
  | succ n ih => simp [leBytes, ih]

theorem recordHeader_length (kind : RecordKind) (port : Port) (reason : Option VoidReason) (seq : W32) (length : Nat)
    (epoch : W32) (position : W64) (check : W32) (tag : W16) :
    (recordHeader kind port reason seq length epoch position check tag).length = 32 := by
  unfold recordHeader
  simp [leBytes_length]

section
variable (p : Part)

/-- The writes of the VOID header of a slot in RECEIVING (R36). -/
def Part.voidWrites (p : Part) (n : SlotId) (r : VoidReason) : List Access :=
  match p.slot n with
  | none => []
  | some s =>
    if s.state = .receiving then
      match (p.journal s.journal).conf with
      | none => []
      | some c =>
        runWrites (.slot n .header) 32 (c.address s.position.toNat)
          (recordHeader .void s.session.port (some r) s.seq s.length s.epoch s.position s.declared s.recordTag)
    else []

theorem voidSlot_mem (n : SlotId) (r : VoidReason) : (p.voidSlot n r).mem = p.memAfter (p.voidWrites n r) := by
  unfold Part.voidSlot Part.voidWrites
  cases hs : p.slot n with
  | none => rfl
  | some s =>
    dsimp only
    split
    · cases hc : (p.journal s.journal).conf with
      | none =>
        unfold Part.handRun
        rw [countAppend_journal, setSlot_journal, hc]
        rfl
      | some c =>
        rw [handRun_mem (c := c) _ _ _ _ _ (by rw [countAppend_journal, setSlot_journal, hc])]
        have hl : (s.voided r).header.length = 32 := recordHeader_length _ _ _ _ _ _ _ _ _
        rw [hl]
        rfl
    · rfl

theorem voidSlot_cnt (n : SlotId) (r : VoidReason) :
    (p.voidSlot n r).appendCnt
      = if (p.slot n).any fun x => decide (x.state = .receiving) then p.appendCnt.void r else p.appendCnt := by
  unfold Part.voidSlot
  cases hs : p.slot n with
  | none => rfl
  | some s =>
    dsimp only
    by_cases h : s.state = .receiving
    · rw [if_pos h, (handRun_changes _ _ _ _ _ _).appendCnt]
      simp [h]
    · rw [if_neg h]; simp [h]

/-- `k` slots voided for one reason are counted (R47). -/
def AppendCounters.voids (c : AppendCounters) (r : VoidReason) (k : Nat) : AppendCounters :=
  match r with
  | .offsetError => { c with voidOffset := satAdd c.voidOffset k }
  | .lengthError => { c with voidLength := satAdd c.voidLength k }
  | .checkMismatch => { c with voidCheck := satAdd c.voidCheck k }
  | .abandoned => { c with voidAbandoned := satAdd c.voidAbandoned k }
  | .fenced => { c with voidFenced := satAdd c.voidFenced k }
  | .sessionEnded => { c with voidSession := satAdd c.voidSession k }

theorem voids_zero (c : AppendCounters) (r : VoidReason) : c.voids r 0 = c := by
  cases r <;> simp [AppendCounters.voids, satAdd_zero]

theorem void_voids (c : AppendCounters) (r : VoidReason) (k : Nat) : (c.void r).voids r k = c.voids r (k + 1) := by
  cases r <;> simp [AppendCounters.voids, AppendCounters.void, satInc, satAdd_satAdd, Nat.add_comm 1]

/-- Slots voided at one event: their headers are handed in turn, and each is counted (R36, R47). -/
theorem voidAll_left (r : VoidReason) (l : List SlotId) (hl : l.Nodup) : ∀ p : Part,
    (p.voidAll l r).mem = p.memAfter (l.flatMap fun n => p.voidWrites n r)
      ∧ (p.voidAll l r).appendCnt
        = p.appendCnt.voids r (l.countP fun n => (p.slot n).any fun x => decide (x.state = .receiving)) := by
  induction l with
  | nil => exact fun p => ⟨rfl, by rw [List.countP_nil, voids_zero]; rfl⟩
  | cons a l ih =>
    intro p
    obtain ⟨ha, hl⟩ := List.nodup_cons.1 hl
    have hch := voidSlot_changes p a r
    have hs : ∀ n ∈ l, (p.voidSlot a r).slot n = p.slot n :=
      fun n hn => voidSlot_ne p (fun e : a = n => ha (e ▸ hn)) _
    have hw : ∀ n ∈ l, (p.voidSlot a r).voidWrites n r = p.voidWrites n r := by
      intro n hn
      unfold Part.voidWrites
      simp only [hch.journal]
      rw [hs n hn]
    obtain ⟨h1, h2⟩ := ih hl (p.voidSlot a r)
    refine ⟨?_, ?_⟩
    · change ((p.voidSlot a r).voidAll l r).mem = _
      rw [h1, Part.memAfter, voidSlot_mem, hch.maint, List.flatMap_cons, Part.memAfter, Part.memAfter,
        List.flatMap_congr hw]
      exact (List.foldl_append ..).symm
    · change ((p.voidSlot a r).voidAll l r).appendCnt = _
      rw [h2, List.countP_congr (q := fun n => (p.slot n).any fun x => decide (x.state = .receiving))
        (fun n hn => by rw [hs n hn]), List.countP_cons, voidSlot_cnt]
      by_cases hr : ((p.slot a).any fun x => decide (x.state = .receiving)) = true
      · rw [if_pos hr, if_pos hr, void_voids]
      · rw [if_neg hr, if_neg hr, Nat.add_zero]

theorem slotsWith_congr {p q : Part} (hs : ∀ n, q.slot n = p.slot n) (f : Slot → Bool) : q.slotsWith f = p.slotsWith f := by
  unfold Part.slotsWith
  simp only [hs]

/-- The VOID headers of the slots that a test picks are those of `voidHeaders`, whatever else of the part has changed. -/
theorem voidWrites_flatMap {p q : Part} (hs : ∀ n, q.slot n = p.slot n)
    (hj : ∀ j, (q.journal j).conf.map Conf.address = (p.journal j).conf.map Conf.address) (f : Slot → Bool)
    (r : VoidReason) : (q.slotsWith f).flatMap (fun n => q.voidWrites n r) = p.voidHeaders r f := by
  unfold Part.slotsWith Part.voidHeaders
  change _ = allSlots.flatMap _
  generalize allSlots = ns
  induction ns with
  | nil => rfl
  | cons n ns ih =>
    rw [List.flatMap_cons, ← ih]
    cases hx : p.slot n with
    | none =>
      rw [List.filter_cons_of_neg (by rw [hs, hx]; exact Bool.false_ne_true)]
      rfl
    | some x =>
      dsimp only
      have hv : q.voidWrites n r = if x.state = .receiving then
          (match (p.journal x.journal).conf with
          | none => []
          | some c =>
            runWrites (.slot n .header) 32 (c.address x.position.toNat)
              (recordHeader .void x.session.port (some r) x.seq x.length x.epoch x.position x.declared x.recordTag))
          else [] := by
        unfold Part.voidWrites
        rw [hs, hx]
        dsimp only
        have h := hj x.journal
        split
        · revert h
          cases (q.journal x.journal).conf <;> cases (p.journal x.journal).conf <;> intro h
          · rfl
          · cases h
          · cases h
          · dsimp only
            rw [Option.map_some, Option.map_some, Option.some.injEq] at h
            rw [h]
        · rfl
      by_cases h : f x = true
      · rw [List.filter_cons_of_pos (by rw [hs, hx]; exact h), List.flatMap_cons, hv]
        by_cases h2 : x.state = .receiving
        · exact congrArg (· ++ _) ((if_pos h2).trans (if_pos ⟨h, h2⟩).symm)
        · exact congrArg (· ++ _) ((if_neg h2).trans (if_neg fun y => h2 y.2).symm)
      · rw [List.filter_cons_of_neg (by rw [hs, hx]; exact h), if_neg (fun y => h y.1)]
        rfl

/-- VOID headers depend on the slots and on the journals' regions alone. -/
theorem voidHeaders_congr {p q : Part} (hs : ∀ n, q.slot n = p.slot n)
    (hj : ∀ j, (q.journal j).conf.map Conf.address = (p.journal j).conf.map Conf.address) (r : VoidReason)
    (f : Slot → Bool) : q.voidHeaders r f = p.voidHeaders r f := by
  rw [← voidWrites_flatMap hs hj, voidWrites_flatMap (fun _ => rfl) fun _ => rfl]

theorem fencedCnt_congr {p q : Part} (hs : ∀ n, q.slot n = p.slot n) (ha : q.appendCnt = p.appendCnt) (j : JournalId)
    (o : SessionId) : q.fencedCnt j o = p.fencedCnt j o := by
  unfold Part.fencedCnt
  rw [ha, slotsWith_congr hs]

theorem countP_slotsWith (p : Part) (f g : Slot → Bool) :
    (p.slotsWith f).countP (fun n => (p.slot n).any g) = (p.slotsWith fun x => f x && g x).length := by
  unfold Part.slotsWith
  rw [List.countP_filter, List.countP_eq_length_filter]
  congr 1
  refine List.filter_congr fun n _ => ?_
  cases p.slot n with
  | none => rfl
  | some x => exact Bool.and_comm _ _

/-- The fencing of a session on a journal: the VOID headers handed and the slots counted (R36, R39, R47). -/
theorem fence_left (p : Part) (j : JournalId) (o : SessionId) :
    (p.fence j o).mem = p.memAfter (p.voidHeaders .fenced fun x => x.fencedBy j o)
      ∧ (p.fence j o).appendCnt = p.fencedCnt j o := by
  obtain ⟨h1, h2⟩ := voidAll_left .fenced _ (slotsWith_nodup p fun x => x.fencedBy j o) p
  refine ⟨?_, ?_⟩
  · rw [← voidWrites_flatMap (fun _ => rfl) fun _ => rfl]
    exact h1
  · unfold Part.fencedCnt
    rw [← countP_slotsWith]
    exact h2

/-- The fencing in a TAKEOVER or FORCE_RELEASE (R57, R61). -/
theorem fenced_left {p : Part} {j : JournalId} {o : SessionId} {t : W32} {cl : Option Claimant} :
    (p.fenced j o t cl).mem = p.memAfter (p.voidHeaders .fenced fun x => x.fencedBy j o)
      ∧ (p.fenced j o t cl).appendCnt = p.fencedCnt j o := by
  let q := (p.modConf j fun c => { c with own := .transferring (some o) t cl }).markDirty (.journal j)
  have hc : Part.Changes [.journals] p q := ((modConf_changes _ _ _).trans (markDirty_journal_changes _ _)).mono
  have hj : ∀ k, (q.journal k).conf.map Conf.address = (p.journal k).conf.map Conf.address := by
    intro k
    by_cases h : j = k
    · subst h
      rw [markDirty_journal_self, modConf_journal_self]
      cases (p.journal j).conf <;> rfl
    · rw [markDirty_journal_ne _ h, modConf_journal_ne _ _ _ h]
  obtain ⟨h1, h2⟩ := fence_left q j o
  have hn : (p.fenced j o t cl).mem = (q.fence j o).mem ∧ (p.fenced j o t cl).appendCnt = (q.fence j o).appendCnt := by
    unfold Part.fenced
    dsimp only
    split
    · exact ⟨(notify_changes _ _ _).mem, (notify_changes _ _ _).appendCnt⟩
    · exact ⟨rfl, rfl⟩
  rw [hn.1, hn.2, h1, h2, voidHeaders_congr hc.slot hj, fencedCnt_congr hc.slot hc.appendCnt, Part.memAfter, hc.mem,
    hc.maint]
  exact ⟨rfl, rfl⟩

/-! ## Reads cancelled -/

/-- The entry after pins have left, the head-advance check made (R79, R85). -/
def Journal.unpinned (e : Journal) (starts : List W64) : Journal :=
  match e.conf with
  | none => e
  | some c =>
    match (c.unpinned starts).freesHead starts with
    | none => { e with conf := some (c.unpinned starts) }
    | some t => e.headAt (c.unpinned starts) t

/-- The check lets head move. -/
def Journal.freesHead (e : Journal) (starts : List W64) : Bool :=
  e.conf.any fun c => ((c.unpinned starts).freesHead starts).isSome

theorem unpinned_nil (e : Journal) : e.unpinned [] = e := by
  unfold Journal.unpinned
  cases hc : e.conf with
  | none => rfl
  | some c =>
    change { e with conf := some c } = e
    rw [← hc]

theorem freesHead_nil (e : Journal) : e.freesHead [] = false := by
  unfold Journal.freesHead
  cases e.conf <;> rfl

theorem foldl_erase_sublist (l : List W64) : ∀ xs : List W64, (l.foldl List.erase xs).Sublist xs := by
  induction l with
  | nil => exact fun xs => .refl _
  | cons a l ih => exact fun xs => (ih (xs.erase a)).trans List.erase_sublist

theorem conf_unpinned_append (c : Conf) (a b : List W64) : (c.unpinned a).unpinned b = c.unpinned (a ++ b) := by
  unfold Conf.unpinned
  dsimp only
  rw [List.foldl_append]

theorem freesHead_spec (c : Conf) (starts : List W64) (t : PendingTrim) :
    c.freesHead starts = some t ↔ starts ≠ [] ∧ c.trim = some t ∧ t.phase = .held
      ∧ ∀ x ∈ c.pins, t.target.toNat ≤ x.toNat := by
  unfold Conf.freesHead
  by_cases hs : starts = []
  · simp [hs]
  · rw [if_neg hs]
    simp [hs, Option.filter_eq_some_iff]

/-- Pins that leave in turn. -/
theorem unpinned_append (e : Journal) (a b : List W64) :
    (e.unpinned a).unpinned b = e.unpinned (a ++ b)
      ∧ (if e.freesHead a then 1 else 0) + (if (e.unpinned a).freesHead b then 1 else 0)
        = (if e.freesHead (a ++ b) then 1 else 0) := by
  cases hc : e.conf with
  | none =>
    have h1 : ∀ l, e.unpinned l = e := fun l => by unfold Journal.unpinned; rw [hc]
    have h2 : ∀ l, e.freesHead l = false := fun l => by unfold Journal.freesHead; rw [hc]; rfl
    simp only [h1, h2]
    exact ⟨trivial, rfl⟩
  | some c =>
    have hfh : ∀ l, e.freesHead l = ((c.unpinned l).freesHead l).isSome := fun l => by
      unfold Journal.freesHead; rw [hc]; rfl
    cases ha : (c.unpinned a).freesHead a with
    | none =>
      have hu : e.unpinned a = { e with conf := some (c.unpinned a) } := by
        unfold Journal.unpinned; rw [hc]; dsimp only; rw [ha]
      have hab : ((c.unpinned a).unpinned b).freesHead b = (c.unpinned (a ++ b)).freesHead (a ++ b) := by
        rw [conf_unpinned_append]
        by_cases hb : b = []
        · subst hb
          rw [List.append_nil, ha]
          rfl
        · unfold Conf.freesHead
          rw [if_neg hb, if_neg (by simp [hb])]
      refine ⟨?_, ?_⟩
      · rw [hu]
        unfold Journal.unpinned
        rw [hc]
        dsimp only
        rw [hab, conf_unpinned_append]
        cases (c.unpinned (a ++ b)).freesHead (a ++ b) <;> rfl
      · rw [hfh, hfh, ha, hu]
        unfold Journal.freesHead
        rw [Option.any_some, hab]
        simp
    | some t =>
      obtain ⟨h1, h2, h3, h4⟩ := (freesHead_spec _ _ _).1 ha
      have hab : (c.unpinned (a ++ b)).freesHead (a ++ b) = some t := by
        refine (freesHead_spec _ _ _).2 ⟨by simp [h1], h2, h3, fun x hx => h4 x ?_⟩
        rw [← conf_unpinned_append] at hx
        exact (foldl_erase_sublist b _).subset hx
      have hu : e.unpinned a = e.headAt (c.unpinned a) t := by
        unfold Journal.unpinned; rw [hc]; dsimp only; rw [ha]
      have hconf : ∃ d, (e.headAt (c.unpinned a) t).conf = some d ∧ (d.unpinned b).trim = some { t with phase := .advanced } :=
        ⟨_, rfl, rfl⟩
      have hno : ∀ d : Conf, d.trim = some { t with phase := .advanced } → d.freesHead b = none := by
        intro d hd
        unfold Conf.freesHead
        split
        · rfl
        · rw [hd]; simp
      refine ⟨?_, ?_⟩
      · rw [hu]
        obtain ⟨d, hd, htr⟩ := hconf
        unfold Journal.unpinned
        rw [hd, hc]
        dsimp only
        rw [hno _ htr, hab]
        cases hd
        unfold Journal.headAt Journal.dirtied
        rw [← conf_unpinned_append]
        rfl
      · rw [hfh, hfh, ha, hab, hu]
        obtain ⟨d, hd, htr⟩ := hconf
        unfold Journal.freesHead
        rw [hd, Option.any_some, hno _ htr]
        rfl

/-- One pin leaves (R79, R85). -/
theorem removePin_left (j : JournalId) (x : W64) :
    (∀ k, (p.removePin j x).journal k = if j = k then (p.journal k).unpinned [x] else p.journal k)
      ∧ (p.removePin j x).readCnt
        = { p.readCnt with
            trims := satAdd p.readCnt.trims (if (p.journal j).freesHead [x] then 1 else 0) } := by
  unfold Part.removePin
  have hj : ∀ k, (p.modConf j fun c => { c with pins := c.pins.erase x }).journal k
      = if j = k then { p.journal k with conf := (p.journal k).conf.map fun c => c.unpinned [x] } else p.journal k := by
    intro k
    by_cases h : j = k
    · subst h; rw [modConf_journal_self, if_pos rfl]; rfl
    · rw [modConf_journal_ne _ _ _ h, if_neg h]
  have hch := modConf_changes p j fun c => { c with pins := c.pins.erase x }
  generalize p.modConf j (fun c => { c with pins := c.pins.erase x }) = q at hj hch
  have hself := hj j
  rw [if_pos rfl] at hself
  unfold Part.headAdvance
  have hcalm : (∀ t, ((p.journal j).conf.bind fun c => (c.unpinned [x]).freesHead [x]) ≠ some t) →
      (∀ k, q.journal k = if j = k then (p.journal k).unpinned [x] else p.journal k)
        ∧ q.readCnt = { p.readCnt with
            trims := satAdd p.readCnt.trims (if (p.journal j).freesHead [x] then 1 else 0) } := by
    intro hn
    have hnone : ((p.journal j).conf.bind fun c => (c.unpinned [x]).freesHead [x]) = none := by
      cases h : ((p.journal j).conf.bind fun c => (c.unpinned [x]).freesHead [x]) with
      | none => rfl
      | some t => exact absurd h (hn t)
    refine ⟨fun k => ?_, ?_⟩
    · rw [hj]
      by_cases h : j = k
      · subst h
        rw [if_pos rfl, if_pos rfl]
        unfold Journal.unpinned
        cases hc : (p.journal j).conf with
        | none =>
          dsimp only [Option.map_none]
          exact congrArg (fun o => ({ p.journal j with conf := o } : Journal)) hc.symm
        | some c =>
          rw [hc] at hnone
          have hnone : (c.unpinned [x]).freesHead [x] = none := hnone
          dsimp only [Option.map_some]
          rw [hnone]
      · rw [if_neg h, if_neg h]
    · have hf : (p.journal j).freesHead [x] = false := by
        unfold Journal.freesHead
        cases hc : (p.journal j).conf with
        | none => rfl
        | some c =>
          rw [hc] at hnone
          have hnone : (c.unpinned [x]).freesHead [x] = none := hnone
          rw [Option.any_some, hnone]
          rfl
      rw [hf, hch.readCnt]
      simp only [Bool.false_eq_true, if_false, satAdd_zero]
  cases hc : (p.journal j).conf with
  | none =>
    have hq : (q.journal j).conf = none := by rw [hself, hc]; rfl
    rw [hq]
    exact hcalm fun t h => by rw [hc] at h; cases h
  | some c =>
    have hq : (q.journal j).conf = some (c.unpinned [x]) := by rw [hself, hc]; rfl
    rw [hq]
    dsimp only
    cases ht : (c.unpinned [x]).trim with
    | none =>
      refine hcalm fun t h => ?_
      rw [hc] at h
      have h := ((freesHead_spec _ _ _).1 h).2.1
      rw [ht] at h
      cases h
    | some t =>
      dsimp only
      by_cases hh : t.phase = .held ∧ ((c.unpinned [x]).pins.all fun x => decide (t.target.toNat ≤ x.toNat)) = true
      · have hf : (c.unpinned [x]).freesHead [x] = some t := by
          refine (freesHead_spec _ _ _).2 ⟨by simp, ht, hh.1, fun y hy => ?_⟩
          simpa using List.all_eq_true.1 hh.2 y hy
        rw [if_pos hh]
        refine ⟨fun k => ?_, ?_⟩
        · rw [(countRead_changes _ _).journal]
          by_cases h : j = k
          · subst h
            rw [markDirty_journal_self, modConf_journal_self, if_pos rfl, hself, hc]
            unfold Journal.unpinned
            rw [hc]
            dsimp only [Option.map_some]
            rw [hf]
            rfl
          · rw [markDirty_journal_ne _ h, modConf_journal_ne _ _ _ h, hj, if_neg h, if_neg h]
        · have hft : (p.journal j).freesHead [x] = true := by
            unfold Journal.freesHead
            rw [hc, Option.any_some, hf]
            rfl
          rw [hft]
          unfold Part.countRead
          dsimp only
          rw [(markDirty_changes _ _).readCnt, (modConf_changes _ _ _).readCnt, hch.readCnt]
          rfl
      · rw [if_neg hh]
        refine hcalm fun u h => ?_
        rw [hc] at h
        obtain ⟨_, h2, h3, h4⟩ := (freesHead_spec _ _ _).1 h
        rw [ht] at h2
        cases h2
        exact hh ⟨h3, List.all_eq_true.2 fun y hy => decide_eq_true (h4 y hy)⟩

/-- A read context after its cancellation. -/
def ReadCtx.cancelled (c : ReadCtx) : Option ReadCtx :=
  if c.outstanding = 0 then none else some { c with state := .draining, staged := none }

theorem cancelRead_self (r : ReadId) : (p.cancelRead r).readCtx r = (p.readCtx r).bind ReadCtx.cancelled := by
  unfold Part.cancelRead
  cases h : p.readCtx r with
  | none => exact h
  | some c =>
    dsimp only
    rw [(removePin_changes _ _ _).readCtx, (countRead_changes _ _).readCtx, setRead_readCtx_self]
    rfl

theorem cancelRead_ne {r x : ReadId} (h : r ≠ x) : (p.cancelRead r).readCtx x = p.readCtx x := by
  unfold Part.cancelRead
  split
  · rfl
  · rw [(removePin_changes _ _ _).readCtx, (countRead_changes _ _).readCtx, setRead_readCtx_ne _ _ _ h]
    rfl

theorem cancelAll_readCtx (l : List ReadId) (hl : l.Nodup) : ∀ (p : Part) (x : ReadId),
    (l.foldl Part.cancelRead p).readCtx x
      = if x ∈ l then (p.readCtx x).bind ReadCtx.cancelled else p.readCtx x := by
  induction l with
  | nil => intro p x; simp
  | cons r l ih =>
    intro p x
    obtain ⟨hr, hl⟩ := List.nodup_cons.1 hl
    rw [List.foldl_cons, ih hl]
    by_cases h : r = x
    · subst h
      rw [if_neg hr, if_pos List.mem_cons_self, cancelRead_self]
    · rw [cancelRead_ne p h]
      have hx : x ≠ r := fun e => h e.symm
      simp [hx]

/-- The start positions of listed reads of a journal. -/
def Part.startsIn (p : Part) (l : List ReadId) (j : JournalId) : List W64 :=
  l.filterMap fun r => (p.readCtx r).bind fun x => if x.journal = j then some x.start else none

/-- A client's accesses that stand when listed reads are cancelled. -/
def stays (l : List ReadId) (a : Access) : Bool :=
  match a.client with
  | .readCtx r => !decide (r ∈ l)
  | _ => true

/-- Reads cancelled in turn (R79). -/
theorem cancelAll_left (l : List ReadId) (hl : l.Nodup) : ∀ p : Part, (∀ r ∈ l, (p.readCtx r).isSome = true) →
    let q := l.foldl Part.cancelRead p
    (∀ j, q.journal j = (p.journal j).unpinned (p.startsIn l j))
      ∧ q.mem = { p.mem with held := p.mem.held.filter (stays l) }
      ∧ q.readCnt = { p.readCnt with
          cancelled := satAdd p.readCnt.cancelled l.length
          trims := satAdd p.readCnt.trims
            (allJournals.countP fun j => (p.journal j).freesHead (p.startsIn l j)) } := by
  induction l with
  | nil =>
    intro p _
    refine ⟨fun j => (unpinned_nil _).symm, ?_, ?_⟩
    · have : p.mem.held.filter (stays []) = p.mem.held := by
        refine List.filter_eq_self.2 fun a _ => ?_
        unfold stays
        split <;> simp
      rw [this]
      rfl
    · have h0 : (allJournals.countP fun j => (p.journal j).freesHead (p.startsIn [] j)) = 0 :=
        List.countP_eq_zero.2 fun j _ => by rw [show p.startsIn [] j = [] from rfl, freesHead_nil]; decide
      rw [h0, satAdd_zero, List.length_nil, satAdd_zero]
      rfl
  | cons r l ih =>
    intro p hsome
    dsimp only
    obtain ⟨hr, hl⟩ := List.nodup_cons.1 hl
    rw [List.foldl_cons]
    obtain ⟨c, hc⟩ := Option.isSome_iff_exists.1 (hsome r List.mem_cons_self)
    have hctx : ∀ x ∈ l, (p.cancelRead r).readCtx x = p.readCtx x := fun x hx => cancelRead_ne p fun e => hr (e ▸ hx)
    have hstart : ∀ j, (p.cancelRead r).startsIn l j = p.startsIn l j := fun j =>
      List.filterMap_congr fun x hx => by rw [hctx x hx]
    have hcons : ∀ j, p.startsIn (r :: l) j = (if c.journal = j then [c.start] else []) ++ p.startsIn l j := by
      intro j
      unfold Part.startsIn
      rw [List.filterMap_cons, hc]
      by_cases h : c.journal = j <;> simp [h]
    have hone : (∀ j, (p.cancelRead r).journal j = (p.journal j).unpinned (if c.journal = j then [c.start] else []))
        ∧ (p.cancelRead r).mem = { p.mem with held := p.mem.held.filter fun a => decide (a.client ≠ .readCtx r) }
        ∧ (p.cancelRead r).readCnt = { p.readCnt with
            cancelled := satInc p.readCnt.cancelled
            trims := satAdd p.readCnt.trims (if (p.journal c.journal).freesHead [c.start] then 1 else 0) } := by
      unfold Part.cancelRead
      rw [hc]
      dsimp only
      obtain ⟨h1, h2⟩ := removePin_left
        (((p.modMem fun m => { m with held := m.held.filter fun a => decide (a.client ≠ .readCtx r) }).setRead r
          (if c.outstanding = 0 then none else some { c with state := .draining, staged := none })).countRead
            fun n => { n with cancelled := satInc n.cancelled }) c.journal c.start
      refine ⟨fun j => ?_, ?_, h2⟩
      · rw [h1]
        by_cases h : c.journal = j
        · rw [if_pos h, if_pos h]; rfl
        · rw [if_neg h, if_neg h, unpinned_nil]; rfl
      · rw [(removePin_changes _ _ _).mem]; rfl
    obtain ⟨o1, o2, o3⟩ := hone
    obtain ⟨i1, i2, i3⟩ := ih hl (p.cancelRead r) fun x hx => by
      rw [hctx x hx]; exact hsome x (List.mem_cons_of_mem _ hx)
    simp only [hstart] at i1 i3
    refine ⟨fun j => ?_, ?_, ?_⟩
    · rw [i1, o1, hcons, (unpinned_append _ _ _).1]
    · rw [i2, o2]
      dsimp only
      rw [List.filter_filter]
      refine congrArg (fun h => ({ p.mem with held := h } : MemEngine)) (List.filter_congr fun a _ => ?_)
      unfold stays
      cases hcl : a.client with
      | readCtx x => simp; exact Bool.and_comm _ _
      | _ => simp
    · rw [i3, o3]
      dsimp only
      unfold satInc
      rw [satAdd_satAdd, satAdd_satAdd, List.length_cons, Nat.add_comm 1]
      have hcount := countP_update (f := fun j => (p.journal j).freesHead (p.startsIn (r :: l) j))
        (g := fun j => ((p.cancelRead r).journal j).freesHead (p.startsIn l j)) (a := c.journal)
        (fun j hj => by
          rw [o1, hcons, if_neg (Ne.symm hj), unpinned_nil]
          rfl) allJournals (by decide) (mem_allJournals c.journal)
      have hstep := (unpinned_append (p.journal c.journal) [c.start] (p.startsIn l c.journal)).2
      simp only [o1, hcons, if_true] at hcount
      have : (if (p.journal c.journal).freesHead [c.start] then 1 else 0)
          + (allJournals.countP fun j => ((p.cancelRead r).journal j).freesHead (p.startsIn l j))
            = allJournals.countP fun j => (p.journal j).freesHead (p.startsIn (r :: l) j) := by
        simp only [o1, hcons]
        omega
      rw [this]

theorem mem_readsOf (s : SessionId) (r : ReadId) :
    r ∈ p.readsOf s ↔ portOfRead r = s.port ∧ ∃ c, p.readCtx r = some c ∧ c.gen = s.gen ∧ c.state ≠ .draining := by
  unfold Part.readsOf
  cases h : p.readCtx r <;> simp [h, mem_allReads r]

theorem readsOf_nodup (s : SessionId) : (p.readsOf s).Nodup := List.Nodup.filter _ (by decide)

theorem readsOf_cancels (s : SessionId) : p.readsOf s = allReads.filter (p.cancels s) := by
  unfold Part.readsOf
  refine List.filter_congr fun r _ => ?_
  unfold Part.cancels portOfRead
  simp only [Fin.ext_iff]

/-! ## Journals left (R63, R64) -/

theorem graceStart_eq (ms : W16) : graceStart ms = if ms = 0 then .expired else .running ms := rfl

theorem sessionEnded_eq (c : Conf) (s : SessionId) (g : W16) :
    c.sessionEnded s g = { c with own := c.own.leftBy s g } := by
  unfold Conf.sessionEnded Ownership.leftBy
  cases h : c.own with
  | unassigned => dsimp only; rw [← h]
  | owned o t =>
    dsimp only
    split
    · rw [graceStart_eq]
    · rw [← h]
  | held t gr => dsimp only; rw [← h]
  | transferring o t cl =>
    cases cl with
    | none => rfl
    | some x => simp

theorem raise_pending (m : Maint) (cause : BitVec 16) : (m.raise cause).pending = m.pending ||| cause := by
  unfold Maint.raise
  split
  · next h => rw [← h]; ext; simp; tauto
  · rfl

/-- Attention causes have been raised: none is lost, and the port's other state but its counters stands. -/
def Maint.Raised (m m' : Maint) : Prop :=
  (∀ b, m.pending.getLsbD b = true → m'.pending.getLsbD b = true) ∧ m'.params = m.params ∧ m'.mask = m.mask
    ∧ m'.deferred = m.deferred ∧ m'.response = m.response ∧ m'.spi = m.spi

theorem Maint.Raised.refl (m : Maint) : m.Raised m := ⟨fun _ h => h, rfl, rfl, rfl, rfl, rfl⟩

theorem Maint.Raised.trans {a b c : Maint} (h : a.Raised b) (h' : b.Raised c) : a.Raised c :=
  ⟨fun x hx => h'.1 x (h.1 x hx), h'.2.1.trans h.2.1, h'.2.2.1.trans h.2.2.1, h'.2.2.2.1.trans h.2.2.2.1,
    h'.2.2.2.2.1.trans h.2.2.2.2.1, h'.2.2.2.2.2.trans h.2.2.2.2.2⟩

theorem raise_raised (m : Maint) (cause : BitVec 16) : m.Raised (m.raise cause) := by
  refine ⟨fun b h => by rw [raise_pending, BitVec.getLsbD_or, h, Bool.true_or], ?_⟩
  unfold Maint.raise
  split <;> exact ⟨rfl, rfl, rfl, rfl, rfl⟩

/-- An entry after its owner's or claimant's session has ended (R63, R64). -/
def Journal.leftBy (e : Journal) (s : SessionId) (grace : W16) : Journal :=
  let e' := { e with conf := e.conf.map fun c => c.sessionEnded s grace }
  if e.conf.any fun c => c.ownedBy s then e'.dirtied else e'

/-- A port that OWNER goes to when a journal becomes HELD. -/
def Journal.tells (e : Journal) (k : Port) : Bool := e.conf.any fun c => decide (k ∈ c.subs)

theorem leaveJournal_ne (s : SessionId) {j k : JournalId} (h : j ≠ k) : (p.leaveJournal s j).journal k = p.journal k := by
  unfold Part.leaveJournal
  dsimp only
  split
  · rw [raise_journal, (notifyOwner_changes _ _ _).journal, markDirty_journal_ne _ h, modConf_journal_ne _ _ _ h]
  · rw [modConf_journal_ne _ _ _ h]

/-- One journal left. -/
theorem leaveJournal_left (s : SessionId) (j : JournalId) :
    (p.leaveJournal s j).journal j = (p.journal j).leftBy s p.maint.params.grace
      ∧ (∀ k, (p.leaveJournal s j).ntf k
        = if ((p.journal j).conf.any fun c => c.ownedBy s) && (p.journal j).tells k then
            p.handed k (((p.journal j).leftBy s p.maint.params.grace).ownerEntry j)
          else p.ntf k)
      ∧ p.maint.Raised (p.leaveJournal s j).maint
      ∧ (((p.journal j).conf.any fun c => c.ownedBy s) = true →
        (p.leaveJournal s j).maint.pending.getLsbD (8 + j.val) = true) := by
  unfold Part.leaveJournal Journal.leftBy
  dsimp only
  by_cases ho : ((p.journal j).conf.any fun c => c.ownedBy s) = true
  · rw [if_pos ho, if_pos ho]
    have hch := (modConf_changes p j fun c => c.sessionEnded s p.maint.params.grace).trans
      (markDirty_journal_changes _ j)
    have hj : ((p.modConf j fun c => c.sessionEnded s p.maint.params.grace).markDirty (.journal j)).journal j
        = Journal.dirtied { p.journal j with conf := (p.journal j).conf.map fun c => c.sessionEnded s p.maint.params.grace } := by
      rw [markDirty_journal_self, modConf_journal_self]
    generalize (p.modConf j fun c => c.sessionEnded s p.maint.params.grace).markDirty (.journal j) = q at hch hj
    have hm : ((q.notifyOwner j none).raise (causeJournalHeld j)).maint = p.maint.raise (causeJournalHeld j) := by
      unfold Part.raise
      rw [modMaint_maint, (notifyOwner_changes _ _ _).maint, hch.maint]
    refine ⟨?_, fun k => ?_, ?_, fun _ => ?_⟩
    · rw [raise_journal, (notifyOwner_changes _ _ _).journal, hj]
    · rw [raise_ntf, notifyOwner_ntf, ho, Bool.true_and]
      have hs : q.subscribers j = ((p.journal j).conf.map Conf.subs).getD [] := by
        unfold Part.subscribers
        rw [hj]
        change ((((p.journal j).conf.map fun c => c.sessionEnded s p.maint.params.grace).map Conf.subs)).getD [] = _
        cases (p.journal j).conf with
        | none => rfl
        | some c => simp [sessionEnded_eq]
      have he : q.ownerEntry j = (q.journal j).ownerEntry j := rfl
      have ht : (k ∈ q.subscribers j ∨ none = some k) ↔ (p.journal j).tells k = true := by
        rw [hs]
        unfold Journal.tells
        cases (p.journal j).conf with
        | none => simp
        | some c => simp
      rw [he, hj]
      by_cases hk : (p.journal j).tells k = true
      · rw [if_pos (ht.2 hk), if_pos hk, handed_congr (hch.req k) (hch.ntf k)]
      · rw [if_neg (fun h => hk (ht.1 h)), if_neg hk, hch.ntf]
    · rw [hm]; exact raise_raised _ _
    · rw [hm, raise_pending, BitVec.getLsbD_or]
      have : (causeJournalHeld j).getLsbD (8 + j.val) = true :=
        (by decide : ∀ j : JournalId, (causeJournalHeld j).getLsbD (8 + j.val) = true) j
      rw [this, Bool.or_true]
  · have ho' : ((p.journal j).conf.any fun c => c.ownedBy s) = false := Bool.eq_false_iff.2 ho
    rw [if_neg ho, if_neg ho]
    refine ⟨modConf_journal_self _ _ _, fun k => ?_, .refl _, fun h => absurd h ho⟩
    rw [ho']
    rfl

theorem leaveAll_raised (s : SessionId) (l : List JournalId) : ∀ p : Part,
    p.maint.Raised (l.foldl (fun q j => q.leaveJournal s j) p).maint := by
  induction l with
  | nil => exact fun p => .refl _
  | cons j l ih => exact fun p => ((leaveJournal_left p s j).2.2.1).trans (ih _)

/-- Journals left in turn (R63, R64, R66). -/
theorem leaveAll_left (s : SessionId) (l : List JournalId) (hl : l.Nodup) : ∀ p : Part,
    let q := l.foldl (fun q j => q.leaveJournal s j) p
    (∀ j, q.journal j = if j ∈ l then (p.journal j).leftBy s p.maint.params.grace else p.journal j)
      ∧ (∀ k, q.ntf k
        = ((l.filter fun j => (p.journal j).conf.any fun c => c.ownedBy s).filter fun j => (p.journal j).tells k).foldl
            (fun n j => n.handed (p.req k).session.active (((p.journal j).leftBy s p.maint.params.grace).ownerEntry j))
            (p.ntf k))
      ∧ ∀ j ∈ l, ((p.journal j).conf.any fun c => c.ownedBy s) = true → q.maint.pending.getLsbD (8 + j.val) = true := by
  induction l with
  | nil =>
    intro p
    refine ⟨fun j => rfl, fun k => rfl, fun j hj => ?_⟩
    cases hj
  | cons a l ih =>
    intro p
    dsimp only
    obtain ⟨ha, hl⟩ := List.nodup_cons.1 hl
    rw [List.foldl_cons]
    obtain ⟨i1, i2, i3⟩ := ih hl (p.leaveJournal s a)
    obtain ⟨o1, o2, o3, o4⟩ := leaveJournal_left p s a
    have hch := leaveJournal_changes p s a
    have hne : ∀ j ∈ l, (p.leaveJournal s a).journal j = p.journal j :=
      fun j hj => leaveJournal_ne p s fun e : a = j => ha (e ▸ hj)
    refine ⟨fun j => ?_, fun k => ?_, fun j hj ho => ?_⟩
    · rw [i1, o3.2.1]
      by_cases h : j = a
      · subst h
        rw [if_neg ha, if_pos List.mem_cons_self, o1]
      · rw [leaveJournal_ne p s (Ne.symm h)]
        simp [h]
    · have hf0 : (l.filter fun j => ((p.leaveJournal s a).journal j).conf.any fun c => c.ownedBy s)
          = l.filter fun j => (p.journal j).conf.any fun c => c.ownedBy s :=
        List.filter_congr fun j hj => by rw [hne j hj]
      rw [i2, hch.req, o2, o3.2.1, hf0]
      generalize hf : (l.filter fun j => (p.journal j).conf.any fun c => c.ownedBy s) = f
      have hmem : ∀ j ∈ f, j ∈ l := fun j hj => by rw [← hf] at hj; exact List.mem_of_mem_filter hj
      have hg : (f.filter fun j => ((p.leaveJournal s a).journal j).tells k) = f.filter fun j => (p.journal j).tells k :=
        List.filter_congr fun j hj => by rw [hne j (hmem j hj)]
      rw [hg]
      have hfold : ∀ (f : List JournalId) (n : NotifyPort), (∀ j ∈ f, j ∈ l) →
          f.foldl (fun n j => n.handed (p.req k).session.active
              ((((p.leaveJournal s a).journal j).leftBy s p.maint.params.grace).ownerEntry j)) n
            = f.foldl (fun n j => n.handed (p.req k).session.active
                (((p.journal j).leftBy s p.maint.params.grace).ownerEntry j)) n := by
        intro f
        induction f with
        | nil => exact fun n _ => rfl
        | cons b f ihf =>
          intro n hm
          rw [List.foldl_cons, List.foldl_cons, hne b (hm b List.mem_cons_self)]
          exact ihf _ fun j hj => hm j (List.mem_cons_of_mem _ hj)
      rw [hfold _ _ fun j hj => hmem j (List.mem_of_mem_filter hj)]
      by_cases ho : ((p.journal a).conf.any fun c => c.ownedBy s) = true
      · rw [List.filter_cons_of_pos (by exact ho), hf]
        by_cases ht : (p.journal a).tells k = true
        · rw [List.filter_cons_of_pos (by exact ht), List.foldl_cons, ho, ht]
          rfl
        · rw [List.filter_cons_of_neg (by exact ht), Bool.eq_false_iff.2 ht, Bool.and_false]
          rfl
      · rw [List.filter_cons_of_neg (by exact ho), hf, Bool.eq_false_iff.2 ho, Bool.false_and]
        rfl
    · rcases List.mem_cons.1 hj with h | h
      · subst h
        exact (leaveAll_raised s l _).1 _ (o4 ho)
      · exact i3 j h (by rw [hne j h]; exact ho)

end

end Sys2Proof.Machine
end

