-- ==== Sys2Proof/Laws/Ended.lean ====
section
/-! SUPPORT. What the end of a session leaves (R106, Table 6-2). -/

namespace Sys2Proof.Machine

set_option Elab.async false

section
variable (p : Part)

/-! ## The entries -/

/-- The entry without the port among its subscribers (R98). -/
def Journal.without (e : Journal) (i : Port) : Journal :=
  { e with conf := e.conf.map fun c => { c with subs := c.subs.filter fun q => decide (q ≠ i) } }

theorem unsubscribeAll_journal (i : Port) (k : JournalId) :
    (p.unsubscribeAll i).journal k
      = (p.journal k).without i := by
  have step : ∀ (l : List JournalId) (hl : l.Nodup) (p : Part),
      (l.foldl (fun p j => p.modConf j fun c => { c with subs := c.subs.filter fun q => decide (q ≠ i) }) p).journal k
        = if k ∈ l then (p.journal k).without i else p.journal k := by
    intro l
    induction l with
    | nil => intro _ p; simp
    | cons j l ih =>
      intro hl p
      obtain ⟨hj, hl⟩ := List.nodup_cons.1 hl
      rw [List.foldl_cons, ih hl]
      by_cases h : j = k
      · subst h
        rw [if_neg hj, if_pos List.mem_cons_self, modConf_journal_self]
        rfl
      · rw [modConf_journal_ne _ _ _ h]
        have hk : k ≠ j := fun e => h e.symm
        simp [hk]
  unfold Part.unsubscribeAll
  rw [step _ (by decide), if_pos (mem_allJournals k)]

theorem without_ownedBy (e : Journal) (s : SessionId) (starts : List W64) (i : Port) :
    (((e.without i).unpinned starts).conf.any fun c => c.ownedBy s) = e.conf.any fun c => c.ownedBy s := by
  unfold Journal.unpinned Journal.without
  cases e.conf with
  | none => rfl
  | some c =>
    dsimp only [Option.map_some]
    split <;> rfl

theorem without_freesHead (e : Journal) (starts : List W64) (i : Port) :
    (e.without i).freesHead starts = e.conf.any fun c => ((c.unpinned starts).freesHead starts).isSome := by
  unfold Journal.freesHead Journal.without
  cases e.conf with
  | none => rfl
  | some c => rfl

/-- The parts of a session end, one after the other, leave what `partedFrom` says. -/
theorem parted_eq (e : Journal) (s : SessionId) (grace : W16) (starts : List W64) :
    ((e.without s.port).unpinned starts).leftBy s grace = e.partedFrom s grace starts := by
  have ho := without_ownedBy e s starts s.port
  unfold Journal.leftBy
  rw [ho]
  unfold Journal.unpinned Journal.without Journal.partedFrom
  cases hc : e.conf with
  | none =>
    dsimp only [Option.map_none]
    rw [show (Option.any (fun c : Conf => c.ownedBy s) none) = false from rfl]
    simp only [Bool.false_eq_true, if_false]
    rw [← hc]
  | some c =>
    dsimp only [Option.map_some]
    have hf : Conf.freesHead (Conf.unpinned { c with subs := c.subs.filter fun q => decide (q ≠ s.port) } starts) starts
        = Conf.freesHead { c.unpinned starts with
            own := c.own.leftBy s grace, subs := c.subs.filter fun q => decide (q ≠ s.port) } starts := rfl
    rw [hf, Option.any_some]
    cases Conf.freesHead { c.unpinned starts with
        own := c.own.leftBy s grace, subs := c.subs.filter fun q => decide (q ≠ s.port) } starts with
    | none =>
      dsimp only [Option.map_some]
      rw [sessionEnded_eq]
      cases c.ownedBy s <;> rfl
    | some t =>
      unfold Journal.headAt
      dsimp only [Option.map_some]
      rw [sessionEnded_eq]
      cases c.ownedBy s <;> rfl

/-- A journal that its owner's session leaves is HELD: it completes no transfer, and OWNER goes to its subscribers. -/
theorem parted_owned (e : Journal) (s : SessionId) (grace : W16) (starts : List W64)
    (ho : (e.conf.any fun c => c.ownedBy s) = true) (n : Nat) :
    (((e.partedFrom s grace starts).conf.any fun c => c.completesAt n) = false)
      ∧ ∀ k, k ≠ s.port → p.ownerGoesTo (e.partedFrom s grace starts) k
        = ((e.without s.port).unpinned starts).tells k := by
  cases hc : e.conf with
  | none => rw [hc] at ho; cases ho
  | some c =>
    rw [hc, Option.any_some] at ho
    have hown : ∃ t g, c.own.leftBy s grace = .held t g := by
      unfold Conf.ownedBy at ho
      unfold Ownership.leftBy
      cases hw : c.own with
      | owned w t =>
        rw [hw] at ho
        have : w = s := of_decide_eq_true ho
        dsimp only
        rw [if_pos this]
        exact ⟨_, _, rfl⟩
      | _ => rw [hw] at ho; cases ho
    obtain ⟨t, g, hw⟩ := hown
    have hconf : ∃ d, (e.partedFrom s grace starts).conf = some d ∧ d.own = .held t g
        ∧ d.subs = c.subs.filter fun k => decide (k ≠ s.port) := by
      unfold Journal.partedFrom
      rw [hc]
      dsimp only
      split <;> exact ⟨_, rfl, hw, rfl⟩
    obtain ⟨d, hd, h1, h2⟩ := hconf
    have hsubs : ∃ f, ((e.without s.port).unpinned starts).conf = some f
        ∧ f.subs = c.subs.filter fun k => decide (k ≠ s.port) := by
      unfold Journal.unpinned Journal.without
      rw [hc]
      dsimp only [Option.map_some]
      split <;> exact ⟨_, rfl, rfl⟩
    obtain ⟨f, hf, h3⟩ := hsubs
    refine ⟨?_, fun k hk => ?_⟩
    · rw [hd, Option.any_some]
      exact completesAt_other (fun o t x h => by rw [h1] at h; cases h) n
    · unfold Part.ownerGoesTo Journal.tells
      rw [hd, hf, Option.any_some, Option.any_some, h1, h2, h3, Bool.or_false]

/-! ## The end of a session -/

/-- The end of a session, in the blocks beside the request layer and the link unit (R106). -/
theorem endSession_left (i : Port) (cause : EndCause) : p.sessionLeft (p.endSession i cause) (p.sessionOf i) := by
  have hreq : ∀ k, k ≠ i → (p.closeRequests i cause).req k = p.req k := by
    intro k hk
    unfold Part.closeRequests
    dsimp only
    split
    · exact modReq_req_ne _ _ _ (Ne.symm hk)
    · exact ((modLink_changes _ _ _).req k).trans (modReq_req_ne _ _ _ (Ne.symm hk))
  unfold Part.endSession
  dsimp only
  generalize hs : p.sessionOf i = s
  have hi : s.port = i := by rw [← hs]; rfl
  have c1 := closeRequests_changes p i cause
  generalize p.closeRequests i cause = p1 at c1 hreq
  have c2 := (unsubscribeAll_changes p1 i).trans (clearNtf_changes _ i fun e => (p.ntf i).modeRetained && e.isMode)
  have j2 : ∀ k, ((p1.unsubscribeAll i).clearNtf i fun e => (p.ntf i).modeRetained && e.isMode).journal k
      = (p.journal k).without i := by
    intro k
    rw [(clearNtf_changes _ _ _).journal, unsubscribeAll_journal, c1.journal]
  have n2 : ∀ k, k ≠ i → ((p1.unsubscribeAll i).clearNtf i fun e => (p.ntf i).modeRetained && e.isMode).ntf k
      = p.ntf k := by
    intro k hk
    unfold Part.clearNtf
    dsimp only
    rw [(countNtf_changes _ _).ntf, modNtf_ntf_ne _ _ _ (Ne.symm hk), (unsubscribeAll_changes p1 i).ntf, c1.ntf]
  generalize ((p1.unsubscribeAll i).clearNtf i fun e => (p.ntf i).modeRetained && e.isMode) = p2 at c2 j2 n2
  have c12 := c1.trans c2
  have c3 := voidAll_changes p2 (p2.slotsWith fun x => decide (x.session = s)) .sessionEnded
  have s3 := voidWith_slot p2 (fun x => decide (x.session = s)) .sessionEnded
  obtain ⟨m3, a3⟩ := voidAll_left .sessionEnded _ (slotsWith_nodup p2 fun x => decide (x.session = s)) p2
  generalize p2.voidAll (p2.slotsWith fun x => decide (x.session = s)) .sessionEnded = p3 at c3 s3 m3 a3
  have c123 := c12.trans c3
  have hcan : p3.readsOf s = allReads.filter (p.cancels s) := by
    rw [readsOf_cancels]
    refine List.filter_congr fun r _ => ?_
    unfold Part.cancels
    rw [c123.readCtx]
  have c4 := Part.Changes.foldl cancelRead_changes (p3.readsOf s) p3
  have r4 := cancelAll_readCtx (p3.readsOf s) (readsOf_nodup p3 s) p3
  obtain ⟨j4, m4, k4⟩ := cancelAll_left (p3.readsOf s) (readsOf_nodup p3 s) p3 fun r hr => by
    obtain ⟨_, x, hx, _⟩ := (mem_readsOf p3 s r).1 hr
    rw [hx]; rfl
  have hstarts : ∀ j, p3.startsIn (p3.readsOf s) j = p.startsOf s j := by
    intro j
    rw [hcan]
    unfold Part.startsIn Part.startsOf
    refine List.filterMap_congr fun r _ => ?_
    rw [c123.readCtx]
  simp only [hstarts] at j4 k4
  generalize (p3.readsOf s).foldl Part.cancelRead p3 = p4 at c4 r4 j4 m4 k4
  have c1234 := c123.trans c4
  have c5 := Part.Changes.foldl (fun q j => leaveJournal_changes q s j) allJournals p4
  obtain ⟨j5, n5, u5⟩ := leaveAll_left s allJournals (by decide) p4
  have hra := leaveAll_raised s allJournals p4
  generalize allJournals.foldl (fun q j => q.leaveJournal s j) p4 = p5 at c5 j5 n5 u5 hra
  have c15 := c1234.trans c5
  have c6 := setWaits_changes p5 i []
  have hw : p5.waits i = p.waits i := c15.waits i
  rw [hw]
  have w6 : ∀ k, (p5.setWaits i []).waits k = if k = i then [] else p.waits k := by
    intro k
    by_cases h : k = i
    · subst h; rw [if_pos rfl, setWaits_waits_self]
    · rw [if_neg h, setWaits_waits_ne _ _ _ (Ne.symm h), c15.waits]
  generalize p5.setWaits i [] = p6 at c6 w6
  have c16 := c15.trans c6
  have c7 := Part.Changes.foldl dropWaiting_changes (p.waits i) p6
  have s7 := dropAll_slot (p.waits i) p6
  obtain ⟨j7, done, d1, d2, n7⟩ := dropAll_spec (p.waits i) p6
  generalize (p.waits i).foldl Part.dropWaiting p6 = q at c7 s7 j7 n7
  -- the slots
  have hslot : ∀ n, p6.slot n
      = (p.slot n).map fun x => if x.session = s ∧ x.state = .receiving then x.voided .sessionEnded else x := by
    intro n
    rw [c6.slot, c5.slot, c4.slot, s3, c12.slot]
    simp only [decide_eq_true_iff]
  have hheld : ∀ j, p6.heldBy (p.waits i) j = p.waitingOn i j := by
    intro j
    unfold Part.heldBy Part.waitingOn
    refine List.countP_congr fun n _ => ?_
    rw [hslot]
    cases p.slot n with
    | none => rfl
    | some x =>
      rw [Option.map_some, Option.any_some, Option.any_some]
      split <;> rfl
  -- the entries
  have hg4 : p4.maint = p.maint := c1234.maint
  have hj4 : ∀ j, p4.journal j = ((p.journal j).without i).unpinned (p.startsOf s j) := by
    intro j
    rw [j4, c3.journal, j2]
  have hj6 : ∀ j, p6.journal j = (p.journal j).partedFrom s p.maint.params.grace (p.startsOf s j) := by
    intro j
    rw [c6.journal, j5, if_pos (mem_allJournals j), hj4, hg4, ← hi, parted_eq]
  have hse : ∀ k, (q.req k).session.who = (p6.req k).session.who := fun k => by rw [c7.req]
  have hjq : ∀ j, q.journal j
      = q.freedEntry j ((p.journal j).partedFrom s p.maint.params.grace (p.startsOf s j)) (p.waitingOn i j) := by
    intro j
    rw [j7, hheld, hj6, freedEntry_congr hse (by rw [c7.maint])]
  have hown : ∀ j, ((p4.journal j).conf.any fun c => c.ownedBy s) = (p.journal j).conf.any fun c => c.ownedBy s := by
    intro j
    rw [hj4, without_ownedBy]
  have hpar : ∀ k, k ≠ i → p4.req k = p.req k := fun k hk => by
    rw [c4.req, c3.req, c2.req, hreq k hk]
  unfold Part.sessionLeft
  rw [hi]
  dsimp only
  refine ⟨fun n => ?_, fun r => ?_, fun k => ?_, ?_, hjq, fun j ho => ?_, ⟨done, d1, fun j => ?_, fun k hk => ?_⟩, ?_, ?_⟩
  · rw [s7, hslot]
    rfl
  · rw [c7.readCtx, c6.readCtx, c5.readCtx, r4, hcan, c123.readCtx]
    have hm : r ∈ allReads.filter (p.cancels s) ↔ p.cancels s r = true := by
      rw [List.mem_filter]
      exact ⟨fun h => h.2, fun h => ⟨mem_allReads r, h⟩⟩
    by_cases h : p.cancels s r = true
    · rw [if_pos (hm.2 h), if_pos h]
      rfl
    · rw [if_neg (fun x => h (hm.1 x)), if_neg h]
  · rw [c7.waits, w6]
  · rw [c7.mem, c6.mem, c5.mem, m4, m3, Part.memAfter, c12.mem, c12.maint]
    have hv : (p2.slotsWith fun x => decide (x.session = s)).flatMap (fun n => p2.voidWrites n .sessionEnded) = p.voidsOf s :=
      voidWrites_flatMap c12.slot (fun j => by rw [j2]; unfold Journal.without; cases (p.journal j).conf <;> rfl) _ _
    rw [hv]
    refine congrArg (fun h => ({ p.memAfter (p.voidsOf s) with held := h } : MemEngine)) (List.filter_congr fun a _ => ?_)
    unfold stays
    rw [hcan]
    cases a.client with
    | readCtx r => simp [mem_allReads r]
    | _ => rfl
  · rw [c7.maint, c6.maint]
    exact u5 j (mem_allJournals j) ((hown j).trans ho)
  · rw [d2, hj6, hheld]
  · have hseq : ∀ j, q.ownerGoesTo j k = p6.ownerGoesTo j k := fun j => ownerGoesTo_congr hse j k
    have ha : (p6.req k).session.active = (p.req k).session.active := by rw [c6.req, c5.req, hpar k hk]
    rw [n7, c6.ntf, n5, hpar k hk, c4.ntf, c3.ntf, n2 k hk, List.filter_append, List.foldl_append]
    unfold Part.told
    rw [ha]
    simp only [hseq]
    have hdone : (done.filter fun j => p6.ownerGoesTo (p6.journal j) k)
        = done.filter fun j =>
            p6.ownerGoesTo ((p.journal j).partedFrom s p.maint.params.grace (p.startsOf s j)) k :=
      List.filter_congr fun j _ => by rw [hj6]
    rw [hdone]
    refine congrArg (fun n : NotifyPort => List.foldl _ n _) ?_
    have hall : (allJournals.filter fun j => (p4.journal j).conf.any fun c => c.ownedBy s)
        = [0, 1, 2, 3, 4, 5, 6, 7].filter fun j => (p.journal j).conf.any fun c => c.ownedBy s :=
      List.filter_congr fun j _ => hown j
    rw [hall]
    generalize hf : ([0, 1, 2, 3, 4, 5, 6, 7].filter fun j => (p.journal j).conf.any fun c => c.ownedBy s) = f
    have hmem : ∀ j ∈ f, ((p.journal j).conf.any fun c => c.ownedBy s) = true := fun j hj => by
      rw [← hf] at hj
      exact (List.mem_filter.1 hj).2
    clear hf hall
    have hgoes : (f.filter fun j => (p4.journal j).tells k)
        = f.filter fun j => p6.ownerGoesTo ((p.journal j).partedFrom s p.maint.params.grace (p.startsOf s j)) k :=
      List.filter_congr fun j hj => by
        rw [(parted_owned p6 _ s _ _ (hmem j hj) 0).2 k (by rw [hi]; exact hk), hj4, hi]
    rw [hgoes]
    generalize hl : (f.filter fun j =>
      p6.ownerGoesTo ((p.journal j).partedFrom s p.maint.params.grace (p.startsOf s j)) k) = l
    have hml : ∀ j ∈ l, ((p.journal j).conf.any fun c => c.ownedBy s) = true := fun j hj => by
      rw [← hl] at hj
      exact hmem j (List.mem_of_mem_filter hj)
    clear hl hgoes hmem
    have hfold : ∀ (l : List JournalId) (n : NotifyPort),
        (∀ j ∈ l, ((p.journal j).conf.any fun c => c.ownedBy s) = true) →
        l.foldl (fun n j => n.handed (p.req k).session.active
            (((p4.journal j).leftBy s p4.maint.params.grace).ownerEntry j)) n
          = l.foldl (fun n j => n.handed (p.req k).session.active ((q.journal j).ownerEntry j)) n := by
      intro l
      induction l with
      | nil => exact fun n _ => rfl
      | cons j l ih =>
        intro n hm
        have he : ((p4.journal j).leftBy s p4.maint.params.grace).ownerEntry j = (q.journal j).ownerEntry j := by
          rw [hjq, freedEntry_ownerEntry _ _ _ _ (parted_owned q _ s _ _ (hm j List.mem_cons_self) _).1, hj4, hg4, ← hi,
            parted_eq]
        rw [List.foldl_cons, List.foldl_cons, he]
        exact ih _ fun j hj => hm j (List.mem_cons_of_mem _ hj)
    exact hfold l _ hml
  · rw [c7.appendCnt, c6.appendCnt, c5.appendCnt, c4.appendCnt, a3, c12.appendCnt]
    rw [countP_slotsWith p2 (fun x => decide (x.session = s)) fun x => decide (x.state = .receiving),
      slotsWith_congr c12.slot]
    rfl
  · rw [c7.readCnt, c6.readCnt, c5.readCnt, k4, c123.readCnt]
    have hlen : (p3.readsOf s).length = [0, 1, 2, 3, 4, 5, 6, 7].countP (p.cancels s) := by
      rw [hcan, List.countP_eq_length_filter]
      rfl
    have htr : (allJournals.countP fun j => (p3.journal j).freesHead (p.startsOf s j))
        = [0, 1, 2, 3, 4, 5, 6, 7].countP fun j => (p.journal j).conf.any fun c =>
            ((c.unpinned (p.startsOf s j)).freesHead (p.startsOf s j)).isSome := by
      refine List.countP_congr fun j _ => ?_
      rw [c3.journal, j2, without_freesHead]
    rw [hlen, htr]

/-! ## The request layer and the notifications at the end of a session -/

theorem closeRequests_req_self (i : Port) (cause : EndCause) : (p.closeRequests i cause).req i = (p.req i).closed cause := by
  unfold Part.closeRequests
  dsimp only
  split
  · exact modReq_req_self _ _ _
  · exact ((modLink_changes _ _ _).req i).trans (modReq_req_self _ _ _)

theorem closeRequests_req_ne {i k : Port} (h : i ≠ k) (cause : EndCause) : (p.closeRequests i cause).req k = p.req k := by
  unfold Part.closeRequests
  dsimp only
  split
  · exact modReq_req_ne _ _ _ h
  · exact ((modLink_changes _ _ _).req k).trans (modReq_req_ne _ _ _ h)

/-- The fields that the end of a session reaches after the request layer. -/
abbrev endedFields : List Part.Field :=
  [.journals, .ntfs, .ntfCnt, .slots, .appendCnt, .mem, .reads, .readCnt, .maint, .waiting]

theorem endSession_after (i : Port) (c : EndCause) : Part.Changes endedFields (p.closeRequests i c) (p.endSession i c) := by
  unfold Part.endSession
  dsimp only
  generalize p.closeRequests i c = p1
  generalize allJournals = js
  exact (((((((unsubscribeAll_changes p1 i).trans (clearNtf_changes _ i _)).trans
    (voidAll_changes _ _ _)).trans (Part.Changes.foldl cancelRead_changes _ _)).trans
      (Part.Changes.foldl (fun q j => leaveJournal_changes q (p.sessionOf i) j) js _)).trans
        (setWaits_changes _ _ _)).trans (Part.Changes.foldl dropWaiting_changes _ _)).mono

theorem endSession_req_self (i : Port) (c : EndCause) : (p.endSession i c).req i = (p.req i).closed c :=
  ((endSession_after p i c).req i).trans (closeRequests_req_self p i c)

theorem endSession_req_ne {i k : Port} (h : i ≠ k) (c : EndCause) : (p.endSession i c).req k = p.req k :=
  ((endSession_after p i c).req k).trans (closeRequests_req_ne p h c)

/-- The credits of the discarded frames return, but for a lost link (R108, R126). -/
theorem endSession_link (i : Port) (c : EndCause) :
    (p.endSession i c).link i
      = if c = .linkLoss then p.link i else (p.link i).credited (p.req i).buffer.length := by
  rw [(endSession_after p i c).link]
  unfold Part.closeRequests
  dsimp only
  split
  · rfl
  · exact modLink_link_self _ _ _

theorem endSession_link_ne {i k : Port} (h : i ≠ k) (c : EndCause) : (p.endSession i c).link k = p.link k := by
  rw [(endSession_after p i c).link]
  unfold Part.closeRequests
  dsimp only
  split
  · rfl
  · exact modLink_link_ne _ _ _ h

/-- A producer's entry for the port is discarded (R93, R97). -/
def Part.deaf (p : Part) (i : Port) : Prop := (p.req i).session.active = false ∨ (p.ntf i).modeRetained = true

theorem notify_deaf {i : Port} (h : p.deaf i) (e : Ntf) (k : Port) : (p.notify e k).ntf i = p.ntf i := by
  by_cases hk : k = i
  · subst hk
    rw [notify_self]
    unfold Part.handed NotifyPort.handed
    rcases h with h | h <;> simp [h]
  · exact notify_ne p hk e

theorem deaf_congr {p q : Part} {i : Port} (h : p.deaf i) (hr : q.req i = p.req i) (hn : q.ntf i = p.ntf i) : q.deaf i := by
  unfold Part.deaf
  rw [hr, hn]
  exact h

theorem notifyAll_deaf {i : Port} (e : Ntf) (l : List Port) : ∀ p : Part, p.deaf i → (p.notifyAll e l).ntf i = p.ntf i := by
  induction l with
  | nil => exact fun p _ => rfl
  | cons k l ih =>
    intro p h
    have hn := notify_deaf p h e k
    exact (ih (p.notify e k) (deaf_congr h ((notify_changes p e k).req i) hn)).trans hn

theorem leaveJournal_deaf {i : Port} (h : p.deaf i) (s : SessionId) (j : JournalId) :
    (p.leaveJournal s j).ntf i = p.ntf i := by
  unfold Part.leaveJournal
  dsimp only
  split
  · rw [raise_ntf]
    have hc := (modConf_changes p j fun c => c.sessionEnded s p.maint.params.grace).trans (markDirty_journal_changes _ j)
    exact (notifyAll_deaf _ _ _ (deaf_congr h (hc.req i) (hc.ntf i))).trans (hc.ntf i)
  · rfl

theorem transferCheck_deaf {i : Port} (h : p.deaf i) (j : JournalId) : (p.transferCheck j).ntf i = p.ntf i := by
  unfold Part.transferCheck
  split
  · rfl
  · split
    · split
      · unfold Part.completeTransfer
        dsimp only
        generalize p.transferred j _ = tr
        have hc := (modJournal_changes p j fun e => e.change tr.1 (e.epoch + 1) tr.2).trans (markDirty_journal_changes _ j)
        exact (notifyAll_deaf _ _ _ (deaf_congr h (hc.req i) (hc.ntf i))).trans (hc.ntf i)
      · rfl
    · rfl

theorem dropWaiting_deaf {i : Port} (h : p.deaf i) (w : Waiting) : (p.dropWaiting w).ntf i = p.ntf i := by
  cases w with
  | answer r => rfl
  | appendDone n =>
    change (p.freeSlot n).ntf i = _
    unfold Part.freeSlot
    split
    · rfl
    · next s _ =>
      have hc := (setSlot_changes p n none).trans (modConf_changes _ s.journal fun c => { c with openSlots := c.openSlots - 1 })
      exact (transferCheck_deaf _ (deaf_congr h (hc.req i) (hc.ntf i)) _).trans (hc.ntf i)

theorem foldl_deaf {α : Type} {op : Part → α → Part} {i : Port} {fs : List Part.Field}
    (hc : ∀ p a, Part.Changes fs p (op p a)) (hn : ∀ (p : Part) (a : α), p.deaf i → (op p a).ntf i = p.ntf i)
    (hf : Part.Field.reqs ∉ fs) (l : List α) : ∀ p : Part, p.deaf i → (l.foldl op p).ntf i = p.ntf i := by
  induction l with
  | nil => exact fun p _ => rfl
  | cons a l ih =>
    intro p h
    exact (ih (op p a) (deaf_congr h ((hc p a).req i hf) (hn p a h))).trans (hn p a h)

theorem clearNtf_self (i : Port) (keep : Ntf → Bool) :
    (p.clearNtf i keep).ntf i = { p.ntf i with queue := (p.ntf i).queue.filter keep, drops := 0, overflow := false } := by
  unfold Part.clearNtf
  dsimp only
  rw [(countNtf_changes _ _).ntf, modNtf_ntf_self]

theorem clearNtf_ne {i k : Port} (h : i ≠ k) (keep : Ntf → Bool) : (p.clearNtf i keep).ntf k = p.ntf k := by
  unfold Part.clearNtf
  dsimp only
  rw [(countNtf_changes _ _).ntf, modNtf_ntf_ne _ _ _ h]

theorem endSession_ntf (i : Port) (c : EndCause) (k : Port) (h : k = i ∨ p.deaf k) :
    (p.endSession i c).ntf k = if k = i then (p.ntf i).emptied else p.ntf k := by
  have hr : (p.closeRequests i c).req k = if k = i then (p.req i).closed c else p.req k := by
    by_cases hk : k = i
    · subst hk; rw [if_pos rfl]; exact closeRequests_req_self p _ c
    · rw [if_neg hk]; exact closeRequests_req_ne p (fun e => hk e.symm) c
  have hn : (p.closeRequests i c).ntf k = p.ntf k := (closeRequests_changes p i c).ntf k
  unfold Part.endSession
  dsimp only
  generalize p.closeRequests i c = p1 at hr hn
  have c2 := unsubscribeAll_changes p1 i
  generalize p1.unsubscribeAll i = p2 at c2
  have n3 : (p2.clearNtf i fun e => (p.ntf i).modeRetained && e.isMode).ntf k
      = if k = i then (p.ntf i).emptied else p.ntf k := by
    by_cases hk : k = i
    · subst hk
      rw [clearNtf_self, c2.ntf, hn, if_pos rfl]
      rfl
    · rw [clearNtf_ne _ (fun e => hk e.symm), c2.ntf, hn, if_neg hk]
  have r3 : (p2.clearNtf i fun e => (p.ntf i).modeRetained && e.isMode).req k
      = if k = i then (p.req i).closed c else p.req k := by
    rw [(clearNtf_changes _ _ _).req, c2.req, hr]
  generalize (p2.clearNtf i fun e => (p.ntf i).modeRetained && e.isMode) = p3 at n3 r3
  have d3 : p3.deaf k := by
    unfold Part.deaf
    rw [r3, n3]
    by_cases hk : k = i
    · rw [if_pos hk]; exact .inl rfl
    · rw [if_neg hk, if_neg hk]; exact h.resolve_left hk
  rw [← n3]
  have c4 := (voidAll_changes p3 (p3.slotsWith fun x => decide (x.session = p.sessionOf i)) .sessionEnded).trans
    (Part.Changes.foldl cancelRead_changes ((p3.voidAll (p3.slotsWith fun x => decide (x.session = p.sessionOf i))
      .sessionEnded).readsOf (p.sessionOf i)) _)
  refine (foldl_deaf dropWaiting_changes (fun p w hp => dropWaiting_deaf p hp w) (by decide) _ _ ?_).trans ?_
  all_goals
    have d4 := deaf_congr d3 (c4.req k) (c4.ntf k)
    have n5 := foldl_deaf (fun q j => leaveJournal_changes q (p.sessionOf i) j)
      (fun q j hq => leaveJournal_deaf q hq (p.sessionOf i) j) (by decide) allJournals _ d4
    have c5 := (Part.Changes.foldl (fun q j => leaveJournal_changes q (p.sessionOf i) j) allJournals
      ((((p3.voidAll (p3.slotsWith fun x => decide (x.session = p.sessionOf i)) .sessionEnded).readsOf
        (p.sessionOf i)).foldl Part.cancelRead
          (p3.voidAll (p3.slotsWith fun x => decide (x.session = p.sessionOf i)) .sessionEnded))))
  · exact deaf_congr d4 ((setWaits_changes _ _ _).req k |>.trans (c5.req k)) (((setWaits_changes _ _ _).ntf k).trans n5)
  · exact (((setWaits_changes _ _ _).ntf k).trans n5).trans (c4.ntf k)

/-- No attention cause is lost at the end of a session. -/
theorem endSession_raised (i : Port) (c : EndCause) : p.maint.Raised (p.endSession i c).maint := by
  have c1 := closeRequests_changes p i c
  unfold Part.endSession
  dsimp only
  generalize p.closeRequests i c = p1 at c1
  have c4 := (((c1.trans (unsubscribeAll_changes p1 i)).trans (clearNtf_changes _ i fun e =>
    (p.ntf i).modeRetained && e.isMode)).trans (voidAll_changes _ (((p1.unsubscribeAll i).clearNtf i fun e =>
      (p.ntf i).modeRetained && e.isMode).slotsWith fun x => decide (x.session = p.sessionOf i)) .sessionEnded)).trans
        (Part.Changes.foldl cancelRead_changes ((((p1.unsubscribeAll i).clearNtf i fun e =>
          (p.ntf i).modeRetained && e.isMode).voidAll (((p1.unsubscribeAll i).clearNtf i fun e =>
            (p.ntf i).modeRetained && e.isMode).slotsWith fun x => decide (x.session = p.sessionOf i))
              .sessionEnded).readsOf (p.sessionOf i)) _)
  generalize List.foldl Part.cancelRead _ _ = p4 at c4 ⊢
  have h5 := leaveAll_raised (p.sessionOf i) allJournals p4
  generalize allJournals.foldl (fun q j => q.leaveJournal (p.sessionOf i) j) p4 = p5 at h5
  rw [((setWaits_changes p5 i []).trans (Part.Changes.foldl dropWaiting_changes (p5.waits i) _)).maint]
  rw [c4.maint] at h5
  exact h5

end

end Sys2Proof.Machine
end

