-- ==== Sys2Proof/Laws/Frontier.lean ====
section
/-! SUPPORT. The commit frontier (R42): what the repeated advance leaves of the slots and of the journal table, given the
run of resolved slots that begins at the frontier sequence. -/

namespace Sys2Proof.Machine

set_option Elab.async false

/-- Slot m is resolved, on journal j, with this sequence. -/
def ResolvedIn (slots : SlotId → Option Slot) (j : JournalId) (m : SlotId) (sq : W32) : Prop :=
  ∃ z, slots m = some z ∧ z.journal = j ∧ z.seq = sq ∧ (z.state = .landed ∨ z.state = .voided)

section
variable {p : Part} {j : JournalId} {c : Conf}

theorem frontierSlot_test (m : SlotId) (sq : W32) :
    ((p.slot m).any fun s =>
      decide (s.journal = j) && decide (s.seq = sq) && (decide (s.state = .landed) || decide (s.state = .voided))) = true
      ↔ ResolvedIn p.slot j m sq := by
  unfold ResolvedIn
  cases p.slot m <;> simp [and_assoc]

theorem frontierSlot_none (hc : (p.journal j).conf = some c) (h : ∀ m, ¬ResolvedIn p.slot j m c.frontierSeq) :
    p.frontierSlot j = none := by
  unfold Part.frontierSlot
  rw [hc]
  dsimp only
  rw [List.find?_eq_none]
  exact fun m _ hm => h m ((frontierSlot_test m _).1 hm)

theorem frontierSlot_some {n : SlotId} (hc : (p.journal j).conf = some c)
    (h : ∀ m, ResolvedIn p.slot j m c.frontierSeq ↔ m = n) : p.frontierSlot j = some n := by
  have hs : (p.frontierSlot j).isSome = true := by
    unfold Part.frontierSlot
    rw [hc]
    dsimp only
    rw [List.find?_isSome]
    exact ⟨n, mem_allSlots n, (frontierSlot_test n _).2 ((h n).2 rfl)⟩
  obtain ⟨m, hm⟩ := Option.isSome_iff_exists.1 hs
  rw [hm]
  unfold Part.frontierSlot at hm
  rw [hc] at hm
  dsimp only at hm
  have ht := List.find?_some (p := fun n => (p.slot n).any _) hm
  exact congrArg some ((h m).1 ((frontierSlot_test m _).1 ht))

/-- One advance past slot n. -/
theorem passSlot_journal {n : SlotId} {s : Slot} (hs : p.slot n = some s) (hc : (p.journal j).conf = some c) :
    (p.passSlot j n).journal j =
      { p.journal j with
        conf := some
          { c with frontier := s.position + BitVec.ofNat 64 s.occupancy, frontierSeq := c.frontierSeq + 1 } } := by
  unfold Part.passSlot
  rw [hs]
  dsimp only
  rw [(setSlot_changes _ _ _).journal, modConf_journal_self, hc, Option.map_some]

theorem passSlot_slot {n : SlotId} {s : Slot} (hs : p.slot n = some s) (m : SlotId) :
    (p.passSlot j n).slot m = if m = n then some { s with state := .committed } else p.slot m := by
  unfold Part.passSlot
  rw [hs]
  dsimp only
  by_cases h : n = m
  · subst h; rw [if_pos rfl, setSlot_slot_self]
  · rw [if_neg (Ne.symm h), setSlot_slot_ne _ _ _ h, (modConf_changes _ _ _).slot]

/-- The advances of R42 along the run `ns`. -/
theorem passSlots_run (ns : List SlotId) : ∀ (fuel : Nat) (p : Part) (c : Conf), ns.length ≤ fuel → ns.Nodup →
    (p.journal j).conf = some c →
    (∀ k (h : k < ns.length), ∀ m, ResolvedIn p.slot j m (c.frontierSeq + BitVec.ofNat 32 k) ↔ m = ns[k]) →
    (∀ m, ¬ResolvedIn p.slot j m (c.frontierSeq + BitVec.ofNat 32 ns.length)) →
    (∀ m, (Part.passSlots fuel p j).slot m =
        if m ∈ ns then (p.slot m).map fun z => { z with state := .committed } else p.slot m)
      ∧ ∀ last, ns.getLast?.bind p.slot = some last →
          (Part.passSlots fuel p j).journal j =
            { p.journal j with
              conf := some
                { c with
                  frontier := last.position + BitVec.ofNat 64 last.occupancy
                  frontierSeq := c.frontierSeq + BitVec.ofNat 32 ns.length } } := by
  induction ns with
  | nil =>
    intro fuel p c _ _ hc _ hend
    have hz : c.frontierSeq + BitVec.ofNat 32 0 = c.frontierSeq := by simp
    have hp : Part.passSlots fuel p j = p := by
      cases fuel with
      | zero => rfl
      | succ fuel =>
        unfold Part.passSlots
        rw [frontierSlot_none hc fun m => by have := hend m; rwa [List.length_nil, hz] at this]
    rw [hp]
    exact ⟨fun m => by rw [if_neg List.not_mem_nil], fun last h => by cases h⟩
  | cons n ns ih =>
    intro fuel p c hf hnd hc hrun hend
    obtain ⟨hn, hnd⟩ := List.nodup_cons.1 hnd
    obtain ⟨fuel, rfl⟩ : ∃ f, fuel = f + 1 := ⟨fuel - 1, by simp only [List.length_cons] at hf; omega⟩
    have hf : ns.length ≤ fuel := by simp only [List.length_cons] at hf; omega
    have h0 : ∀ m, ResolvedIn p.slot j m c.frontierSeq ↔ m = n := fun m => by
      have := hrun 0 (by simp) m
      simpa using this
    obtain ⟨s, hs, hsj, hsq, hst⟩ := (h0 n).2 rfl
    have hps : Part.passSlots (fuel + 1) p j = Part.passSlots fuel (p.passSlot j n) j := by
      conv => lhs; unfold Part.passSlots
      rw [frontierSlot_some hc h0]
    rw [hps]
    have hj := passSlot_journal (j := j) hs hc
    have hsl := passSlot_slot (j := j) hs
    have hres : ∀ m sq, ResolvedIn (p.passSlot j n).slot j m sq ↔ m ≠ n ∧ ResolvedIn p.slot j m sq := by
      intro m sq
      unfold ResolvedIn
      rw [hsl]
      by_cases h : m = n
      · rw [if_pos h]
        constructor
        · rintro ⟨z, hz, _, _, hst'⟩
          cases hz
          rcases hst' with h' | h' <;> cases h'
        · exact fun h' => absurd h h'.1
      · rw [if_neg h]
        exact ⟨fun h' => ⟨h, h'⟩, fun h' => h'.2⟩
    have hseq : ∀ k, c.frontierSeq + 1 + BitVec.ofNat 32 k = c.frontierSeq + BitVec.ofNat 32 (k + 1) := fun k => by
      apply BitVec.eq_of_toNat_eq
      simp
      omega
    have hlen : (n :: ns).length = ns.length + 1 := rfl
    obtain ⟨i1, i2⟩ := ih fuel (p.passSlot j n)
      { c with frontier := s.position + BitVec.ofNat 64 s.occupancy, frontierSeq := c.frontierSeq + 1 } hf hnd
      (by rw [hj])
      (fun k hk m => by
        dsimp only
        rw [hres, hseq, hrun (k + 1) (by simpa using hk) m, List.getElem_cons_succ]
        refine ⟨fun h => h.2, fun h => ⟨?_, h⟩⟩
        rintro rfl
        exact hn (h ▸ List.getElem_mem hk))
      (fun m => by
        dsimp only
        rw [hres, hseq]
        exact fun h => hend m h.2)
    refine ⟨fun m => ?_, fun last hl => ?_⟩
    · rw [i1, hsl]
      by_cases h : m = n
      · subst h
        rw [if_neg hn, if_pos rfl, if_pos List.mem_cons_self, hs]; rfl
      · simp only [List.mem_cons, h, false_or, if_false]
    · cases ns with
      | nil =>
        have : last = s := by
          have h' : p.slot n = some last := hl
          rw [hs] at h'; exact (Option.some.inj h').symm
        subst this
        have hz : Part.passSlots fuel (p.passSlot j n) j = p.passSlot j n := by
          cases fuel with
          | zero => rfl
          | succ fuel =>
            unfold Part.passSlots
            rw [frontierSlot_none (by rw [hj]) fun m hm => ?_]
            dsimp only at hm
            exact hend m (((hres m _).1 hm).2)
        rw [hz, hj]
        rfl
      | cons n' ns =>
        have hne : (n' :: ns).getLast? = some ((n' :: ns).getLast (by simp)) := List.getLast?_eq_some_getLast (by simp)
        have hmem : (n' :: ns).getLast (by simp) ∈ n' :: ns := List.getLast_mem _
        have hl' : (n' :: ns).getLast?.bind (p.passSlot j n).slot = some last := by
          rw [List.getLast?_cons_cons] at hl
          rw [hne] at hl ⊢
          change (p.passSlot j n).slot _ = some last
          rw [hsl, if_neg fun h : (n' :: ns).getLast (by simp) = n => hn (h ▸ hmem)]
          exact hl
        rw [i2 last hl', hj]
        dsimp only
        rw [hseq, hlen]

/-- Where no resolved slot holds the frontier sequence nothing changes (R42). -/
theorem frontierAdvance_none (hc : (p.journal j).conf = some c) (h : ∀ m, ¬ResolvedIn p.slot j m c.frontierSeq) :
    p.frontierAdvance j = p := by
  unfold Part.frontierAdvance
  rw [frontierSlot_none hc h]

/-- The frontier passes the run `ns`, and the entry is dirty (R42, R17). -/
theorem frontierAdvance_run {ns : List SlotId} {last : Slot} (hc : (p.journal j).conf = some c) (hnd : ns.Nodup)
    (hrun : ∀ k (h : k < ns.length), ∀ m, ResolvedIn p.slot j m (c.frontierSeq + BitVec.ofNat 32 k) ↔ m = ns[k])
    (hend : ∀ m, ¬ResolvedIn p.slot j m (c.frontierSeq + BitVec.ofNat 32 ns.length))
    (hl : ns.getLast?.bind p.slot = some last) :
    (∀ m, (p.frontierAdvance j).slot m =
        if m ∈ ns then (p.slot m).map fun z => { z with state := .committed } else p.slot m)
      ∧ (p.frontierAdvance j).journal j =
          { (p.journal j).dirtied with
            conf := some
              { c with
                frontier := last.position + BitVec.ofNat 64 last.occupancy
                frontierSeq := c.frontierSeq + BitVec.ofNat 32 ns.length } } := by
  have hlen : ns.length ≤ 12 := by
    have := hnd.length_le_card
    simpa using this
  obtain ⟨h1, h2⟩ := passSlots_run ns 12 p c hlen hnd hc hrun hend
  have hne : ∃ n, p.frontierSlot j = some n := by
    cases ns with
    | nil => cases hl
    | cons n ns => exact ⟨n, frontierSlot_some hc fun m => by
      have h := hrun 0 (by simp) m
      rw [List.getElem_cons_zero] at h
      simpa using h⟩
  obtain ⟨n, hn⟩ := hne
  unfold Part.frontierAdvance
  rw [hn]
  dsimp only
  refine ⟨fun m => ?_, ?_⟩
  · rw [(markDirty_journal_changes _ _).slot, h1]
  · rw [markDirty_journal_self, h2 last hl]
    rfl

end

end Sys2Proof.Machine
end

