-- ==== Sys2Proof/Laws/Landed.lean ====
section
/-! SUPPORT. What the steps of a directory write's completion leave (R19): the slots released in one pass (R44), the trim
that ends (R86), the bound answers (R20), all deferred answers in turn (R45, R52), the FRONTIER entries (R66) and the next
write (R18). -/

namespace Sys2Proof.Machine

set_option Elab.async false

/-! ## Slots -/

section
variable {p : Part} {n : SlotId} {x : Slot}

theorem queueDone_waits (i k : Port) (n : SlotId) (x : Slot) : (p.queueDone i n x).waits k = p.waits k :=
  (queueDone_changes p i n x).waits k

theorem queueDone_slot (i : Port) (n m : SlotId) (x : Slot) :
    (p.queueDone i n x).slot m = if n = m then none else p.slot m := by
  unfold Part.queueDone
  rw [freeSlot_slot, ((queueDeferred_changes p i x.appendDone).trans (modReq_changes _ i _)).slot]

/-- An APPEND_DONE that finds a frame (R44). -/
theorem queueDone_req (i : Port) (h : (p.req i).respQ.length < 32) :
    (p.queueDone i n x).req i =
      { p.req i with
        respQ := (p.req i).respQ ++ [.rsp x.appendDone]
        tags := (p.req i).tags.filter fun t => decide (t ≠ x.reqTag)
        session := { (p.req i).session with openAppends := (p.req i).session.openAppends - 1 } } := by
  unfold Part.queueDone Part.queueDeferred Part.leaveTag Part.queueResp
  have hr : p.respRoom i = true := decide_eq_true h
  rw [if_pos hr, (freeSlot_changes _ _).req, modReq_req_self, modReq_req_self, modReq_req_self]
  rfl

theorem releaseSlot_other {m : SlotId} (h : n ≠ m) : (p.releaseSlot n).slot m = p.slot m := by
  unfold Part.releaseSlot
  split
  · rfl
  · split
    · split
      · rw [queueDone_slot, if_neg h]
      · rfl
    · rw [freeSlot_slot, if_neg h]

theorem mem_setWaits {i k : Port} {w v : Waiting} (h : w ∈ p.waits k) :
    w ∈ (p.setWaits i (p.waits i ++ [v])).waits k := by
  by_cases e : i = k
  · subst e; rw [setWaits_waits_self]; exact List.mem_append_left _ h
  · rw [setWaits_waits_ne _ _ _ e]; exact h

/-- A release takes no waiting response away. -/
theorem releaseSlot_grows (i : Port) {w : Waiting} (h : w ∈ p.waits i) : w ∈ (p.releaseSlot n).waits i := by
  unfold Part.releaseSlot
  split
  · exact h
  · split
    · split
      · rw [queueDone_waits]; exact h
      · exact mem_setWaits h
    · rw [(freeSlot_changes _ _).waits]; exact h

end

section

theorem ne_of_notMem {n m : SlotId} {ns : List SlotId} (hn : n ∉ ns) (hm : m ∈ ns) : n ≠ m := fun e => hn (e ▸ hm)

/-- Slots of a journal released in turn: how many became FREE, and what that leaves in the journals and the notifications
(R19, step 3). -/
theorem foldl_releaseSlot (j : JournalId) : ∀ ns : List SlotId, ns.Nodup → ∀ p : Part,
    (∀ n ∈ ns, ∃ x, p.slot n = some x ∧ x.journal = j) → ∃ k, p.Released (ns.foldl Part.releaseSlot p) j k := by
  intro ns
  induction ns with
  | nil => exact fun _ p _ => ⟨0, .none (fun _ => rfl) (fun _ => rfl) (fun _ => rfl) rfl (fun _ => rfl)⟩
  | cons n ns ih =>
    intro hnd p hp
    obtain ⟨hn, hnd⟩ := List.nodup_cons.1 hnd
    obtain ⟨x, hx, rfl⟩ := hp n List.mem_cons_self
    obtain ⟨k, r⟩ := ih hnd (p.releaseSlot n) fun m hm => by
      rw [releaseSlot_other (ne_of_notMem hn hm)]
      exact hp m (List.mem_cons_of_mem _ hm)
    rcases releaseSlot_released hx with h | h
    · exact ⟨_, h.1.trans r⟩
    · exact ⟨_, h.1.trans r⟩

/-- Several releases take none away. -/
theorem foldl_releaseSlot_grows {i : Port} {w : Waiting} (ns : List SlotId) : ∀ p : Part, w ∈ p.waits i →
    w ∈ (ns.foldl Part.releaseSlot p).waits i := by
  induction ns with
  | nil => exact fun _ h => h
  | cons n ns ih => exact fun p h => ih _ (releaseSlot_grows i h)

theorem insertBySeq_perm (p : Part) (n : SlotId) (l : List SlotId) : (insertBySeq p n l).Perm (n :: l) := by
  induction l with
  | nil => exact .refl _
  | cons m l ih =>
    unfold insertBySeq
    split
    · exact .refl _
    · exact (ih.cons m).trans (List.Perm.swap _ _ _)

theorem foldr_insertBySeq_perm (p : Part) (l : List SlotId) : (l.foldr (insertBySeq p) []).Perm l := by
  induction l with
  | nil => exact .refl _
  | cons n l ih => exact (insertBySeq_perm p n _).trans (ih.cons n)

theorem insertBySeq_sorted (p : Part) (n : SlotId) (l : List SlotId)
    (h : l.Pairwise fun a b => p.seqOf a ≤ p.seqOf b) :
    (insertBySeq p n l).Pairwise fun a b => p.seqOf a ≤ p.seqOf b := by
  induction l with
  | nil => exact List.pairwise_singleton _ _
  | cons m l ih =>
    obtain ⟨hm, hl⟩ := List.pairwise_cons.1 h
    unfold insertBySeq
    split
    · next hle =>
      refine List.pairwise_cons.2 ⟨fun a ha => ?_, h⟩
      rcases List.mem_cons.1 ha with e | ha
      · rw [e]; exact hle
      · exact hle.trans (hm a ha)
    · next hle =>
      refine List.pairwise_cons.2 ⟨fun a ha => ?_, ih hl⟩
      rcases List.mem_cons.1 ((insertBySeq_perm p n l).mem_iff.1 ha) with e | ha
      · rw [e]; omega
      · exact hm a ha

/-- The slots of a completion come in sequence order (R19, step 3). -/
theorem durableSlots_sorted (p : Part) (j : JournalId) :
    (p.durableSlots j).Pairwise fun m n => ∀ x y, p.slot m = some x → p.slot n = some y → x.seq.toNat ≤ y.seq.toNat := by
  have h : (p.durableSlots j).Pairwise fun a b => p.seqOf a ≤ p.seqOf b := by
    unfold Part.durableSlots
    split
    · exact List.Pairwise.nil
    · next c _ =>
      generalize allSlots.filter (p.releasable j c.durable) = l
      induction l with
      | nil => exact List.Pairwise.nil
      | cons n l ih => exact insertBySeq_sorted p n _ ih
  refine h.imp fun hab x y hx hy => ?_
  unfold Part.seqOf at hab
  rw [hx, hy] at hab
  exact hab

theorem mem_durableSlots {p : Part} {j : JournalId} {c : Conf} (hc : (p.journal j).conf = some c) (n : SlotId) :
    n ∈ p.durableSlots j ↔ p.releasable j c.durable n = true := by
  unfold Part.durableSlots
  rw [hc]
  dsimp only
  rw [(foldr_insertBySeq_perm p _).mem_iff, List.mem_filter]
  simp [mem_allSlots]

theorem durableSlots_nodup (p : Part) (j : JournalId) : (p.durableSlots j).Nodup := by
  unfold Part.durableSlots
  split
  · exact List.nodup_nil
  · rw [(foldr_insertBySeq_perm p _).nodup_iff]
    exact (by decide : allSlots.Nodup).filter _

end

/-! ## Trims and answers -/

section

/-- A deferred answer released (R52). -/
theorem releaseAnswer_releasedTo (p : Part) (s : SessionId) (a : Rsp) : p.releasedTo (p.releaseAnswer s a) s a := by
  have hl : p.live s = true ↔ ((p.req s.port).session.active = true ∧ (p.req s.port).session.gen = s.gen) := by
    unfold Part.live; simp
  unfold Part.releasedTo Part.releaseAnswer
  dsimp only
  by_cases hlive : p.live s = true
  · rw [if_pos hlive]
    have hlv := hl.1 hlive
    by_cases hr : (p.req s.port).respQ.length < 32 ∧ p.waits s.port = []
    · have : (p.respRoom s.port && (p.waits s.port).isEmpty) = true := by
        unfold Part.respRoom; rw [hr.2]; simpa using hr.1
      rw [if_pos this]
      refine ⟨fun _ _ => ⟨?_, ?_⟩, fun _ h => absurd hr h, fun h => absurd hlv h⟩
      · unfold Part.queueDeferred Part.leaveTag Part.queueResp
        have hroom : p.respRoom s.port = true := by rw [Bool.and_eq_true] at this; exact this.1
        rw [if_pos hroom, modReq_req_self, modReq_req_self]
      · rw [(queueDeferred_changes p _ _).waits]; exact hr.2
    · have : ¬(p.respRoom s.port && (p.waits s.port).isEmpty) = true := by
        unfold Part.respRoom
        intro h
        rw [Bool.and_eq_true, decide_eq_true_iff, List.isEmpty_iff] at h
        exact hr h
      rw [if_neg this]
      exact ⟨fun _ h => absurd h hr, fun _ _ => ⟨rfl, setWaits_waits_self _ _ _⟩, fun h => absurd hlv h⟩
  · rw [if_neg hlive]
    have hlv := fun h => hlive (hl.2 h)
    exact ⟨fun h => absurd h hlv, fun h => absurd h hlv, fun _ => ⟨rfl, rfl⟩⟩

/-- The bound answers of a completed write released (R20): the deferred result that waits for it is there (R178). -/
theorem foldl_releaseBound (bs : List Bound) : ∀ p : Part,
    let q := bs.foldl Part.releaseBound p
    (∀ cmd, p.maint.deferred = .waiting cmd →
        q.maint.deferred = if .forceRelease ∈ bs then .done cmd .ok else .waiting cmd)
    ∧ (∀ cmd st, p.maint.deferred = .done cmd st → q.maint.deferred = .done cmd st)
    ∧ q.maint.params = p.maint.params := by
  induction bs with
  | nil => exact fun p => ⟨fun _ h => by simpa using h, fun _ _ h => h, rfl⟩
  | cons b bs ih =>
    intro p
    obtain ⟨d, e, f⟩ := ih (p.releaseBound b)
    dsimp only at d e f ⊢
    rw [List.foldl_cons]
    cases b with
    | answer s r =>
      have hm : (p.releaseBound (.answer s r)).maint = p.maint := (releaseAnswer_changes p s r).maint
      rw [hm] at d e f
      refine ⟨fun cmd h => ?_, e, f⟩
      rw [d cmd h]; simp
    | forceRelease =>
      refine ⟨fun cmd h => ?_, fun cmd st h => ?_, f⟩
      · rw [e cmd .ok ?_]
        · simp
        · show (match p.maint.deferred with | .waiting c => Deferred.done c .ok | d => d) = _
          rw [h]
      · refine e cmd st ?_
        show (match p.maint.deferred with | .waiting c => Deferred.done c .ok | d => d) = _
        rw [h]

/-- The end of a trim whose target the persisted head has reached (R86). -/
theorem trimEnd_spec (p : Part) (j : JournalId) {c : Conf} (hc : (p.journal j).conf = some c) :
    let ended := ∃ t, c.trim = some t ∧ t.phase = .advanced ∧ t.target.toNat ≤ c.persistedHead.toNat
    ∃ trim, (ended → trim = none) ∧ (¬ended → trim = c.trim ∧ p.trimEnd j = p)
      ∧ (p.trimEnd j).journal j = { p.journal j with conf := some { c with trim := trim } }
      ∧ ∀ k, k ≠ j → (p.trimEnd j).journal k = p.journal k := by
  have same : p.journal j = { p.journal j with conf := some c } := by rw [← hc]
  unfold Part.trimEnd
  rw [hc]; dsimp only
  cases ht : c.trim with
  | none =>
    dsimp only
    refine ⟨none, fun _ => rfl, fun _ => ⟨rfl, rfl⟩, ?_, fun _ _ => rfl⟩
    rw [← ht]; exact same
  | some t =>
    dsimp only
    by_cases h : t.phase = .advanced ∧ t.target.toNat ≤ c.persistedHead.toNat
    · rw [if_pos h]
      refine ⟨none, fun _ => rfl, fun hn => absurd ⟨t, rfl, h⟩ hn, ?_, fun k hk => ?_⟩
      · rw [(releaseAnswer_changes _ _ _).journal, modConf_journal_self, hc]; rfl
      · rw [(releaseAnswer_changes _ _ _).journal, modConf_journal_ne _ _ _ (Ne.symm hk)]
    · rw [if_neg h]
      refine ⟨some t, fun ⟨t', e, h'⟩ => ?_, fun _ => ⟨rfl, rfl⟩, ?_, fun _ _ => rfl⟩
      · cases e; exact absurd h' h
      · rw [← ht]; exact same

end

/-! ## Deferred answers in turn -/

section
variable {p q r : Part} {i : Port}

theorem releasesInTurn_nil (hr : q.req i = p.req i) (hw : q.waits i = p.waits i) : p.releasesInTurn q i [] := by
  unfold Part.releasesInTurn
  rw [hr, hw]
  simp

/-- Answers released in two runs are released in one. -/
theorem releasesInTurn_append {xs ys : List (Waiting × Rsp)} (h : p.releasesInTurn q i xs)
    (h' : q.releasesInTurn r i ys) : p.releasesInTurn r i (xs ++ ys) := by
  unfold Part.releasesInTurn at h h' ⊢
  dsimp only at h h' ⊢
  obtain ⟨h1, h2⟩ := h
  obtain ⟨h3, h4⟩ := h'
  by_cases hw : p.waits i = []
  · rw [if_pos hw] at h1 h2 ⊢
    generalize hroom : 32 - (p.req i).respQ.length = room at h1 h2 ⊢
    by_cases hx : xs.length ≤ room
    · have hq : q.waits i = [] := by rw [h2, hw, List.drop_eq_nil_of_le hx]; rfl
      rw [List.take_of_length_le hx] at h1
      have hl : 32 - (q.req i).respQ.length = room - xs.length := by
        rw [h1]; simp; omega
      rw [if_pos hq, hl] at h3 h4
      rw [List.take_append, List.take_of_length_le hx, List.drop_append, List.drop_eq_nil_of_le hx, h3, h1, h4, hq, hw]
      refine ⟨?_, rfl⟩
      simp only [List.append_assoc, List.map_append, List.countP_append, List.filter_filter, Nat.sub_sub,
        List.mem_append]
      congr 1
      refine List.filter_congr fun t _ => ?_
      rw [Bool.and_comm, ← Bool.decide_and]
      exact decide_eq_decide.2 List.forall_mem_append.symm
    · have hq : q.waits i ≠ [] := by
        rw [h2, hw]
        intro e
        have := congrArg List.length e
        simp at this
        omega
      rw [if_neg hq] at h3 h4
      have hx : room ≤ xs.length := by omega
      rw [List.take_append_of_le_length hx, List.drop_append_of_le_length hx, h3, h1, h4, h2]
      simp
  · rw [if_neg hw] at h1 h2 ⊢
    have hq : q.waits i ≠ [] := by rw [h2]; simp [hw]
    rw [if_neg hq] at h3 h4
    rw [h3, h1, h4, h2]
    simp

/-- A deferred answer, released alone (R52). -/
theorem releaseAnswer_inTurn (p : Part) (s : SessionId) (a : Rsp) (i : Port) :
    p.releasesInTurn (p.releaseAnswer s a) i (p.answersTo i [(s, a)]) := by
  by_cases hi : s.port = i
  · subst hi
    by_cases hl : p.live s = true
    · have ha : p.answersTo s.port [(s, a)] = [(.answer a, a)] := by unfold Part.answersTo; simp [hl]
      rw [ha]
      obtain ⟨r1, r2, _⟩ := releaseAnswer_releasedTo p s a
      unfold Part.releasesInTurn
      dsimp only
      by_cases hf : (p.req s.port).respQ.length < 32 ∧ p.waits s.port = []
      · obtain ⟨e1, e2⟩ := r1 (live_iff.1 hl) hf
        have ht : List.take (32 - (p.req s.port).respQ.length) [(Waiting.answer a, a)] = [(.answer a, a)] :=
          List.take_of_length_le (by simp; omega)
        have hd : List.drop (32 - (p.req s.port).respQ.length) [(Waiting.answer a, a)] = [] :=
          List.drop_eq_nil_of_le (by simp; omega)
        rw [if_pos hf.2, ht, hd, e1, e2, hf.2]
        simp
      · obtain ⟨e1, e2⟩ := r2 (live_iff.1 hl) hf
        have hz : (if p.waits s.port = [] then 32 - (p.req s.port).respQ.length else 0) = 0 := by
          split
          · next h =>
            have : ¬(p.req s.port).respQ.length < 32 := fun x => hf ⟨x, h⟩
            omega
          · rfl
        rw [hz, e1, e2]
        simp
    · have ha : p.answersTo s.port [(s, a)] = [] := by unfold Part.answersTo; simp [hl]
      rw [ha]
      unfold Part.releaseAnswer
      rw [if_neg hl]
      exact releasesInTurn_nil rfl rfl
  · have ha : p.answersTo i [(s, a)] = [] := by unfold Part.answersTo; simp [hi]
    rw [ha]
    unfold Part.releaseAnswer
    split
    · split
      · refine releasesInTurn_nil ?_ ((queueDeferred_changes p _ _).waits i)
        unfold Part.queueDeferred Part.leaveTag Part.queueResp
        rw [modReq_req_ne _ _ _ hi]
        split
        · exact modReq_req_ne _ _ _ hi
        · rfl
      · exact releasesInTurn_nil rfl (setWaits_waits_ne _ _ _ hi)
    · exact releasesInTurn_nil rfl rfl

theorem releaseAnswer_who (p : Part) (s : SessionId) (a : Rsp) (k : Port) :
    ((p.releaseAnswer s a).req k).session = (p.req k).session := by
  have h : ∀ (i : Port) (f : RequestLayer → RequestLayer), (∀ l, (f l).session = l.session) → ∀ q : Part,
      ((q.modReq i f).req k).session = (q.req k).session := by
    intro i f hf q
    by_cases e : i = k
    · subst e; rw [modReq_req_self, hf]
    · rw [modReq_req_ne _ _ _ e]
  unfold Part.releaseAnswer
  split
  · split
    · unfold Part.queueDeferred Part.leaveTag Part.queueResp
      refine (h s.port (fun r => { r with tags := r.tags.filter fun x => decide (x ≠ a.tag) }) (fun _ => rfl) _).trans ?_
      split
      · exact h s.port (fun r => { r with respQ := r.respQ ++ [.rsp a] }) (fun _ => rfl) p
      · rfl
    · rfl
  · rfl

theorem answersTo_congr (h : ∀ k, (q.req k).session.who = (p.req k).session.who) (i : Port)
    (as : List (SessionId × Rsp)) : q.answersTo i as = p.answersTo i as := by
  unfold Part.answersTo
  simp only [live_congr h]

theorem answersTo_append (p : Part) (i : Port) (xs ys : List (SessionId × Rsp)) :
    p.answersTo i (xs ++ ys) = p.answersTo i xs ++ p.answersTo i ys := by
  unfold Part.answersTo
  rw [List.filter_append, List.map_append]

/-- Only APPEND_DONEs are APPEND_DONEs. -/
theorem answersTo_notDone {p : Part} {i : Port} {as : List (SessionId × Rsp)} {n : SlotId} {a : Waiting × Rsp}
    (h : a ∈ p.answersTo i as) : a.1 ≠ .appendDone n := by
  unfold Part.answersTo at h
  obtain ⟨x, _, rfl⟩ := List.mem_map.1 h
  exact fun e => nomatch e

/-- The answers bound to one write, released in turn (R20). -/
theorem foldl_releaseBound_inTurn (i : Port) (bs : List Bound) : ∀ p : Part,
    p.releasesInTurn (bs.foldl Part.releaseBound p) i (p.answersTo i (boundAnswers bs))
      ∧ ∀ k, ((bs.foldl Part.releaseBound p).req k).session = (p.req k).session := by
  induction bs with
  | nil => exact fun p => ⟨releasesInTurn_nil rfl rfl, fun _ => rfl⟩
  | cons b bs ih =>
    intro p
    rw [List.foldl_cons]
    obtain ⟨h1, h2⟩ := ih (p.releaseBound b)
    cases b with
    | forceRelease => exact ⟨h1, h2⟩
    | answer s a =>
      have hw := releaseAnswer_who p s a
      refine ⟨?_, fun k => (h2 k).trans (hw k)⟩
      have he : p.answersTo i (boundAnswers (.answer s a :: bs))
          = p.answersTo i [(s, a)] ++ (p.releaseAnswer s a).answersTo i (boundAnswers bs) := by
        rw [answersTo_congr fun k => congrArg Session.who (hw k), ← answersTo_append]
        rfl
      rw [he]
      exact releasesInTurn_append (releaseAnswer_inTurn p s a i) h1

/-- The end of a trim gives its answer (R86). -/
theorem trimEnd_inTurn (p : Part) (j : JournalId) (i : Port) {c : Conf} (hc : (p.journal j).conf = some c) :
    p.releasesInTurn (p.trimEnd j) i (p.answersTo i
      ((c.trim.filter fun t => decide (t.phase = .advanced) && decide (t.target.toNat ≤ c.persistedHead.toNat)).toList.map
        fun t =>
          (t.session,
            { code := 0x0B#8, tag := t.reqTag, status := .ok, values := .trim (p.journal j).epoch c.head }))) := by
  unfold Part.trimEnd
  rw [hc]
  dsimp only
  cases ht : c.trim with
  | none => exact releasesInTurn_nil rfl rfl
  | some t =>
    dsimp only
    by_cases h : t.phase = .advanced ∧ t.target.toNat ≤ c.persistedHead.toNat
    · rw [if_pos h]
      have hm := modConf_changes p j fun c => { c with trim := none }
      have hf : ((some t).filter fun t : PendingTrim =>
          decide (t.phase = .advanced) && decide (t.target.toNat ≤ c.persistedHead.toNat)) = some t := by
        simp [Option.filter, h]
      rw [hf, Option.toList_some, List.map_singleton]
      have h1 := releaseAnswer_inTurn (p.modConf j fun c => { c with trim := none }) t.session
        { code := 0x0B#8, tag := t.reqTag, status := .ok, values := .trim (p.journal j).epoch c.head } i
      rw [answersTo_congr (p := p) fun k => by rw [hm.req]] at h1
      exact releasesInTurn_append (xs := []) (releasesInTurn_nil (hm.req i) (hm.waits i)) h1
    · rw [if_neg h]
      have hf : ((some t).filter fun t : PendingTrim =>
          decide (t.phase = .advanced) && decide (t.target.toNat ≤ c.persistedHead.toNat)) = none := by
        simpa [Option.filter] using h
      rw [hf]
      exact releasesInTurn_nil rfl rfl

theorem trimEnd_who (p : Part) (j : JournalId) (k : Port) : ((p.trimEnd j).req k).session = (p.req k).session := by
  unfold Part.trimEnd
  split
  · rfl
  · split
    · rfl
    · split
      · rw [releaseAnswer_who, (modConf_changes p j _).req]
      · rfl

theorem donesTo_none {n : SlotId} (hx : p.slot n = none) : p.donesTo i [n] = [] := by
  unfold Part.donesTo
  simp [hx]

theorem donesTo_some {n : SlotId} {x : Slot} (hx : p.slot n = some x) :
    p.donesTo i [n] = if x.session.port = i ∧ p.live x.session = true then [(.appendDone n, x.appendDone)] else [] := by
  unfold Part.donesTo
  rw [List.filterMap_cons, hx]
  by_cases h : x.session.port = i ∧ p.live x.session = true
  · simp [Option.filter, h, Slot.appendDone, codeAppend]
  · rw [if_neg h]
    have : (decide (x.session.port = i) && p.live x.session) = false := by simpa using h
    simp [Option.filter, this]

/-- A slot, released alone (R44, R45). -/
theorem releaseSlot_inTurn (p : Part) (n : SlotId) (i : Port) :
    p.releasesInTurn (p.releaseSlot n) i (p.donesTo i [n]) := by
  cases hx : p.slot n with
  | none =>
    rw [donesTo_none hx]
    unfold Part.releaseSlot
    rw [hx]
    exact releasesInTurn_nil rfl rfl
  | some x =>
    have hd := donesTo_some (i := i) hx
    unfold Part.releaseSlot
    rw [hx]
    dsimp only
    by_cases hl : p.live x.session = true
    · rw [if_pos hl]
      by_cases hi : x.session.port = i
      · subst hi
        rw [hd.trans (if_pos ⟨rfl, hl⟩)]
        unfold Part.releasesInTurn
        dsimp only
        by_cases hf : (p.req x.session.port).respQ.length < 32 ∧ p.waits x.session.port = []
        · have hb : (p.respRoom x.session.port && (p.waits x.session.port).isEmpty) = true := by
            unfold Part.respRoom; rw [hf.2]; simpa using hf.1
          have ht : List.take (32 - (p.req x.session.port).respQ.length) [(Waiting.appendDone n, x.appendDone)]
              = [(.appendDone n, x.appendDone)] := List.take_of_length_le (by simp; omega)
          have hdr : List.drop (32 - (p.req x.session.port).respQ.length) [(Waiting.appendDone n, x.appendDone)] = [] :=
            List.drop_eq_nil_of_le (by simp; omega)
          rw [if_pos hb, if_pos hf.2, ht, hdr, queueDone_req _ hf.1, queueDone_waits]
          simp [Slot.appendDone]
        · have hb : ¬(p.respRoom x.session.port && (p.waits x.session.port).isEmpty) = true := by
            unfold Part.respRoom
            intro h
            rw [Bool.and_eq_true, decide_eq_true_iff, List.isEmpty_iff] at h
            exact hf h
          have hz : (if p.waits x.session.port = [] then 32 - (p.req x.session.port).respQ.length else 0) = 0 := by
            split
            · next h =>
              have : ¬(p.req x.session.port).respQ.length < 32 := fun y => hf ⟨y, h⟩
              omega
            · rfl
          rw [if_neg hb, hz, setWaits_waits_self]
          simp
      · rw [hd.trans (if_neg fun h => hi h.1)]
        split
        · refine releasesInTurn_nil ?_ (queueDone_waits _ _ _ _)
          unfold Part.queueDone Part.queueDeferred Part.leaveTag Part.queueResp
          rw [(freeSlot_changes _ _).req, modReq_req_ne _ _ _ hi, modReq_req_ne _ _ _ hi]
          split
          · exact modReq_req_ne _ _ _ hi
          · rfl
        · exact releasesInTurn_nil rfl (setWaits_waits_ne _ _ _ hi)
    · rw [if_neg hl, hd.trans (if_neg fun h => hl h.2)]
      exact releasesInTurn_nil ((freeSlot_changes _ _).req i) ((freeSlot_changes _ _).waits i)

theorem releaseSlot_who (p : Part) (n : SlotId) (k : Port) :
    ((p.releaseSlot n).req k).session.who = (p.req k).session.who := by
  cases hx : p.slot n with
  | none => unfold Part.releaseSlot; rw [hx]
  | some x => rcases releaseSlot_released hx with h | h <;> exact h.1.who k

/-- A release adds no other slot's APPEND_DONE to the waiting responses. -/
theorem releaseSlot_waits {n : SlotId} {w : Waiting} (h : w ∈ (p.releaseSlot n).waits i) :
    w ∈ p.waits i ∨ w = .appendDone n := by
  unfold Part.releaseSlot at h
  split at h
  · exact .inl h
  · next x _ =>
    split at h
    · split at h
      · rw [queueDone_waits] at h; exact .inl h
      · by_cases e : x.session.port = i
        · subst e
          rw [setWaits_waits_self, List.mem_append, List.mem_singleton] at h
          exact h
        · rw [setWaits_waits_ne _ _ _ e] at h; exact .inl h
    · rw [(freeSlot_changes _ _).waits] at h; exact .inl h

theorem releaseSlot_slot {n : SlotId} {x : Slot} (hx : p.slot n = some x) (hw : .appendDone n ∉ p.waits x.session.port) :
    (p.releaseSlot n).slot n
      = (p.slot n).filter fun y => p.live y.session && decide (.appendDone n ∈ (p.releaseSlot n).waits y.session.port) := by
  generalize hq : p.releaseSlot n = q
  unfold Part.releaseSlot at hq
  rw [hx] at hq ⊢
  dsimp only [Option.filter] at hq ⊢
  by_cases hl : p.live x.session = true
  · rw [if_pos hl] at hq
    split at hq
    · rw [← hq, queueDone_slot, if_pos rfl]
      simp [queueDone_waits, hw]
    · subst hq
      simp only [hl, setWaits_waits_self]
      change p.slot n = _
      simp [hx]
  · rw [if_neg hl] at hq
    rw [← hq, freeSlot_slot, if_pos rfl]
    simp [hl]

/-- The durable slots of a completion, released in turn (R44, R45): the APPEND_DONEs that go to each port, and the slots
that are left. -/
theorem foldl_releaseSlot_inTurn : ∀ ns : List SlotId, ns.Nodup → ∀ p : Part,
    (∀ n ∈ ns, ∃ x, p.slot n = some x ∧ .appendDone n ∉ p.waits x.session.port) →
    let q := ns.foldl Part.releaseSlot p
    (∀ i, p.releasesInTurn q i (p.donesTo i ns))
      ∧ (∀ n ∈ ns, q.slot n
          = (p.slot n).filter fun x => p.live x.session && decide (.appendDone n ∈ q.waits x.session.port))
      ∧ (∀ i n, .appendDone n ∈ q.waits i → .appendDone n ∈ p.waits i ∨ n ∈ ns)
      ∧ ∀ n, n ∉ ns → q.slot n = p.slot n := by
  intro ns
  induction ns with
  | nil => exact fun _ p _ => ⟨fun i => releasesInTurn_nil rfl rfl, by simp, fun _ _ h => .inl h, fun _ _ => rfl⟩
  | cons n ns ih =>
    intro hnd p hp
    obtain ⟨hn, hnd⟩ := List.nodup_cons.1 hnd
    have hwho := releaseSlot_who p n
    have hsl : ∀ m ∈ ns, (p.releaseSlot n).slot m = p.slot m := fun m hm => releaseSlot_other (ne_of_notMem hn hm)
    obtain ⟨h1, h2, h3, h4⟩ := ih hnd (p.releaseSlot n) (fun m hm => by
      obtain ⟨x, hx, hw⟩ := hp m (List.mem_cons_of_mem _ hm)
      refine ⟨x, (hsl m hm).trans hx, fun h => ?_⟩
      rcases releaseSlot_waits h with h | h
      · exact hw h
      · cases h; exact hn hm)
    dsimp only at h1 h2 h3 h4 ⊢
    rw [List.foldl_cons]
    refine ⟨fun i => ?_, fun m hm => ?_, fun i m h => ?_, fun m hm => ?_⟩
    · have he : p.donesTo i (n :: ns) = p.donesTo i [n] ++ (p.releaseSlot n).donesTo i ns := by
        have : (p.releaseSlot n).donesTo i ns = p.donesTo i ns := by
          unfold Part.donesTo
          refine List.filterMap_congr fun m hm => ?_
          rw [hsl m hm]
          simp only [live_congr hwho]
        rw [this]
        unfold Part.donesTo
        rw [← List.filterMap_append]
        rfl
      rw [he]
      exact releasesInTurn_append (releaseSlot_inTurn p n i) (h1 i)
    · rcases List.mem_cons.1 hm with e | hm
      · subst e
        obtain ⟨x, hx, hw⟩ := hp m List.mem_cons_self
        rw [h4 m hn, releaseSlot_slot hx hw, hx]
        dsimp only [Option.filter]
        congr 3
        refine decide_eq_decide.2 ⟨fun h => ?_, fun h => (h3 _ _ h).resolve_right hn⟩
        exact foldl_releaseSlot_grows ns _ h
      · rw [h2 m hm, hsl m hm]
        simp only [live_congr hwho]
    · rcases h3 i m h with h | h
      · rcases releaseSlot_waits h with h | h
        · exact .inl h
        · cases h; exact .inr List.mem_cons_self
      · exact .inr (List.mem_cons_of_mem _ h)
    · rw [List.mem_cons, not_or] at hm
      rw [h4 m hm.2, releaseSlot_other (Ne.symm hm.1)]

end

/-! ## The entry -/

section

/-- The pending trim stands aside from freed slots. -/
theorem freedEntry_trim (p : Part) (j : JournalId) (e : Journal) (c : Conf) (t : Option PendingTrim) (k : Nat) :
    ∃ d, (p.freedEntry j { e with conf := some c } k).conf = some d ∧ d.trim = c.trim ∧ d.head = c.head
      ∧ d.persistedHead = c.persistedHead ∧ d.durable = c.durable ∧ d.durableSeq = c.durableSeq ∧ d.subs = c.subs
      ∧ p.freedEntry j { e with conf := some { c with trim := t } } k
        = { p.freedEntry j { e with conf := some c } k with conf := some { d with trim := t } } := by
  have ht : Conf.completesAt { c with trim := t } k = c.completesAt k := rfl
  cases hk : c.completesAt k with
  | false =>
    rw [freedEntry_open p j (e := { e with conf := some c }) rfl hk,
      freedEntry_open p j (e := { e with conf := some { c with trim := t } }) rfl (ht.trans hk)]
    exact ⟨_, rfl, rfl, rfl, rfl, rfl, rfl, rfl, rfl⟩
  | true =>
    obtain ⟨o, tg, cl, ho⟩ := completesAt_own hk
    rw [freedEntry_done p j (e := { e with conf := some c }) rfl ho hk,
      freedEntry_done p j (e := { e with conf := some { c with trim := t } }) rfl ho (ht.trans hk)]
    exact ⟨_, rfl, rfl, rfl, rfl, rfl, rfl, rfl, rfl⟩

/-- So does the directory writer. -/
theorem freedEntry_dir (p : Part) (j : JournalId) (e : Journal) (w : DirWriter) (k : Nat) (hw : w.dirty = e.dir.dirty) :
    p.freedEntry j { e with dir := w } k
      = { p.freedEntry j e k with dir := { w with dirty := (p.freedEntry j e k).dir.dirty } } := by
  obtain ⟨conf, ep, wm, dir, bn, bf⟩ := e
  cases w
  cases hw
  cases conf with
  | none => rfl
  | some c =>
    unfold Part.freedEntry
    dsimp only
    split
    · split <;> rfl
    · rfl

theorem freedNtf_trim (p : Part) (j : JournalId) (e : Journal) (c : Conf) (w : DirWriter) (t : Option PendingTrim)
    (k : Nat) (i : Port) (hw : w.dirty = e.dir.dirty) :
    p.freedNtf j { e with conf := some c, dir := w } k i
      = p.freedNtf j { e with conf := some { c with trim := t } } k i := by
  obtain ⟨d, h1, _, _, _, _, _, _, h2⟩ := freedEntry_trim p j e c t k
  have h3 : (p.freedEntry j { e with conf := some c, dir := w } k).ownerEntry j
      = (p.freedEntry j { e with conf := some { c with trim := t } } k).ownerEntry j := by
    rw [h2, freedEntry_dir p j { e with conf := some c } w k hw]
    unfold Journal.ownerEntry Journal.state Journal.ownerTag
    dsimp only
    rw [h1]; rfl
  unfold Part.freedNtf
  rw [h3]
  rfl

theorem freedNtf_congr {p q : Part} (hs : ∀ k, (q.req k).session.who = (p.req k).session.who)
    (hd : q.maint.deferred = p.maint.deferred) (hn : ∀ k, q.ntf k = p.ntf k) (j : JournalId) (e : Journal)
    (k : Nat) (i : Port) :
    q.freedNtf j e k i = p.freedNtf j e k i := by
  unfold Part.freedNtf Part.handed
  rw [ownerGoesTo_congr hs, freedEntry_congr hs hd, hn, active_of_who (hs i)]

/-- Step 2 of R19. -/
theorem takeSnapshot_journal {p : Part} {j : JournalId} {c : Conf} {sn : Snapshot} (hc : (p.journal j).conf = some c)
    (hs : (p.journal j).dir.snapshot = some sn) :
    ∀ k, (p.takeSnapshot j).journal k = if j = k then { p.journal j with conf := some { c with
        persistedHead := (sn.conf.map SnapConf.head).getD c.persistedHead
        durable := (sn.conf.map SnapConf.frontier).getD c.durable
        durableSeq := (sn.conf.map SnapConf.frontierSeq).getD c.durableSeq } } else p.journal k := by
  intro k
  unfold Part.takeSnapshot
  rw [hs]
  obtain ⟨ep, sc⟩ := sn
  cases sc with
  | none =>
    dsimp only
    by_cases h : j = k
    · subst h; rw [if_pos rfl]
      show p.journal j = { p.journal j with conf := some c }
      rw [← hc]
    · rw [if_neg h]
  | some x =>
    dsimp only
    by_cases h : j = k
    · subst h; rw [if_pos rfl, modConf_journal_self, hc]; rfl
    · rw [if_neg h, modConf_journal_ne _ _ _ h]

/-- Step 4 of R19. -/
theorem notifyFrontier_ntf (p : Part) (j : JournalId) (b : W64) {c : Conf} (hc : (p.journal j).conf = some c) (k : Port) :
    (p.notifyFrontier j b).ntf k
      = if b.toNat < c.durable.toNat ∧ k ∈ c.subs then p.handed k (.frontier j (c.durableSeq - 1) c.durable)
        else p.ntf k := by
  unfold Part.notifyFrontier
  rw [hc]; dsimp only
  by_cases h : b.toNat < c.durable.toNat
  · rw [if_pos h, notifyAll_ntf _ _ (allPorts_nodup.filter _)]
    simp [mem_allPorts k, h]
  · rw [if_neg h]; simp [h]

/-- The write that a start hands (R18). -/
theorem startWrite_mem (p : Part) (j : JournalId) :
    (p.startWrite (.journal j)).mem = if (p.journal j).dir.dirty && !(p.journal j).dir.inFlight then
      p.memAfter [directoryWrite (.dirWriter (.journal j)) (.journal j) (otherCopy (p.journal j).dir.newest)
        (entryBytes j (p.journal j).snap ((p.journal j).dir.gen + 1))] else p.mem := by
  unfold Part.startWrite
  dsimp only
  change Part.mem (if (p.journal j).dir.dirty && !(p.journal j).dir.inFlight then _ else _) = _
  split
  · rw [hand_mem]; rfl
  · rfl

end

end Sys2Proof.Machine
end

