-- ==== Sys2Proof/Laws/React.lean ====
section
/-! SUPPORT. The end of an event, case by case: which of FORMAT, the end of a cold start, the end of a restore and the drain
order it carries out, by what the part was before. -/

namespace Sys2Proof.Machine

set_option Elab.async false

section
variable (p : Part)

/-! ## The tests of what is due, as propositions -/

theorem unused_iff : p.unused ↔
    ((allSlots.all fun n => (p.slot n).isNone)
      && (allJournals.all fun j => !(p.journal j).conf.any fun c => c.trim.isSome)) = true := by
  simp only [Bool.and_eq_true, List.all_eq_true, Bool.not_eq_true', Option.isNone_iff_eq_none]
  refine and_congr ⟨fun h n _ => h n, fun h n => h n (mem_allSlots n)⟩ ⟨fun h j _ => ?_, fun h j c hc => ?_⟩
  · cases hc : (p.journal j).conf with
    | none => rfl
    | some c => rw [Option.any_some, h j c hc]; rfl
  · have := h j (mem_allJournals j)
    rw [hc, Option.any_some] at this
    cases ht : c.trim with
    | none => rfl
    | some t => rw [ht] at this; cases this

theorem directoryClean_iff : p.directoryClean = true ↔ p.clean := by
  unfold Part.directoryClean
  simp only [Bool.and_eq_true, List.all_eq_true, Bool.not_eq_true']
  exact ⟨fun h i => h i (mem_allItems i), fun h i _ => h i⟩

theorem copiesDone_iff : p.copiesDone = true ↔ ∀ i, (p.dirOf i).copiesLeft = 0 := by
  unfold Part.copiesDone
  simp only [List.all_eq_true, decide_eq_true_iff]
  exact ⟨fun h i => h i (mem_allItems i), fun h i _ => h i⟩

theorem formatDue_iff : p.formatDue = true ↔
    p.formatPending = true ∧ p.unused ∧ ∀ i, (p.dirOf i).inFlight = false := by
  have hu := unused_iff p
  unfold Part.formatDue
  rw [Bool.and_assoc p.formatPending, Bool.and_eq_true, Bool.and_eq_true, ← hu, List.all_eq_true, and_assoc]
  refine and_congr Iff.rfl (and_congr Iff.rfl ⟨fun h i => ?_, fun h i _ => ?_⟩)
  · simpa using h i (mem_allItems i)
  · rw [h i]; rfl

theorem coldDue_iff : p.coldDue = true ↔ p.coldReady := by
  unfold Part.coldDue
  simp only [Bool.and_eq_true, decide_eq_true_iff, Bool.not_eq_true', copiesDone_iff, and_assoc]

theorem restoreDue_iff : p.restoreDue = true ↔ p.restoreReady := by
  unfold Part.restoreDue
  simp only [Bool.and_eq_true, Bool.or_eq_true, decide_eq_true_iff, Bool.not_eq_true', directoryClean_iff, and_assoc,
    List.all_eq_true]
  refine and_congr Iff.rfl (and_congr Iff.rfl (and_congr Iff.rfl (and_congr ⟨fun h j => ?_, fun h j _ => ?_⟩ Iff.rfl)))
  · exact h j (mem_allJournals j)
  · exact h j

theorem drained_iff : p.drained = true ↔
    (∀ i, (p.req i).session.active = false) ∧ p.unused ∧ p.formatPending = false ∧ p.clean ∧ p.mem.queue = [] := by
  have hu := unused_iff p
  unfold Part.drained
  rw [Bool.and_assoc (allPorts.all _), Bool.and_eq_true, Bool.and_eq_true, Bool.and_eq_true, Bool.and_eq_true, ← hu,
    directoryClean_iff, List.isEmpty_iff, Bool.not_eq_true', List.all_eq_true, and_assoc, and_assoc, and_assoc]
  refine and_congr ⟨fun h i => ?_, fun h i _ => ?_⟩ Iff.rfl
  · simpa using h i (mem_allPorts i)
  · rw [h i]; rfl

theorem drainDue_iff : p.drainDue = true ↔ p.drainReady := by
  unfold Part.drainDue Part.drainReady
  simp only [Bool.and_eq_true, decide_eq_true_iff, Bool.not_eq_true', drained_iff, and_assoc]

/-! ## The same after the directory writes have started -/

theorem startWrites_of_clean {p : Part} (h : p.clean) : p.startWrites = p := by
  unfold Part.startWrites
  have hs : ∀ l : List Item, l.foldl Part.startWrite p = p := by
    intro l
    induction l with
    | nil => rfl
    | cons a l ih =>
      rw [List.foldl_cons, startWrite_idle p (by unfold Part.dirDue; rw [(h a).1]; rfl)]
      exact ih
  exact hs _

/-- What the start of a write leaves of a writer: a write that was in flight stays so, and a dirty one ends up in flight. -/
theorem startWrite_dirOf (i k : Item) :
    ((p.startWrite i).dirOf k).inFlight = ((p.dirOf k).inFlight || (p.dirOf k).dirty && decide (i = k))
      ∧ ((p.startWrite i).dirOf k).copiesLeft = (p.dirOf k).copiesLeft
      ∧ ((p.startWrite i).dirOf k).dirty = ((p.dirOf k).dirty && !(decide (i = k) && !(p.dirOf k).inFlight)) := by
  have hb : ∀ (q : Part), (q.bindFlight i).dirOf k = q.dirOf k := by
    intro q
    cases i with
    | header => rfl
    | journal j =>
      cases k with
      | header => rfl
      | journal m =>
        by_cases h : j = m
        · subst h; exact (congrArg Journal.dir (modJournal_journal_self q j _)).trans rfl
        · exact congrArg Journal.dir (modJournal_journal_ne q j _ h)
  unfold Part.startWrite
  dsimp only
  split
  · next hd =>
    rw [Bool.and_eq_true, Bool.not_eq_true'] at hd
    rw [(hand_noRead_changes _ rfl).dirOf, hb]
    by_cases h : i = k
    · subst h
      rw [dirOf_modDir_self]
      simp [hd.1, hd.2]
    · rw [dirOf_modDir_ne p h]; simp [h]
  · next hd =>
    by_cases h : i = k
    · subst h
      cases h1 : (p.dirOf i).dirty <;> cases h2 : (p.dirOf i).inFlight <;> simp_all
    · simp [h]

theorem startWrites_dirOf (k : Item) :
    (p.startWrites.dirOf k).inFlight = ((p.dirOf k).inFlight || (p.dirOf k).dirty)
      ∧ (p.startWrites.dirOf k).copiesLeft = (p.dirOf k).copiesLeft := by
  have hl : ∀ (l : List Item) (p : Part),
      ((l.foldl Part.startWrite p).dirOf k).inFlight = ((p.dirOf k).inFlight || (p.dirOf k).dirty && decide (k ∈ l))
        ∧ ((l.foldl Part.startWrite p).dirOf k).copiesLeft = (p.dirOf k).copiesLeft := by
    intro l
    induction l with
    | nil => intro p; simp
    | cons a l ih =>
      intro p
      obtain ⟨h1, h2⟩ := ih (p.startWrite a)
      obtain ⟨g1, g2, g3⟩ := startWrite_dirOf p a k
      rw [List.foldl_cons, h1, h2, g1, g2, g3]
      refine ⟨?_, rfl⟩
      by_cases h : a = k
      · subst h; cases (p.dirOf a).inFlight <;> cases (p.dirOf a).dirty <;> simp
      · have hk : k ≠ a := fun e => h e.symm
        cases (p.dirOf k).inFlight <;> cases (p.dirOf k).dirty <;> simp [h, hk]
  have := hl allItems p
  rw [decide_eq_true (mem_allItems k), Bool.and_true] at this
  exact this

theorem startWrites_clean_iff : p.startWrites.clean ↔ p.clean := by
  refine ⟨fun h i => ?_, fun h => by rw [startWrites_of_clean h]; exact h⟩
  have := (h i).2
  rw [(startWrites_dirOf p i).1, Bool.or_eq_false_iff] at this
  exact ⟨this.2, this.1⟩

theorem startWrites_unused_iff : p.startWrites.unused ↔ p.unused := by
  refine and_congr (forall_congr' fun n => by rw [(startWrites_changes p).slot]) (forall_congr' fun j => ?_)
  rw [startWrites_journal, started_conf]

theorem startWrites_formatDue : p.startWrites.formatDue = true ↔ p.formatReady := by
  rw [formatDue_iff, startWrites_unused_iff, (startWrites_changes p).formatPending]
  refine and_congr Iff.rfl (and_congr Iff.rfl (forall_congr' fun i => ?_))
  rw [(startWrites_dirOf p i).1, Bool.or_eq_false_iff, and_comm]

theorem startWrites_coldDue : p.startWrites.coldDue = true ↔ p.coldReady := by
  rw [coldDue_iff]
  unfold Part.coldReady
  simp only [(startWrites_changes p).ret, (startWrites_changes p).ctl, (startWrites_dirOf p _).2]

theorem startWrites_restoreDue : p.startWrites.restoreDue = true ↔ p.restoreReady := by
  rw [restoreDue_iff]
  unfold Part.restoreReady
  simp only [(startWrites_changes p).ret, (startWrites_changes p).ctl, startWrites_clean_iff]

theorem startWrites_drainDue : p.startWrites.drainDue = true ↔ p.drainReady := by
  rw [drainDue_iff]
  unfold Part.drainReady
  simp only [(startWrites_changes p).ret, (startWrites_changes p).ctl, startWrites_clean_iff, startWrites_unused_iff,
    (startWrites_changes p).formatPending, (startWrites_changes p).req]
  refine ⟨fun h => ?_, fun h => ?_⟩
  · rw [startWrites_of_clean h.2.2.2.2.2.1] at h; exact h
  · rw [startWrites_of_clean h.2.2.2.2.2.1]; exact h

/-! ## What the end of an event is -/

theorem formatItem_copiesLeft (i k : Item) :
    ((p.formatItem i).dirOf k).copiesLeft = if i = k then 2 else (p.dirOf k).copiesLeft := by
  unfold Part.formatItem
  dsimp only
  rw [(hand_noRead_changes _ rfl).dirOf, (hand_noRead_changes _ rfl).dirOf]
  by_cases h : i = k
  · subst h; rw [dirOf_modDir_self, if_pos rfl]
  · rw [dirOf_modDir_ne p h, if_neg h]

/-- FORMAT carried out leaves writes to complete, so that neither a cold start, a restore nor a drain can end with it. -/
theorem formatNow_notReady : ¬p.formatNow.coldReady ∧ ¬p.formatNow.restoreReady ∧ ¬p.formatNow.drainReady := by
  have hc : ∀ (l : List Item) (p : Part), Item.header ∈ l → ((l.foldl Part.formatItem p).dirOf .header).copiesLeft = 2 := by
    have hk : ∀ (l : List Item) (p : Part), (p.dirOf .header).copiesLeft = 2 →
        ((l.foldl Part.formatItem p).dirOf .header).copiesLeft = 2 := by
      intro l
      induction l with
      | nil => intro p h; exact h
      | cons a l ih =>
        intro p h
        exact ih _ (by rw [formatItem_copiesLeft]; split <;> first | rfl | exact h)
    intro l
    induction l with
    | nil => intro p h; cases h
    | cons a l ih =>
      intro p h
      by_cases ha : a = .header
      · exact hk l _ (by rw [formatItem_copiesLeft, if_pos ha])
      · exact ih _ ((List.mem_cons.1 h).resolve_left (Ne.symm ha))
  have h2 : (p.formatNow.dirOf .header).copiesLeft = 2 := by
    have hm := mem_allItems .header
    unfold Part.formatNow
    dsimp only
    generalize allItems = items at hm
    generalize allJournals = js
    exact hc _ _ hm
  have hf := formatNow_inFlight p .header
  refine ⟨fun h => ?_, fun h => ?_, fun h => ?_⟩
  · rw [h.2.2.2 .header] at h2; cases h2
  · rw [(h.2.2.2.2 .header).2] at hf; cases hf
  · rw [(h.2.2.2.2.2.1 .header).2] at hf; cases hf

theorem check_of_not {p q : Part} {b : Bool} {P : Prop} (hb : b = true ↔ P) (h : ¬P) : (if b then q else p) = p :=
  if_neg fun e => h (hb.1 e)

/-- The end of an event in which nothing but directory writes is due. -/
theorem react_writes {p : Part} (h1 : ¬p.formatReady) (h2 : ¬p.coldReady) (h3 : ¬p.restoreReady) (h4 : ¬p.drainReady) :
    p.react = p.startWrites := by
  unfold Part.react
  rw [Part.formatCheck, check_of_not (startWrites_formatDue p) h1, Part.coldCheck,
    check_of_not (startWrites_coldDue p) h2, Part.restoreCheck, check_of_not (startWrites_restoreDue p) h3,
    Part.drainCheck, check_of_not (startWrites_drainDue p) h4]

/-- The end of an event in which a FORMAT is due. -/
theorem react_format {p : Part} (h : p.formatReady) : p.react = p.formatNow := by
  obtain ⟨h2, h3, h4⟩ := formatNow_notReady p
  unfold Part.react
  rw [Part.formatCheck, if_pos ((startWrites_formatDue p).2 h), startWrites_of_clean h.2.2, Part.coldCheck,
    check_of_not (coldDue_iff _) h2, Part.restoreCheck, check_of_not (restoreDue_iff _) h3, Part.drainCheck,
    check_of_not (drainDue_iff _) h4]

/-- In SERVING neither a restore ends nor a drain order is given. -/
theorem serving_checks {p : Part} (h : p.ret.mode = .serving) : p.restoreCheck.drainCheck = p := by
  rw [Part.restoreCheck, restoreDue_mode (by rw [h]; decide)]
  rw [if_neg (by decide), Part.drainCheck, drainDue_mode (by rw [h]; decide)]
  rfl

/-- The end of an event in which a cold start ends. -/
theorem react_cold {p : Part} (h : p.coldReady) (hf : ¬p.formatReady) : p.react = p.startWrites.coldDone := by
  unfold Part.react
  rw [Part.formatCheck, check_of_not (startWrites_formatDue p) hf, Part.coldCheck, if_pos ((startWrites_coldDue p).2 h)]
  exact serving_checks (coldDone_mode _)

/-- The end of an event in which a restore ends. -/
theorem react_restore {p : Part} (h : p.restoreReady) (hf : ¬p.formatReady) : p.react = p.restoreDone := by
  have hc : ¬p.coldReady := fun c => by have := h.1; rw [c.1] at this; cases this
  unfold Part.react
  rw [Part.formatCheck, check_of_not (startWrites_formatDue p) hf, Part.coldCheck,
    check_of_not (startWrites_coldDue p) hc, Part.restoreCheck, if_pos ((startWrites_restoreDue p).2 h),
    startWrites_of_clean h.2.2.2.2, Part.drainCheck, drainDue_mode (by rw [restoreDone_mode]; decide)]
  rfl

/-- The end of an event in which the drain condition holds. -/
theorem react_drain {p : Part} (h : p.drainReady) :
    p.react = (p.modCtl fun c => { c with drainOrdered := true }).giveEntry := by
  have hf : ¬p.formatReady := fun f => by have := h.2.2.2.2.1; rw [f.1] at this; cases this
  have hc : ¬p.coldReady := fun c => by have := h.1; rw [c.1] at this; cases this
  have hr : ¬p.restoreReady := fun c => by have := h.1; rw [c.1] at this; cases this
  unfold Part.react
  rw [Part.formatCheck, check_of_not (startWrites_formatDue p) hf, Part.coldCheck,
    check_of_not (startWrites_coldDue p) hc, Part.restoreCheck, check_of_not (startWrites_restoreDue p) hr,
    Part.drainCheck, if_pos ((startWrites_drainDue p).2 h), startWrites_of_clean h.2.2.2.2.2.1]

end

end Sys2Proof.Machine
end

