-- ==== Sys2Proof/Laws/Starts.lean ====
section
/-! SUPPORT. The accesses that the directory writes started at the end of an event hand to the memory engine (R18, log 41). -/

namespace Sys2Proof.Machine

set_option Elab.async false

section
variable (p : Part)

theorem toList_map_get {α β : Type} (v : Vector α 8) (f : α → β) : v.toList.map f = allJournals.map fun j => f (v.get j) := by
  obtain ⟨⟨l⟩, h⟩ := v
  match l, h with
  | [_, _, _, _, _, _, _, _], _ => rfl

theorem watermarks_eq : p.watermarks = allJournals.map fun j => (p.journal j).watermark := toList_map_get _ _

theorem dirWrite_eq (i : Item) :
    directoryWrite (.dirWriter i) i (otherCopy (p.dirOf i).newest) (p.itemBytes i ((p.dirOf i).gen + 1)) = p.dirWrite i := by
  unfold directoryWrite Part.dirWrite itemAddr
  cases (p.dirOf i).newest <;> rfl

theorem bindFlight_modDir_changes (i : Item) (f : DirWriter → DirWriter) :
    Part.Changes [.journals, .header] p ((p.modDir i f).bindFlight i) := by
  cases i with
  | journal j =>
    refine ((modJournal_changes p j _).trans (modJournal_changes _ j _)).mono ?_
    decide
  | header => exact (modHeader_changes p _).mono

/-- A write that is due hands its access (R18). -/
theorem startWrite_hands (i : Item) : (p.startWrite i).mem = if p.dirDue i then p.memAfter [p.dirWrite i] else p.mem := by
  unfold Part.startWrite
  dsimp only
  change Part.mem (if p.dirDue i = true then _ else _) = _
  have hc := bindFlight_modDir_changes p i
  split
  · rw [hand_mem, dirWrite_eq]
    unfold Part.memAfter
    rw [(hc _).mem, (hc _).maint]
  · rfl

theorem startWrite_dirOf_ne {i k : Item} (h : i ≠ k) : (p.startWrite i).dirOf k = p.dirOf k := by
  cases k with
  | journal j => exact congrArg Journal.dir (startWrite_journal_ne p h)
  | header =>
    cases i with
    | header => exact absurd rfl h
    | journal j =>
      unfold Part.startWrite
      dsimp only
      split
      · rw [(hand_noRead_changes _ rfl).dirOf]; rfl
      · rfl

theorem startWrite_layoutGen (i : Item) : (p.startWrite i).header.layoutGen = p.header.layoutGen := by
  unfold Part.startWrite
  dsimp only
  split
  · rw [(hand_noRead_changes _ rfl).header]
    cases i <;> rfl
  · rfl

theorem startWrite_watermark (i : Item) (j : JournalId) :
    ((p.startWrite i).journal j).watermark = (p.journal j).watermark := by
  by_cases h : i = .journal j
  · subst h; rw [startWrite_journal_self, started_watermark]
  · rw [startWrite_journal_ne p h]

/-- The start of one item's write leaves the write of another as it was. -/
theorem startWrite_dirWrite_ne {i k : Item} (h : i ≠ k) : (p.startWrite i).dirWrite k = p.dirWrite k := by
  unfold Part.dirWrite
  rw [startWrite_dirOf_ne p h]
  cases k with
  | journal j =>
    unfold Part.itemBytes
    dsimp only
    rw [startWrite_journal_ne p h]
  | header =>
    unfold Part.itemBytes
    dsimp only
    rw [startWrite_layoutGen, watermarks_eq, watermarks_eq, (startWrite_changes p i).maint]
    simp only [startWrite_watermark]

/-- Writes started in turn hand the accesses of those that are due. -/
theorem foldl_startWrite_mem (l : List Item) (hl : l.Nodup) : ∀ p : Part,
    (l.foldl Part.startWrite p).mem = p.memAfter ((l.filter p.dirDue).map p.dirWrite) := by
  induction l with
  | nil => intro p; rfl
  | cons a l ih =>
    intro p
    obtain ⟨ha, hl⟩ := List.nodup_cons.1 hl
    rw [List.foldl_cons, ih hl]
    have e1 : l.filter (p.startWrite a).dirDue = l.filter p.dirDue := by
      refine List.filter_congr fun x hx => ?_
      have : a ≠ x := fun e => ha (e ▸ hx)
      rw [startWrite_dirDue]; simp [this]
    have e2 : (l.filter p.dirDue).map (p.startWrite a).dirWrite = (l.filter p.dirDue).map p.dirWrite :=
      List.map_congr_left fun x hx => startWrite_dirWrite_ne p fun e => ha (e ▸ (List.mem_filter.1 hx).1)
    rw [e1, e2]
    unfold Part.memAfter
    rw [startWrite_hands, (startWrite_changes p a).maint]
    by_cases h : p.dirDue a = true
    · rw [if_pos h, List.filter_cons_of_pos h]
      rfl
    · rw [if_neg h, List.filter_cons_of_neg h]

theorem startWrites_mem : p.startWrites.mem = p.memAfter ((itemsInOrder.filter p.dirDue).map p.dirWrite) :=
  foldl_startWrite_mem allItems (by decide) p

/-- The start of a journal's write leaves the bytes that the write has. -/
theorem startWrites_dirWrite (j : JournalId) : p.startWrites.dirWrite (.journal j) = p.dirWrite (.journal j) := by
  have hd : ∀ q : Part, q.dirOf (.journal j) = (q.journal j).dir := fun _ => rfl
  have e : ∀ e : Journal, e.started.dir.newest = e.dir.newest ∧ e.started.dir.gen = e.dir.gen ∧ e.started.snap = e.snap := by
    intro e
    unfold Journal.started
    split <;> exact ⟨rfl, rfl, rfl⟩
  unfold Part.dirWrite Part.itemBytes
  simp only [hd, startWrites_journal, (e _).1, (e _).2.1, (e _).2.2]

end

/-- The end of an event in SERVING that has left journal j dirty where nothing was due before: its write starts, or waits
for the one in flight. -/
theorem react_dirtied_mem {p q : Part} {j : JournalId} (hq : p.quiet = true) (hr : p.ret.running = true)
    (hm : q.ret.mode = .serving) (hd : (q.journal j).dir.dirty = true) (hj : ∀ k, k ≠ j → q.journal k = p.journal k)
    (hh : q.header = p.header) :
    q.react.mem = q.memAfter (if (q.journal j).dir.inFlight then [] else [q.react.dirWrite (.journal j)]) := by
  have hdue : ∀ i, i ≠ .journal j → q.dirDue i = false := by
    intro i hi
    have h := nothingDue_of_quiet hq hr
    unfold Part.nothingDue at h
    simp only [Bool.and_eq_true, List.all_eq_true, Bool.not_eq_true'] at h
    have h := h.1.1.1.1 i (mem_allItems i)
    have he : q.dirOf i = p.dirOf i := by
      cases i with
      | journal k => exact congrArg Journal.dir (hj k fun e => hi (e ▸ rfl))
      | header => exact congrArg DeviceHeader.dir hh
    unfold Part.dirDue
    rw [he]
    exact h
  have hf : itemsInOrder.filter q.dirDue = if (q.journal j).dir.inFlight then [] else [.journal j] := by
    have hs : q.dirDue (.journal j) = !(q.journal j).dir.inFlight := by
      unfold Part.dirDue
      change ((q.journal j).dir.dirty && !(q.journal j).dir.inFlight) = _
      rw [hd, Bool.true_and]
    have : ∀ l : List Item, l.Nodup → l.filter q.dirDue
        = if (q.journal j).dir.inFlight then [] else if .journal j ∈ l then [.journal j] else [] := by
      intro l
      induction l with
      | nil => intro _; simp
      | cons a l ih =>
        intro hl
        obtain ⟨ha, hl'⟩ := List.nodup_cons.1 hl
        by_cases e : a = .journal j
        · subst e
          cases hb : (q.journal j).dir.inFlight with
          | true => rw [List.filter_cons_of_neg (by rw [hs, hb]; decide), ih hl', hb]; rfl
          | false =>
            rw [List.filter_cons_of_pos (by rw [hs, hb]; rfl), ih hl', hb]
            simp [ha]
        · rw [List.filter_cons_of_neg (by rw [hdue a e]; decide), ih hl']
          have : (Item.journal j = a) = False := eq_false (Ne.symm e)
          simp [this]
    have hmem : Item.journal j ∈ itemsInOrder := mem_allItems (.journal j)
    rw [this _ (by decide), if_pos hmem]
  rw [react_dirtied hm hd, startWrites_mem, startWrites_dirWrite, hf]
  split <;> rfl

end Sys2Proof.Machine
end

