-- ==== Sys2Proof/Laws/Steps.lean ====
section
/-! SUPPORT. What a step can do: it carries out a command on the part as it is, or it moves the present SPI transaction on,
or it leaves the part as it was. -/

namespace Sys2Proof.Machine

set_option Elab.async false

/-- The part with the present SPI transaction moved on (R176). -/
abbrev Part.moved (p : Part) (x : SpiProgress) (response : List Byte) : Part :=
  p.modMaint fun m => { m with spi := x, response := response }

/-- `t` comes of a part that is `s`'s by a command or by a move of the SPI transaction. -/
def State.comesTo (s t : State) : Prop :=
  (∃ c u, u.part = s.part ∧ exec c u = .next t) ∨ ∃ x response, t.part = s.part.moved x response

theorem spiEvent_next {s t : State} (e : SpiEvent) (h : s.spiEvent e = .next t) : s.comesTo t := by
  have same : s.comesTo s := .inr ⟨s.part.maint.spi, s.part.maint.response, rfl⟩
  cases e with
  | fall =>
    cases h
    split
    · exact .inr ⟨_, _, rfl⟩
    · exact same
  | clock b =>
    simp only [State.spiEvent, State.spiClock] at h
    split at h
    · split at h
      · cases h; exact .inr ⟨_, _, rfl⟩
      · unfold State.received at h
        split at h
        · cases h; exact .inr ⟨_, _, rfl⟩
        · exact .inl ⟨_, s.returnByte, rfl, h⟩
      · cases h; exact .inr ⟨_, _, rfl⟩
    · cases h; exact .inr ⟨s.part.maint.spi, s.part.maint.response, rfl⟩
  | rise =>
    simp only [State.spiEvent, State.spiRise] at h
    split at h
    · split at h
      · cases h; exact same
      · exact .inl ⟨_, _, rfl, h⟩
      · cases h; exact .inr ⟨_, _, rfl⟩
    · cases h; exact same

/-- A step that answers a next state carries out a command on the part as it is, or moves the SPI transaction on. -/
theorem step_next {s t : State} (h : step s = .next t) : s.comesTo t := by
  unfold step at h
  split at h
  · split at h
    · cases h; exact .inr ⟨s.part.maint.spi, s.part.maint.response, rfl⟩
    · next rest _ => exact spiEvent_next (s := { s with pins := { s.pins with wire := rest } }) _ h
  · next rest _ => exact .inl ⟨_, { s with pending := rest }, rfl, h⟩

/-! ## A moved SPI transaction is no concern of the invariants -/

theorem moved_sound (p : Part) (x : SpiProgress) (r : List Byte) : (p.moved x r).sound ↔ p.sound := Iff.rfl

theorem moved_tablesSound (p : Part) (x : SpiProgress) (r : List Byte) : (p.moved x r).tablesSound ↔ p.tablesSound :=
  Iff.rfl

theorem moved_quiet (p : Part) (x : SpiProgress) (r : List Byte) : (p.moved x r).quiet = p.quiet := rfl

/-- What every command keeps, and no move of the SPI transaction breaks, every step keeps. -/
theorem step_keeps {Inv : Part → Prop} (hc : ∀ c s t, Inv s.part → exec c s = .next t → Inv t.part)
    (hm : ∀ p x r, Inv p → Inv (p.moved x r)) {s t : State} (hs : Inv s.part) (h : step s = .next t) : Inv t.part := by
  rcases step_next h with ⟨c, u, hu, hx⟩ | ⟨x, r, hx⟩
  · exact hc c u t (hu ▸ hs) hx
  · rw [hx]; exact hm _ _ _ hs

end Sys2Proof.Machine
end

