-- ==== Sys2Proof/Tests/Slice0.lean ====
section
/-! SUPPORT. Tests: the smoke test of the checks, known values of the two CRCs and of encodings, one step of small
states, and for each statement with hypotheses a concrete state and operands that meet them, clause by clause. -/

set_option Elab.async false
set_option linter.all false
set_option synthInstance.maxHeartbeats 400000
set_option synthInstance.maxSize 2000

open Sys2Proof Sys2Proof.Machine

namespace Sys2Proof.Tests

/-! ## Small states -/

/-- A part in SERVING with nothing configured and no session. -/
def base : Part :=
  { ret := { Retention.reset with mode := .serving }
    header := { layoutGen := some 0 }
    mem := { cond := .active, refreshTimer := true } }

def inMode (p : Part) (m : Mode) : Part := p.modRet fun r => { r with mode := m }

/-- Port i with an ACTIVE session of generation 1. -/
def attached (p : Part) (i : Port) (tag : W32) : Part :=
  p.modReq i fun r => { r with session := { active := true, tag := some tag, gen := 1 } }

def withReq (p : Part) (i : Port) (payload : List Byte) : Part :=
  p.modReq i fun r => { r with buffer := [⟨false, payload⟩] }

def withData (p : Part) (i : Port) (payload : List Byte) : Part :=
  p.modReq i fun r => { r with buffer := [⟨true, payload⟩] }

def withTags (p : Part) (i : Port) (tags : List Byte) : Part := p.modReq i fun r => { r with tags := tags }

/-- A region of 16 segments from segment 1, as SET_LAYOUT leaves it. -/
def conf0 : Conf := freshConf 1 16

/-- The same with 64 bytes appended and durable. -/
def conf1 : Conf :=
  { conf0 with durable := 64, frontier := 64, reserve := 64, nextSeq := 2, frontierSeq := 2, durableSeq := 2 }

def withConf (p : Part) (j : JournalId) (c : Conf) : Part := p.modJournal j fun e => { e with conf := some c }

def withEpoch (p : Part) (j : JournalId) (v : W32) : Part := p.modJournal j fun e => { e with epoch := v }

def sid (i : Port) : SessionId := ⟨i, 1⟩

def ownedBy (i : Port) (c : Conf) : Conf := { c with own := .owned (sid i) 5 }

/-- A slot of a 32-byte record at position 0 of journal 0. -/
def slot0 (i : Port) : Slot :=
  { state := .receiving, session := sid i, reqTag := 9, journal := 0, epoch := 0, seq := 1, position := 0, length := 32
    occupancy := 64, received := 0, carry := [], check := 0xFFFFFFFF#32, declared := 0, recordTag := 0, outstanding := 0
    idle := some 20, outcome := none, reason := none }

def withSlot (p : Part) (n : SlotId) (x : Slot) : Part := p.setSlot n (some x)

def withOp (p : Part) (o : Op) : Part := p.modMem fun m => { m with op := some o }

def running (a : Access) (p : Part) : Part := withOp p (.access a)

def state (p : Part) : State := { pending := [], part := p }

/-- A part in SERVING with a session on port 0 and journal 0 configured. -/
def one (c : Conf) : Part := withConf (attached base 0 5) 0 c

/-! ## Well-formedness and encodings -/

theorem test_wellFormed_refuses_long_payload :
    (Instr.goodSequencedFrame 0 .req ⟨0, 0, false, 0⟩ (zeros 513)).wellFormed = false := by decide +kernel

theorem test_wellFormed_accepts_longest_payload :
    (Instr.goodSequencedFrame 0 .req ⟨0, 0, false, 0⟩ (zeros 512)).wellFormed = true := by decide +kernel

theorem test_wellFormed_refuses_known_command_byte : (Instr.badCommand 0x01).wellFormed = false := by decide

theorem test_wellFormed_accepts_unknown_command_bytes :
    (Instr.badCommand 0x00).wellFormed = true ∧ (Instr.badCommand 0x0E).wellFormed = true := by decide

theorem test_wellFormed_refuses_whole_transaction :
    (Instr.spiCutShort [0x02, 0x00]).wellFormed = false ∧ (Instr.spiCutShort [0x01]).wellFormed = false := by decide

theorem test_wellFormed_accepts_cut_transactions :
    (Instr.spiCutShort []).wellFormed = true ∧ (Instr.spiCutShort [0x02]).wellFormed = true := by decide

/-- No row of the table gives bits: no word spells a command. -/
theorem test_no_word_spells_a_command : decodeTableWord 16 0 = none ∧ State.reset.withFetchWord 16 0 = State.reset :=
  ⟨rfl, rfl⟩

/-- The nine bytes 31h to 39h. -/
def nine : List Byte := [0x31, 0x32, 0x33, 0x34, 0x35, 0x36, 0x37, 0x38, 0x39]

theorem test_crc16_check_value : crc16 nine = 0x29B1#16 := by decide +kernel

theorem test_crc32_check_value : crc32 nine = 0xCBF43926#32 := by decide +kernel

/-- An IDLE frame of UP, byte for byte: type, sequence 5, acknowledgement 63, NAK with credit 8, length 0, check. -/
theorem test_idle_frame_bytes :
    (frameBytes 0x00 5 63 true 8 []).take 6 = [0x00, 0x05, 0x3F, 0x88, 0x00, 0x00] := by decide +kernel

theorem test_record_header_bytes :
    (slot0 0).header.take 24 =
      [1, 1, 0, 0, 1, 0, 0, 0, 32, 0, 0, 0, 0, 0, 0, 0, 0, 0, 0, 0, 0, 0, 0, 0] ∧ (slot0 0).header.length = 32 := by
  decide +kernel

theorem test_pad_header_bytes :
    (padHeader 2 7 64 96).take 12 = [3, 1, 2, 0, 0xFF, 0xFF, 0xFF, 0xFF, 64, 0, 0, 0] := by decide +kernel

theorem test_copies_lie_where_table_puts_them :
    itemAddr .header .a = 0 ∧ itemAddr .header .b = 0x1000 ∧ itemAddr (.journal 0) .a = 0x40
      ∧ itemAddr (.journal 7) .b = 0x1200 := by decide

/-- Two copies a generation apart: the newer one is chosen, across the wrap too; else copy A (R170). -/
theorem test_newer_copy_is_chosen :
    newerGen 0 0xFFFFFFFF#32 = true ∧ newerGen 5 5 = false ∧ newerGen 0x7FFFFFFF 0 = true
      ∧ newerGen 0x80000000#32 0 = false := by decide

/-! ## Witnesses: the machine -/

/-- An empty queue with nothing on the pins, and with a fall of chip select. -/
theorem witness_EmptyQueueLeavesThePins :
    ({} : SpiPins).wire = [] ∧ ({ wire := [.fall] } : SpiPins).wire = [.fall] := ⟨rfl, rfl⟩

theorem witness_CommandsKeepTheQueue : ∃ t, exec .readStatus { pending := [.format], part := base } = .next t := ⟨_, rfl⟩

/-- The first clause and the second of `CommandsStopOutsideDramOnly`: an access that ends at 2 GiB, and one above. -/
theorem witness_CommandsStopOutsideDramOnly :
    (∃ t, exec .appendWriteComplete
        (state (running (readAccess (.slot 0 .header) 0x7FFFFFC0) base)) = .next t)
      ∧ exec .appendWriteComplete (state (running (readAccess (.slot 0 .header) 0x80000000) base))
        = .fault .addressOutsideDram := ⟨⟨_, rfl⟩, rfl⟩

theorem witness_ServingReachesDirectoryBesides :
    base.ret.mode = .serving ∧ base.formatPending = false ∧ Part.Field.ret ∉ reaches .readStatus
      ∧ Part.Field.formatPending ∉ reaches .readStatus ∧ ∃ t, exec .readStatus (state base) = .next t :=
  ⟨rfl, rfl, by decide, by decide, ⟨_, rfl⟩⟩

theorem witness_QuietCommandsReachTheirOwnFields :
    base.quiet = true ∧ base.ret.mode = .serving
      ∧ (∀ f ∈ [Part.Field.ret, .formatPending, .journals, .header, .slots], f ∉ reaches (.status 0))
      ∧ (∃ t, exec (.status 0) (state base) = .next t)
      ∧ (inMode base .halted).quiet = true
      ∧ (∀ f ∈ [Part.Field.ret, .ctl, .reqs, .journals, .header, .formatPending, .slots, .mem], f ∉ reaches (.sendIdle 0))
      ∧ ∃ t, exec (.sendIdle 0) (state (inMode base .halted)) = .next t :=
  ⟨by decide +kernel, rfl, by decide, ⟨_, rfl⟩, by decide +kernel, by decide, ⟨_, rfl⟩⟩

theorem witness_PortCommandsKeepOtherPorts :
    portOf (.detach 0) = some 0 ∧ (3 : Port) ≠ 0 ∧ ∃ t, exec (.detach 0) (state base) = .next t :=
  ⟨rfl, by decide, ⟨_, rfl⟩⟩

theorem witness_StepsKeepThePartSound : base.sound ∧ ∃ t, step { pending := [.sendIdle 0], part := base } = .next t :=
  ⟨by decide +kernel, ⟨_, rfl⟩⟩

/-- A slot of journal 0, and a read in flight that pins its position 0. -/
def busyTables : Part :=
  (withSlot (one { conf1 with openSlots := 1, pins := [0] }) 0 (slot0 0)).setRead 0 (some
    { state := .fetching, gen := 1, reqTag := 8, journal := 0, start := 0, length := 64, frontierEnd := true, nextPos := 0
      staged := some ⟨0, zeros 64⟩, outstanding := 1 })

/-- A part whose slots in use are few, whose journals but one are unconfigured, and whose pins are its reads'. -/
theorem tablesSound_of {p : Part} {c : Conf} (hs : (p.slotsWith fun _ => true).length ≤ 4)
    (hn : ∀ j, j ≠ 0 → (p.journal j).conf = none) (hc : (p.journal 0).conf = some c)
    (ho : c.openSlots ≤ (p.slotsWith fun x => decide (x.journal = 0)).length)
    (hp : (c.pins.all fun x => decide (c.pins.count x ≤ p.readsAt 0 x)) = true) (hl : c.pins.length ≤ 8) : p.tablesSound := by
  have few : ∀ f : Slot → Bool, (p.slotsWith f).length ≤ (p.slotsWith fun _ => true).length := by
    intro f
    unfold Part.slotsWith
    rw [← List.countP_eq_length_filter, ← List.countP_eq_length_filter]
    refine List.countP_mono_left fun n _ h => ?_
    obtain ⟨x, hx, _⟩ := (Option.any_eq_true _ _).1 h
    exact (Option.any_eq_true _ _).2 ⟨x, hx, rfl⟩
  refine ⟨fun sid => (few _).trans hs, fun j d hd => ?_⟩
  by_cases h : j = 0
  · subst h
    rw [hc] at hd
    cases hd
    refine ⟨⟨ho, ho.trans ((few _).trans (hs.trans (by decide)))⟩, fun x => ?_, hl⟩
    by_cases hx : x ∈ c.pins
    · exact of_decide_eq_true (List.all_eq_true.1 hp x hx)
    · rw [List.count_eq_zero_of_not_mem hx]; exact Nat.zero_le _
  · rw [hn j h] at hd; cases hd

/-- A step with a slot and a pinned read in flight. -/
theorem witness_StepsKeepTheTablesBounded : busyTables.tablesSound ∧ ∃ t, step { pending := [.sendIdle 0], part := busyTables } = .next t :=
  ⟨tablesSound_of (c := { conf1 with openSlots := 1, pins := [0] }) (by decide +kernel) (by decide +kernel)
    (by decide +kernel) (by decide +kernel) (by decide +kernel) (by decide +kernel), ⟨_, rfl⟩⟩

theorem witness_StepsLeaveNothingDue : base.quiet = true ∧ ∃ t, step { pending := [.sendIdle 0], part := base } = .next t :=
  ⟨by decide +kernel, ⟨_, rfl⟩⟩

theorem witness_EventsEndWithWhatIsDue :
    base.nothingDue = true
      ∧ ((one conf0).markDirty (.journal 0)).ret.mode = .serving
      ∧ ((one conf0).markDirty (.journal 0)).formatPending = false
      ∧ ((one conf0).markDirty (.journal 0)).dirDue (.journal 0) = true := by decide +kernel

/-- A part in each of the four cases in which the end of an event does more than start directory writes, and one in none:
HALTED with a dirty item. -/
theorem witness_EventsEndWithWhatIsDue_besides :
    { withConf base 0 conf0 with formatPending := true }.formatReady
      ∧ ((inMode base .initializing).modCtl fun c => { c with work := .coldWrites }).coldReady
      ∧ ¬((inMode base .initializing).modCtl fun c => { c with work := .coldWrites }).formatReady
      ∧ ((inMode (one { conf0 with own := .held 5 .stopped }) .restoring).modCtl fun c =>
          { c with work := .entryLoad, rebuilt := allJournals }).restoreReady
      ∧ ¬((inMode (one { conf0 with own := .held 5 .stopped }) .restoring).modCtl fun c =>
          { c with work := .entryLoad, rebuilt := allJournals }).formatReady
      ∧ (inMode base .quiescing).drainReady ∧ (inMode base .quiescing).mem.cond = .active
      ∧ (let p := (inMode base .halted).markDirty .header
        p.dirDue .header = true ∧ ¬p.formatReady ∧ ¬p.coldReady ∧ ¬p.restoreReady ∧ ¬p.drainReady) := by
  refine ⟨?_, ?_, ?_, ?_, ?_, ?_, by decide +kernel, ?_⟩
  all_goals simp only [← coldDue_iff, ← restoreDue_iff, ← drainDue_iff, ← startWrites_formatDue]
  all_goals decide +kernel

/-! ## Witnesses: requests answered at once -/

abbrev takesReq (p : Part) (payload : List Byte) : Prop := p.quiet = true ∧ p.takes 0 payload

def attachReq : List Byte := [1, 7, 5, 0, 0, 0, 1]

theorem witness_AttachOpensASession :
    (takesReq (withReq (inMode base .halted) 0 attachReq) attachReq ∧ isAttach attachReq = true)
    ∧ (takesReq (withReq base 0 [1, 7, 0, 0, 0, 0, 1]) [1, 7, 0, 0, 0, 0, 1] ∧ isAttach [1, 7, 0, 0, 0, 0, 1] = true
      ∧ (Req.ofPayload [1, 7, 0, 0, 0, 0, 1]).attachTag = 0)
    ∧ (takesReq (withReq base 0 [1, 7]) [1, 7] ∧ isAttach [1, 7] = true ∧ (Req.ofPayload [1, 7]).params.length ≠ 5)
    ∧ (takesReq (withReq base 0 [1, 7, 5, 0, 0, 0, 2]) [1, 7, 5, 0, 0, 0, 2]
      ∧ (Req.ofPayload [1, 7, 5, 0, 0, 0, 2]).revision ≠ 1)
    ∧ ((Req.ofPayload attachReq).params.length = 5 ∧ (Req.ofPayload attachReq).attachTag ≠ 0
      ∧ (Req.ofPayload attachReq).revision = 1)
    ∧ (takesReq (withReq (attached base 0 9) 0 attachReq) attachReq
      ∧ ((withReq (attached base 0 9) 0 attachReq).req 0).session.active = true)
    ∧ (takesReq (withReq (attached base 3 5) 0 attachReq) attachReq
      ∧ ∃ k, ((withReq (attached base 3 5) 0 attachReq).req k).session.active = true
        ∧ ((withReq (attached base 3 5) 0 attachReq).req k).session.tag = some (Req.ofPayload attachReq).attachTag)
    ∧ (takesReq (withReq (attached base 3 6) 0 attachReq) attachReq
      ∧ ∀ k, ((withReq (attached base 3 6) 0 attachReq).req k).session.active = true →
        ((withReq (attached base 3 6) 0 attachReq).req k).session.tag ≠ some (Req.ofPayload attachReq).attachTag) := by
  decide +kernel

def claimReq : List Byte := [6, 7, 0]

def sixteenTags : List Byte := [16, 17, 18, 19, 20, 21, 22, 23, 24, 25, 26, 27, 28, 29, 30, 31]

theorem witness_RequestLayerChecksFirst :
    (Instr.claim, codeClaim).2 ∈ requestCommands.map Prod.snd ∧ isRequest codeClaim claimReq = true
    ∧ takesReq (withReq (inMode base .halted) 0 claimReq) claimReq
    ∧ (takesReq (withReq base 0 claimReq) claimReq ∧ ((withReq base 0 claimReq).req 0).session.active = false)
    ∧ (takesReq (withTags (withReq (attached base 0 5) 0 claimReq) 0 [7]) claimReq
      ∧ (Req.ofPayload claimReq).tag ∈ ((withTags (withReq (attached base 0 5) 0 claimReq) 0 [7]).req 0).tags)
    ∧ (takesReq (withTags (withReq (attached base 0 5) 0 claimReq) 0 sixteenTags) claimReq
      ∧ (Req.ofPayload claimReq).tag ∉ ((withTags (withReq (attached base 0 5) 0 claimReq) 0 sixteenTags).req 0).tags
      ∧ 16 ≤ ((withTags (withReq (attached base 0 5) 0 claimReq) 0 sixteenTags).req 0).tags.length)
    ∧ (isUnknown [0x0C, 7] = true ∧ isUnknown [6, 7] = true ∧ isUnknown [2, 7, 0] = true
      ∧ takesReq (withReq (attached base 0 5) 0 [0x0C, 7]) [0x0C, 7]
      ∧ (withReq (attached base 0 5) 0 [0x0C, 7]).admits 0 (Req.ofPayload [0x0C, 7])) := by decide +kernel

theorem witness_ShortRequestIsBad :
    takesReq (withReq base 0 []) [] ∧ takesReq (withReq base 0 [6]) [6] := by decide +kernel

def statusReq (j : Byte) : List Byte := [3, 7, j]

abbrev reaches0 (p : Part) (code : Byte) (payload : List Byte) : Prop :=
  (withReq p 0 payload).quiet = true ∧ (withReq p 0 payload).reachesBlock 0 code payload

theorem witness_StatusReports :
    reaches0 (attached base 0 5) codeStatus (statusReq 0xFF)
    ∧ (reaches0 (attached base 0 5) codeStatus (statusReq 8) ∧ (Req.ofPayload (statusReq 8)).journal ≠ 0xFF#8)
    ∧ (reaches0 (attached base 0 5) codeStatus (statusReq 0xFE) ∧ 8 ≤ (Req.ofPayload (statusReq 0xFE)).journal.toNat)
    ∧ (reaches0 (attached base 0 5) codeStatus (statusReq 7)
      ∧ ((withReq (attached base 0 5) 0 (statusReq 7)).journal 7).conf = none)
    ∧ (reaches0 (one conf1) codeStatus (statusReq 0)
      ∧ ((withReq (one conf1) 0 (statusReq 0)).journal 0).conf = some conf1) := by decide +kernel

theorem witness_BadJournalIsRefused :
    (codeClaim ∈ requestCommands.map Prod.snd ∧ codeClaim ≠ codeDetach ∧ codeClaim ≠ codeStatus)
    ∧ (reaches0 (attached base 0 5) codeClaim [6, 7, 8]
      ∧ ∀ j : JournalId, (Req.ofPayload [6, 7, 8]).journal.toNat ≠ j.val)
    ∧ (reaches0 (attached base 0 5) codeClaim [6, 7, 7]
      ∧ ∀ j : JournalId, (Req.ofPayload [6, 7, 7]).journal.toNat = j.val →
        ((withReq (attached base 0 5) 0 [6, 7, 7]).journal j).conf = none) := by decide +kernel

def formatting (p : Part) : Part := { p with formatPending := true }

/-- A FORMAT that stays pending: a slot is in use. -/
def formatHeld (p : Part) : Part := withSlot (formatting p) 11 (slot0 1)

theorem witness_SubscriptionsChange :
    ((Req.ofPayload [4, 7, 0]).journal.toNat = (0 : JournalId).val
      ∧ ((withReq (one conf1) 0 [4, 7, 0]).journal 0).conf = some conf1
      ∧ reaches0 (one conf1) codeSubscribe [4, 7, 0] ∧ (withReq (one conf1) 0 [4, 7, 0]).formatPending = false)
    ∧ (reaches0 (formatHeld (one conf1)) codeSubscribe [4, 7, 0]
      ∧ (withReq (formatHeld (one conf1)) 0 [4, 7, 0]).formatPending = true)
    ∧ reaches0 (one conf1) codeUnsubscribe [5, 7, 0] := by decide +kernel

/-! ## Witnesses: ownership requests -/

abbrev claims (p : Part) (c : Conf) : Prop :=
  reaches0 p codeClaim claimReq ∧ (Req.ofPayload claimReq).journal.toNat = (0 : JournalId).val
    ∧ ((withReq p 0 claimReq).journal 0).conf = some c ∧ ((withReq p 0 claimReq).req 0).session.tag = some 5

def heldBy (tag : W32) (g : Grace) : Conf := { conf0 with own := .held tag g }

def moving (owner : Option SessionId) (cl : Option Claimant) : Conf := { conf0 with own := .transferring owner 5 cl, openSlots := 1 }

theorem witness_ClaimIsGrantedOrRefused :
    claims (formatHeld (one conf0)) conf0
    ∧ (claims (one (ownedBy 1 conf0)) (ownedBy 1 conf0) ∧ (ownedBy 1 conf0).state = .owned)
    ∧ (claims (one (moving none none)) (moving none none) ∧ (moving none none).state = .transferring)
    ∧ (claims (one (heldBy 6 (.running 1))) (heldBy 6 (.running 1)) ∧ (6 : W32) ≠ 5 ∧ Grace.running 1 ≠ .expired)
    ∧ (claims (one conf0) conf0 ∧ ((one conf0).journal 0).epoch ≠ 0xFFFFFFFF#32)
    ∧ claims (one (heldBy 5 (.running 1))) (heldBy 5 (.running 1))
    ∧ claims (one (heldBy 6 .expired)) (heldBy 6 .expired)
    ∧ (claims (withEpoch (one conf0) 0 0xFFFFFFFE#32) conf0
      ∧ ((withEpoch (one conf0) 0 0xFFFFFFFE#32).journal 0).epoch ≠ 0xFFFFFFFF#32)
    ∧ (claims (withEpoch (one conf0) 0 0xFFFFFFFF#32) conf0
      ∧ ((withEpoch (one conf0) 0 0xFFFFFFFF#32).journal 0).epoch = 0xFFFFFFFF#32) := by decide +kernel

/-- RELEASE of journal 0 under epoch `e`. -/
def releaseReq (e : Byte) : List Byte := [7, 7, 0, e, 0, 0, 0]

abbrev releases (p : Part) (c : Conf) (e : Byte) : Prop :=
  reaches0 p codeRelease (releaseReq e) ∧ (Req.ofPayload (releaseReq e)).journal.toNat = (0 : JournalId).val
    ∧ ((withReq p 0 (releaseReq e)).journal 0).conf = some c

theorem witness_ReleaseIsAcceptedOrRefused :
    releases (one (moving (some (sid 0)) none)) (moving (some (sid 0)) none) 0
    ∧ releases (one (ownedBy 1 conf0)) (ownedBy 1 conf0) 0
    ∧ (releases (one (ownedBy 0 conf0)) (ownedBy 0 conf0) 1
      ∧ (Req.ofPayload (releaseReq 1)).epoch ≠ ((one (ownedBy 0 conf0)).journal 0).epoch)
    ∧ (releases (withSlot (one (ownedBy 0 conf0)) 11 (slot0 0)) (ownedBy 0 conf0) 0
      ∧ ∃ n, ((withReq (withSlot (one (ownedBy 0 conf0)) 11 (slot0 0)) 0 (releaseReq 0)).slot n).any
          (fun x => decide (x.session = sid 0) && decide (x.journal = 0)) = true)
    ∧ (releases (one (ownedBy 0 conf0)) (ownedBy 0 conf0) 0
      ∧ (Req.ofPayload (releaseReq 0)).epoch = ((one (ownedBy 0 conf0)).journal 0).epoch
      ∧ ∀ n, (withReq (one (ownedBy 0 conf0)) 0 (releaseReq 0)).slot n = none) := by decide +kernel

/-- TAKEOVER of journal 0 expecting epoch `e`. -/
def takeoverReq (e : Byte) : List Byte := [8, 7, 0, e, 0, 0, 0]

abbrev takesOver (p : Part) (c : Conf) (e : Byte) : Prop :=
  reaches0 p codeTakeover (takeoverReq e) ∧ (Req.ofPayload (takeoverReq e)).journal.toNat = (0 : JournalId).val
    ∧ ((withReq p 0 (takeoverReq e)).journal 0).conf = some c

theorem witness_TakeoverChecks :
    takesOver (formatHeld (one conf0)) conf0 0
    ∧ (takesOver (one conf0) conf0 0 ∧ conf0.state = .unassigned)
    ∧ (takesOver (one (heldBy 5 .stopped)) (heldBy 5 .stopped) 0 ∧ (heldBy 5 .stopped).state = .held)
    ∧ takesOver (one (moving none none)) (moving none none) 0
    ∧ (takesOver (one (ownedBy 0 conf0)) (ownedBy 0 conf0) 0 ∧ (ownedBy 0 conf0).own = .owned (sid 0) 5)
    ∧ (takesOver (one (ownedBy 1 conf0)) (ownedBy 1 conf0) 1
      ∧ (Req.ofPayload (takeoverReq 1)).epoch ≠ ((one (ownedBy 1 conf0)).journal 0).epoch)
    ∧ (reaches0 (withEpoch (one (ownedBy 1 conf0)) 0 0xFFFFFFFF#32) codeTakeover [8, 7, 0, 0xFF, 0xFF, 0xFF, 0xFF]
      ∧ (Req.ofPayload [8, 7, 0, 0xFF, 0xFF, 0xFF, 0xFF]).epoch = 0xFFFFFFFF#32) := by decide +kernel

/-- Journal 0, of the session on port 1, with a slot in RECEIVING. -/
def fencing : Part := withSlot (one { ownedBy 1 conf0 with openSlots := 1 }) 0 (slot0 1)

/-- No open slot, and a slot to fence, with the write of the entry in flight and without. -/
theorem witness_TakeoverFencesTheOwner :
    (takesOver (attached (one (ownedBy 1 conf0)) 1 6) (ownedBy 1 conf0) 0
      ∧ ((attached (one (ownedBy 1 conf0)) 1 6).req 0).session.tag = some 5
      ∧ (attached (one (ownedBy 1 conf0)) 1 6).formatPending = false ∧ sid 1 ≠ sid 0
      ∧ (Req.ofPayload (takeoverReq 0)).epoch = ((one (ownedBy 1 conf0)).journal 0).epoch
      ∧ (ownedBy 1 conf0).openSlots = 0)
    ∧ (∀ b ∈ [true, false],
      takesOver (fencing.modDir (.journal 0) fun d => { d with inFlight := b }) { ownedBy 1 conf0 with openSlots := 1 } 0)
    ∧ (fencing.voidHeaders .fenced fun x => x.fencedBy 0 (sid 1)).length = 1
    ∧ (fencing.fencedCnt 0 (sid 1)).voidFenced = 1 := by decide +kernel

/-! ## Witnesses: appends -/

/-- APPEND on journal 0 under epoch 0 with payload length `len`. -/
def appendReq (len : Nat) : List Byte := [9, 7, 0, 0, 0, 0, 0] ++ leBytes 4 len ++ [0, 0, 0, 0, 0, 0]

abbrev appends (p : Part) (c : Conf) (len : Nat) : Prop :=
  reaches0 p codeAppend (appendReq len) ∧ (Req.ofPayload (appendReq len)).journal.toNat = (0 : JournalId).val
    ∧ ((withReq p 0 (appendReq len)).journal 0).conf = some c
    ∧ (Req.ofPayload (appendReq len)).payloadLength = len

def own0 : Conf := ownedBy 0 conf0

def fourOpen : Part := withSlot (withSlot (withSlot (withSlot (one own0) 0 (slot0 0)) 1 (slot0 0)) 2 (slot0 0)) 3 (slot0 0)

def allBusy : Part := { one own0 with slots := Vector.replicate 12 (some (slot0 1)) }

def full : Conf := { own0 with reserve := 1048576 }

def lastSeq : Conf := { own0 with nextSeq := 0xFFFFFFFF#32 }

/-- The reserve 32 bytes below the end of the region: any record needs a pad. -/
def nearEnd : Conf :=
  { own0 with head := 1048544, persistedHead := 1048544, durable := 1048544, frontier := 1048544, reserve := 1048544 }

theorem witness_AppendChecks :
    (appends (one own0) own0 0 ∧ appends (one own0) own0 65537)
    ∧ appends (one (moving (some (sid 0)) none)) (moving (some (sid 0)) none) 1
    ∧ appends (one (ownedBy 1 conf0)) (ownedBy 1 conf0) 65536
    ∧ (appends (withEpoch (one own0) 0 1) own0 1
      ∧ (Req.ofPayload (appendReq 1)).epoch ≠ ((withEpoch (one own0) 0 1).journal 0).epoch)
    ∧ (appends fourOpen own0 1
      ∧ ([0, 1, 2, 3, 4, 5, 6, 7, 8, 9, 10, 11].filter fun n : SlotId =>
        (fourOpen.slot n).any fun x => decide (x.session = sid 0)).length = 4)
    ∧ (appends allBusy own0 1 ∧ ∀ n, allBusy.slot n ≠ none)
    ∧ (appends (one full) full 1 ∧ full.size - (full.reserve.toNat - full.persistedHead.toNat) < 64)
    ∧ (appends (one lastSeq) lastSeq 1 ∧ 64 ≤ lastSeq.size - (lastSeq.reserve.toNat - lastSeq.persistedHead.toNat)) := by
  decide +kernel

theorem witness_AppendReserves :
    (appends (one own0) own0 1 ∧ (Req.ofPayload (appendReq 1)).epoch = ((one own0).journal 0).epoch
      ∧ ∃ n, (one own0).slot n = none)
    ∧ (appends (one own0) own0 65536 ∧ 65568 ≤ own0.freeSpace)
    ∧ (appends (one nearEnd) nearEnd 32 ∧ nearEnd.room = 32 ∧ 32 + 64 ≤ nearEnd.freeSpace
      ∧ nearEnd.reserve.toNat + (32 + 64) < 2 ^ 64) := by decide +kernel

abbrev takesData (p : Part) (payload : List Byte) : Prop :=
  (withData p 0 payload).quiet = true ∧ (withData p 0 payload).ret.running = true
    ∧ ((withData p 0 payload).req 0).buffer.head? = some ⟨true, payload⟩
    ∧ (withData p 0 payload).holdsPayload 0 = false

def dataOf (off : Byte) (bytes : List Byte) : List Byte := [9, 0, off, 0, 0, 0] ++ bytes

theorem witness_UnmatchedDataIsDropped :
    (takesData (inMode base .halted) (dataOf 0 [1]) ∧ (inMode base .halted).ret.mode ≠ .serving)
    ∧ (takesData base [9, 0, 0, 0, 0] ∧ [9, 0, 0, 0, (0 : Byte)].length < 6)
    ∧ (takesData base (dataOf 0 [1]) ∧ (base.req 0).session.active = false)
    ∧ (takesData (attached base 0 5) (dataOf 0 [1]) ∧ ∀ n, (attached base 0 5).slot n = none) := by decide +kernel

/-- A part with `x` in slot 0, whose session is that of port 0. -/
def open0 (x : Slot) : Part := withSlot (one { own0 with openSlots := 1, reserve := 64, nextSeq := 2 }) 0 x

abbrev fills (x : Slot) (payload : List Byte) : Prop :=
  takesData (open0 x) payload ∧ 6 ≤ payload.length ∧ (open0 x).serving
    ∧ ((open0 x).req 0).session.active = true ∧ x.state = .receiving ∧ x.session = sid 0
    ∧ x.reqTag = byteAt payload 0 ∧ (open0 x).slot 0 = some x ∧ ((open0 x).journal x.journal).conf.isSome = true

theorem witness_DataFillsTheSlot :
    (fills (slot0 0) (dataOf 1 [1]) ∧ field (dataOf 1 [1]) 2 4 ≠ (slot0 0).received)
    ∧ fills (slot0 0) (dataOf 0 []) ∧ fills (slot0 0) (dataOf 0 (zeros 33))
    ∧ fills { slot0 0 with length := 65536 } (dataOf 0 (zeros 257))
    ∧ fills { slot0 0 with length := 65536 } (dataOf 0 (zeros 256))
    ∧ fills (slot0 0) (dataOf 0 (zeros 31))
    ∧ (fills { slot0 0 with declared := crc32 (zeros 32) } (dataOf 0 (zeros 32))
      ∧ ~~~ crc32Run 0xFFFFFFFF#32 (zeros 32) = crc32 (zeros 32))
    ∧ (fills (slot0 0) (dataOf 0 (zeros 32)) ∧ ~~~ crc32Run 0xFFFFFFFF#32 (zeros 32) ≠ (slot0 0).declared) := by
  decide +kernel

theorem witness_IdleTimerAbandonsTheSlot :
    (open0 (slot0 0)).quiet = true ∧ (open0 (slot0 0)).ret.running = true ∧ (open0 (slot0 0)).slot 0 = some (slot0 0)
      ∧ (slot0 0).state = .receiving ∧ (slot0 0).idle.isSome = true
      ∧ ((open0 (slot0 0)).journal 0).conf.isSome = true := by decide +kernel

def headerWrite : Access := burstWrite (.slot 0 .header) 0x10000 (slot0 0).header

abbrev completing (p : Part) (a : Access) : Prop := (running a p).completes a

/-- A write of a slot in RECEIVING, the last write of a LANDING and of a VOIDING slot, and one that is not the last. -/
theorem witness_SlotWritesCountDown :
    (∀ x ∈ [{ slot0 0 with outstanding := 1 }, { slot0 0 with state := .landing, outstanding := 1 },
        { slot0 0 with state := .voiding, outstanding := 1 }, { slot0 0 with state := .landing, outstanding := 2 }],
      completing (open0 x) headerWrite ∧ headerWrite.client = .slot 0 .header
        ∧ (running headerWrite (open0 x)).slot 0 = some x ∧ ∀ m, m ≠ 0 → (running headerWrite (open0 x)).slot m = none)
    ∧ ((open0 (slot0 0)).journal 0).conf.map Conf.frontierSeq = some (slot0 0).seq
    ∧ (open0 { slot0 0 with state := .landing, outstanding := 1, seq := 2 }).slot 0
      = some { slot0 0 with state := .landing, outstanding := 1, seq := 2 } := by decide +kernel

def landed0 : Slot := { slot0 0 with state := .landed, outcome := some .landed }

/-- Two resolved slots in sequence, the later one in the lower place. -/
def twoLanded : Part :=
  withSlot (withSlot (one { own0 with openSlots := 2, reserve := 128, nextSeq := 3 }) 0 { landed0 with seq := 2, position := 64 })
    1 landed0

theorem witness_FrontierPassesResolvedSlots :
    twoLanded.serving ∧ [(1 : SlotId), 0].Nodup
      ∧ (∀ n, ((twoLanded.slot n).any fun x => decide (x.journal = 0 ∧ x.seq = 1 ∧ x.state = .landed)) = decide (n = 1))
      ∧ (∀ n, ((twoLanded.slot n).any fun x => decide (x.journal = 0 ∧ x.seq = 2 ∧ x.state = .landed)) = decide (n = 0))
      ∧ (∀ n, ((twoLanded.slot n).any fun x => decide (x.seq = 3)) = false)
      ∧ [(1 : SlotId), 0].getLast?.bind twoLanded.slot = some { landed0 with seq := 2, position := 64 } := by
  decide +kernel

/-- The last write of a LANDING slot at the frontier, a VOIDED slot and a LANDED one following it: a run of three. -/
def threeResolved : Part :=
  withSlot (withSlot (open0 { slot0 0 with state := .landing, outstanding := 1 }) 1 { landed0 with seq := 3, position := 128 })
    2 { landed0 with state := .voided, outcome := some .voided, seq := 2, position := 64 }

theorem witness_SlotWritesCountDown_run :
    let after := fun m : SlotId => if m = 0 then some landed0 else (running headerWrite threeResolved).slot m
    completing threeResolved headerWrite
      ∧ (running headerWrite threeResolved).slot 0 = some { slot0 0 with state := .landing, outstanding := 1 }
      ∧ [(0 : SlotId), 2, 1].Nodup
      ∧ (∀ m, (after m).any (fun z => decide (z.journal = 0 ∧ z.seq = 1)) = decide (m = 0))
      ∧ (∀ m, (after m).any (fun z => decide (z.journal = 0 ∧ z.seq = 2)) = decide (m = 2))
      ∧ (∀ m, (after m).any (fun z => decide (z.journal = 0 ∧ z.seq = 3)) = decide (m = 1))
      ∧ (∀ m, (after m).any (fun z => decide (z.seq = 4)) = false)
      ∧ (∀ m, (after m).all (fun z => decide (z.state = .landed ∨ z.state = .voided)) = true)
      ∧ [(0 : SlotId), 2, 1].getLast?.bind after = some { landed0 with seq := 3, position := 128 } := by
  decide +kernel

def committed0 : Slot := { landed0 with state := .committed }

/-- A durable committed slot of journal 0. -/
def durable0 (session : Bool) : Part :=
  withSlot (withConf (if session then attached base 0 5 else base) 0 { conf1 with openSlots := 1 }) 0 committed0

def fullQueue (p : Part) : Part :=
  p.modReq 0 fun r => { r with respQ := List.replicate 32 (.rdata 0 0 []) }

theorem witness_DurableSlotsAreReleased :
    (∀ p ∈ [durable0 true, durable0 false, fullQueue (durable0 true), (durable0 true).setWaits 0 [.appendDone 5]],
      p.serving ∧ p.formatPending = false ∧ p.slot 0 = some committed0 ∧ committed0.state = .committed
        ∧ (p.journal 0).conf = some { conf1 with openSlots := 1 }
        ∧ committed0.position.toNat + committed0.occupancy = ({ conf1 with openSlots := 1 } : Conf).durable.toNat
        ∧ .appendDone 0 ∉ p.waits 0)
    ∧ ((durable0 true).req 0).session.active = true ∧ ((durable0 false).req 0).session.active = false
    ∧ ((fullQueue (durable0 true)).req 0).respQ.length = 32 := by decide +kernel

theorem witness_WaitingResponsesTakeFreeFrames :
    (∀ w ∈ [Waiting.answer { code := 6, tag := 7, status := .ok }, .appendDone 0],
      ((durable0 true).setWaits 0 [w]).serving ∧ ((durable0 true).setWaits 0 [w]).waits 0 = [w]
        ∧ (((durable0 true).setWaits 0 [w]).req 0).respQ.length < 32)
    ∧ (durable0 true).slot 0 = some committed0 ∧ committed0.session.port = 0 := by decide +kernel

/-- The last slot of a TRANSFERRING journal, durable, with a claimant on port 1 and without one. -/
def lastSlot (cl : Option Claimant) : Part :=
  withSlot (withConf (attached (attached base 0 5) 1 6) 0
    { conf1 with own := .transferring (some (sid 0)) 5 cl, openSlots := 1, subs := [1] }) 0 committed0

def claimant1 : Option Claimant := some ⟨sid 1, 7⟩

/-- The releases of `DurableSlotsAreReleased` and `WaitingResponsesTakeFreeFrames` that complete a transfer. -/
theorem witness_ReleasesCompleteATransfer :
    ∀ cl ∈ [claimant1, none],
      (lastSlot cl).serving ∧ (lastSlot cl).formatPending = false ∧ (lastSlot cl).slot 0 = some committed0
        ∧ ((lastSlot cl).journal 0).conf
          = some { conf1 with own := .transferring (some (sid 0)) 5 cl, openSlots := 1, subs := [1] }
        ∧ (((lastSlot cl).journal 0).conf.any fun c => c.completesAt 1) = true
        ∧ .appendDone 0 ∉ (lastSlot cl).waits 0 ∧ ((lastSlot cl).req 0).session.active = true
        ∧ (lastSlot cl).ownerGoesTo ((lastSlot cl).journal 0) 0 = true
        ∧ (lastSlot cl).ownerGoesTo ((lastSlot cl).journal 0) 1 = true
        ∧ (lastSlot cl).ownerGoesTo ((lastSlot cl).journal 0) 2 = false
        ∧ ((lastSlot cl).setWaits 0 [.appendDone 0]).waits 0 = [.appendDone 0] := by decide +kernel

/-! ## Witnesses: reads and trims -/

/-- READ of journal 0 from `pos`, `len` bytes. -/
def readReq (pos len : Nat) : List Byte := [10, 7, 0] ++ leBytes 8 pos ++ leBytes 2 len

abbrev reads (p : Part) (c : Conf) (pos len : Nat) : Prop :=
  (withReq p 0 (readReq pos len)).reachesBlock 0 codeRead (readReq pos len)
    ∧ (Req.ofPayload (readReq pos len)).journal.toNat = (0 : JournalId).val
    ∧ ((withReq p 0 (readReq pos len)).journal 0).conf = some c
    ∧ (Req.ofPayload (readReq pos len)).readPosition.toNat = pos ∧ (Req.ofPayload (readReq pos len)).readLength = len

def ctx0 : ReadCtx :=
  { state := .fetching, gen := 1, reqTag := 9, journal := 0, start := 0, length := 64, frontierEnd := true, nextPos := 0
    staged := some ⟨0, zeros 64⟩, outstanding := 1 }

def bothBusy (p : Part) : Part := (p.setRead 0 (some ctx0)).setRead 1 (some ctx0)

def trimTo (target : W64) (phase : TrimPhase) (c : Conf) : Conf :=
  { c with trim := some { target := target, session := sid 0, reqTag := 9, phase := phase } }

def conf2 : Conf := { conf1 with head := 32, persistedHead := 32 }

theorem witness_ReadIsAnsweredOrAccepted :
    (reads (one conf1) conf1 0 0 ∧ reads (one conf1) conf1 0 4097)
    ∧ (reads (formatting (one conf1)) conf1 0 1 ∧ (formatting (one conf1)).formatPending = true)
    ∧ (reads (bothBusy (one conf1)) conf1 0 4096
      ∧ ∀ x : ReadId, x.val / 2 = (0 : Port).val → (bothBusy (one conf1)).readCtx x ≠ none)
    ∧ reads (one conf2) conf2 31 1
    ∧ (reads (one (trimTo 64 .held conf1)) (trimTo 64 .held conf1) 63 1 ∧ TrimPhase.held ≠ .checking)
    ∧ (reads (one (trimTo 64 .advanced conf1)) (trimTo 64 .advanced conf1) 0 1)
    ∧ (reads (one conf1) conf1 64 1 ∧ conf1.trim = none)
    ∧ (reads (one conf1) conf1 63 4096 ∧ ∃ x : ReadId, x.val / 2 = (0 : Port).val ∧ (one conf1).readCtx x = none)
    ∧ reads (one conf2) conf2 32 1 := by decide +kernel

def readBurst : Access := readAccess (.readCtx 0) 0x10000

theorem witness_ReadBurstsArrive :
    (completing ((one conf1).setRead 0 (some ctx0)) readBurst ∧ readBurst.client = .readCtx 0 ∧ ctx0.state = .fetching
      ∧ ((one conf1).journal ctx0.journal).conf = some conf1)
    ∧ completing ((one conf1).setRead 0 (some { ctx0 with state := .draining, staged := none })) readBurst := by
  decide +kernel

def holding0 : ReadCtx := { ctx0 with state := .holding, outstanding := 0 }

theorem witness_StagedFramesAreQueued :
    (∀ r ∈ [holding0, { holding0 with length := 65 }],
      ((one conf1).setRead 0 (some r)).readCtx 0 = some r ∧ r.state = .holding ∧ r.staged = some ⟨0, zeros 64⟩)
    ∧ ((one conf1).req 0).respQ.length < 32 ∧ (0 : ReadId).val / 2 = (0 : Port).val
    ∧ holding0.start.toNat + holding0.length - 64 = 0 := by decide +kernel

theorem witness_ReadsAreAnswered :
    ∀ c ∈ [{ conf1 with pins := [0] }, trimTo 64 .held { conf1 with pins := [0] },
        trimTo 64 .held { conf1 with pins := [0, 0] }],
      ((one c).setRead 0 (some { ctx0 with state := .closing, staged := none })).readCtx 0
          = some { ctx0 with state := .closing, staged := none }
        ∧ ((one c).journal 0).conf = some c ∧ ((one c).req 0).respQ.length < 32 := by decide +kernel

/-- TRIM of journal 0 under epoch 0 to `pos`. -/
def trimReq (pos : Nat) : List Byte := [11, 7, 0, 0, 0, 0, 0] ++ leBytes 8 pos

abbrev trims (p : Part) (c : Conf) (pos : Nat) : Prop :=
  (withReq p 0 (trimReq pos)).reachesBlock 0 codeTrim (trimReq pos)
    ∧ (Req.ofPayload (trimReq pos)).journal.toNat = (0 : JournalId).val
    ∧ ((withReq p 0 (trimReq pos)).journal 0).conf = some c ∧ (Req.ofPayload (trimReq pos)).trimPosition.toNat = pos

def own2 : Conf := ownedBy 0 conf2

theorem witness_TrimIsAnsweredOrAccepted :
    trims (one (moving (some (sid 0)) none)) (moving (some (sid 0)) none) 0
    ∧ trims (one (ownedBy 1 conf1)) (ownedBy 1 conf1) 64
    ∧ (trims (withEpoch (one own2) 0 1) own2 64
      ∧ (Req.ofPayload (trimReq 64)).epoch ≠ ((withEpoch (one own2) 0 1).journal 0).epoch)
    ∧ trims (one (trimTo 64 .checking own2)) (trimTo 64 .checking own2) 64
    ∧ (trims (one own2) own2 0 ∧ trims (one own2) own2 96 ∧ trims (one own2) own2 33)
    ∧ (trims (one own2) own2 32 ∧ (Req.ofPayload (trimReq 32)).trimPosition = own2.head)
    ∧ (trims (one own2) own2 64 ∧ (Req.ofPayload (trimReq 64)).trimPosition = own2.durable)
    ∧ (trims (one (ownedBy 0 conf1)) (ownedBy 0 conf1) 32
      ∧ (Req.ofPayload (trimReq 32)).trimPosition ≠ (ownedBy 0 conf1).durable) := by decide +kernel

def trimRead : Access := readAccess (.trim 0) 0x10020

/-- A target without a header there, and one with a header. -/
theorem witness_TrimTargetsAreVerified :
    (completing (one (trimTo 32 .checking conf1)) trimRead ∧ trimRead.client = .trim 0 ∧ trimRead.kind = .read
      ∧ trimRead.addr = (trimTo 32 .checking conf1).address 32 / 64 * 64
      ∧ (trimTo 32 .checking conf1).address 32 % 32 = 0)
    ∧ leNat ((Memory.readBytes (Memory.writeBytes [] 0x10020 (padHeader 0 0 32 32)) 0x10020 32).drop 30)
      = (crc16 ((Memory.readBytes (Memory.writeBytes [] 0x10020 (padHeader 0 0 32 32)) 0x10020 32).take 30)).toNat := by
  decide +kernel

theorem witness_TrimsAdvanceAndEnd :
    (((one (trimTo 64 .held { conf1 with pins := [64] })).journal 0).conf = some (trimTo 64 .held { conf1 with pins := [64] })
      ∧ ((trimTo 64 .held { conf1 with pins := [64] }).pins.all fun x => decide ((64 : W64).toNat ≤ x.toNat)) = true)
    ∧ (((one (trimTo 32 .advanced conf2)).journal 0).conf = some (trimTo 32 .advanced conf2)
      ∧ (32 : W64).toNat ≤ conf2.persistedHead.toNat) ∧ (one conf1).ret.running = true := by decide +kernel

/-! ## Witnesses: the journal table and its directory -/

theorem witness_HoldGraceExpires :
    ((one (heldBy 5 (.running 1))).journal 0).conf = some (heldBy 5 (.running 1))
      ∧ (heldBy 5 (.running 1)).own = .held 5 (.running 1) ∧ (one (heldBy 5 (.running 1))).ret.running = true := by
  decide +kernel

def writing (i : Item) : Access := directoryWrite (.dirWriter i) i .b (zeros 64)

theorem witness_WritesStartAndTheHeaderLands :
    ((one conf0).markDirty (.journal 0)).dirDue (.journal 0) = true ∧ (base.markDirty .header).dirDue .header = true
      ∧ completing base (writing .header) ∧ (writing .header).client = .dirWriter .header := by decide +kernel

/-- Journal 0 with a write in flight whose snapshot has the durable frontier at 64. -/
def inFlight0 (c : Conf) : Part :=
  (one c).modJournal 0 fun e =>
    { e with dir := { e.dir with inFlight := true, snapshot := some { epoch := 0, conf := some ⟨.unassigned, 1, 16, none, 32, 64, 2⟩ } } }

/-- An ended trim, a durable slot, a bound answer and a bound FORCE_RELEASE. -/
theorem witness_JournalWriteLands :
    (∀ c ∈ [{ conf0 with subs := [0] }, trimTo 32 .advanced conf0, trimTo 64 .advanced conf0],
      completing (inFlight0 c) (writing (.journal 0)) ∧ ((inFlight0 c).journal 0).conf = some c
        ∧ ((inFlight0 c).journal 0).dir.snapshot.isSome = true ∧ c.durable.toNat < (64 : W64).toNat)
    ∧ (withSlot (inFlight0 conf0) 0 committed0).slot 0 = some committed0
    ∧ (withSlot (inFlight0 conf0) 0 committed0).live committed0.session = true
    ∧ (inFlight0 conf0).live (sid 1) = false := by decide +kernel

/-- The last slot of a TRANSFERRING journal becomes durable with the write. -/
def lastInFlight (cl : Option Claimant) : Part :=
  withSlot (attached (inFlight0 { moving (some (sid 0)) cl with subs := [1] }) 1 6) 0 committed0

/-- A bound OK of a CLAIM. -/
def bound0 : Bound := .answer (sid 0) { code := 6, tag := 7, status := .ok, values := .epoch 1 }

/-- A transfer that the write completes, bound answers, and a write of a journal in UNCONFIGURED, dirty and clean. -/
theorem witness_JournalWriteLands_besides :
    (∀ cl ∈ [claimant1, none],
      completing (lastInFlight cl) (writing (.journal 0))
        ∧ ((lastInFlight cl).journal 0).conf = some { moving (some (sid 0)) cl with subs := [1] }
        ∧ ((lastInFlight cl).journal 0).dir.snapshot.isSome = true ∧ (lastInFlight cl).slot 0 = some committed0
        ∧ (((lastInFlight cl).journal 0).conf.any fun c => c.completesAt 1) = true)
    ∧ (∀ d ∈ [true, false],
      let p := base.modDir (.journal 0) fun w => { w with dirty := d, inFlight := true }
      completing p (writing (.journal 0)) ∧ (p.journal 0).conf = none ∧ (p.journal 0).dir.dirty = d)
    ∧ ∀ q ∈ [base, inFlight0 conf0], ∀ b ∈ [[], [bound0], [.forceRelease]],
      let p := (q.modJournal 0 fun e => { e with boundFlight := b }).modMaint fun m =>
        { m with deferred := .waiting (.forceRelease 0) }
      completing p (writing (.journal 0)) ∧ (p.journal 0).boundFlight = b ∧ (∀ n, p.slot n = none)
        ∧ ((p.journal 0).conf.all fun c => c.trim.isNone) = true := by decide +kernel

/-- Two durable slots out of their sequence order, an ended trim and two bound answers, with `frames` in the response
queue. -/
def inTurn (frames : Nat) : Part :=
  let c := trimTo 32 .advanced { conf0 with openSlots := 2 }
  let p := withSlot (withSlot (inFlight0 c) 0 { committed0 with seq := 2, position := 64, reqTag := 2 }) 1
    { committed0 with reqTag := 1 }
  (p.modJournal 0 fun e =>
    { e with
      dir := { e.dir with snapshot := some { epoch := 0, conf := some ⟨.unassigned, 1, 16, none, 32, 128, 3⟩ } }
      boundFlight := [bound0, .forceRelease, .answer (sid 0) { code := 7, tag := 8, status := .ok }] }).modReq 0
    fun r => { r with respQ := List.replicate frames (.rdata 0 0 []) }

theorem witness_JournalWriteLands_inTurn :
    ∀ k ∈ [30, 31, 32], completing (inTurn k) (writing (.journal 0)) ∧ ((inTurn k).req 0).respQ.length = k
      ∧ (inTurn k).waits 0 = [] ∧ ((inTurn k).donesTo 0 [1, 0]).length = 2
      ∧ ((inTurn k).answersTo 0 (boundAnswers ((inTurn k).journal 0).boundFlight)).length = 2 := by decide +kernel

/-- The transfer of a claimant, and that of a FORCE_RELEASE. -/
theorem witness_TransfersComplete :
    (∀ cl ∈ [some (⟨sid 0, 9⟩ : Claimant), none],
      ((one { moving (some (sid 1)) cl with openSlots := 0 }).journal 0).conf = some { moving (some (sid 1)) cl with openSlots := 0 })
    ∧ ((one conf0).req (sid 0).port).session.tag = some 5 ∧ (one conf0).ret.running = true := by decide +kernel

def formatWriting : Access := directoryWrite (.formatWrite .header .b) .header .b (zeros 64)

theorem witness_FormatRuns :
    ((formatting base).formatPending = true ∧ (∀ n, (formatting base).slot n = none)
      ∧ (∀ j, (((formatting base).journal j).conf.any fun c => c.trim.isSome) = false)
      ∧ allItems.all (fun i => !((formatting base).dirOf i).inFlight) = true)
    ∧ (completing (base.modDir .header fun d => { d with copiesLeft := 1 }) formatWriting
      ∧ formatWriting.client = .formatWrite .header .b)
    ∧ completing (base.modDir .header fun d => { d with copiesLeft := 2 }) formatWriting := by decide +kernel

/-! ## Witnesses: sessions' ends and the port link -/

theorem witness_DetachEndsTheSession :
    (withReq (one own0) 0 [2, 7]).reachesBlock 0 codeDetach [2, 7] := by decide +kernel

/-- A session that owns journal 0, whose read pins the position that a trim waits for; port 1 subscribes to it; an
APPEND_DONE of the session waits on journal 1, which is TRANSFERRING to nobody. -/
def leaving : Part :=
  (((withSlot (withConf (attached
      (one (trimTo 64 .held { ownedBy 0 conf1 with pins := [0], subs := [0, 1] })) 1 6) 1
    { conf1 with base := 17, own := .transferring (some (sid 0)) 5 none, openSlots := 1, subs := [1] }) 0
      { committed0 with journal := 1 }).setRead 0 (some ctx0)).setWaits 0 [.appendDone 0])

theorem witness_DetachEndsTheSession_besides :
    (withReq leaving 0 [2, 7]).reachesBlock 0 codeDetach [2, 7]
      ∧ (withReq leaving 0 [2, 7]).cancels (sid 0) 0 = true ∧ (withReq leaving 0 [2, 7]).startsOf (sid 0) 0 = [0]
      ∧ (((withReq leaving 0 [2, 7]).journal 0).conf.bind fun c => (c.unpinned [0]).freesHead [0]).isSome = true
      ∧ (withReq leaving 0 [2, 7]).waitingOn 0 1 = 1
      ∧ (((withReq leaving 0 [2, 7]).journal 1).conf.any fun c => c.completesAt 1) = true := by decide +kernel

def up (p : Part) (f : LinkUnit → LinkUnit) : Part :=
  p.modLink 0 fun u => f { u with state := .up, cause := none, silenceTimer := true }

def entry0 : ReplayEntry := ⟨0, .rsp, [6, 7, 0, 0]⟩

def owed (k : Nat) : Part := up (one own0) fun u => { u with replayBuf := [entry0], nextSeq := 1, replayTimer := true, replayCount := k }

def nakHeader : Header := { seq := 0, ack := 63, nak := true, credit := 8 }
def plainHeader (seq : Seq) : Header := { seq := seq, ack := 63, nak := false, credit := 8 }

theorem witness_LinkLossEndsEverything :
    (owed 8).ret.running = true ∧ ((owed 8).link 0).state = .up ∧ ((owed 8).link 0).silenceTimer = true
      ∧ ((owed 8).link 0).replayTimer = true ∧ ((owed 8).link 0).replayBuf ≠ [] ∧ ((owed 8).link 0).replay = none
      ∧ 8 ≤ ((owed 8).link 0).replayCount
      ∧ (nakHeader.nak = true ∧ (((owed 8).link 0).heard nakHeader).replayBuf ≠ []
        ∧ (((owed 8).link 0).heard nakHeader).replay = none ∧ 8 ≤ (((owed 8).link 0).heard nakHeader).replayCount)
      ∧ ((owed 8).req 0).session.active = true
      ∧ ((up base id).req 0).session.active = false := by decide +kernel

/-- A LINK_RESET's header whose NAK flag starts a replay, and one that has none. -/
theorem witness_LinkLossEndsEverything_reset :
    (¬((owed 7).link 0).nakEnds nakHeader
      ∧ ((owed 7).link 0).takes nakHeader (((owed 7).link 0).heard nakHeader).replaying)
    ∧ (¬((owed 8).link 0).nakEnds (plainHeader 0)
      ∧ ((owed 8).link 0).takes (plainHeader 0) (((owed 8).link 0).heard (plainHeader 0))) := by
  refine ⟨⟨fun h => absurd h.2.2 (by decide), Or.inl ⟨rfl, ⟨by decide, by decide⟩, rfl⟩⟩, fun h => Bool.noConfusion h.1,
    Or.inr ⟨fun h => Bool.noConfusion h.1, rfl⟩⟩

def respFrame : RespFrame := .rsp { code := 6, tag := 7, status := .ok }

def queued (p : Part) (resp : List RespFrame) (ntf : List Ntf) (src : Source) : Part :=
  (p.modReq 0 fun r => { r with respQ := resp, prefers := src }).modNtf 0 fun n => { n with queue := ntf }

theorem witness_SelectorSends :
    (((up (one own0) id).link 0).state = .up ∧ ((up (one own0) id).link 0).replay = none
      ∧ ((up (one own0) id).link 0).replayBuf.length < 16
      ∧ ((up (one own0) id).link 0).replayBuf.length < ((up (one own0) id).link 0).report)
    ∧ (∀ p ∈ [queued (up (one own0) id) [respFrame] [] .notifications, queued (up (one own0) id) [respFrame] [.layout 0] .responses],
      (p.req 0).respQ = [respFrame] ∧ ((p.ntf 0).queue = [] ∨ (p.req 0).prefers = .responses))
    ∧ (∀ p ∈ [queued (up (one own0) id) [] [.layout 0] .responses, queued (up (one own0) id) [respFrame] [.layout 0] .notifications],
      (p.ntf 0).queue = [.layout 0] ∧ ((p.req 0).respQ = [] ∨ (p.req 0).prefers = .notifications)) := by decide +kernel

theorem witness_LinkSendsItsFrames :
    ((base.link 0).state = .down ∧ (base.link 0).cause = some .start)
    ∧ ((up base id).link 0).state = .up ∧ ((up base id).req 0).respQ = [] ∧ ((up base id).ntf 0).queue = []
    ∧ (((up base id).modLink 0 fun u => { u with report := 0 }).link 0).report
        ≤ (((up base id).modLink 0 fun u => { u with report := 0 }).link 0).replayBuf.length
    ∧ ((base.modLink 0 fun u => { u with cause := some .silence, resets := 8 }).link 0).cause = some .silence
    ∧ (((owed 1).modLink 0 fun u => { u with replay := some 0 }).link 0).replay = some 0
    ∧ (((owed 1).modLink 0 fun u => { u with replay := some 0 }).link 0).replayBuf[0]? = some entry0 := by decide +kernel

theorem witness_SequencedFramesAreClassified :
    (up (one own0) id).ret.running = true ∧ (zeros 512).length ≤ 512 ∧ ((up (one own0) id).link 0).state = .up
      ∧ ¬((up (one own0) id).link 0).nakEnds (plainHeader 0)
      ∧ ((up (one own0) id).link 0).takes (plainHeader 0) (((up (one own0) id).link 0).heard (plainHeader 0))
      ∧ ((owed 7).link 0).takes nakHeader (((owed 7).link 0).heard nakHeader).replaying
      ∧ (∀ d ∈ [(0 : Seq), 1, 47, 48, 63], (d - ((up (one own0) id).link 0).expected).toNat = d.toNat)
      ∧ ((up (one own0) id).req 0).buffer.length < 8
      ∧ 8 ≤ (((up (one own0) id).modReq 0 fun r => { r with buffer := List.replicate 8 ⟨true, []⟩ }).req 0).buffer.length
      ∧ ((fullQueue (one own0)).req 0).respQ.length = 32 := by
  refine ⟨by decide, by decide +kernel, by decide, fun h => ?_, Or.inr ⟨fun h => ?_, rfl⟩, Or.inl ⟨rfl, ?_, rfl⟩, by decide, by decide,
    by decide, by decide⟩
  · exact Bool.noConfusion h.1
  · exact Bool.noConfusion h.1
  · exact ⟨by decide, by decide⟩

theorem witness_IdleFramesAndFailures :
    ((up base id).link 0).state = .up ∧ ¬((up base id).link 0).nakEnds (plainHeader 1)
      ∧ ((up base id).link 0).takes (plainHeader 1) (((up base id).link 0).heard (plainHeader 1))
      ∧ 512 < (zeros 513).length ∧ (base.link 0).state = .down
      ∧ ((base.modLink 0 fun u => { u with state := .sync, cause := none }).link 0).state = .sync
      ∧ (((owed 7).link 0).replayTimer = true ∧ ((owed 7).link 0).triggered ∧ ((owed 7).link 0).replayCount < 8)
      ∧ ¬(((owed 7).modLink 0 fun u => { u with replay := some 0 }).link 0).triggered := by
  refine ⟨by decide, fun h => Bool.noConfusion h.1, Or.inr ⟨fun h => Bool.noConfusion h.1, rfl⟩, by decide +kernel, by decide,
    by decide, ⟨by decide, ⟨by decide, by decide⟩, by decide⟩, fun h => ?_⟩
  exact absurd h.2 (by decide)

def syncing (k : Nat) : Part :=
  base.modLink 0 fun u => { u with state := .sync, cause := none, syncCount := k, silenceTimer := true }

theorem witness_LinksComeUpThroughSync :
    ((base.link 0).state = .down ∧ ¬((base.link 0).cause = some .silence ∨ (base.link 0).cause = some .replayLimit))
    ∧ (∀ k ∈ [(7 : Nat), 8],
      ((base.modLink 0 fun u => { u with cause := some .replayLimit, resets := k }).link 0).resets = k)
    ∧ ((syncing 6).link 0).syncCount + 1 < 8 ∧ 8 ≤ ((syncing 7).link 0).syncCount + 1
    ∧ ((syncing 7).link 0).silenceTimer = true ∧ ((syncing 7).link 0).state = .sync := by decide +kernel

/-! ## Witnesses: the memory engine -/

def acc (cls : AccessClass) (addr bypass : Nat) : Access :=
  { kind := .read, cls := cls, addr := addr, mask := 0, data := [], client := .trim 0, bypass := bypass }

def engine (q : List Access) : MemEngine :=
  { cond := .active, queue := q, banks := Vector.replicate 16 { openRow := some 1 } }

/-- Each line of the choice: busy path, post-exit, urgent debt, directory, head at its limit, head a hit, a passed-over
head, entry order, opportunistic refresh. -/
theorem witness_ArbiterChooses :
    ((engine []).op = none ∧ (engine []).cond = .active ∧ (engine []).postExit = false ∧ (engine []).debt < 6)
    ∧ ({ engine [] with op := some .entry } : MemEngine).op ≠ none
    ∧ ({ engine [] with postExit := true } : MemEngine).postExit = true
    ∧ 6 ≤ ({ engine [] with debt := 6 } : MemEngine).debt
    ∧ (engine [acc .ordinary 0x20000 0, acc .directory 0x40 0]).queue[1]? = some (acc .directory 0x40 0)
    ∧ (4 ≤ (acc .ordinary 0x20000 4).bypass ∧ (engine [acc .ordinary 0x20000 4]).rowHit (acc .ordinary 0x20000 4) = false)
    ∧ (engine [acc .ordinary 0x10000 0]).rowHit (acc .ordinary 0x10000 0) = true
    ∧ ((acc .ordinary 0x20000 3).bypass < 4
      ∧ (engine [acc .ordinary 0x20000 3, acc .ordinary 0x10000 0]).rowHit (acc .ordinary 0x10000 0) = true)
    ∧ ({ engine [] with entryWaiting := true } : MemEngine).entryWaiting = true
    ∧ ({ engine [] with debt := 1 } : MemEngine).entryWaiting = false := by decide +kernel

def heldOne : Part :=
  (base.setRead 0 (some ctx0)).modMem fun m => { m with held := [acc .ordinary 0 0, readBurst], queue := List.replicate 54 (acc .ordinary 0 0) }

theorem witness_HeldAccessesAreAdmitted :
    heldOne.ret.running = true ∧ heldOne.mem.held[1]? = some readBurst ∧ sameClient readBurst.client (.readCtx 0) = true
      ∧ (∀ b ∈ heldOne.mem.held.take 1, sameClient b.client (.readCtx 0) = false)
      ∧ heldOne.mem.queue.length < 64 ∧ heldOne.mem.ordinary < 55 := by decide +kernel

theorem witness_AccessesReachDram : Memory.wf base.dram := by decide +kernel

theorem witness_RefreshesAreAccounted :
    (∀ d ∈ [(0 : Nat), 7, 8], (base.modMem fun m => { m with debt := d }).mem.refreshTimer = true)
      ∧ (withOp base (.refresh .urgent)).mem.op = some (.refresh .urgent) ∧ base.ret.running = true := by decide +kernel

theorem witness_DramOrdersComplete :
    ((withOp base .initialise).mem.op = some .initialise ∧ base.ctl.work ≠ .coldInit)
    ∧ ((withOp base .exit).mem.op = some .exit ∧ base.ctl.work ≠ .coldExit ∧ base.ctl.work ≠ .restoreExit)
    ∧ ((withOp base .entry).mem.op = some .entry ∧ base.ret.mode = .serving)
    ∧ ((inMode (withOp base .entry) .quiescing).ret.mode = .quiescing
      ∧ (inMode (withOp base .entry) .quiescing).ctl.drainOrdered = false) := by decide +kernel

/-! ## Witnesses: cold start, restore, quiesce and power -/

def working (p : Part) (w : Work) : Part := p.modCtl fun c => { c with work := w }

theorem witness_ColdStartFills :
    (State.reset.part.mem.op = some .initialise ∧ State.reset.part.ctl.work = .coldInit
      ∧ State.reset.part.ctl.abandoned = false ∧ State.reset.part.ret.running = true)
    ∧ (working (withOp base .exit) .coldExit).mem.op = some .exit
    ∧ (working (withOp base .exit) .coldExit).ctl.work = .coldExit := by decide +kernel

def coldWriting : Access := directoryWrite (.coldWrite .header .a) .header .a (zeros 64)

theorem witness_ColdStartEnds :
    (completing (working (inMode base .initializing) .coldWrites) coldWriting
      ∧ coldWriting.client = .coldWrite .header .a)
    ∧ ((working (inMode base .initializing) .coldWrites).ret.mode = .initializing
      ∧ (working (inMode base .initializing) .coldWrites).ctl.work = .coldWrites
      ∧ allItems.all (fun i => decide (((working (inMode base .initializing) .coldWrites).dirOf i).copiesLeft = 0)) = true) := by
  decide +kernel

/-- A cold start or restore that PFAIL_N has abandoned. -/
def abandonedIn (m : Mode) : Part := (inMode base m).modCtl fun c => { c with abandoned := true }

/-- An access of each client completes in an abandoned cold start or restore. -/
theorem witness_AbandonedWork :
    (∀ m ∈ [Mode.initializing, .restoring], (abandonedIn m).ctl.abandoned = true ∧ (abandonedIn m).ret.mode = m
      ∧ ∀ a ∈ [coldWriting, readAccess (.load .header .b) 0x1000, readAccess (.load (.journal 7) .a) 0x200,
          directoryWrite (.rewrite .header .b) .header .b (zeros 64)],
        completing (abandonedIn m) a ∧ (running a (abandonedIn m)).ctl.abandoned = true) := by decide +kernel

def headerImage : List Byte := headerBytes 3 {} [75, 75, 75, 75, 75, 75, 75, 100] 9

def loadB (i : Item) : Access := readAccess (.load i .b) (itemAddr i .b)

def loadedA (p : Part) (i : Item) (bytes : List Byte) : Part := p.modCtl fun c => { c with loaded := [⟨i, .a, bytes⟩] }

/-- The first load, a valid copy, and no valid copy. -/
theorem witness_HeaderIsRestored :
    ((working (withOp base .exit) .restoreExit).mem.op = some .exit
      ∧ (working (withOp base .exit) .restoreExit).ctl.work = .restoreExit)
    ∧ (completing (working (inMode base .restoring) .headerLoad) (loadB .header) ∧ (loadB .header).kind = .read
      ∧ (loadB .header).client = .load .header .b
      ∧ (working (inMode base .restoring) .headerLoad).ctl.loaded = [])
    ∧ ((loadedA base .header headerImage).ctl.loadOf .header .a = some headerImage
      ∧ (∀ l ∈ (loadedA base .header headerImage).ctl.loaded, l.item = .header → l.copy ≠ .b)
      ∧ chooseCopy (fun bs => (headerRecord bs).isSome) headerImage (zeros 64) = some (.a, headerImage)
      ∧ (headerRecord headerImage).isSome = true)
    ∧ chooseCopy (fun bs => (headerRecord bs).isSome) (zeros 64) (zeros 64) = none := by decide +kernel

def entryImage (c : SnapConf) : List Byte := entryBytes 0 { epoch := 3, conf := some c } 9

/-- The first load, no valid copy, a region out of range, an UNCONFIGURED entry, an OWNED one and an UNASSIGNED one. -/
theorem witness_EntriesAreRestored :
    (completing (inMode base .restoring) (loadB (.journal 0)) ∧ (inMode base .restoring).ctl.loaded = [])
    ∧ (completing (loadedA (inMode base .restoring) (.journal 0) (zeros 64)) (loadB (.journal 0))
      ∧ (loadB (.journal 0)).client = .load (.journal 0) .b
      ∧ (loadedA (inMode base .restoring) (.journal 0) (zeros 64)).ctl.loadOf (.journal 0) .a = some (zeros 64)
      ∧ (loadedA (inMode base .restoring) (.journal 0) (zeros 64)).ctl.abandoned = false)
    ∧ chooseCopy (copyValid (.journal 0)) (zeros 64) (zeros 64) = none
    ∧ chooseCopy (copyValid (.journal 0)) (entryImage ⟨.owned, 1, 15, some 5, 0, 64, 2⟩) (zeros 64)
      = some (.a, entryImage ⟨.owned, 1, 15, some 5, 0, 64, 2⟩)
    ∧ base.entryOk 0 (entryRecord (entryImage ⟨.owned, 1, 15, some 5, 0, 64, 2⟩)) = false
    ∧ base.entryOk 0 (entryRecord (entryImage ⟨.owned, 1, 16, some 5, 0, 1048576, 2⟩)) = true
    ∧ base.entryOk 0 (entryRecord (entryImage ⟨.unassigned, 1, 32767, none, 0, 0, 1⟩)) = true
    ∧ base.entryOk 0 (entryRecord (entryImage ⟨.owned, 1, 16, none, 0, 64, 2⟩)) = false
    ∧ base.entryOk 0 (entryRecord (entryBytes 0 { epoch := 0, conf := none } 9)) = true := by decide +kernel

def rewriting (i : Item) : Access := directoryWrite (.rewrite i .b) i .b (zeros 64)

def allRebuilt (p : Part) : Part := p.modCtl fun c => { c with rebuilt := [0, 1, 2, 3, 4, 5, 6, 7] }

theorem witness_RestoresEnd :
    (∀ k ∈ [(1 : Nat), 2],
      completing ((working (inMode base .restoring) .entryRewrite).modDir (.journal 0) fun d => { d with copiesLeft := k })
        (rewriting (.journal 0)))
    ∧ (∀ w ∈ [Work.entryLoad, .headerRewrite],
      (allRebuilt (working (inMode (one (heldBy 5 .stopped)) .restoring) w)).restoreDue = true
        ∧ (allRebuilt (working (inMode (one (heldBy 5 .stopped)) .restoring) w)).ret.mode = .restoring) := by
  decide +kernel

theorem witness_QuiesceBegins :
    (one own0).serving ∧ (one own0).ret.retentionPower = true ∧ (one own0).ret.pfailHigh = true
      ∧ ((one own0).req 0).session.active = true ∧ (∀ k, k ≠ 0 → ((one own0).req k).session.active = false)
      ∧ (withReq (one own0) 0 claimReq).serving ∧ ((withReq (one own0) 0 claimReq).req 0).buffer.length = 1 := by
  decide +kernel

def drained : Part := inMode base .quiescing

def ordered (high : Bool) (cause : QuiesceCause) : Part :=
  ((withOp drained .entry).modCtl fun c => { c with drainOrdered := true }).modRet fun r =>
    { r with pfailHigh := high, cause := some cause }

theorem witness_QuiesceEnds :
    (drained.ret.running = true ∧ drained.ret.mode = .quiescing ∧ drained.drained = true
      ∧ drained.ctl.drainOrdered = false ∧ drained.mem.cond = .active)
    ∧ (∀ h ∈ [true, false], ∀ c ∈ [QuiesceCause.pfail, .saveAndHalt],
      (ordered h c).ctl.drainOrdered = true ∧ (ordered h c).mem.op = some .entry ∧ (ordered h c).ret.pfailHigh = h
        ∧ (ordered h c).ret.cause = some c ∧ (ordered h c).ret.mode = .quiescing) := by decide +kernel

theorem witness_PowerFailOutsideServing :
    (∀ m ∈ [Mode.quiescing, .halted, .initializing, .restoring],
      (inMode base m).ret.retentionPower = true ∧ (inMode base m).ret.pfailHigh = true ∧ (inMode base m).ret.running = true
        ∧ (inMode base m).ctl.abandoned = false ∧ (inMode base m).mem.cond = .active)
    ∧ (∀ m ∈ [Mode.initializing, .restoring],
      (abandonedIn m).ret.retentionPower = true ∧ (abandonedIn m).ret.pfailHigh = true
        ∧ (abandonedIn m).ret.running = true ∧ (abandonedIn m).ret.mode = m ∧ (abandonedIn m).ctl.abandoned = true)
    ∧ (withOp (base.modMem fun m => { m with cond := .selfRefresh }) .exit).mem.op = some .exit
    ∧ State.reset.part.mem.cond = .uninitialised
    ∧ (base.modRet fun r => { r with running := false }).ret.running = false := by decide +kernel

/-- The entry of an abandoned cold start or restore, PFAIL_N low, and high again with and without main power. -/
theorem witness_AbandonedWorkIsRetained :
    ∀ m ∈ [Mode.initializing, .restoring], ∀ high ∈ [true, false], ∀ power ∈ [true, false], ∀ flag ∈ [true, false],
      let p := (withOp (abandonedIn m) .entry).modRet fun r =>
        { r with pfailHigh := high, mainPower := power, flag := flag }
      p.ret.running = true ∧ p.ret.mode = m ∧ p.ctl.abandoned = true ∧ p.mem.op = some .entry
        ∧ p.ret.retentionPower = true ∧ p.ret.rstHigh = true ∧ p.ret.mainPower = power ∧ p.ret.pfailHigh = high
        ∧ p.ret.flag = flag := by decide +kernel

/-- A stopped part with these lines, flag and record. -/
def stoppedPart (f : Retention → Retention) : Part := base.modRet fun r => f { r with running := false }

theorem witness_MainDomainStarts :
    (∀ flag ∈ [true, false], ∀ high ∈ [true, false],
      (stoppedPart fun r => { r with flag := flag, selfRefresh := flag, pfailHigh := high }).ret.running = false
        ∧ (stoppedPart fun r => { r with flag := flag, selfRefresh := flag, pfailHigh := high }).ret.retentionPower = true
        ∧ (stoppedPart fun r => { r with flag := flag, selfRefresh := flag, pfailHigh := high }).ret.mode ≠ .retaining)
    ∧ (stoppedPart fun r => { r with mainPower := false }).ret.rstHigh = true
    ∧ (stoppedPart fun r => { r with rstHigh := false }).ret.mainPower = true
    ∧ (stoppedPart fun r => { r with pfailHigh := false, mode := .retaining }).ret.mode = .retaining := by decide +kernel

theorem witness_MainDomainStops :
    base.ret.running = true ∧ base.ret.mainPower = true ∧ base.ret.rstHigh = true ∧ base.ret.selfRefresh = false
      ∧ ((inMode base .halted).modRet fun r => { r with selfRefresh := true }).mem.op ≠ some .exit := by decide +kernel

/-- Power and RST_N go while the main domain does not run; lines and supplies come while no start is possible. -/
theorem witness_LinesAloneAreTaken :
    (∀ sr ∈ [true, false], (stoppedPart fun r => { r with selfRefresh := sr }).ret.selfRefresh = sr
      ∧ (stoppedPart fun r => { r with selfRefresh := sr }).ret.mainPower = true
      ∧ (stoppedPart fun r => { r with selfRefresh := sr }).ret.rstHigh = true)
    ∧ (stoppedPart fun r => { r with mainPower := false, rstHigh := false }).ret.mainPower = false
    ∧ (stoppedPart fun r => { r with mainPower := false, rstHigh := false }).ret.rstHigh = false
    ∧ (base.modRet fun r => { r with pfailHigh := false }).ret.running = true
    ∧ (base.modRet fun r => { r with pfailHigh := false }).ret.retentionPower = true
    ∧ (stoppedPart fun r => { r with pfailHigh := false, mode := .retaining, mainPower := false }).ret.mainPower = false := by
  decide +kernel

/-! ## Witnesses: the maintenance port -/

theorem witness_MaintenanceModesAreChecked :
    (modesOf .format = some [.serving] ∧ (inMode base .halted).ret.mode ∉ [Mode.serving])
      ∧ (inMode base .quiescing).ret.mode = .quiescing ∧ maintenanceParams 0x00 = none ∧ maintenanceParams 0x0E = none
      ∧ ((0 : Byte) = 0 ∨ 0x0E ≤ (0 : Byte).toNat) ∧ 0x0E ≤ (0x0E : Byte).toNat
      ∧ ((0x03#8, 5) ∈ [(0x02#8, 1), (0x03, 5), (0x04, 1), (0x05, 4), (0x06, 1), (0x0A, 2), (0x0C, 3), (0x0D, 3)]
        ∧ [(0 : Byte), 0, 0, 0].length < 5)
      ∧ cutShort [] = true ∧ cutShort [0x03, 0, 0, 0, 0] = true ∧ base.ret.running = true := by decide +kernel

/-- Each clause about the pins: a stopped part, and the three states of progress with a byte that ends the parameters and
one that does not. -/
theorem witness_PinsDriveTransactions :
    (stoppedPart id).ret.running = false ∧ base.ret.running = true ∧ base.maint.spi = .waiting
      ∧ (base.modMaint fun m => { m with spi := .receiving [0x03, 0, 0, 0] }).maint.spi = .receiving [0x03, 0, 0, 0]
      ∧ cutShort ([0x03, 0, 0, 0] ++ [0]) = true ∧ cutShort ([0x03, 0, 0, 0, 0] ++ [0]) = false
      ∧ (base.modMaint fun m => { m with spi := .responding 2 }).maint.spi = .responding 2 := by decide +kernel

theorem witness_MaintenanceReports :
    base.ret.running = true ∧ base.ret.mode ≠ .retaining ∧ base.ret.mode ∈ [Mode.serving, .quiescing, .halted]
      ∧ (8 : Byte).toNat = 8 ∧ (7 : Byte).toNat = (7 : JournalId).val ∧ (base.journal 7).conf = none
      ∧ ((one conf1).journal 0).conf = some conf1
      ∧ (base.counterBlock (0x00 : Byte).toNat)[(10 : Byte).toNat]? = some 0
      ∧ (base.counterBlock (0x00 : Byte).toNat)[(11 : Byte).toNat]? = none
      ∧ (base.counterBlock (0x22 : Byte).toNat)[(3 : Byte).toNat]? = some 0
      ∧ (base.counterBlock (0x23 : Byte).toNat)[(0 : Byte).toNat]? = none := by decide +kernel

theorem witness_SetLayoutGivesARegion :
    base.serving ∧ (formatHeld base).serving ∧ (formatHeld base).formatPending = true
    ∧ (base.layoutOk 7 32752 16 = true ∧ base.layoutOk 0 1 32767 = true ∧ base.layoutOk 0 1 16 = true)
    ∧ (base.layoutOk 7 32753 16 = false ∧ base.layoutOk 0 0 16 = false ∧ base.layoutOk 0 1 15 = false
      ∧ base.layoutOk 0 1 32768 = false)
    ∧ ((one conf0).layoutOk 1 16 16 = false ∧ (one conf0).layoutOk 1 17 16 = true ∧ (one conf0).layoutOk 0 17 16 = false)
    := by decide +kernel

theorem witness_ClearLayoutTakesTheRegion :
    (one conf0).serving ∧ ((one conf0).journal 0).clearable = true ∧ conf0.subs.Nodup
      ∧ ((one own0).journal 0).clearable = false ∧ (base.journal 0).clearable = false
      ∧ ((one { conf0 with pins := [0] }).journal 0).clearable = false := by decide +kernel

/-- Each parameter at the ends of its range, and just outside. -/
theorem witness_SetParamChecksAndReplaces :
    base.serving
      ∧ [(1 : W16), 255].all (fun v => decide (1 ≤ v.toNat ∧ v.toNat ≤ 255)) = true ∧ [(0 : W16), 256].all (fun v => decide ¬(1 ≤ v.toNat ∧ v.toNat ≤ 255)) = true
      ∧ (60000 : W16).toNat ≤ 60000 ∧ 60000 < (60001 : W16).toNat
      ∧ [(4 : W16), 8].all (fun v => decide (4 ≤ v.toNat ∧ v.toNat ≤ 8)) = true ∧ [(3 : W16), 9].all (fun v => decide ¬(4 ≤ v.toNat ∧ v.toNat ≤ 8)) = true
      ∧ (1 : W16).toNat ≤ 1 ∧ 2 ≤ (2 : W16).toNat
      ∧ [(50 : W16), 100].all (fun v => decide (50 ≤ v.toNat ∧ v.toNat ≤ 100)) = true ∧ [(49 : W16), 101].all (fun v => decide ¬(50 ≤ v.toNat ∧ v.toNat ≤ 100)) = true
      ∧ (7 : Byte).toNat = (7 : JournalId).val ∧ 8 ≤ (8 : Byte).toNat ∧ 6 ≤ (6 : Byte).toNat := by decide +kernel

def waitingFor (c : DeferredCommand) (p : Part) : Part := p.modMaint fun m => { m with deferred := .waiting c }

theorem witness_ForceReleaseByState :
    base.serving ∧ (waitingFor .format base).maint.deferred = .waiting .format
      ∧ (base.journal 0).conf = none ∧ (∀ j : JournalId, (8 : Byte).toNat ≠ j.val)
      ∧ ((formatting (one conf0)).formatPending = true ∧ (one conf0).formatPending = false)
      ∧ conf0.own = .unassigned ∧ (moving none none).own = .transferring none 5 none
      ∧ (own0.own ≠ .unassigned ∧ ((withEpoch (one own0) 0 0xFFFFFFFF#32).journal 0).epoch = 0xFFFFFFFF#32)
      ∧ ((heldBy 5 .expired).own = .held 5 .expired ∧ ((one (heldBy 5 .expired)).journal 0).epoch ≠ 0xFFFFFFFF#32)
      ∧ (own0.own = .owned (sid 0) 5 ∧ own0.openSlots = 0 ∧ ({ own0 with openSlots := 1 } : Conf).openSlots ≠ 0)
      ∧ Bound.forceRelease ∉ ((one own0).journal 0).boundNext ++ ((one own0).journal 0).boundFlight
      ∧ (fencing.serving ∧ fencing.live (sid 1) = false
        ∧ (fencing.journal 0).conf = some { ownedBy 1 conf0 with openSlots := 1 }
        ∧ (fencing.voidHeaders .fenced fun x => x.fencedBy 0 (sid 1)).length = 1)
      ∧ ((one { own0 with subs := [1] }).serving ∧ (one { own0 with subs := [1] }).live (sid 0) = true) := by decide +kernel

/-- The events that ATTN_N follows, and each way to RETAINING and to a low RST_N. -/
theorem witness_AttentionLineFollows :
    (base.ret.running = true ∧ base.ret.mode ≠ .retaining ∧ base.maint.mask.getLsbD 0 = true
      ∧ base.maint.mask.getLsbD 15 = true ∧ base.ret.rstHigh = true)
    ∧ ((stoppedPart fun r => { r with mode := .retaining }).ret.running = false)
    ∧ ((inMode base .halted).ret.mode = .halted ∧ (inMode base .halted).ret.retentionPower = true
      ∧ (inMode base .halted).ret.pfailHigh = true)
    ∧ ((ordered false .pfail).ret.mode = .quiescing ∧ (ordered false .pfail).ctl.drainOrdered = true
      ∧ (ordered false .pfail).mem.op = some .entry ∧ (ordered false .pfail).ret.pfailHigh = false) := by decide +kernel

theorem witness_ResumeAndFormat :
    ((inMode (base.modMem fun m => { m with cond := .selfRefresh }) .halted).ret.mode = .halted
      ∧ (base.modMem fun m => { m with cond := .selfRefresh }).mem.op = none)
    ∧ (base.ret.mode = .serving ∧ ∃ i, ((attached base 3 5).req i).session.active = true)
    ∧ (∀ i, (base.req i).session.active = false) ∧ base.maint.deferred = .none
    ∧ (waitingFor (.forceRelease 7) base).maint.deferred = .waiting (.forceRelease 7) := by decide +kernel

/-! ## Witnesses: formats -/

theorem witness_DirectoryCopiesReadBack :
    1 ≤ (1 : Byte).toNat ∧ (60000 : W16).toNat ≤ 60000 ∧ 4 ≤ (4 : Byte).toNat ∧ (8 : Byte).toNat ≤ 8
      ∧ [(50 : Byte), 50, 50, 50, 100, 100, 100, 100].length = 8
      ∧ ∀ w ∈ [(50 : Byte), 50, 50, 50, 100, 100, 100, 100], 50 ≤ w.toNat ∧ w.toNat ≤ 100 := by decide +kernel

theorem witness_FramesAreReceivedAsTheySpell :
    15 < 16 ∧ (zeros 512).length ≤ 512 ∧ [(1 : Byte)] ≠ [] ∧ (0x02 : Byte) ∉ [0x00#8, 0x01, 0x10, 0x11, 0x20, 0x21, 0x22]
      ∧ 8 ≤ (zeros 8).length
      ∧ leNat ((zeros 8).drop ((zeros 8).length - 2)) ≠ (crc16 ((zeros 8).take ((zeros 8).length - 2))).toNat := by
  decide +kernel

/-! ## One step of small states -/

/-- The part after a command that answers a next state. -/
def after (c : Instr) (p : Part) : Part :=
  match exec c (state p) with
  | .next t => t.part
  | _ => p

theorem test_reset_idles : step State.reset = .next State.reset := rfl

/-- The initialise operation of reset completes: nine items, two copies each, the first in flight (R22, R162). -/
theorem test_initialise_hands_eighteen_writes :
    (after .initialiseComplete State.reset.part).ctl.work = .coldWrites
      ∧ (after .initialiseComplete State.reset.part).mem.queue.length = 17
      ∧ (after .initialiseComplete State.reset.part).mem.op.isSome = true
      ∧ (after .initialiseComplete State.reset.part).header.layoutGen = some 0 := by decide +kernel

theorem test_attach_opens_generation_one :
    ((after (.attach 0) (withReq base 0 attachReq)).req 0).session = { active := true, tag := some 5, gen := 1 }
      ∧ ((after (.attach 0) (withReq base 0 attachReq)).req 0).respQ.length = 1 := by decide +kernel

theorem test_claim_raises_epoch_and_starts_write :
    ((after (.claim 0) (withReq (one conf0) 0 claimReq)).journal 0).epoch = 1
      ∧ ((after (.claim 0) (withReq (one conf0) 0 claimReq)).journal 0).state = .owned
      ∧ ((after (.claim 0) (withReq (one conf0) 0 claimReq)).journal 0).dir.inFlight = true
      ∧ ((after (.claim 0) (withReq (one conf0) 0 claimReq)).req 0).tags = [7] := by decide +kernel

theorem test_append_takes_slot_zero :
    ((after (.append 0) (withReq (one own0) 0 (appendReq 32))).slot 0).map (fun x => (x.state, x.seq, x.occupancy))
        = some (.receiving, 1, 64)
      ∧ ((after (.append 0) (withReq (one own0) 0 (appendReq 32))).journal 0).conf.map Conf.reserve = some 64 := by
  decide +kernel

/-- A record near the end of the region goes to the region's start, behind a pad (R13). -/
theorem test_append_near_the_end_places_a_pad :
    ((after (.append 0) (withReq (one nearEnd) 0 (appendReq 32))).slot 0).map (fun x => (x.position, x.outstanding))
      = some (1048576, 1) := by decide +kernel

theorem test_whole_payload_lands :
    ((after (.data 0) (withData (open0 { slot0 0 with declared := crc32 (zeros 32) }) 0 (dataOf 0 (zeros 32)))).slot 0).map
      (fun x => (x.state, x.outstanding)) = some (.landing, 2) := by decide +kernel

/-- SET_LAYOUT with its words low byte first, a byte too many, and one too few. -/
theorem test_transaction_bytes :
    transactionCommand [0x03, 7, 0x34, 0x12, 0x10, 0x00, 0xEE] = .setLayout 7 0x1234 16
      ∧ transactionCommand [0x03, 7, 0x34, 0x12, 0x10] = .spiCutShort [0x03, 7, 0x34, 0x12, 0x10]
      ∧ transactionCommand [0x0D, 1, 2, 3] = .setAttentionMask 0x030201 := by decide +kernel

theorem test_first_resolved_slot_commits :
    ((after .appendWriteComplete
        (running headerWrite (open0 { slot0 0 with state := .landing, outstanding := 1 }))).slot 0).map Slot.state
        = some .committed := by decide +kernel

theorem test_header_bytes_reach_dram :
    Memory.readBytes (after .appendWriteComplete
        (running headerWrite (open0 { slot0 0 with state := .landing, outstanding := 1 }))).dram 0x10000 32
      = (slot0 0).header := by decide +kernel

theorem test_read_at_the_frontier_is_answered :
    ((after (.read 0) (withReq (one conf1) 0 (readReq 64 1))).req 0).respQ
      = [.rsp { code := 10, tag := 7, status := .ok, atFrontier := true, values := .read 0 64 }] := by decide +kernel

theorem test_read_crossing_a_burst_hands_two :
    ((after (.read 0) (withReq (one conf1) 0 (readReq 0 64))).readCtx 0).map ReadCtx.outstanding = some 1
      ∧ (conf1.bursts 32 256).length = 5 ∧ (conf1.bursts 0 256).length = 4 := by decide +kernel

theorem test_detach_holds_the_journal :
    ((after (.detach 0) (withReq (one own0) 0 [2, 7])).journal 0).state = .held
      ∧ ((after (.detach 0) (withReq (one own0) 0 [2, 7])).req 0).session.active = false
      ∧ (after (.detach 0) (withReq (one own0) 0 [2, 7])).maint.pending = 0x0100#16 := by decide +kernel

/-- The end of a session unpins its read, moves the head, tells the subscriber of both journals, and completes the transfer
that its waiting APPEND_DONE held up. -/
theorem test_detach_unpins_and_completes :
    let q := after (.detach 0) (withReq leaving 0 [2, 7])
    (q.journal 0).conf.map (fun c => (c.state, c.head, c.pins, c.subs)) = some (.held, 64, [], [1])
      ∧ (q.journal 1).conf.map (fun c => (c.state, c.openSlots)) = some (.unassigned, 0) ∧ (q.journal 1).epoch = 1
      ∧ (q.ntf 1).queue = [.owner 0 .held 0 (some 5), .owner 1 .unassigned 1 none] ∧ q.slot 0 = none := by decide +kernel

/-- The release of a transfer's last slot hands the journal over in the same event, and the write that records it starts. -/
theorem test_last_release_completes_the_transfer :
    let q := after (.appendDoneRelease 0) (lastSlot claimant1)
    let r := after .directoryWriteComplete (running (writing (.journal 0)) (lastInFlight none))
    ((q.journal 0).conf.map Conf.own = some (.owned (sid 1) 6) ∧ (q.journal 0).epoch = 1
        ∧ (q.journal 0).boundFlight.length = 1 ∧ (q.ntf 1).queue = [.owner 0 .owned 1 (some 6)]
        ∧ (q.req 0).respQ.length = 1)
      ∧ (r.journal 0).conf.map Conf.own = some .unassigned ∧ (r.journal 0).dir.inFlight = true
      ∧ (r.ntf 1).queue = [.owner 0 .unassigned 1 none, .frontier 0 1 64] := by decide +kernel

theorem test_eighth_idle_enters_up :
    ((after (.idleFrame 0 (plainHeader 0)) (syncing 7)).link 0).state = .up
      ∧ ((after (.idleFrame 0 (plainHeader 0)) (syncing 6)).link 0).state = .sync := by decide +kernel

theorem test_ninth_trigger_takes_the_link_down :
    ((after (.replayTimerExpiry 0) (owed 7)).link 0).state = .up
      ∧ ((after (.replayTimerExpiry 0) (owed 8)).link 0).cause = some .replayLimit := by decide +kernel

theorem test_reset_frame_takes_its_header_first :
    (((after (.linkResetFrame ⟨0, nakHeader⟩) (owed 8)).link 0).cause = some .replayLimit)
      ∧ ((after (.linkResetFrame ⟨0, nakHeader⟩) (owed 7)).link 0).cause = some .linkReset
      ∧ ((after (.linkResetFrame ⟨0, nakHeader⟩) (owed 7)).link 0).cnt.replays = 1 := by decide +kernel

theorem test_row_hit_passes_the_head_over :
    ((engine [acc .ordinary 0x20000 3, acc .ordinary 0x10000 0]).arbitrate 6).queue = [acc .ordinary 0x20000 4]
      ∧ ((engine [acc .ordinary 0x20000 4, acc .ordinary 0x10000 0]).arbitrate 6).op
        = some (.access (acc .ordinary 0x20000 4)) := by decide +kernel

/-- An idle part drains at once: the fall of PFAIL_N gives the entry order, which is chosen (R164, R165). -/
theorem test_pfail_fall_in_an_idle_part_orders_the_entry :
    (after .pfailNFall base).ret.mode = .quiescing ∧ (after .pfailNFall base).mem.op = some .entry := by decide +kernel

theorem test_entry_with_pfail_low_retains :
    (after .selfRefreshEntryComplete (ordered false .pfail)).ret.mode = .retaining
      ∧ (after .selfRefreshEntryComplete (ordered false .pfail)).ret.flag = true
      ∧ (after .selfRefreshEntryComplete (ordered true .saveAndHalt)).ret.mode = .halted
      ∧ (after .selfRefreshEntryComplete (ordered true .pfail)).ret.mode = .restoring := by decide +kernel

/-- Main power goes in RETAINING: the MODE entry that the quiesce left is lost with the rest. -/
theorem test_power_loss_in_retaining_empties_the_queues :
    let p := (stoppedPart fun r => { r with mode := .retaining, flag := true, selfRefresh := true }).modNtf 0 fun n =>
      { n with queue := [.mode .quiescing], modeRetained := true }
    ((after .mainPowerLoss p).ntf 0).queue = [] ∧ ((after .mainPowerLoss p).ntf 0).modeRetained = false
      ∧ (after .mainPowerLoss p).ret.flag = true := by decide +kernel

theorem test_owned_entry_is_rebuilt_held :
    ((after .entryLoadComplete
        (running (loadB (.journal 0))
          (loadedA (inMode base .restoring) (.journal 0) (entryImage ⟨.owned, 1, 16, some 5, 0, 64, 2⟩)))).journal 0).conf.map
        (fun c => (c.own, c.reserve, c.nextSeq)) = some (.held 5 .stopped, 64, 2) := by decide +kernel

theorem test_status_read_has_23_bytes :
    (after .readStatus base).maint.response.length = 23
      ∧ (after (.readJournal 0) (one conf1)).maint.response.length = 88
      ∧ (after (.readJournal 1) (one conf1)).maint.response.length = 88 := by decide +kernel

theorem test_format_in_an_idle_part_is_carried_out_at_once :
    (after .format (withConf base 0 conf0)).formatPending = false
      ∧ ((after .format (withConf base 0 conf0)).journal 0).conf = none
      ∧ (after .format (withConf base 0 conf0)).header.layoutGen = some 1
      ∧ (after .format (withConf base 0 conf0)).mem.queue.length = 17 := by decide +kernel

/-- An empty queue, and these events still to come on the SPI pins. -/
def pinned (p : Part) (wire : List SpiEvent) : State := { pending := [], part := p, pins := { wire := wire } }

def spiAt (x : SpiProgress) (p : Part) : Part := p.modMaint fun m => { m with spi := x }

/-- The state after one step of a part whose pins bring one event. -/
def onPins (e : SpiEvent) (p : Part) : State :=
  match step (pinned p [e]) with
  | .next t => t
  | _ => state p

/-- A fall begins a transaction; its bytes return 00h, and the last one carries the command out (R176). -/
theorem test_spi_command_and_parameter_phase :
    (onPins .fall base).part.maint.spi = .receiving []
      ∧ (onPins (.clock 0x02) (spiAt (.receiving []) base)).part.maint.spi = .receiving [0x02]
      ∧ (onPins (.clock 0x02) (spiAt (.receiving []) base)).pins.out = some 0
      ∧ (onPins (.clock 0) (spiAt (.receiving [0x02]) base)).part.maint.spi = .responding 0
      ∧ (onPins (.clock 0) (spiAt (.receiving [0x02]) base)).part.maint.response.length = 88
      ∧ (onPins (.clock 0) (spiAt (.receiving [0x02]) base)).pins.out = some 0
      ∧ (onPins (.clock 0x0E) (spiAt (.receiving []) base)).part.maint.cnt.badCommand = 1 := by decide +kernel

/-- The response comes status first, then 00h; a rise loses what is left of it (R176). -/
theorem test_spi_response_phase :
    (onPins (.clock 0) (after .readStatus base)).pins.out = some 0
      ∧ (onPins (.clock 0) (spiAt (.responding 1) (after .readStatus base))).pins.out = some 2
      ∧ (onPins (.clock 0) (spiAt (.responding 23) (after .readStatus base))).pins.out = some 0
      ∧ (onPins (.clock 0) (after .readStatus base)).part.maint.spi = .responding 1
      ∧ (onPins .rise (after .readStatus base)).part.maint.spi = .waiting
      ∧ (onPins .rise (after .readStatus base)).part.maint.cnt.completed = 1 := by decide +kernel

/-- A transaction cut short is counted; one whose chip select fell before the start is not taken, and a start of the main
domain leaves the port waiting; a stopped part returns FFh (R176). -/
theorem test_spi_edges :
    (onPins .rise (spiAt (.receiving [0x02]) base)).part.maint.cnt.cutShort = 1
      ∧ (onPins .rise (spiAt (.receiving [0x02]) base)).part.maint.spi = .waiting
      ∧ (onPins (.clock 0x02) base).part = base ∧ (onPins .rise base).part = base
      ∧ (after .mainDomainStart (spiAt (.receiving [0x02]) (stoppedPart id))).maint.spi = .waiting
      ∧ (onPins (.clock 0x02) (stoppedPart id)).pins.out = some 0xFF
      ∧ (onPins .fall (stoppedPart id)).part = stoppedPart id := by decide +kernel

/-- The byte returned for a transaction that is not taken is the free value's (log 48). -/
theorem test_spi_untaken_byte :
    (onPins (.clock 0x02) base).pins.out = some (Config.untakenByte 0) ∧ (onPins (.clock 0x02) base).pins.untaken = 1 :=
  ⟨rfl, by decide +kernel⟩

/-- The APPEND_DONEs in sequence order, then the trim's answer, then the bound ones: those without a frame wait. -/
theorem test_releases_in_turn :
    ((after .directoryWriteComplete (running (writing (.journal 0)) (inTurn 30))).waits 0).drop 1
        = [.answer { code := 6, tag := 7, status := .ok, values := .epoch 1 }, .answer { code := 7, tag := 8, status := .ok }]
      ∧ (after .directoryWriteComplete (running (writing (.journal 0)) (inTurn 31))).waits 0 ≠ []
      ∧ ((after .directoryWriteComplete (running (writing (.journal 0)) (inTurn 31))).waits 0).head? = some (.appendDone 0)
      ∧ ((after .directoryWriteComplete (running (writing (.journal 0)) (inTurn 32))).waits 0).take 2
        = [.appendDone 1, .appendDone 0] := by decide +kernel

/-- ATTN_N is low while an enabled cause is pending and the main domain runs (R184). -/
theorem test_attention_line :
    (base.raise causeColdStart).attnLow = true ∧ base.attnLow = false
      ∧ ((base.raise causeColdStart).modMaint fun m => { m with mask := 0xFFFD }).attnLow = false := by decide +kernel

end Sys2Proof.Tests
end

section
/-! What a command can do: the commands of the board's supplies and lines act on the retention domain; every other command is
an event of the main domain whose own effect stays in the fields that `reaches` lists. -/

namespace Sys2Proof.Machine

set_option Elab.async false

/-! ## Commands as events -/

/-- The commands of the board's supplies, PFAIL_N and RST_N, and the start of the main domain (09): they act while the main
domain stands still too. -/
def lineCommand : Instr → Bool
  | .pfailNFall | .pfailNRise | .mainDomainStart | .mainPowerOn | .mainPowerLoss | .rstNLow | .rstNRelease
  | .retentionPowerOn => true
  | _ => false

/-- The answer is the part after an event whose own effect changes the fields of `fs` at most. -/
def State.eventOf (s t : State) (fs : List Part.Field) : Prop :=
  ∃ f : Part → Option Part, t = s.onPart (fun p => p.event f) ∧ ∀ q, f s.part = some q → Part.Changes fs s.part q

variable {s t : State} {fs : List Part.Field}

theorem eventOf_event {f : Part → Option Part} (h : (.next (s.onPart fun p => p.event f) : Result) = .next t)
    (hf : ∀ q, f s.part = some q → Part.Changes fs s.part q) : s.eventOf t fs := by
  cases h
  exact ⟨f, rfl, hf⟩

/-- An event that cannot occur. -/
theorem eventOf_self : s.eventOf s fs := by
  have hn : s.part.event (fun _ => none) = s.part := ite_self _
  exact ⟨fun _ => none, (congrArg (fun q => { s with part := q }) hn).symm, fun q hq => by cases hq⟩

theorem eventOf_if {b : Part → Prop} [DecidablePred b] {op : Part → Part}
    (h : (.next (s.onPart fun p => p.event fun p => if b p then some (op p) else none) : Result) = .next t)
    (hop : Part.Changes fs s.part (op s.part)) : s.eventOf t fs := by
  refine eventOf_event h fun q hq => ?_
  split at hq
  · cases hq; exact hop
  · cases hq

/-- A command that is no event of its row where a test holds. -/
theorem eventOf_unless {b : Prop} [Decidable b] {f : Part → Option Part}
    (h : (.next (s.onPart fun p => if b then p else p.event f) : Result) = .next t)
    (hf : ∀ q, f s.part = some q → Part.Changes fs s.part q) : s.eventOf t fs := by
  split at h
  · cases h; exact eventOf_self
  · exact eventOf_event h hf

theorem eventOf_when {b : Prop} [Decidable b] {f : Part → Option Part}
    (h : (.next (s.onPart fun p => if b then p.event f else p) : Result) = .next t)
    (hf : ∀ q, f s.part = some q → Part.Changes fs s.part q) : s.eventOf t fs := by
  split at h
  · exact eventOf_event h hf
  · cases h; exact eventOf_self

theorem eventOf_intake {gs : List Part.Field} {i : Port} {isIt : List Byte → Bool} {serve : Req → Part → Part}
    (h : (.next (s.onPart fun p => p.intake i isIt serve) : Result) = .next t)
    (hs : ∀ r q, Part.Changes gs q (serve r q))
    (hm : ∀ f ∈ [Part.Field.reqs, .links] ++ gs, f ∈ fs := by decide) : s.eventOf t fs := by
  refine eventOf_event h fun q hq => ?_
  obtain ⟨r, -, hr⟩ := Option.map_eq_some_iff.1 hq
  subst hr
  exact ((((popFrame_changes s.part i).trans (countReq_changes _ i _)).mono (gs := [.reqs, .links])).trans
    (hs r _)).mono hm

theorem eventOf_request {gs : List Part.Field} {i : Port} {isIt : List Byte → Bool} {serve : Req → Part → Part}
    (h : (.next (s.onPart fun p => p.intake i isIt fun r p => p.checked i r (serve r p)) : Result) = .next t)
    (hs : ∀ r q, Part.Changes gs q (serve r q)) (hr : Part.Field.reqs ∈ gs := by decide)
    (hm : ∀ f ∈ [Part.Field.reqs, .links] ++ gs, f ∈ fs := by decide) : s.eventOf t fs :=
  eventOf_intake h (fun r q => checked_changes i r (hs r q) hr) hm

theorem eventOf_complete {act : Client → Option (Nat → List Byte → Part → Part)}
    (h : s.complete act = .next t) (ha : ∀ c f, act c = some f → ∀ a bs q, Part.Changes fs q (f a bs q))
    (hm : ∀ f ∈ [Part.Field.mem, .dram], f ∈ fs := by decide) : s.eventOf t fs := by
  unfold State.complete at h
  split at h
  · next a _ =>
    split at h
    · cases h; exact eventOf_self
    · next f hf =>
      split at h
      · cases h; exact eventOf_self
      · split at h
        · cases h
        · refine eventOf_event h fun q hq => ?_
          rw [← Option.some.inj hq]
          exact ((carryOut_changes s.part a).mono hm).both (ha _ _ hf _ _ _)
  · cases h; exact eventOf_self

theorem eventOf_transaction {modes : List Mode} {act : Part → Part}
    (h : (.next (s.onPart fun p => p.transaction modes act) : Result) = .next t)
    (ha : ∀ q, Part.Changes fs q (act q)) (hm : Part.Field.maint ∈ fs := by decide) : s.eventOf t fs := by
  refine eventOf_event h fun q hq => ?_
  rw [← Option.some.inj hq]
  have hfs : ∀ f ∈ [Part.Field.maint], f ∈ fs := fun f hf => by rw [List.mem_singleton.1 hf]; exact hm
  have hcount := (countMaint_changes s.part fun c => { c with completed := satInc c.completed }).mono hfs
  split
  · exact hcount.both (ha _)
  · exact hcount.both ((respond_changes _ _ _).mono hfs)

/-! ## Every command -/

/-- A request, a link, memory, directory or maintenance command: an event whose effect stays in `reaches`. -/
theorem exec_eventOf {c : Instr} (hl : lineCommand c = false) (h : exec c s = .next t) : s.eventOf t (reaches c) := by
  cases c with dsimp only [reaches, exec] at h ⊢
  | attach i => exact eventOf_intake h fun r q => attach_changes q i r
  | detach i => exact eventOf_request h fun r q => detach_changes q i r
  | status i => exact eventOf_request h fun r q => status_changes q i r
  | subscribe i => exact eventOf_request h fun r q => subscribe_changes q i r
  | unsubscribe i => exact eventOf_request h fun r q => unsubscribe_changes q i r
  | claim i => exact eventOf_request h fun r q => claim_changes q i r
  | release i => exact eventOf_request h fun r q => release_changes q i r
  | takeover i => exact eventOf_request h fun r q => takeover_changes q i r
  | append i => exact eventOf_request h fun r q => append_changes q i r
  | read i => exact eventOf_request h fun r q => readRequest_changes q i r
  | trim i => exact eventOf_request h fun r q => trimRequest_changes q i r
  | unknownRequest i => exact eventOf_intake h fun r q => unknown_changes q i r _
  | data i =>
    refine eventOf_event h fun q hq => ?_
    obtain ⟨payload, -, rfl⟩ := Option.map_eq_some_iff.1 hq
    exact (((popFrame_changes s.part i).trans (countReq_changes _ i _)).trans (data_changes _ i payload)).mono
  | idleTimerExpiry n =>
    refine eventOf_event h fun q hq => ?_
    split at hq
    · cases hq
    · split at hq
      · cases hq; exact voidSlot_changes _ n _
      · cases hq
  | holdGraceExpiry j => exact eventOf_if h (modConf_changes _ j _)
  | appendWriteComplete =>
    refine eventOf_complete h fun c f hf a bs q => ?_
    split at hf <;> cases hf
    exact (slotWritten_changes q _).mono
  | frontierAdvance j =>
    refine eventOf_event h fun q hq => ?_
    obtain ⟨n, -, rfl⟩ := Option.map_eq_some_iff.1 hq
    exact frontierAdvance_changes _ j
  | directoryWriteStart i => exact eventOf_if h (startWrite_changes _ i)
  | directoryWriteComplete =>
    refine eventOf_complete h fun c f hf a bs q => ?_
    split at hf <;> cases hf
    exact (journalWritten_changes q _).mono
  | appendDoneRelease n => exact eventOf_if h (releaseSlot_changes _ n)
  | deviceHeaderWriteComplete =>
    refine eventOf_complete h fun c f hf a bs q => ?_
    split at hf <;> cases hf
    exact (headerWritten_changes q).mono
  | transferComplete j => exact eventOf_if h (transferCheck_changes _ j)
  | trimCheckComplete =>
    refine eventOf_complete h fun c f hf a bs q => ?_
    split at hf <;> cases hf
    exact (trimChecked_changes q _ _).mono
  | trimHeadAdvance j => exact eventOf_if h (headAdvance_changes _ j)
  | trimComplete j => exact eventOf_if h (trimEnd_changes _ j)
  | readBurstComplete =>
    refine eventOf_complete h fun c f hf a bs q => ?_
    split at hf <;> cases hf
    exact (burstArrived_changes q _ _ _).mono
  | readFrameQueued r => exact eventOf_event h fun q hq => queueFrame_changes _ r hq
  | readResponseQueued r => exact eventOf_event h fun q hq => queueReadResponse_changes _ r hq
  | appendDoneQueued i => exact eventOf_event h fun q hq => serveDone_changes _ i hq
  | waitingResponseQueued i => exact eventOf_event h fun q hq => serveWaiting_changes _ i hq
  | formatExecute => exact eventOf_if h (formatNow_changes _)
  | formatWritesComplete =>
    refine eventOf_complete h fun c f hf a bs q => ?_
    split at hf <;> cases hf
    exact (formatWritten_changes q _ _).mono
  | transmitSelect i =>
    refine eventOf_event h fun q hq => ?_
    obtain ⟨x, -, rfl⟩ := Option.map_eq_some_iff.1 hq
    cases x with
    | responses => exact (sendResponse_changes _ i).mono
    | notifications => exact sendNotification_changes _ i
  | sendIdle i => exact eventOf_if h (modLink_changes _ i _)
  | sendLinkReset i => exact eventOf_if h (modLink_changes _ i _)
  | replaySend i =>
    refine eventOf_event h fun q hq => ?_
    split at hq
    · cases hq; exact modLink_changes _ i _
    · cases hq
  | goodSequencedFrame i ty hd payload =>
    refine eventOf_event h fun q hq => ?_
    split at hq
    · cases hq; exact goodSequenced_changes _ i ty hd payload
    · cases hq; exact (modLink_changes _ i _).mono
  | idleFrame i hd => exact eventOf_event h fun q hq => Option.some.inj hq ▸ goodIdle_changes _ i hd
  | linkResetFrame f => exact eventOf_event h fun q hq => Option.some.inj hq ▸ goodReset_changes _ f.port f.header
  | frameCheckFail i => exact eventOf_event h fun q hq => Option.some.inj hq ▸ modLink_changes _ i _
  | replayTimerExpiry i => exact eventOf_if h (replayTrigger_changes _ i)
  | silenceTimerExpiry i =>
    refine eventOf_event h fun q hq => ?_
    split at hq
    · split at hq
      · cases hq; exact linkDown_changes _ i _
      · cases hq; exact (modLink_changes _ i _).mono
      · cases hq
    · cases hq
  | accessAdmit c => exact eventOf_event h fun q hq => admitHeld_changes _ c hq
  | refreshTimerExpiry => exact eventOf_if h (refreshOwed_changes _)
  | refreshComplete =>
    refine eventOf_event h fun q hq => ?_
    split at hq
    · cases hq; exact (modMem_changes _ _).both (arbitrate_changes _)
    · cases hq
  | initialiseComplete => exact eventOf_if h (initialiseDone_changes _)
  | selfRefreshEntryComplete => exact eventOf_if h (entryComplete_changes _)
  | selfRefreshExitComplete => exact eventOf_if h (exitComplete_changes _)
  | coldStartWriteComplete =>
    refine eventOf_complete h fun c f hf a bs q => ?_
    split at hf <;> cases hf
    exact (modDir_changes q _ _).mono
  | coldStartDone => exact eventOf_if h (coldDone_changes _)
  | headerLoadComplete =>
    refine eventOf_complete h fun c f hf a bs q => ?_
    split at hf <;> cases hf
    exact (loadArrived_changes q _ _ _).mono
  | entryLoadComplete =>
    refine eventOf_complete h fun c f hf a bs q => ?_
    split at hf <;> cases hf
    exact (loadArrived_changes q _ _ _).mono
  | directoryRewriteComplete =>
    refine eventOf_complete h fun c f hf a bs q => ?_
    split at hf <;> cases hf
    exact (rewritten_changes q _).mono
  | restoreComplete => exact eventOf_if h (restoreDone_changes _)
  | quiesceDrainDone => exact eventOf_if h (drainCheck_changes _)
  | readStatus => exact eventOf_transaction h fun q => respond_changes q _ _
  | readJournal j =>
    refine eventOf_transaction h fun q => ?_
    split
    · exact respond_changes q _ _
    · exact respond_changes q _ _
  | setLayout j base count => exact eventOf_transaction h fun q => setLayout_changes q j base count
  | clearLayout j => exact eventOf_transaction h fun q => clearLayout_changes q j
  | setParam param journal value => exact eventOf_transaction h fun q => setParam_changes q param journal value
  | forceRelease j => exact eventOf_transaction h fun q => forceRelease_changes q j
  | saveAndHalt =>
    refine eventOf_transaction h fun q => ?_
    split
    · exact (respond_changes q _ _).mono
    · exact ((respond_changes q _ _).trans (quiesce_changes _ _)).mono
  | resume =>
    exact eventOf_transaction h fun q => ((respond_changes q _ _).trans (enterRestoring_changes _)).mono
  | format => exact eventOf_transaction h fun q => format_changes q
  | readCounters block index =>
    refine eventOf_transaction h fun q => ?_
    split
    · exact respond_changes q _ _
    · exact respond_changes q _ _
  | clearCounters =>
    exact eventOf_transaction h fun q => ((clearCounters_changes q).trans (respond_changes _ _ _)).mono
  | ackAttention mask =>
    exact eventOf_transaction h fun q => (modMaint_changes q _).both (respond_changes _ _ _)
  | setAttentionMask mask =>
    exact eventOf_transaction h fun q => (modMaint_changes q _).both (respond_changes _ _ _)
  | badCommand command =>
    refine eventOf_unless h fun q hq => ?_
    rw [← Option.some.inj hq]
    exact (countMaint_changes _ _).both (respond_changes _ _ _)
  | spiCutShort received =>
    refine eventOf_when h fun q hq => ?_
    rw [← Option.some.inj hq]
    exact (countMaint_changes _ _).both (modMaint_changes _ _)
  | pfailNFall | pfailNRise | mainDomainStart | mainPowerOn | mainPowerLoss | rstNLow | rstNRelease
  | retentionPowerOn => cases hl

/-- A line command reaches the retention domain. -/
theorem reaches_ret {c : Instr} (hl : lineCommand c = true) : Part.Field.ret ∈ reaches c := by
  cases c <;> cases hl <;> decide

end Sys2Proof.Machine
end

section
/-! Nothing due is left undone (O8), what the commands leave unchanged (O5), and what the end of an event does (O10). -/

namespace Sys2Proof.Machine

set_option Elab.async false

/-! ## Starts and stops leave nothing due -/

/-- The directory and FORMAT are as at a start of the main domain, and the mode waits for the DRAM. -/
structure Part.Starting (p : Part) : Prop where
  journals : p.journals = Vector.replicate 8 {}
  header : p.header = {}
  format : p.formatPending = false
  mode : p.ret.mode ≠ .quiescing
  work : p.ctl.work = .idle ∨ p.ctl.work = .restoreExit ∨ p.ctl.work = .coldExit ∨ p.ctl.work = .coldInit

variable {p q : Part}

theorem Part.Starting.nothingDue (h : p.Starting) : p.nothingDue = true := by
  have hj : ∀ j, p.journal j = {} := fun j => by unfold Part.journal; rw [h.journals]; exact fresh_get _ j
  have hd : ∀ i, p.dirOf i = {} := fun i => by
    cases i with
    | journal j => exact congrArg Journal.dir (hj j)
    | header => exact congrArg DeviceHeader.dir h.header
  have hcold : p.coldDue = false := by
    unfold Part.coldDue
    rcases h.work with hw | hw | hw | hw <;> simp [hw]
  have hrest : p.restoreDue = false := by
    unfold Part.restoreDue
    rcases h.work with hw | hw | hw | hw <;> simp [hw]
  have hform : p.formatDue = false := by unfold Part.formatDue; rw [h.format]; rfl
  unfold Part.nothingDue
  rw [hcold, hrest, hform, drainDue_mode h.mode]
  simp [hd]

theorem Part.Starting.changes {fs : List Part.Field} (h : p.Starting) (hc : Part.Changes fs p q)
    (hm : q.ret.mode ≠ .quiescing)
    (hw : q.ctl.work = .idle ∨ q.ctl.work = .restoreExit ∨ q.ctl.work = .coldExit ∨ q.ctl.work = .coldInit)
    (h1 : Part.Field.journals ∉ fs := by decide) (h2 : Part.Field.header ∉ fs := by decide)
    (h3 : Part.Field.formatPending ∉ fs := by decide) : q.Starting :=
  ⟨(hc.journals h1).trans h.journals, (hc.header h2).trans h.header, (hc.formatPending h3).trans h.format, hm, hw⟩

theorem startBlocks_starting (p : Part) : p.startBlocks.Starting := by
  unfold Part.startBlocks
  dsimp only
  have hfresh : (Part.fresh { p.ret with mode := .initializing, cause := none, running := true } p.dram
    p.mem.missCount).Starting := ⟨rfl, rfl, rfl, Mode.noConfusion, .inl rfl⟩
  split
  · refine hfresh.changes ((modRet_changes _ _).trans (setMode_changes _ _)) ?_ ?_
    · rw [setMode_mode]; decide
    · exact .inl (congrArg Control.work (setMode_changes _ _).ctl)
  · exact hfresh.changes (modRet_changes _ _) Mode.noConfusion (.inl rfl)

theorem startHigh_starting (p : Part) : p.startHigh.Starting := by
  have hs := startBlocks_starting p
  unfold Part.startHigh
  dsimp only
  split
  · exact hs.changes ((modCtl_changes _ _).trans (giveExit_changes _)) hs.mode (.inr (.inl rfl))
  · unfold Part.beginCold
    split
    · exact hs.changes ((modCtl_changes _ _).trans (giveExit_changes _)) hs.mode (.inr (.inr (.inl rfl)))
    · exact hs.changes ((modCtl_changes _ _).trans (giveInitialise_changes _)) hs.mode (.inr (.inr (.inr rfl)))

theorem quiet_of_stopped (h : p.ret.running = false) : p.quiet = true := by unfold Part.quiet; rw [h]; rfl

theorem quiet_of_nothingDue (h : p.nothingDue = true) : p.quiet = true := by unfold Part.quiet; rw [h, Bool.or_true]

theorem start_quiet (p : Part) : p.start.quiet = true := by
  unfold Part.start
  split
  · exact quiet_of_nothingDue (startHigh_starting p).nothingDue
  · exact quiet_of_stopped (retain_running _)

/-- A line that rises and may start the main domain. -/
theorem lineUp_quiet {b : Prop} [Decidable b] {f : Retention → Retention} (hq : (p.modRet f).quiet = true) :
    (if b then (p.modRet f).start else p.modRet f).quiet = true := by
  split
  · exact start_quiet _
  · exact hq

theorem stopMain_running (p : Part) : p.stopMain.ret.running = false := by
  unfold Part.stopMain
  split
  · split <;> rfl
  · next h => exact Bool.eq_false_iff.2 h

/-! ## O8 -/

/-- The commands of the board's lines keep a part in which nothing due has been left undone. -/
theorem lineCommand_quiet {c : Instr} {s t : State} (hl : lineCommand c = true) (hq : s.part.quiet = true)
    (h : exec c s = .next t) : t.part.quiet = true := by
  cases c with cases hl
  | pfailNFall =>
    cases h
    dsimp only [State.onPart]
    split
    · exact event_quiet (p := s.part.modRet fun r => { r with pfailHigh := false }) hq _
    · exact hq
  | pfailNRise =>
    cases h
    dsimp only [State.onPart]
    split
    · exact lineUp_quiet hq
    · exact hq
  | mainDomainStart =>
    cases h
    dsimp only [State.onPart]
    split
    · exact start_quiet _
    · exact hq
  | mainPowerOn =>
    cases h
    dsimp only [State.onPart]
    split
    · exact hq
    · exact lineUp_quiet hq
  | mainPowerLoss =>
    cases h
    dsimp only [State.onPart]
    split
    · exact quiet_of_stopped (stopMain_running _)
    · exact hq
  | rstNLow =>
    cases h
    dsimp only [State.onPart]
    split
    · exact quiet_of_stopped (stopMain_running _)
    · exact hq
  | rstNRelease =>
    cases h
    dsimp only [State.onPart]
    split
    · exact hq
    · exact lineUp_quiet hq
  | retentionPowerOn => cases h; exact quiet_of_stopped rfl

theorem exec_quiet (c : Instr) (s t : State) (hq : s.part.quiet = true) (h : exec c s = .next t) :
    t.part.quiet = true := by
  cases hl : lineCommand c with
  | true => exact lineCommand_quiet hl hq h
  | false =>
    obtain ⟨f, rfl, -⟩ := exec_eventOf hl h
    exact event_quiet hq f

/-- Settles O8: every command keeps a part quiet (`exec_quiet`), and a move of the SPI transaction is no concern of it. -/
theorem stepsLeaveNothingDue : Obligations.StepsLeaveNothingDue :=
  fun _ _ hq h => step_keeps (Inv := fun p => p.quiet = true) exec_quiet (fun p x r hp => (moved_quiet p x r).trans hp) hq h

/-! ## O5 -/

theorem changes_allFields (p q : Part) : Part.Changes allFields p q := fun f hf => by
  cases f <;> exact absurd (by decide) hf

theorem lineUp_changes {b : Prop} [Decidable b] {f : Retention → Retention} :
    Part.Changes allButDram p (if b then (p.modRet f).start else p.modRet f) := by
  split
  · exact ((modRet_changes p f).trans (start_changes _)).mono
  · exact (modRet_changes p f).mono

theorem lineCommand_changes {c : Instr} {s t : State} (hl : lineCommand c = true) (h : exec c s = .next t) :
    Part.Changes (reaches c) s.part t.part := by
  cases c with cases hl
  | pfailNFall =>
    cases h
    dsimp only [State.onPart]
    split
    · exact ((modRet_changes _ _).trans (pfailFalls_changes _)).mono
    · exact .refl _ _
  | pfailNRise =>
    cases h
    dsimp only [State.onPart]
    split
    · exact lineUp_changes
    · exact .refl _ _
  | mainDomainStart =>
    cases h
    dsimp only [State.onPart]
    split
    · exact start_changes _
    · exact .refl _ _
  | mainPowerOn =>
    cases h
    dsimp only [State.onPart]
    split
    · exact .refl _ _
    · exact lineUp_changes
  | mainPowerLoss => exact changes_allFields _ _
  | rstNLow => exact changes_allFields _ _
  | rstNRelease =>
    cases h
    dsimp only [State.onPart]
    split
    · exact .refl _ _
    · exact lineUp_changes
  | retentionPowerOn => exact changes_allFields _ _

theorem commandsReachTheirFieldsOnly : Rules.CommandsReachTheirFieldsOnly := by
  intro c s t h
  cases hl : lineCommand c with
  | true => exact (lineCommand_changes hl h).mono fun f hf => List.mem_append_left _ hf
  | false =>
    obtain ⟨f, rfl, hf⟩ := exec_eventOf hl h
    exact event_changes s.part hf

/-- An event whose effect is followed by what comes due in the fields of `gs` only. -/
theorem event_changes_of {fs gs : List Part.Field} {f : Part → Option Part}
    (hf : ∀ q, f p = some q → Part.Changes fs p q)
    (hr : ∀ q, p.ret.running = true → Part.Changes fs p q → Part.Changes gs q q.react) :
    Part.Changes (fs ++ gs) p (p.event f) := by
  unfold Part.event
  split
  · next hrun =>
    split
    · next q hq =>
      split
      · exact (hf q hq).trans (hr q hrun (hf q hq))
      · exact (hf q hq).mono fun x hx => List.mem_append_left _ hx
    · exact .refl _ p
  · exact .refl _ p

theorem not_lineCommand {c : Instr} (h : Part.Field.ret ∉ reaches c) : lineCommand c = false :=
  Bool.eq_false_iff.2 fun hl => h (reaches_ret hl)

theorem servingReachesDirectoryBesides : Rules.ServingReachesDirectoryBesides := by
  intro c s t hm hf hret hform h
  obtain ⟨f, rfl, hc⟩ := exec_eventOf (not_lineCommand hret) h
  refine event_changes_of hc fun q _ hq => ?_
  rw [react_serving (by rw [hq.ret hret]; exact hm) (by rw [hq.formatPending hform]; exact hf)]
  exact startWrites_changes q

theorem formatDue_of_quiet (h : p.quiet = true) (hr : p.ret.running = true) : p.formatDue = false := by
  have hn := nothingDue_of_quiet h hr
  unfold Part.nothingDue at hn
  simp only [Bool.and_eq_true, Bool.not_eq_true'] at hn
  obtain ⟨⟨⟨⟨-, hform⟩, -⟩, -⟩, -⟩ := hn
  exact hform

theorem quietCommandsReachTheirOwnFields : Rules.QuietCommandsReachTheirOwnFields := by
  intro c s t hqt h hcase
  have hret : Part.Field.ret ∉ reaches c := by
    rcases hcase with ⟨-, hn⟩ | hn
    · exact hn _ (by decide)
    · exact hn _ (by decide)
  obtain ⟨f, rfl, hc⟩ := exec_eventOf (not_lineCommand hret) h
  refine (event_changes_of (gs := []) hc fun q hrun hq => ?_).mono fun x hx => by simpa using hx
  have hcalm : q.react = q := by
    rcases hcase with ⟨hm, hn⟩ | hn
    · have hj : Part.Field.journals ∉ reaches c := hn _ (by decide)
      have hd : ∀ i, q.dirOf i = s.part.dirOf i := fun i => hq.dirOf i hj (hn _ (by decide))
      refine react_serving_calm hqt hrun (by rw [hq.ret hret]; exact hm) ?_ hd
      rw [formatDue_congr (hq.formatPending (hn _ (by decide))) (hq.slots (hn _ (by decide)))
        (fun j => by rw [hq.journal j hj]) hd]
      exact formatDue_of_quiet hqt hrun
    · exact react_calm hqt hrun hq (fun i => by rw [hq.req i (hn _ (by decide))]) hret (hn _ (by decide))
        (hn _ (by decide)) (hn _ (by decide)) (hn _ (by decide)) (hn _ (by decide)) (hn _ (by decide))
  rw [hcalm]
  exact .refl _ q

/-- Settles O5. -/
theorem commandsChangeTheirOwnFields : Obligations.CommandsChangeTheirOwnFields :=
  ⟨commandsReachTheirFieldsOnly, servingReachesDirectoryBesides, quietCommandsReachTheirOwnFields⟩

end Sys2Proof.Machine
end

section
/-! Both copies of every item written outside their writers: FORMAT (R23), a cold start (R22). -/

namespace Sys2Proof.Machine

set_option Elab.async false

/-! ## Items whose copies are handed outside their writers -/

section
variable {p q : Part}

theorem itemBytes_congr (hs : ∀ j, (q.journal j).snap = (p.journal j).snap)
    (hw : ∀ j, (q.journal j).watermark = (p.journal j).watermark) (hl : q.header.layoutGen = p.header.layoutGen)
    (hm : q.maint = p.maint) (i : Item) (gen : W32) : q.itemBytes i gen = p.itemBytes i gen := by
  unfold Part.itemBytes
  cases i with
  | journal j => dsimp only; rw [hs]
  | header => dsimp only; rw [hl, hm, watermarks_eq, watermarks_eq]; simp only [hw]

/-- An item's writer changed and accesses handed: what FORMAT and the rewrites of a cold start or a restore do to an item. -/
def Part.rewriteWith (p : Part) (f : DirWriter → DirWriter) (i : Item) (as : List Access) : Part :=
  (p.modDir i f).handAll as

variable (f : DirWriter → DirWriter) (i : Item) (as : List Access)

theorem rewriteWith_mem : (p.rewriteWith f i as).mem = p.memAfter as := by
  unfold Part.rewriteWith
  rw [handAll_mem]
  cases i <;> rfl

theorem rewriteWith_maint : (p.rewriteWith f i as).maint = p.maint :=
  ((modDir_changes p i f).trans (handAll_changes _ as)).maint

theorem rewriteWith_dirOf (k : Item) :
    (p.rewriteWith f i as).dirOf k = if i = k then f (p.dirOf k) else p.dirOf k := by
  unfold Part.rewriteWith
  rw [(handAll_changes _ as).dirOf]
  split
  · next h => subst h; exact dirOf_modDir_self p i f
  · next h => exact dirOf_modDir_ne p h f

theorem rewriteWith_layoutGen : (p.rewriteWith f i as).header.layoutGen = p.header.layoutGen := by
  unfold Part.rewriteWith
  rw [(handAll_changes _ as).header]
  cases i <;> rfl

/-- Of a journal's entry only the directory writer changes. -/
theorem rewriteWith_journal (j : JournalId) : ∃ d, (p.rewriteWith f i as).journal j = { p.journal j with dir := d } := by
  unfold Part.rewriteWith
  rw [(handAll_changes _ as).journal]
  cases i with
  | header => exact ⟨_, rfl⟩
  | journal k =>
    by_cases h : k = j
    · subst h; exact ⟨_, modDir_journal_self p k f⟩
    · exact ⟨_, modDir_journal_ne p h f⟩

theorem rewriteWith_itemBytes (k : Item) (gen : W32) : (p.rewriteWith f i as).itemBytes k gen = p.itemBytes k gen := by
  refine itemBytes_congr (fun j => ?_) (fun j => ?_) (rewriteWith_layoutGen f i as) (rewriteWith_maint f i as) k gen
  · obtain ⟨d, hd⟩ := rewriteWith_journal (p := p) f i as j
    rw [hd]; rfl
  · obtain ⟨d, hd⟩ := rewriteWith_journal (p := p) f i as j
    rw [hd]

end

/-- Items rewritten in turn, the accesses of each depending on its own writer and on the live values only. -/
theorem foldl_rewriteWith {op : Part → Item → Part} {f : DirWriter → DirWriter} {ws : Part → Item → List Access}
    (hop : ∀ p i, op p i = p.rewriteWith f i (ws p i))
    (hws : ∀ p i k as, i ≠ k → ws (p.rewriteWith f i as) k = ws p k) (l : List Item) (hl : l.Nodup) :
    ∀ p : Part, (l.foldl op p).mem = p.memAfter (l.flatMap (ws p))
      ∧ (∀ k, (l.foldl op p).dirOf k = if k ∈ l then f (p.dirOf k) else p.dirOf k)
      ∧ (l.foldl op p).maint = p.maint ∧ (l.foldl op p).header.layoutGen = p.header.layoutGen
      ∧ ∀ j, ∃ d, (l.foldl op p).journal j = { p.journal j with dir := d } := by
  induction l with
  | nil => exact fun p => ⟨rfl, fun k => by simp, rfl, rfl, fun j => ⟨_, rfl⟩⟩
  | cons a l ih =>
    intro p
    obtain ⟨ha, hl⟩ := List.nodup_cons.1 hl
    obtain ⟨hmem, hdir, hmaint, hgen, hjournal⟩ := ih hl (op p a)
    rw [List.foldl_cons]
    rw [hop] at hmem hdir hmaint hgen hjournal ⊢
    refine ⟨?_, fun k => ?_, ?_, ?_, fun j => ?_⟩
    · have hrest : l.flatMap (ws (p.rewriteWith f a (ws p a))) = l.flatMap (ws p) :=
        List.flatMap_congr fun k hk => hws p a k _ fun e => ha (e ▸ hk)
      rw [hmem, hrest, Part.memAfter, rewriteWith_mem, rewriteWith_maint, List.flatMap_cons, Part.memAfter,
        Part.memAfter, MemEngine.handedAll, MemEngine.handedAll, MemEngine.handedAll, List.foldl_append]
    · rw [hdir, rewriteWith_dirOf]
      by_cases h : a = k
      · subst h; simp [ha]
      · have h' : k ≠ a := Ne.symm h
        simp [h, h']
    · rw [hmaint, rewriteWith_maint]
    · rw [hgen, rewriteWith_layoutGen]
    · obtain ⟨d, hd⟩ := hjournal j
      obtain ⟨d', hd'⟩ := rewriteWith_journal (p := p) f a (ws p a) j
      exact ⟨d, by rw [hd, hd']⟩

theorem foldl_modJournal_journal (f : JournalId → Journal → Journal) (l : List JournalId) (hl : l.Nodup) :
    ∀ (p : Part) (k : JournalId), (l.foldl (fun q j => q.modJournal j (f j)) p).journal k
      = if k ∈ l then f k (p.journal k) else p.journal k := by
  induction l with
  | nil => intro p k; simp
  | cons a l ih =>
    intro p k
    obtain ⟨ha, hl⟩ := List.nodup_cons.1 hl
    rw [List.foldl_cons, ih hl]
    by_cases h : a = k
    · subst h; rw [if_neg ha, modJournal_journal_self, if_pos List.mem_cons_self]
    · have h' : k ≠ a := Ne.symm h
      rw [modJournal_journal_ne p a _ h]
      simp [h']

/-- A change of every entry of the journal table. -/
def Part.modJournals (p : Part) (f : Journal → Journal) : Part :=
  allJournals.foldl (fun q j => q.modJournal j f) p

theorem modJournals_journal (f : Journal → Journal) (p : Part) (k : JournalId) :
    (p.modJournals f).journal k = f (p.journal k) :=
  (foldl_modJournal_journal (fun _ => f) allJournals (by decide) p k).trans (if_pos (mem_allJournals k))

theorem modJournals_changes (f : Journal → Journal) (p : Part) : Part.Changes [.journals] p (p.modJournals f) :=
  .foldl (fun q j => modJournal_changes q j f) allJournals p

/-! ## FORMAT (R23) -/

section
variable (p : Part)

/-- The writer of an item that FORMAT rewrites (log 25). -/
def DirWriter.formatting (d : DirWriter) : DirWriter :=
  { d with dirty := false, inFlight := true, snapshot := none, copiesLeft := 2 }

/-- The two writes of an item that FORMAT hands: the copy that is not the newest first. -/
def Part.formatCopies (p : Part) (i : Item) : List Access :=
  [directoryWrite (.formatWrite i (otherCopy (p.dirOf i).newest)) i (otherCopy (p.dirOf i).newest)
      (p.itemBytes i ((p.dirOf i).gen + 1)),
    directoryWrite (.formatWrite i (p.dirOf i).newest) i (p.dirOf i).newest (p.itemBytes i ((p.dirOf i).gen + 2))]

theorem formatItem_eq (i : Item) : p.formatItem i = p.rewriteWith DirWriter.formatting i (p.formatCopies i) := rfl

theorem formatCopies_ne (f : DirWriter → DirWriter) (i k : Item) (as : List Access) (h : i ≠ k) :
    (p.rewriteWith f i as).formatCopies k = p.formatCopies k := by
  unfold Part.formatCopies
  simp only [rewriteWith_itemBytes, rewriteWith_dirOf, if_neg h]

/-- The part when FORMAT has cleared the journal table and raised the layout generation, before it hands its writes. -/
def Part.formatCleared (p : Part) : Part :=
  (Part.modJournals { p with formatPending := false } Journal.cleared).modHeader fun h =>
    { h with layoutGen := h.layoutGen.map fun g => g + 1 }

theorem formatNow_eq : p.formatNow = allItems.foldl Part.formatItem p.formatCleared := rfl

theorem formatCleared_changes : Part.Changes [.formatPending, .journals, .header] p p.formatCleared := by
  have h0 : Part.Changes [.formatPending] p { p with formatPending := false } := fun x hx => by
    cases x <;> first | exact absurd (by decide) hx | rfl
  exact (h0.trans (modJournals_changes _ _)).trans (modHeader_changes _ _)

theorem formatCleared_journal (j : JournalId) : p.formatCleared.journal j = (p.journal j).cleared :=
  modJournals_journal Journal.cleared { p with formatPending := false } j

theorem formatCleared_header :
    p.formatCleared.header = { p.header with layoutGen := p.header.layoutGen.map fun g => g + 1 } := by
  unfold Part.formatCleared
  rw [modHeader_header, (modJournals_changes _ _).header]

theorem formatCleared_dirOf (i : Item) : p.formatCleared.dirOf i = p.dirOf i := by
  cases i with
  | journal j => exact (congrArg Journal.dir (formatCleared_journal p j)).trans rfl
  | header => exact (congrArg DeviceHeader.dir (formatCleared_header p)).trans rfl

theorem otherCopy_eq (c : Copy) : otherCopy c = if c = .a then .b else .a := by cases c <;> rfl

/-- What FORMAT carried out leaves. -/
theorem formatNow_formatted : p.formatted p.formatNow := by
  obtain ⟨hmem, hdir, hmaint, hgen, hjournal⟩ :=
    foldl_rewriteWith formatItem_eq (fun p => formatCopies_ne p DirWriter.formatting) allItems (by decide) p.formatCleared
  rw [← formatNow_eq] at hmem hdir hmaint hgen hjournal
  have hc := formatCleared_changes p
  refine ⟨formatNow_formatPending p, ?_, fun j => ?_, fun i => ?_, ?_, ?_⟩
  · rw [hgen, formatCleared_header]
  · obtain ⟨d, hd⟩ := hjournal j
    rw [hd, formatCleared_journal]
    exact ⟨rfl, rfl, rfl⟩
  · rw [hdir, if_pos (mem_allItems i), formatCleared_dirOf]
    rfl
  · rw [hmaint, hc.maint]
  · rw [hmem, Part.memAfter, hc.mem, hc.maint]
    refine congrArg (MemEngine.handedAll p.mem _) (List.flatMap_congr fun i _ => ?_)
    unfold Part.formatCopies Part.itemBytes
    rw [formatCleared_dirOf, otherCopy_eq]
    cases i with
    | journal j => dsimp only; rw [formatCleared_journal]; rfl
    | header =>
      dsimp only
      rw [formatCleared_header, hc.maint, watermarks_eq, watermarks_eq]
      simp only [formatCleared_journal]
      rfl

end

end Sys2Proof.Machine
end

section
/-! What the end of an event does (O10). -/

namespace Sys2Proof.Machine

set_option Elab.async false

section
variable (p : Part)

/-! ## The directory writes that start -/

theorem startWrite_journal_header (j : JournalId) : (p.startWrite (.journal j)).header = p.header := by
  unfold Part.startWrite
  dsimp only
  split
  · rw [(hand_noRead_changes _ rfl).header]; rfl
  · rfl

theorem startWrite_header : (p.startWrite .header).header = { p.header with dir := p.header.dir.started } := by
  unfold Part.startWrite DirWriter.started
  dsimp only [Part.dirOf]
  split
  · rw [(hand_noRead_changes _ rfl).header]; rfl
  · rfl

theorem startWrites_header : p.startWrites.header = { p.header with dir := p.header.dir.started } := by
  have hjs : ∀ (l : List JournalId) (q : Part), ((l.map Item.journal).foldl Part.startWrite q).header = q.header := by
    intro l
    induction l with
    | nil => exact fun q => rfl
    | cons j l ih => exact fun q => (ih _).trans (startWrite_journal_header q j)
  unfold Part.startWrites allItems
  rw [List.foldl_append, List.foldl_cons, List.foldl_nil, startWrite_header, hjs]

/-! ## The end of a cold start and of a restore -/

theorem setMode_ret (m : Mode) : (p.setMode m).ret = { p.ret with mode := m } := by
  unfold Part.setMode
  dsimp only
  split <;> rfl

theorem setMode_maint (m : Mode) (h : p.ret.running = true) : (p.setMode m).maint = p.maint.raise causeModeChanged := by
  unfold Part.setMode
  exact congrArg Part.maint (if_pos h)

/-- The end of a cold start (R162). -/
theorem coldDone_coldEnded (h : p.ret.running = true) : p.coldEnded p.coldDone := by
  have hm := setMode_maint ((p.raise causeColdStart).modRet fun r => { r with cause := none }) .serving h
  refine ⟨?_, ?_, ?_⟩
  · unfold Part.coldDone; rw [modCtl_ret, setMode_ret]; rfl
  · unfold Part.coldDone
    rw [modCtl_maint, hm, raise_pending, modRet_maint, raise_maint, raise_pending, BitVec.or_assoc]
    rfl
  · unfold Part.coldDone
    rw [modCtl_ctl, (setMode_changes _ _).ctl]
    rfl

/-- An entry whose hold-grace timer has started, where the journal is HELD (R172). -/
def Journal.graced (e : Journal) (ms : W16) : Journal :=
  { e with
    conf := e.conf.map fun c =>
      match c.own with
      | .held t _ => { c with own := .held t (graceStart ms) }
      | _ => c }

/-- The journal is HELD. -/
def Journal.isHeld (e : Journal) : Prop := ∃ c t g, e.conf = some c ∧ c.own = .held t g

theorem graced_held {e : Journal} {c : Conf} {t : W32} {g : Grace} (hc : e.conf = some c) (ho : c.own = .held t g)
    (ms : W16) : e.graced ms = { e with conf := some { c with own := .held t (graceStart ms) } } := by
  unfold Journal.graced
  rw [hc, Option.map_some, ho]

theorem graced_other {e : Journal} (h : ¬e.isHeld) (ms : W16) : e.graced ms = e := by
  have hsame : (e.conf.map fun c =>
      match c.own with
      | .held t _ => { c with own := .held t (graceStart ms) }
      | _ => c) = e.conf := by
    cases hc : e.conf with
    | none => rfl
    | some c =>
      rw [Option.map_some]
      split
      · next t g ho => exact absurd ⟨c, t, g, hc, ho⟩ h
      · rfl
  exact congrArg (fun o => { e with conf := o }) hsame

theorem journalHeld_bit (j : JournalId) : (causeJournalHeld j).getLsbD (8 + j.val) = true := by
  revert j; decide

theorem startGrace_held {j : JournalId} {c : Conf} {t : W32} {g : Grace} (hc : (p.journal j).conf = some c)
    (ho : c.own = .held t g) :
    p.startGrace j = (p.modConf j fun c => { c with own := .held t (graceStart p.maint.params.grace) }).raise
      (causeJournalHeld j) := by
  unfold Part.startGrace
  simp only [hc, ho]

theorem startGrace_other_eq {j : JournalId} (h : ¬(p.journal j).isHeld) : p.startGrace j = p := by
  unfold Part.startGrace
  split
  · rfl
  · next c hc =>
    split
    · next t g ho => exact absurd ⟨c, t, g, hc, ho⟩ h
    · rfl

/-- One journal's hold-grace timer started, or not, at the end of a restore (R172). -/
theorem startGrace_spec (j : JournalId) :
    (∀ k, (p.startGrace j).journal k = if j = k then (p.journal k).graced p.maint.params.grace else p.journal k)
      ∧ p.maint.Raised (p.startGrace j).maint
      ∧ ((p.journal j).isHeld → (p.startGrace j).maint.pending.getLsbD (8 + j.val) = true) := by
  by_cases h : (p.journal j).isHeld
  · obtain ⟨c, t, g, hc, ho⟩ := h
    rw [startGrace_held p hc ho]
    refine ⟨fun k => ?_, raise_raised _ _, fun _ => ?_⟩
    · rw [raise_journal]
      split
      · next e => subst e; rw [modConf_journal_self, graced_held hc ho, hc, Option.map_some]
      · next e => exact modConf_journal_ne p j _ e
    · rw [raise_maint, raise_pending, BitVec.getLsbD_or, journalHeld_bit, Bool.or_true]
  · rw [startGrace_other_eq p h]
    refine ⟨fun k => ?_, .refl _, fun e => absurd e h⟩
    split
    · next e => subst e; rw [graced_other h]
    · rfl

theorem foldl_startGrace_spec (l : List JournalId) (hl : l.Nodup) : ∀ p : Part,
    (∀ k, (l.foldl Part.startGrace p).journal k
        = if k ∈ l then (p.journal k).graced p.maint.params.grace else p.journal k)
      ∧ p.maint.Raised (l.foldl Part.startGrace p).maint
      ∧ ∀ j ∈ l, (p.journal j).isHeld → (l.foldl Part.startGrace p).maint.pending.getLsbD (8 + j.val) = true := by
  induction l with
  | nil => exact fun p => ⟨fun k => by simp, .refl _, fun j hj => by cases hj⟩
  | cons a l ih =>
    intro p
    obtain ⟨ha, hl⟩ := List.nodup_cons.1 hl
    obtain ⟨hj, hr, hb⟩ := ih hl (p.startGrace a)
    obtain ⟨hj1, hr1, hb1⟩ := startGrace_spec p a
    obtain ⟨hbits, -⟩ := hr
    have hparams : (p.startGrace a).maint.params = p.maint.params := hr1.2.1
    refine ⟨fun k => ?_, hr1.trans (ih hl (p.startGrace a)).2.1, fun j hmem hheld => ?_⟩
    · rw [List.foldl_cons, hj, hj1, hparams]
      by_cases e : a = k
      · subst e; simp [ha]
      · have e' : k ≠ a := Ne.symm e
        simp [e, e']
    · rw [List.foldl_cons]
      by_cases e : a = j
      · subst e; exact hbits _ (hb1 hheld)
      · have hmem' : j ∈ l := (List.mem_cons.1 hmem).resolve_left (Ne.symm e)
        exact hb j hmem' (by rw [hj1, if_neg e]; exact hheld)

/-- The end of a restore (R172). -/
theorem restoreDone_restoreEnded (h : p.ret.running = true) : p.restoreEnded p.restoreDone := by
  obtain ⟨hj, hr, hb⟩ := foldl_startGrace_spec allJournals (by decide) (p.modRet fun r => { r with flag := false })
  have hc : Part.Changes [.journals, .maint] (p.modRet fun r => { r with flag := false })
      (allJournals.foldl Part.startGrace (p.modRet fun r => { r with flag := false })) :=
    .foldl startGrace_changes allJournals _
  unfold Part.restoreDone
  generalize allJournals.foldl Part.startGrace (p.modRet fun r => { r with flag := false }) = q at hj hr hb hc
  have hrun : q.ret.running = true := by rw [hc.ret]; exact h
  have hpend : ∀ b, q.maint.pending.getLsbD b = true → (q.setMode .serving).maint.pending.getLsbD b = true := fun b hb => by
    rw [setMode_maint q _ hrun]; exact (raise_raised _ _).1 b hb
  have hjournal : ∀ j, ((q.setMode .serving).modCtl fun c =>
      { c with
        work := .idle, loaded := [], rebuilt := [], cnt := { c.cnt with warmRestores := satInc c.cnt.warmRestores } }).journal j
      = (p.journal j).graced p.maint.params.grace := fun j => by
    rw [modCtl_journal, (setMode_changes _ _).journal, hj, if_pos (mem_allJournals j)]
    rfl
  refine ⟨?_, rfl, ?_, ?_, fun j => ⟨fun c t g hconf ho => ⟨?_, ?_⟩, fun hn => ?_⟩⟩
  · rw [modCtl_ret, setMode_ret, hc.ret]; rfl
  · rw [modCtl_ctl, (setMode_changes _ _).ctl, hc.ctl]; rfl
  · rw [modCtl_maint, setMode_maint q _ hrun, raise_pending, BitVec.getLsbD_or]
    exact Bool.or_eq_true_iff.2 (.inr (by decide))
  · rw [hjournal, graced_held hconf ho, graceStart_eq]
  · exact hpend _ (hb j (mem_allJournals j) ⟨c, t, g, hconf, ho⟩)
  · rw [hjournal, graced_other fun ⟨c, t, g, hconf, ho⟩ => hn c t g hconf ho]

/-! ## O10 -/

/-- The writes that are due have started, and the parts beyond the directory are as they were. -/
theorem startWrites_spec :
    (∀ j, p.startWrites.journal j = (p.journal j).started)
      ∧ p.startWrites.header = { p.header with dir := p.header.dir.started }
      ∧ p.startWrites.mem = p.memAfter ((itemsInOrder.filter p.dirDue).map p.dirWrite) :=
  ⟨startWrites_journal p, startWrites_header p, startWrites_mem p⟩

/-- The entry order of a drain while the DRAM is ACTIVE (R165, R154). -/
theorem react_drainEnds (h : p.drainReady) (ha : p.mem.cond = .active) :
    p.drainEnds p.react ∧ Part.Changes [.ctl, .mem] p p.react := by
  rw [react_drain h, Part.giveEntry, modCtl_mem, ha]
  exact ⟨⟨rfl, rfl⟩, ((modCtl_changes p _).trans ((modMem_changes _ _).trans (arbitrate_changes _))).mono⟩

end

/-- Settles O10: the end of an event is `startWrites`, `formatNow`, `coldDone`, `restoreDone` or the entry order of a drain
(`react_writes` and its companions), and what each leaves is said once above. -/
theorem eventsEndWithWhatIsDue : Obligations.EventsEndWithWhatIsDue := by
  intro p
  refine ⟨react_of_nothingDue, fun hm hf => ?_, fun h1 h2 h3 h4 => ?_, fun h => ?_, fun hr h hf => ?_, fun hr h hf => ?_,
    react_drainEnds p⟩
  · rw [react_serving hm hf]
    exact ⟨startWrites_spec p, startWrites_changes p⟩
  · rw [react_writes h1 h2 h3 h4]
    exact ⟨startWrites_spec p, startWrites_changes p⟩
  · rw [react_format h]
    exact ⟨formatNow_formatted p, formatNow_changes p⟩
  · have hs := startWrites_changes p
    have hd := coldDone_changes p.startWrites
    rw [react_cold h hf]
    obtain ⟨hret, hpend, hctl⟩ := coldDone_coldEnded p.startWrites (by rw [hs.ret]; exact hr)
    rw [hs.ret] at hret
    rw [hs.maint] at hpend
    rw [hs.ctl] at hctl
    obtain ⟨hj, hh, hm⟩ := startWrites_spec p
    exact ⟨⟨hret, hpend, hctl⟩, ⟨fun j => (hd.journal j).trans (hj j), hd.header.trans hh, hd.mem.trans hm⟩,
      (hs.trans hd).mono⟩
  · rw [react_restore h hf]
    exact ⟨restoreDone_restoreEnded p hr, (restoreDone_changes p).mono⟩

end Sys2Proof.Machine
end

section
/-! The directory's writes: those of an item that start and land (O30), those of FORMAT (O33) and of a cold start (O44). -/

namespace Sys2Proof.Machine

set_option Elab.async false

variable {s : State}

theorem startWrite_header_journals (p : Part) : (p.startWrite .header).journals = p.journals := by
  unfold Part.startWrite
  dsimp only
  split
  · rw [(hand_noRead_changes _ rfl).journals]; rfl
  · rfl

/-! ## FORMAT (O33) -/

theorem formatExecute_ends (hr : s.part.ret.running = true) (hf : s.part.formatDue = true) :
    Ends .formatExecute s fun q => s.part.formatted q := by
  refine ends_event rfl hr (if_pos hf) ?_ (formatNow_formatted s.part)
  rw [(formatNow_changes s.part).ret]
  exact hr

/-- The writer of an item one of whose copies FORMAT has written (log 25). -/
def DirWriter.formatLanded (d : DirWriter) (c : Copy) : DirWriter := { d.copyDone with newest := c, gen := d.gen + 1 }

theorem modDir_copiesLeft (p : Part) (i : Item) {f : DirWriter → DirWriter}
    (hf : ∀ d, (f d).copiesLeft = d.copiesLeft - 1) :
    (p.modDir i f).copiesDone = true ↔ (p.dirOf i).copiesLeft ≤ 1 ∧ ∀ k, k ≠ i → (p.dirOf k).copiesLeft = 0 := by
  rw [copiesDone_iff]
  constructor
  · intro h
    refine ⟨?_, fun k hk => ?_⟩
    · have := h i
      rw [dirOf_modDir_self, hf] at this
      omega
    · have := h k
      rwa [dirOf_modDir_ne p (Ne.symm hk)] at this
  · rintro ⟨hi, hk⟩ k
    by_cases h : i = k
    · subst h; rw [dirOf_modDir_self, hf]; omega
    · rw [dirOf_modDir_ne p h]; exact hk k (Ne.symm h)

theorem formatWritten_eq (p : Part) (i : Item) (c : Copy) :
    p.formatWritten i c = if (p.modDir i fun d => d.formatLanded c).copiesDone then
      (p.modDir i fun d => d.formatLanded c).deferredDone else p.modDir i fun d => d.formatLanded c := rfl

theorem formatWritten_dirOf (p : Part) (i : Item) (c : Copy) (k : Item) :
    (p.formatWritten i c).dirOf k = (p.modDir i fun d => d.formatLanded c).dirOf k := by
  rw [formatWritten_eq]
  split
  · exact (deferredDone_changes _).dirOf k
  · rfl

theorem deferredDone_waiting {p : Part} {cmd : DeferredCommand} (h : p.maint.deferred = .waiting cmd) :
    p.deferredDone.maint.deferred = .done cmd .ok := by
  unfold Part.deferredDone
  rw [modMaint_maint]
  dsimp only
  rw [h]

/-- Settles O33. -/
theorem formatRuns : Obligations.FormatRuns := by
  intro s hr
  refine ⟨fun hp hs ht hi => formatExecute_ends hr ((formatDue_iff _).2 ⟨hp, ⟨hs, ht⟩, hi⟩), fun a i c hc ha => ?_⟩
  have hcar := carryOut_changes s.part a
  have hd : ∀ k, (s.part.carryOut a).dirOf k = s.part.dirOf k := fun k => hcar.dirOf k
  have hw := formatWritten_changes (s.part.carryOut a) i c
  refine ends_complete (act := fun
    | .formatWrite i c => some fun _ _ p => p.formatWritten i c
    | _ => none) rfl hc (by rw [ha]) ?_ ⟨?_, ?_, fun k hk => ?_, fun hlast cmd hcmd => ?_, fun hmore => ?_⟩
  · rw [hw.ret, hcar.ret]; exact hr
  · rw [hw.dram]; rfl
  · rw [formatWritten_dirOf, dirOf_modDir_self, hd]; rfl
  · rw [formatWritten_dirOf, dirOf_modDir_ne _ (Ne.symm hk), hd]
  · simp only [← hd] at hlast
    rw [formatWritten_eq, if_pos ((modDir_copiesLeft _ i fun _ => rfl).2 hlast)]
    exact deferredDone_waiting (((modDir_changes _ i _).maint.trans hcar.maint).symm ▸ hcmd)
  · simp only [← hd] at hmore
    rw [formatWritten_eq, if_neg fun h => hmore ((modDir_copiesLeft _ i fun _ => rfl).1 h), (modDir_changes _ i _).maint,
      hcar.maint]

/-! ## A cold start (O44) -/

/-- The two writes of an item rewritten outside its writer: A with generation 1, B with generation 0. -/
def Part.freshCopies (p : Part) (client : Item → Copy → Client) (i : Item) : List Access :=
  [directoryWrite (client i .a) i .a (p.itemBytes i 1), directoryWrite (client i .b) i .b (p.itemBytes i 0)]

theorem rewriteItem_eq (client : Item → Copy → Client) (p : Part) (i : Item) :
    p.rewriteItem client i = p.rewriteWith (fun _ => freshWriter) i (p.freshCopies client i) := rfl

theorem freshCopies_rewriteWith (client : Item → Copy → Client) (f : DirWriter → DirWriter) (p : Part) (i k : Item)
    (as : List Access) : (p.rewriteWith f i as).freshCopies client k = p.freshCopies client k := by
  unfold Part.freshCopies
  simp only [rewriteWith_itemBytes]

/-- The part when a cold start has set the values of R22, before it hands its writes. -/
def Part.coldValues (p : Part) : Part :=
  (((p.modJournals fun e => { e.cleared with watermark := Config.defaultWatermark }).modHeader
    fun h => { h with layoutGen := some 0 }).modMaint fun m => { m with params := {} }).modCtl
      fun c => { c with work := .coldWrites }

theorem coldFill_eq (p : Part) : p.coldFill = allItems.foldl (Part.rewriteItem .coldWrite) p.coldValues := rfl

theorem coldValues_journal (p : Part) (j : JournalId) :
    p.coldValues.journal j = { (p.journal j).cleared with watermark := Config.defaultWatermark } :=
  modJournals_journal (fun e => { e.cleared with watermark := Config.defaultWatermark }) p j

theorem coldValues_mem (p : Part) : p.coldValues.mem = p.mem := by
  unfold Part.coldValues
  rw [modCtl_mem, modMaint_mem, modHeader_mem, (modJournals_changes _ p).mem]

theorem coldValues_maint (p : Part) : p.coldValues.maint = { p.maint with params := {} } := by
  unfold Part.coldValues
  rw [modCtl_maint, modMaint_maint, modHeader_maint, (modJournals_changes _ p).maint]

theorem coldValues_ctl (p : Part) : p.coldValues.ctl = { p.ctl with work := .coldWrites } := by
  unfold Part.coldValues
  rw [modCtl_ctl, modMaint_ctl, modHeader_ctl, (modJournals_changes _ p).ctl]

/-- The values and the writes of a cold start (R22), the DRAM engine and the retention controller being those of `p`. -/
theorem coldFill_filled (p : Part) :
    (∀ j, (p.coldFill.journal j).conf = none ∧ (p.coldFill.journal j).epoch = 0 ∧ (p.coldFill.journal j).watermark = 75)
      ∧ p.coldFill.header.layoutGen = some 0
      ∧ p.coldFill.maint = { p.maint with params := { idle := 20, grace := 2000, urgent := 6, rowPolicy := .openPage } }
      ∧ (∀ i, p.coldFill.dirOf i = freshWriter)
      ∧ p.coldFill.ctl = { p.ctl with work := .coldWrites }
      ∧ p.coldFill.mem = p.mem.handedAll 6 (itemsInOrder.flatMap fun i =>
        [directoryWrite (.coldWrite i .a) i .a
            (match i with
              | .journal j => entryBytes j { epoch := 0, conf := none } 1
              | .header => headerBytes 0 {} [75, 75, 75, 75, 75, 75, 75, 75] 1),
          directoryWrite (.coldWrite i .b) i .b
            (match i with
              | .journal j => entryBytes j { epoch := 0, conf := none } 0
              | .header => headerBytes 0 {} [75, 75, 75, 75, 75, 75, 75, 75] 0)]) := by
  obtain ⟨hmem, hdir, hmaint, hgen, hjournal⟩ :=
    foldl_rewriteWith (rewriteItem_eq .coldWrite) (fun p i k as _ => freshCopies_rewriteWith .coldWrite _ p i k as) allItems
      (by decide) p.coldValues
  have hctl : (allItems.foldl (Part.rewriteItem .coldWrite) p.coldValues).ctl = p.coldValues.ctl :=
    (Part.Changes.foldl (rewriteItem_changes (client := .coldWrite) · fun _ _ => rfl) allItems p.coldValues).ctl
  rw [← coldFill_eq] at hmem hdir hmaint hgen hjournal hctl
  refine ⟨fun j => ?_, ?_, ?_, fun i => ?_, ?_, ?_⟩
  · obtain ⟨d, hd⟩ := hjournal j
    rw [hd, coldValues_journal]
    exact ⟨rfl, rfl, rfl⟩
  · rw [hgen]; rfl
  · rw [hmaint, coldValues_maint]; rfl
  · rw [hdir, if_pos (mem_allItems i)]
  · rw [hctl, coldValues_ctl]
  · rw [hmem, Part.memAfter, coldValues_mem, coldValues_maint]
    refine congrArg (MemEngine.handedAll p.mem _) (List.flatMap_congr fun i _ => ?_)
    unfold Part.freshCopies Part.itemBytes
    cases i with
    | journal j => dsimp only; rw [coldValues_journal]; rfl
    | header =>
      dsimp only
      rw [coldValues_maint, watermarks_eq]
      simp only [coldValues_journal]
      rfl

theorem initialiseDone_fills {p : Part} (hw : p.ctl.work = .coldInit) (ha : p.ctl.abandoned = false) :
    p.initialiseDone = (({ p with dram := [] }.modMem MemEngine.initialised).arbitrate).coldFill := if_pos ⟨hw, ha⟩

theorem exitComplete_fills {p : Part} (hw : p.ctl.work = .coldExit) (ha : p.ctl.abandoned = false) :
    p.exitComplete
      = (((p.modMem MemEngine.exited).modRet fun r => { r with selfRefresh := false }).arbitrate).coldFill := by
  unfold Part.exitComplete
  dsimp only
  change (if p.ctl.abandoned then _ else match p.ctl.work with
    | .coldExit => _
    | .restoreExit => _
    | _ => _) = _
  rw [ha, hw]
  rfl

theorem coldStartFills : Rules.ColdStartFills := by
  intro s hr ha
  refine ⟨fun hop hw => ?_, fun hop hw => ?_⟩
  · refine ends_event rfl hr (if_pos hop) ?_ ?_
    · rw [initialiseDone_fills hw ha, (coldFill_changes _).ret]; exact hr
    · rw [initialiseDone_fills hw ha]
      exact ⟨coldFill_filled _, (coldFill_changes _).ret⟩
  · refine ends_event rfl hr (if_pos hop) ?_ ?_
    · rw [exitComplete_fills hw ha, (coldFill_changes _).ret]; exact hr
    · rw [exitComplete_fills hw ha]
      exact ⟨coldFill_filled _, (coldFill_changes _).ret⟩

theorem coldStartEnds : Rules.ColdStartEnds := by
  intro s hr
  refine ⟨fun a i c hc ha => ?_, fun hm hw ha hl => ?_⟩
  · have hcar := carryOut_changes s.part a
    have hmod := modDir_changes (s.part.carryOut a) i DirWriter.copyDone
    have hd : ∀ k, (s.part.carryOut a).dirOf k = s.part.dirOf k := fun k => hcar.dirOf k
    have hend : Ends .coldStartWriteComplete s fun q =>
        q.dram = a.store s.part.dram ∧ q.mem = (s.part.carryOut a).mem ∧ q.ret = s.part.ret ∧ q.ctl = s.part.ctl
        ∧ (∀ k, k ≠ i → q.dirOf k = s.part.dirOf k)
        ∧ q.dirOf i =
          { s.part.dirOf i with
            copiesLeft := (s.part.dirOf i).copiesLeft - 1
            inFlight := decide (2 ≤ (s.part.dirOf i).copiesLeft) } := by
      refine ends_complete (act := fun
        | .coldWrite i _ => some fun _ _ p => p.modDir i DirWriter.copyDone
        | _ => none) rfl hc (by rw [ha]) ?_
        ⟨hmod.dram, hmod.mem, hmod.ret.trans hcar.ret, hmod.ctl.trans hcar.ctl, fun k hk => ?_, ?_⟩
      · rw [hmod.ret, hcar.ret]; exact hr
      · rw [dirOf_modDir_ne _ (Ne.symm hk), hd]
      · rw [dirOf_modDir_self, hd]; rfl
    exact ⟨hend, fun hm hab => hend.keepsRetention hab (.inl hm) fun r ⟨_, _, hret, hctl, _⟩ => ⟨hret, hctl⟩⟩
  · refine ends_event rfl hr (if_pos ((coldDue_iff _).2 ⟨hm, hw, ha, hl⟩)) ?_ (coldDone_coldEnded _ hr)
    rw [(coldDone_coldEnded _ hr).1]
    exact hr

/-- Settles O44. -/
theorem coldStartsRun : Obligations.ColdStartsRun := ⟨coldStartFills, coldStartEnds⟩

/-! ## Writes of an item that start and land (O30) -/

theorem startWrite_started {e : Journal} (h : (e.dir.dirty && !e.dir.inFlight) = true) :
    e.started =
      { e with
        dir := { e.dir with dirty := false, inFlight := true, snapshot := some e.snap }
        boundFlight := e.boundNext
        boundNext := [] } := if_pos h

theorem dueWritesStart : Rules.DueWritesStart := by
  intro i s hr hd
  have hret := (startWrite_changes s.part i).ret
  refine ends_event rfl hr (if_pos hd) (by rw [hret]; exact hr) ⟨?_, fun j hj => ?_, fun hh => ?_⟩
  · rw [startWrite_hands, if_pos hd]
  · subst hj
    rw [startWrite_journal_self, startWrite_started hd]
    exact ⟨rfl, rfl, rfl, rfl, rfl, fun k hk => startWrite_journal_ne _ fun e => hk (Item.journal.inj e).symm,
      startWrite_journal_header _ j⟩
  · subst hh
    refine ⟨?_, startWrite_header_journals _⟩
    rw [startWrite_header]
    exact congrArg (fun d => { s.part.header with dir := d }) (if_pos hd)

/-- The writer after a completed write: the next one starts where the item is dirty (R19, R21). -/
theorem landed_started (d : DirWriter) :
    d.written.landed.started =
      { d with
        newest := if d.newest = .a then .b else .a
        gen := d.gen + 1
        dirty := false
        inFlight := d.dirty
        snapshot := none } := by
  rw [← otherCopy_eq]
  unfold DirWriter.started
  cases hd : d.dirty with
  | true => exact if_pos (by rw [← hd]; simp [DirWriter.landed, DirWriter.written, hd])
  | false =>
    have hn : (d.written.landed.dirty && !d.written.landed.inFlight) = false := by
      simp [DirWriter.landed, DirWriter.written, hd]
    rw [hn]
    simp [DirWriter.landed, DirWriter.written, hd]

theorem headerWriteLands : Rules.HeaderWriteLands := by
  intro a s hc ha
  have hcar := carryOut_changes s.part a
  have hw := headerWritten_changes (s.part.carryOut a)
  refine ends_complete (act := fun
    | .dirWriter .header => some fun _ _ p => p.headerWritten
    | _ => none) rfl hc (by rw [ha]) ?_ ⟨hw.dram, ?_, ?_⟩
  · rw [hw.ret, hcar.ret]; exact hc.1
  · exact (startWrite_header_journals _).trans hcar.journals
  · unfold Part.headerWritten
    rw [startWrite_header]
    change { (s.part.carryOut a).header with dir := (s.part.carryOut a).header.dir.written.landed.started } = _
    rw [hcar.header, landed_started]

/-- Settles O30. -/
theorem writesStartAndTheHeaderLands : Obligations.WritesStartAndTheHeaderLands := ⟨dueWritesStart, headerWriteLands⟩

end Sys2Proof.Machine
end

section
/-! The timers of slots and journals (O29), and the advance of head with the end of a trim (O28). -/

namespace Sys2Proof.Machine

set_option Elab.async false

variable {p q : Part} {s : State}

/-! ## Idle and hold-grace timers (O29) -/

/-- A part that differs from another in its memory engine only. -/
theorem Part.Changes.mem_only (h : Part.Changes [.mem] p q) : q = { p with mem := q.mem } := by
  cases p; cases q
  simp only [Part.mk.injEq]
  exact ⟨h.ret, h.ctl, h.links, h.reqs, h.ntfs, h.ntfCnt, h.journals, h.header, h.formatPending, h.waiting, h.slots,
    h.appendCnt, h.reads, h.readCnt, trivial, h.dram, h.maint⟩

theorem handRun_eq {j : JournalId} {c : Conf} (hc : (p.journal j).conf = some c) (n : SlotId) (w : SlotWrite) (pos : Nat)
    (bytes : List Byte) :
    p.handRun (.slot n w) j pos bytes
      = { p with mem := p.memAfter (runWrites (.slot n w) bytes.length (c.address pos) bytes) } := by
  rw [← handRun_mem p _ j pos bytes hc]
  exact (handRun_changes p n w j pos bytes).mem_only

/-- The voiding of a slot in RECEIVING of a configured journal (R36). -/
theorem voidSlot_receiving {n : SlotId} {x : Slot} {c : Conf} (hs : p.slot n = some x) (hx : x.state = .receiving)
    (hc : (p.journal x.journal).conf = some c) (r : VoidReason) :
    p.voidSlot n r =
      { p.setSlot n (some (x.voided r)) with
        appendCnt := p.appendCnt.void r
        mem := p.memAfter (runWrites (.slot n .header) 32 (c.address x.position.toNat) (x.voided r).header) } := by
  have hlen : (x.voided r).header.length = 32 := recordHeader_length ..
  unfold Part.voidSlot
  rw [hs]
  dsimp only
  rw [if_pos hx, handRun_eq (c := c) (by exact hc), hlen]
  rfl

theorem idleTimerAbandonsTheSlot : Rules.IdleTimerAbandonsTheSlot := by
  intro n s x c hq hr hs hx hidle hc
  have hv := voidSlot_receiving hs hx hc .abandoned
  have hch := voidSlot_changes s.part n .abandoned
  have hcalm : (s.part.voidSlot n .abandoned).react = s.part.voidSlot n .abandoned :=
    react_slot_inUse (n := n) hq hr (by rw [hs]; rfl) (by rw [voidSlot_self, hs]; rfl) (by rw [hch.ret]) hch.ctl
      fun i => hch.dirOf i
  refine runs_next rfl (event_run (q := s.part.voidSlot n .abandoned) hr ?_ (by rw [hch.ret]; exact hr)) ?_
  · rw [hs]
    exact if_pos ⟨hx, hidle⟩
  · rw [hcalm, hv]
    rfl

theorem holdGraceExpires : Rules.HoldGraceExpires := by
  intro j s c t ms hr hc ho
  refine ends_event rfl hr (if_pos ?_) hr ⟨?_, fun k hk => modConf_journal_ne _ j _ (Ne.symm hk)⟩
  · rw [hc, Option.any_some, Conf.graceRuns, ho]
  · rw [modConf_journal_self, hc, Option.map_some, Conf.expireGrace, ho]

/-- Settles O29. -/
theorem timersOfSlotsAndJournalsExpire : Obligations.TimersOfSlotsAndJournalsExpire :=
  ⟨idleTimerAbandonsTheSlot, holdGraceExpires⟩

/-! ## The advance of head and the end of a trim (O28) -/

theorem headAdvance_moves {j : JournalId} {c : Conf} {t : PendingTrim} (hc : (p.journal j).conf = some c)
    (h : c.headMoves t) :
    (p.headAdvance j).journal j = (p.journal j).headAt c t ∧ (∀ k, k ≠ j → (p.headAdvance j).journal k = p.journal k)
      ∧ (p.headAdvance j).readCnt = { p.readCnt with trims := satInc p.readCnt.trims } := by
  obtain ⟨ht, hp, hpins⟩ := h
  unfold Part.headAdvance
  simp only [hc, ht]
  rw [if_pos ⟨hp, by rw [List.all_eq_true]; exact fun x hx => decide_eq_true (hpins x hx)⟩]
  refine ⟨?_, fun k hk => ?_, rfl⟩
  · rw [countRead_journal, markDirty_journal_self, modConf_journal_self, hc]
    rfl
  · rw [countRead_journal, markDirty_journal_ne _ (Ne.symm hk), modConf_journal_ne _ j _ (Ne.symm hk)]

theorem headAdvances : Rules.HeadAdvances := by
  intro j s c t hr hc ht hp hpins
  obtain ⟨hj, hk, hcnt⟩ := headAdvance_moves hc ⟨ht, hp, hpins⟩
  have hall : (c.pins.all fun x => decide (t.target.toNat ≤ x.toNat)) = true :=
    List.all_eq_true.2 fun x hx => decide_eq_true (hpins x hx)
  refine ends_event rfl hr (if_pos ?_) (by rw [(headAdvance_changes _ j).ret]; exact hr) ⟨?_, ?_, ?_, hk, hcnt⟩
  · rw [Part.headDue, hc, Option.any_some, ht, Option.any_some, hp, hall]
    rfl
  · rw [hj]; rfl
  · rw [hj]; rfl
  · rw [hj]; rfl

theorem trimEnd_due {j : JournalId} {c : Conf} {t : PendingTrim} (hc : (p.journal j).conf = some c)
    (ht : c.trim = some t) (hp : t.phase = .advanced) (hle : t.target.toNat ≤ c.persistedHead.toNat) :
    p.trimEnd j = (p.modConf j fun c => { c with trim := none }).releaseAnswer t.session
      { code := codeTrim, tag := t.reqTag, status := .ok, values := .trim (p.journal j).epoch c.head } := by
  unfold Part.trimEnd
  simp only [hc, ht]
  exact if_pos ⟨hp, hle⟩

theorem trimsEnd : Rules.TrimsEnd := by
  intro j s c t hr hc ht hp hle
  refine ends_event rfl hr (if_pos ?_) (by rw [(trimEnd_changes _ j).ret]; exact hr) ?_
  · rw [Part.trimDue, hc, Option.any_some, ht, Option.any_some, hp, decide_eq_true hle]
    rfl
  · rw [trimEnd_due hc ht hp hle]
    have hch := releaseAnswer_changes (s.part.modConf j fun c => { c with trim := none }) t.session
      { code := codeTrim, tag := t.reqTag, status := .ok, values := .trim (s.part.journal j).epoch c.head }
    refine ⟨?_, fun k hk => ?_, ?_⟩
    · rw [hch.journal, modConf_journal_self, hc, Option.map_some]
    · rw [hch.journal, modConf_journal_ne _ j _ (Ne.symm hk)]
    · exact releaseAnswer_releasedTo (s.part.modConf j fun c => { c with trim := none }) t.session _

/-- Settles O28. -/
theorem trimsAdvanceAndEnd : Obligations.TrimsAdvanceAndEnd := ⟨headAdvances, trimsEnd⟩

end Sys2Proof.Machine
end

section
/-! SET_LAYOUT and CLEAR_LAYOUT (O55), and SET_PARAM (O56). -/

namespace Sys2Proof.Machine

set_option Elab.async false

variable {p : Part}

/-- The part with the present transaction counted (R176). -/
def Part.counted (p : Part) : Part :=
  p.modMaint fun m => { m with cnt := { m.cnt with completed := satInc m.cnt.completed } }

theorem counted_changes (p : Part) : Part.Changes [.maint] p p.counted := modMaint_changes p _

/-- A maintenance command that SERVING takes and that leaves the retention domain alone. -/
theorem takes_serving {c : Instr} {s : State} {modes : List Mode} {act : Part → Part} {Q : Part → Part → Prop}
    {fs : List Part.Field} (hc : exec c s = .next (s.onPart fun p => p.transaction modes act)) (hs : s.part.serving)
    (hch : ∀ q, Part.Changes fs q (act q)) (hp : Q s.part.counted (act s.part.counted))
    (hm : Mode.serving ∈ modes := by decide) (hf : Part.Field.ret ∉ fs := by decide) : Takes c s Q := by
  obtain ⟨hr, hmode⟩ := hs
  refine takes_run hc hr (by rw [hmode]; exact hm) rfl ?_ hp
  rw [(hch _).ret hf]
  exact hr

theorem journalOf_eq_some {b : Byte} {j : JournalId} : journalOf b = some j ↔ b.toNat = j.val := by
  constructor
  case mpr => exact fun h => journalOf_val h
  intro h
  unfold journalOf at h
  split at h
  · cases h; rfl
  · cases h

theorem journalOf_eq_none {b : Byte} : journalOf b = none ↔ 8 ≤ b.toNat := by
  unfold journalOf
  split
  · next h => exact ⟨nofun, fun e => absurd h (by omega)⟩
  · next h => exact ⟨fun _ => by omega, fun _ => rfl⟩

/-! ## SET_LAYOUT (R11) -/

theorem regionOk_iff (base count : Nat) :
    regionOk base count = true ↔ 16 ≤ count ∧ count ≤ 32767 ∧ 1 ≤ base ∧ base + count - 1 ≤ 32767 := by
  unfold regionOk
  simp only [Bool.and_eq_true, decide_eq_true_eq, Config.minSegments, Config.lastSegment]
  omega

theorem overlap_eq_false (base count base' count' : Nat) :
    overlap base count base' count' = false ↔ base + count ≤ base' ∨ base' + count' ≤ base := by
  unfold overlap
  simp only [Bool.and_eq_false_iff, decide_eq_false_iff_not]
  omega

theorem regionFree_iff (j : JournalId) (base count : Nat) :
    p.regionFree j base count = true ↔ ∀ k c, k ≠ j → (p.journal k).conf = some c →
      base + count ≤ c.base.toNat ∨ c.base.toNat + c.count.toNat ≤ base := by
  unfold Part.regionFree
  simp only [List.all_eq_true, mem_allJournals, forall_const, Bool.or_eq_true, decide_eq_true_eq, Bool.not_eq_true']
  refine forall_congr' fun k => ?_
  cases hc : (p.journal k).conf with
  | none => simp
  | some c =>
    rw [Option.any_some, overlap_eq_false]
    constructor
    · intro h d hk hd
      cases hd
      exact h.resolve_left hk
    · intro h
      by_cases hk : k = j
      · exact .inl hk
      · exact .inr (h c hk rfl)

/-- R11's conditions on a region. -/
theorem layoutOk_iff (j : JournalId) (base count : W16) :
    p.layoutOk j base count = true ↔ (p.journal j).conf = none ∧ 16 ≤ count.toNat
      ∧ count.toNat ≤ 32767 ∧ 1 ≤ base.toNat ∧ base.toNat + count.toNat - 1 ≤ 32767
      ∧ ∀ k c, k ≠ j → (p.journal k).conf = some c →
          base.toNat + count.toNat ≤ c.base.toNat ∨ c.base.toNat + c.count.toNat ≤ base.toNat := by
  unfold Part.layoutOk
  rw [Bool.and_eq_true, Bool.and_eq_true, regionFree_iff, regionOk_iff, Option.isNone_iff_eq_none]
  tauto

theorem setLayout_busy {b : Byte} {base count : W16} (h : p.formatPending = true) :
    p.setLayout b base count = p.replies .busy [] := if_pos h

theorem setLayout_bad {b : Byte} {base count : W16} (hf : p.formatPending = false)
    (h : ∀ j : JournalId, b.toNat = j.val → p.layoutOk j base count = false) :
    p.setLayout b base count = p.replies .badLayout [] := by
  unfold Part.setLayout
  rw [hf, if_neg (by decide)]
  split
  · rfl
  · next j hj => rw [h j (journalOf_eq_some.1 hj), if_neg (by decide)]; rfl

theorem setLayout_ok {b : Byte} {base count : W16} {j : JournalId} (hf : p.formatPending = false) (hb : b.toNat = j.val)
    (h : p.layoutOk j base count = true) :
    p.setLayout b base count
      = (((p.modJournal j fun e => { e with conf := some (freshConf base count), epoch := 0 }).markDirty
          (.journal j)).raiseLayout).respond .ok [] := by
  unfold Part.setLayout
  rw [hf, if_neg (by decide), journalOf_val hb]
  exact if_pos h

/-- The header after a change of the layout generation (R21). -/
theorem raiseLayout_header (p : Part) :
    p.raiseLayout.header =
      { layoutGen := p.header.layoutGen.map fun g => g + 1, dir := { p.header.dir with dirty := true } } := rfl

/-- An entry changed and marked dirty with a change of the layout generation, and the transaction answered OK: what
SET_LAYOUT and CLEAR_LAYOUT leave (R11, R12). -/
theorem relaid_spec (p : Part) (j : JournalId) (f : Journal → Journal) :
    let q := (((p.modJournal j f).markDirty (.journal j)).raiseLayout).respond .ok []
    q.journal j = (f (p.journal j)).dirtied ∧ (∀ k, k ≠ j → q.journal k = p.journal k)
      ∧ q.header = { layoutGen := p.header.layoutGen.map fun g => g + 1, dir := { p.header.dir with dirty := true } }
      ∧ q.maint = p.maint.answered [0] ∧ q.ntfs = p.ntfs := by
  intro q
  have hj : ∀ k, q.journal k = ((p.modJournal j f).markDirty (.journal j)).journal k := fun k => by
    change ((((p.modJournal j f).markDirty (.journal j)).raiseLayout).respond .ok []).journal k = _
    rw [(respond_changes _ _ _).journal, (raiseLayout_changes _).journal]
  have hd := markDirty_journal_changes (p.modJournal j f) j
  refine ⟨?_, fun k hk => ?_, ?_, ?_, ?_⟩
  · rw [hj, markDirty_journal_self, modJournal_journal_self]
  · rw [hj, markDirty_journal_ne _ (Ne.symm hk), modJournal_journal_ne _ j _ (Ne.symm hk)]
  · refine (respond_changes _ _ _).header.trans ?_
    rw [raiseLayout_header, hd.header]
    rfl
  · have hmaint : (((p.modJournal j f).markDirty (.journal j)).raiseLayout).maint = p.maint := by
      rw [(raiseLayout_changes _).maint, hd.maint]
      rfl
    change Maint.answered (((p.modJournal j f).markDirty (.journal j)).raiseLayout).maint [0] = _
    rw [hmaint]
  · refine (respond_changes _ _ _).ntfs.trans ?_
    rw [(raiseLayout_changes _).ntfs, hd.ntfs]
    rfl

theorem setLayoutGivesARegion : Rules.SetLayoutGivesARegion := by
  intro b base count s hs
  refine ⟨fun hf => ?_, fun hf hbad => ?_, fun j hf ⟨hb, hok⟩ => ?_⟩
  · exact takes_serving rfl hs (fun q => setLayout_changes q b base count) (setLayout_busy hf)
  · refine takes_serving rfl hs (fun q => setLayout_changes q b base count) (setLayout_bad hf ?_)
    exact fun j hb => Bool.eq_false_iff.2 fun h => hbad j ⟨hb, (layoutOk_iff j base count).1 h⟩
  · have hset := setLayout_ok (p := s.part.counted) hf hb ((layoutOk_iff j base count).2 hok)
    refine takes_serving rfl hs (fun q => setLayout_changes q b base count) ?_
    rw [hset]
    obtain ⟨hj, hk, hh, hmaint, hntf⟩ := relaid_spec s.part.counted j fun e =>
      { e with conf := some (freshConf base count), epoch := 0 }
    exact ⟨hj, hk, hh, hmaint, hntf⟩

/-! ## CLEAR_LAYOUT (R12) -/

theorem clearable_iff {e : Journal} :
    e.clearable = true ↔ ∃ c, e.conf = some c ∧ c.own = .unassigned ∧ c.openSlots = 0 ∧ c.pins = [] ∧ c.trim = none
      ∧ e.dir.inFlight = false := by
  unfold Journal.clearable
  cases hc : e.conf with
  | none => simp
  | some c =>
    simp only [Option.any_some, Bool.and_eq_true, Bool.not_eq_true', decide_eq_true_eq, List.isEmpty_iff,
      Option.isNone_iff_eq_none, Option.some.injEq, exists_eq_left']
    tauto

theorem clearLayout_busy {b : Byte}
    (h : p.formatPending = true ∨ ∀ j : JournalId, b.toNat = j.val → (p.journal j).clearable = false) :
    p.clearLayout b = p.replies .busy [] := by
  unfold Part.clearLayout
  split
  · rfl
  · next hf =>
    have h := h.resolve_left hf
    split
    · rfl
    · next j hj => rw [h j (journalOf_eq_some.1 hj), if_neg (by decide)]; rfl

theorem clearLayout_ok {b : Byte} {j : JournalId} (hf : p.formatPending = false) (hb : b.toNat = j.val)
    (h : (p.journal j).clearable = true) :
    p.clearLayout b
      = ((((p.notifyAll (.layout j) (p.subscribers j)).modJournal j fun e => { e with conf := none, epoch := 0 }).markDirty
          (.journal j)).raiseLayout).respond .ok [] := by
  unfold Part.clearLayout
  rw [hf, if_neg (by decide), journalOf_val hb]
  exact if_pos h

theorem clearLayoutTakesTheRegion : Rules.ClearLayoutTakesTheRegion := by
  intro b s hs
  refine ⟨fun h => ?_, fun j c hf ⟨hb, hc, hok⟩ hnd => ?_⟩
  · refine takes_serving rfl hs (fun q => clearLayout_changes q b) (clearLayout_busy ?_)
    refine h.imp id fun hn j hb => Bool.eq_false_iff.2 fun hcl => ?_
    obtain ⟨c, hc, hok⟩ := clearable_iff.1 hcl
    exact hn j c ⟨hb, hc, hok⟩
  · have hclear := clearLayout_ok (p := s.part.counted) hf hb (clearable_iff.2 ⟨c, hc, hok⟩)
    refine takes_serving rfl hs (fun q => clearLayout_changes q b) ?_
    rw [hclear]
    have hp := counted_changes s.part
    generalize s.part.counted = p' at hp
    have hn := notifyAll_changes p' (.layout j) (p'.subscribers j)
    have hj : ∀ k, p'.journal k = s.part.journal k := fun k => hp.journal k
    obtain ⟨hrj, hrk, hrh, hrm, hrn⟩ := relaid_spec (p'.notifyAll (.layout j) (p'.subscribers j)) j fun e =>
      { e with conf := none, epoch := 0 }
    refine ⟨?_, fun k hk => ?_, ?_, ?_, fun k => ?_⟩
    · rw [hrj, hn.journal, hj]; rfl
    · rw [hrk k hk, hn.journal, hj]
    · rw [hrh, hn.header, hp.header]
    · rw [hrm, hn.maint]
    · have hsubs : p'.subscribers j = c.subs := by
        unfold Part.subscribers
        rw [hj, hc]
        rfl
      refine (congrArg (fun v : Vector NotifyPort 4 => v.get k) hrn).trans ?_
      change (p'.notifyAll (.layout j) (p'.subscribers j)).ntf k = _
      rw [hsubs, notifyAll_ntf _ _ hnd, handed_congr (hp.req k) (hp.ntf k), hp.ntf]

/-- Settles O55: each command by the cases of its checks, the entry it leaves by `relaid_spec`. -/
theorem layoutsAreSetAndCleared : Obligations.LayoutsAreSetAndCleared :=
  ⟨setLayoutGivesARegion, clearLayoutTakesTheRegion⟩

/-! ## SET_PARAM (R180) -/

theorem setParam_refused {a b : Byte} {v : W16} (h : p.replaceParam a b v = none) :
    p.setParam a b v = p.replies .badValue [] := by
  unfold Part.setParam
  rw [h]
  rfl

theorem setParam_set {q : Part} {a b : Byte} {v : W16} (h : p.replaceParam a b v = some q) :
    p.setParam a b v = (q.markDirty .header).respond .ok [] := by
  unfold Part.setParam
  rw [h]

/-- A parameter of the live set replaced. -/
theorem setParam_params {a b : Byte} {v : W16} {f : Params → Params}
    (h : p.replaceParam a b v = some (p.modMaint fun m => { m with params := f m.params })) :
    (p.setParam a b v).maint = { p.maint.answered [0] with params := f p.maint.params }
      ∧ (p.setParam a b v).header = { p.header with dir := { p.header.dir with dirty := true } }
      ∧ (p.setParam a b v).journals = p.journals := by
  rw [setParam_set h]
  exact ⟨rfl, rfl, rfl⟩

theorem rowPolicyOf_le {v : Nat} (h : v ≤ 1) :
    rowPolicyOf v = some (if v = 0 then RowPolicy.openPage else RowPolicy.closePage) := by
  match v, h with
  | 0, _ => rfl
  | 1, _ => rfl

theorem rowPolicyOf_ge {v : Nat} (h : 2 ≤ v) : rowPolicyOf v = none := by
  match v, h with
  | _ + 2, _ => rfl

/-- When SET_PARAM replaces nothing (R180). -/
theorem replaceParam_none {a b : Byte} {v : W16}
    (h : (a = 1 ∧ ¬(1 ≤ v.toNat ∧ v.toNat ≤ 255)) ∨ (a = 2 ∧ 60000 < v.toNat) ∨ (a = 3 ∧ ¬(4 ≤ v.toNat ∧ v.toNat ≤ 8))
      ∨ (a = 4 ∧ 2 ≤ v.toNat) ∨ (a = 5 ∧ (¬(50 ≤ v.toNat ∧ v.toNat ≤ 100) ∨ 8 ≤ b.toNat)) ∨ a = 0 ∨ 6 ≤ a.toNat) :
    p.replaceParam a b v = none := by
  unfold Part.replaceParam
  rcases h with ⟨rfl, hv⟩ | ⟨rfl, hv⟩ | ⟨rfl, hv⟩ | ⟨rfl, hv⟩ | ⟨rfl, hv⟩ | rfl | ha
  · exact if_neg (by simpa [idleInRange] using hv)
  · exact if_neg (by simpa [graceInRange] using hv)
  · exact if_neg (by simpa [urgentInRange] using hv)
  · exact congrArg (Option.map _) (rowPolicyOf_ge hv)
  · rcases hv with hv | hv
    · exact if_neg (by simpa [watermarkInRange] using hv)
    · change (if watermarkInRange v.toNat = true then _ else _) = _
      rw [journalOf_eq_none.2 hv]
      exact ite_self _
  · rfl
  · dsimp only
    split
    case h_6 => rfl
    all_goals omega

theorem replaceParam_idle {b : Byte} {v : W16} (h1 : 1 ≤ v.toNat) (h2 : v.toNat ≤ 255) :
    p.replaceParam 1 b v
      = some (p.modMaint fun m => { m with params := { m.params with idle := BitVec.ofNat 8 v.toNat } }) :=
  if_pos (decide_eq_true ⟨h1, h2⟩)

theorem replaceParam_grace {b : Byte} {v : W16} (h : v.toNat ≤ 60000) :
    p.replaceParam 2 b v = some (p.modMaint fun m => { m with params := { m.params with grace := v } }) :=
  if_pos (decide_eq_true h)

theorem replaceParam_urgent {b : Byte} {v : W16} (h1 : 4 ≤ v.toNat) (h2 : v.toNat ≤ 8) :
    p.replaceParam 3 b v
      = some (p.modMaint fun m => { m with params := { m.params with urgent := BitVec.ofNat 8 v.toNat } }) :=
  if_pos (decide_eq_true ⟨h1, h2⟩)

theorem replaceParam_rowPolicy {b : Byte} {v : W16} (h : v.toNat ≤ 1) :
    p.replaceParam 4 b v = some (p.modMaint fun m =>
      { m with params := { m.params with rowPolicy := if v.toNat = 0 then .openPage else .closePage } }) := by
  change Option.map _ (rowPolicyOf v.toNat) = _
  rw [rowPolicyOf_le h]
  rfl

theorem replaceParam_watermark {b : Byte} {v : W16} {j : JournalId} (h1 : 50 ≤ v.toNat) (h2 : v.toNat ≤ 100)
    (hb : b.toNat = j.val) :
    p.replaceParam 5 b v = some (p.modJournal j fun e => { e with watermark := BitVec.ofNat 8 v.toNat }) := by
  refine (if_pos (decide_eq_true ⟨h1, h2⟩)).trans ?_
  rw [journalOf_val hb]
  rfl

/-- Settles O56, by the parameter: `replaceParam` gives the new set where the value is in its range, and nothing else. -/
theorem setParamChecksAndReplaces : Obligations.SetParamChecksAndReplaces := by
  intro param journal value s hs
  have hset : ∀ f : Params → Params,
      s.part.counted.replaceParam param journal value
        = some (s.part.counted.modMaint fun m => { m with params := f m.params }) →
      Takes (.setParam param journal value) s fun p' q =>
        q.maint = { p'.maint.answered [0] with params := f s.part.maint.params }
        ∧ q.header = { s.part.header with dir := { s.part.header.dir with dirty := true } }
        ∧ q.journals = s.part.journals := fun f h =>
    takes_serving rfl hs (fun q => setParam_changes q param journal value) (setParam_params h)
  refine ⟨?_, ?_, ?_, ?_, ?_, fun h => ?_⟩
  · rintro rfl h1 h2
    exact hset (fun x => { x with idle := BitVec.ofNat 8 value.toNat }) (replaceParam_idle h1 h2)
  · rintro rfl h
    exact hset (fun x => { x with grace := value }) (replaceParam_grace h)
  · rintro rfl h1 h2
    exact hset (fun x => { x with urgent := BitVec.ofNat 8 value.toNat }) (replaceParam_urgent h1 h2)
  · rintro rfl h
    exact hset (fun x => { x with rowPolicy := if value.toNat = 0 then .openPage else .closePage })
      (replaceParam_rowPolicy h)
  · rintro j rfl h1 h2 hj
    refine takes_serving rfl hs (fun q => setParam_changes q 5 journal value) ?_
    rw [setParam_set (replaceParam_watermark h1 h2 hj)]
    have hk : ∀ (q : Part) k, ((q.markDirty .header).respond .ok []).journal k = q.journal k := fun q k => by
      rw [(respond_changes _ _ _).journal, (markDirty_header_changes _).journal]
    refine ⟨?_, fun k hne => ?_, rfl, rfl⟩
    · rw [hk, modJournal_journal_self]
      rfl
    · rw [hk, modJournal_journal_ne _ j _ (Ne.symm hne)]
      rfl
  · exact takes_serving rfl hs (fun q => setParam_changes q param journal value)
      (setParam_refused (replaceParam_none h))

end Sys2Proof.Machine
end

section
/-! CLAIM (O15) and RELEASE (O16). -/

namespace Sys2Proof.Machine

set_option Elab.async false

variable {p : Part} {s : State} {i : Port} {j : JournalId} {payload : List Byte} {c : Conf}

/-! ## A request answered by a change of ownership -/

theorem served_took_session (k : Port) : ((p.served i RequestLayer.took).req k).session = (p.req k).session := by
  by_cases h : i = k
  · subst h; rw [served_req_self]; rfl
  · rw [served_req_ne _ _ h]

theorem served_took_sessionOf : (p.served i RequestLayer.took).sessionOf i = ⟨i, (p.req i).session.gen⟩ := by
  unfold Part.sessionOf
  rw [served_took_session]

/-- A refusal of an ownership request carries the journal's epoch (R51). -/
theorem refusedEpoch_run {cmd : Instr} {code : Byte} {serve : Req → Part → Part} {st : Status}
    (hc : exec cmd s = .next (s.onPart fun p => p.intake i (isRequest code) fun r p => p.checked i r (serve r p)))
    (hq : s.part.quiet = true) (ht : s.part.reachesBlock i code payload)
    (hs : serve (Req.ofPayload payload) (s.part.served i RequestLayer.took)
      = (s.part.served i RequestLayer.took).refuseEpoch i (Req.ofPayload payload) st j) :
    Runs cmd s fun q => q = s.part.served i fun l =>
      l.took.answered ((Req.ofPayload payload).rsp st (.epoch (s.part.journal j).epoch)) :=
  block_answered hc hq ht hs

/-- What a request leaves whose answer is bound to the write of the changed entry (R52). -/
theorem owned_run {cmd : Instr} {code : Byte} {serve : Req → Part → Part} {own : Ownership} {ep : W32} {bs : List Bound}
    (hc : exec cmd s = .next (s.onPart fun p => p.intake i (isRequest code) fun r p => p.checked i r (serve r p)))
    (hq : s.part.quiet = true) (ht : s.part.reachesBlock i code payload) (hj : (s.part.journal j).conf = some c)
    (hs : serve (Req.ofPayload payload) (s.part.served i RequestLayer.took)
      = (s.part.served i RequestLayer.took).owned i (Req.ofPayload payload).tag j own ep bs) :
    Runs cmd s fun q =>
      q.journal j = ((s.part.journal j).changed c own ep bs).started
      ∧ q.req i = (s.part.req i).took.entered (Req.ofPayload payload).tag ∧ q.link i = (s.part.link i).credited 1
      ∧ (∀ k, q.ntf k =
          if k ∈ c.subs then
            s.part.handed k (.owner j (Conf.state { c with own := own }) ep (Conf.ownerTag { c with own := own }))
          else s.part.ntf k)
      ∧ ∀ k, k ≠ j → q.journal k = s.part.journal k := by
  have hrun : s.part.ret.running = true := ht.1.1
  have hmode : s.part.ret.mode = .serving := ht.2.2.1
  have htag : (Req.ofPayload payload).tag ∉ ((s.part.served i RequestLayer.took).req i).tags := by
    rw [served_req_self]
    exact ht.2.2.2.2.1
  refine block_run hc ht _ hs (by rw [owned_changes.ret]; exact hrun) ?_
  obtain ⟨hself, hother⟩ := owned_react (i := i) (t := (Req.ofPayload payload).tag) (own := own) (ep := ep) (bs := bs)
    (served_quiet hq hrun rfl) hrun hmode (p := s.part.served i RequestLayer.took) hj
  refine ⟨hself, ?_, ?_, fun k => ?_, hother⟩
  · rw [react_req, owned_req htag, served_req_self]
  · rw [react_link, owned_changes.link, served_link_self]
  · rw [react_ntf, owned_ntf (p := s.part.served i RequestLayer.took) hj]
    unfold Part.handed
    rw [served_took_session]
    rfl

/-! ## CLAIM (R53, R54) -/

theorem claimCheck_taken {epoch tag : W32} (h : c.state = .owned ∨ c.state = .transferring) :
    claimCheck c epoch tag = some .busy := by
  unfold Conf.state at h
  unfold claimCheck
  cases ho : c.own with
  | unassigned => simp [ho] at h
  | owned => rfl
  | held => simp [ho] at h
  | transferring => rfl

theorem claimCheck_grace {epoch tag t : W32} {g : Grace} (h : c.own = .held t g) (ht : t ≠ tag) (hg : g ≠ .expired) :
    claimCheck c epoch tag = some .heldGrace := by
  unfold claimCheck
  rw [h]
  exact if_pos ⟨ht, hg⟩

/-- A journal that the session may claim, but for its epoch (R53). -/
theorem claimCheck_free {epoch tag : W32}
    (h : c.own = .unassigned ∨ ∃ t g, c.own = .held t g ∧ (t = tag ∨ g = .expired)) :
    claimCheck c epoch tag = if epoch = Config.lastEpoch then some .streamExhausted else none := by
  unfold claimCheck
  obtain h | ⟨t, g, h, hg⟩ := h
  · rw [h]
  · rw [h]
    exact if_neg fun ⟨ht, hne⟩ => hg.elim ht hne

theorem claim_pending {r : Req} (hj : r.journal.toNat = j.val) (hc : (p.journal j).conf = some c)
    (hf : p.formatPending = true) : p.claim i r = p.refuseEpoch i r .busy j := by
  unfold Part.claim
  rw [configured_some hj hc]
  exact if_pos hf

theorem claim_refused {r : Req} {tag : W32} {st : Status} (hj : r.journal.toNat = j.val)
    (hc : (p.journal j).conf = some c) (hf : p.formatPending = false) (ht : (p.req i).session.tag = some tag)
    (h : claimCheck c (p.journal j).epoch tag = some st) : p.claim i r = p.refuseEpoch i r st j := by
  unfold Part.claim
  rw [configured_some hj hc]
  dsimp only
  rw [hf, if_neg (by decide), ht, Option.getD_some, h]

theorem claim_granted {r : Req} {tag : W32} (hj : r.journal.toNat = j.val) (hc : (p.journal j).conf = some c)
    (hf : p.formatPending = false) (ht : (p.req i).session.tag = some tag)
    (h : claimCheck c (p.journal j).epoch tag = none) :
    p.claim i r = p.owned i r.tag j (.owned (p.sessionOf i) tag) ((p.journal j).epoch + 1)
      [.answer (p.sessionOf i) (ownershipAnswer codeClaim r.tag ((p.journal j).epoch + 1))] := by
  unfold Part.claim
  rw [configured_some hj hc]
  dsimp only
  rw [hf, if_neg (by decide), ht, Option.getD_some, h]
  unfold Part.grantClaim
  rw [ht]
  rfl

/-- Settles O15, by what `claimCheck` answers: a refusal, or the change of ownership of `owned_run`. -/
theorem claimIsGrantedOrRefused : Obligations.ClaimIsGrantedOrRefused := by
  intro i j s payload c tag hq hreach hj hc htag
  have htag' : ((s.part.served i RequestLayer.took).req i).session.tag = some tag := by
    rw [served_took_session]; exact htag
  have hrefused : ∀ st, s.part.formatPending = false → claimCheck c (s.part.journal j).epoch tag = some st →
      Runs (.claim i) s fun q => q = s.part.served i fun l =>
        l.took.answered ((Req.ofPayload payload).rsp st (.epoch (s.part.journal j).epoch)) := fun st hf h =>
    refusedEpoch_run rfl hq hreach (claim_refused hj hc hf htag' h)
  refine ⟨fun hf => ?_, fun hf h => ?_, fun hf t g ho ht hg => ?_, fun hf h => ⟨fun he => ?_, fun he => ?_⟩⟩
  · exact refusedEpoch_run rfl hq hreach (claim_pending hj hc hf)
  · exact hrefused _ hf (claimCheck_taken h)
  · exact hrefused _ hf (claimCheck_grace ho ht hg)
  · exact hrefused _ hf ((claimCheck_free h).trans (if_pos he))
  · have hgrant := claim_granted (p := s.part.served i RequestLayer.took) (i := i) hj hc hf htag'
      ((claimCheck_free h).trans (if_neg he))
    rw [served_took_sessionOf] at hgrant
    exact owned_run rfl hq hreach hc hgrant

/-! ## RELEASE (R55) -/

theorem fencedFor_iff {sid : SessionId} : c.fencedFor sid = true ↔ ∃ t cl, c.own = .transferring (some sid) t cl := by
  unfold Conf.fencedFor
  split
  · next o t cl h => simp [h]
  · next h =>
    simp only [Bool.false_eq_true, false_iff, not_exists]
    exact fun t cl ho => h sid t cl ho

theorem ownedBy_iff {sid : SessionId} : c.ownedBy sid = true ↔ ∃ t, c.own = .owned sid t := by
  unfold Conf.ownedBy
  split
  · next o t h => simp [h]
  · next h =>
    simp only [Bool.false_eq_true, false_iff, not_exists]
    exact fun t ho => h sid t ho

theorem fencedFor_of_ownedBy {sid : SessionId} {t : W32} (h : c.own = .owned sid t) : c.fencedFor sid = false := by
  unfold Conf.fencedFor
  rw [h]

theorem hasSlotOn_iff {sid : SessionId} :
    p.hasSlotOn sid j = true ↔ ∃ n x, p.slot n = some x ∧ x.session = sid ∧ x.journal = j := by
  unfold Part.hasSlotOn
  simp only [List.any_eq_true, mem_allSlots, true_and, Option.any_eq_true, Bool.and_eq_true, decide_eq_true_eq]

theorem release_refused {r : Req} {st : Status} (hj : r.journal.toNat = j.val) (hc : (p.journal j).conf = some c)
    (h : releaseCheck c (p.journal j).epoch r (p.sessionOf i) (p.hasSlotOn (p.sessionOf i) j) = some st) :
    p.release i r = p.refuseEpoch i r st j := by
  unfold Part.release
  rw [configured_some hj hc]
  dsimp only
  rw [h]

theorem release_granted {r : Req} (hj : r.journal.toNat = j.val) (hc : (p.journal j).conf = some c)
    (h : releaseCheck c (p.journal j).epoch r (p.sessionOf i) (p.hasSlotOn (p.sessionOf i) j) = none) :
    p.release i r = p.owned i r.tag j .unassigned (p.journal j).epoch
      [.answer (p.sessionOf i) (ownershipAnswer codeRelease r.tag (p.journal j).epoch)] := by
  unfold Part.release
  rw [configured_some hj hc]
  dsimp only
  rw [h]
  rfl

theorem releaseCheck_fenced {epoch : W32} {r : Req} {sid : SessionId} {busy : Bool} (h : c.fencedFor sid = true) :
    releaseCheck c epoch r sid busy = some .fenced := if_pos h

theorem releaseCheck_notOwner {epoch : W32} {r : Req} {sid : SessionId} {busy : Bool} (hf : c.fencedFor sid = false)
    (h : c.ownedBy sid = false) : releaseCheck c epoch r sid busy = some .notOwner := by
  unfold releaseCheck
  rw [hf, if_neg (by decide), if_pos h]

/-- The checks of the owner's RELEASE. -/
theorem releaseCheck_owner {epoch : W32} {r : Req} {sid : SessionId} {t : W32} {busy : Bool} (h : c.own = .owned sid t) :
    releaseCheck c epoch r sid busy
      = if r.epoch ≠ epoch then some .staleEpoch else if busy = true then some .appendsOpen else none := by
  unfold releaseCheck
  rw [fencedFor_of_ownedBy h, if_neg (by decide), ownedBy_iff.2 ⟨t, h⟩, if_neg (by decide)]

/-- Settles O16, by what `releaseCheck` answers: a refusal, or the change of ownership of `owned_run`. -/
theorem releaseIsAcceptedOrRefused : Obligations.ReleaseIsAcceptedOrRefused := by
  intro i j s payload c hq hreach hj hc p r e sid
  have hsid : (p.served i RequestLayer.took).sessionOf i = sid := served_took_sessionOf
  have hrefused : ∀ st, releaseCheck c e.epoch r sid (p.hasSlotOn sid j) = some st →
      Runs (.release i) s fun q => q = p.served i fun l => l.took.answered (r.rsp st (.epoch e.epoch)) := fun st h =>
    refusedEpoch_run rfl hq hreach (release_refused hj hc (by rw [hsid]; exact h))
  refine ⟨fun t cl ho => ?_, fun hf ho => ?_, fun t ho => ⟨fun he => ?_, fun he hu => ?_, fun he hu => ?_⟩⟩
  · exact hrefused _ (releaseCheck_fenced (fencedFor_iff.2 ⟨t, cl, ho⟩))
  · refine hrefused _ (releaseCheck_notOwner ?_ ?_)
    · exact Bool.eq_false_iff.2 fun h => (fencedFor_iff.1 h).elim fun t ⟨cl, h⟩ => hf t cl h
    · exact Bool.eq_false_iff.2 fun h => (ownedBy_iff.1 h).elim ho
  · exact hrefused _ ((releaseCheck_owner ho).trans (if_pos he))
  · exact hrefused _ ((releaseCheck_owner ho).trans ((if_neg (not_not.2 he)).trans (if_pos (hasSlotOn_iff.2 hu))))
  · have hcheck : releaseCheck c e.epoch r sid (p.hasSlotOn sid j) = none :=
      (releaseCheck_owner ho).trans ((if_neg (not_not.2 he)).trans (if_neg fun h => hu (hasSlotOn_iff.1 h)))
    have hgrant := release_granted (p := p.served i RequestLayer.took) (i := i) hj hc (by rw [hsid]; exact hcheck)
    rw [hsid] at hgrant
    exact owned_run rfl hq hreach hc hgrant

end Sys2Proof.Machine
end

section
/-! The release of deferred answers (O22). -/

namespace Sys2Proof.Machine

set_option Elab.async false

variable {p r : Part} {n : SlotId} {x : Slot} {i : Port}

/-- A deferred answer that finds a frame (R52). -/
theorem queueDeferred_req (a : Rsp) (h : (p.req i).respQ.length < 32) :
    (p.queueDeferred i a).req i =
      { p.req i with
        respQ := (p.req i).respQ ++ [.rsp a]
        tags := (p.req i).tags.filter fun t => decide (t ≠ a.tag) } := by
  have hr : p.respRoom i = true := decide_eq_true h
  unfold Part.queueDeferred Part.leaveTag Part.queueResp
  rw [if_pos hr, modReq_req_self, modReq_req_self]

/-! ## The three ways of a durable slot (R44, R45, R46) -/

theorem releaseSlot_queued (hs : p.slot n = some x) (hl : p.live x.session = true)
    (hr : (p.req x.session.port).respQ.length < 32) (hw : p.waits x.session.port = []) :
    p.releaseSlot n = p.queueDone x.session.port n x := by
  have hroom : p.respRoom x.session.port = true := decide_eq_true hr
  unfold Part.releaseSlot
  rw [hs]
  dsimp only
  rw [if_pos hl, hroom, hw]
  rfl

theorem releaseSlot_waiting (hs : p.slot n = some x) (hl : p.live x.session = true)
    (h : ¬((p.req x.session.port).respQ.length < 32 ∧ p.waits x.session.port = [])) :
    p.releaseSlot n = p.setWaits x.session.port (p.waits x.session.port ++ [.appendDone n]) := by
  have hroom : ¬(p.respRoom x.session.port && (p.waits x.session.port).isEmpty) = true := by
    rw [Bool.and_eq_true, List.isEmpty_iff]
    exact fun hr => h ⟨of_decide_eq_true hr.1, hr.2⟩
  unfold Part.releaseSlot
  rw [hs]
  dsimp only
  rw [if_pos hl, if_neg hroom]

theorem releaseSlot_dead (hs : p.slot n = some x) (hl : ¬p.live x.session = true) : p.releaseSlot n = p.freeSlot n := by
  unfold Part.releaseSlot
  rw [hs]
  exact if_neg hl

theorem doneDue_of {c : Conf} (hs : p.slot n = some x) (hx : x.state = .committed)
    (hc : (p.journal x.journal).conf = some c) (hd : x.position.toNat + x.occupancy ≤ c.durable.toNat)
    (hw : .appendDone n ∉ p.waits x.session.port) : p.doneDue n = true := by
  have hend : x.recordEnd ≤ c.durable.toNat := hd
  have hfirst : ∀ w ∈ p.waits x.session.port, w ≠ .appendDone n := fun w h e => hw (e ▸ h)
  unfold Part.doneDue Part.releasable
  rw [hs]
  dsimp only
  rw [hc]
  simpa [hx, hend] using hfirst

/-! ## The end of the event in SERVING -/

/-- What slots of a journal that have become FREE leave, the directory writes of the end of the event started (R18). -/
theorem released_react {j : JournalId} {k : Nat} (hm : r.ret.mode = .serving) (hf : r.formatPending = false)
    (h : p.Released r j k) :
    r.react.journal j = (p.freedEntry j (p.journal j) k).started
      ∧ (∀ m, m ≠ j → r.react.journal m = (p.journal m).started)
      ∧ ∀ m, r.react.ntf m = p.freedNtf j (p.journal j) k m := by
  refine ⟨?_, fun m hne => ?_, fun m => ?_⟩
  · rw [react_journal hm hf, h.journal, if_pos rfl]
  · rw [react_journal hm hf, h.journal, if_neg (Ne.symm hne)]
  · rw [react_ntf, h.ntf]

theorem durableSlotsAreReleased : Rules.DurableSlotsAreReleased := by
  intro n s x c ⟨hrun, hmode⟩ hf hs hx hc hd hw p i live room done freed
  have hch := releaseSlot_changes p n
  have hret : (p.releaseSlot n).ret = p.ret := hch.ret
  have hm : (p.releaseSlot n).ret.mode = .serving := hret ▸ hmode
  have hform : (p.releaseSlot n).formatPending = false := hch.formatPending.trans hf
  refine runs_next rfl (event_run (q := p.releaseSlot n) hrun (if_pos (doneDue_of hs hx hc hd hw)) (hret ▸ hrun)) ?_
  -- The journals other than the slot's, whether or not the slot has become FREE.
  have hother : ∀ k, k ≠ x.journal → (p.releaseSlot n).react.journal k = (p.journal k).started := fun k hk =>
    (releaseSlot_released hs).elim (fun h => (released_react hm hform h.1).2.1 k hk)
      fun h => (released_react hm hform h.1).2.1 k hk
  have hfreed : p.Released (p.releaseSlot n) x.journal 1 → (p.releaseSlot n).slot n = none →
      (p.releaseSlot n).waits i = p.waits i → freed (p.releaseSlot n).react := fun h hn hwt =>
    have ⟨hj, _, hntf⟩ := released_react hm hform h
    ⟨(react_slot _ n).trans hn, (react_waits _ i).trans hwt, hj, hntf⟩
  refine ⟨fun m hne => ?_, hother, fun hl hr => ?_, fun hl hr => ?_, fun hl => ?_⟩
  · rw [react_slot, releaseSlot_other (Ne.symm hne)]
  · have heq := releaseSlot_queued hs (live_iff.2 hl) hr.1 hr.2
    rw [react_req]
    refine ⟨hfreed ?_ ?_ ?_, ?_⟩
    · rw [heq]; exact queueDone_released hs _
    · rw [heq, queueDone_slot, if_pos rfl]
    · rw [heq, queueDone_waits]
    · rw [heq]; exact queueDone_req _ hr.1
  · have heq := releaseSlot_waiting hs (live_iff.2 hl) hr
    have hset := setWaits_changes p x.session.port (p.waits x.session.port ++ [.appendDone n])
    refine ⟨?_, ?_, ?_, ?_, ?_⟩
    · rw [react_slot, heq, hset.slot]; exact hs
    · rw [react_waits, heq, setWaits_waits_self]
    · rw [react_req, heq, hset.req]
    · rw [react_journal hm hform, heq, hset.journal]
    · rw [(react_changes _).ntfs, heq, hset.ntfs]
  · have heq := releaseSlot_dead hs fun h => hl (live_iff.1 h)
    refine ⟨hfreed ?_ ?_ ?_, ?_⟩
    · rw [heq]; exact freeSlot_released hs
    · rw [heq, freeSlot_slot, if_pos rfl]
    · rw [heq, (freeSlot_changes p n).waits]
    · rw [react_req, heq, (freeSlot_changes p n).req]

/-! ## Responses that wait (R45, R52) -/

theorem serveWaiting_answer {a : Rsp} {rest : List Waiting} (hw : p.waits i = .answer a :: rest)
    (hr : (p.req i).respQ.length < 32) : p.serveWaiting i = some ((p.setWaits i rest).queueDeferred i a) := by
  have hroom : p.respRoom i = true := decide_eq_true hr
  unfold Part.serveWaiting
  rw [hw]
  exact if_pos hroom

theorem serveDone_appendDone {rest : List Waiting} (hw : p.waits i = .appendDone n :: rest) (hs : p.slot n = some x)
    (hr : (p.req i).respQ.length < 32) : p.serveDone i = some ((p.setWaits i rest).queueDone i n x) := by
  have hroom : p.respRoom i = true := decide_eq_true hr
  unfold Part.serveDone
  rw [hw]
  dsimp only
  rw [if_pos hroom, hs]

theorem waitingResponsesTakeFreeFrames : Rules.WaitingResponsesTakeFreeFrames := by
  intro i s w rest ⟨hrun, hmode⟩ hf hw hr p
  have hset := setWaits_changes p i rest
  refine ⟨?_, ?_⟩
  · rintro a rfl
    have hch := hset.trans (queueDeferred_changes (p.setWaits i rest) i a)
    have hret : ((p.setWaits i rest).queueDeferred i a).ret = p.ret := hch.ret
    refine runs_next rfl (event_run hrun (serveWaiting_answer hw hr) (hret ▸ hrun)) ⟨?_, ?_, fun k => ?_, ?_⟩
    · rw [react_waits, (queueDeferred_changes _ i a).waits, setWaits_waits_self]
    · rw [react_req]
      exact queueDeferred_req a hr
    · rw [react_journal (hret ▸ hmode) (hch.formatPending.trans hf), hch.journal]
    · rw [(react_changes _).ntfs, hch.ntfs]
  · rintro n x rfl hs -
    have hch := hset.trans (queueDone_changes (p.setWaits i rest) i n x)
    have hret : ((p.setWaits i rest).queueDone i n x).ret = p.ret := hch.ret
    have hnone : p.Released (p.setWaits i rest) x.journal 0 :=
      .none hset.journal hset.ntf (fun k => by rw [hset.req]) hset.maint hset.slot
    have hrel : p.Released ((p.setWaits i rest).queueDone i n x) x.journal 1 :=
      Nat.zero_add 1 ▸ hnone.trans (queueDone_released ((hset.slot n).trans hs) i)
    obtain ⟨hj, hk, hntf⟩ := released_react (hret ▸ hmode) (hch.formatPending.trans hf) hrel
    refine runs_next rfl (event_run hrun (serveDone_appendDone hw hs hr) (hret ▸ hrun))
      ⟨?_, ?_, fun m hne => ?_, hj, hk, hntf, ?_⟩
    · rw [react_waits, queueDone_waits, setWaits_waits_self]
    · rw [react_slot, queueDone_slot, if_pos rfl]
    · rw [react_slot, queueDone_slot, if_neg (Ne.symm hne), hset.slot]
    · rw [react_req]
      exact queueDone_req i hr

/-- Settles O22: in each way a response goes, the slots freed leave what `Part.Released` says, and the end of the event
only starts writes. -/
theorem deferredAnswersAreReleased : Obligations.DeferredAnswersAreReleased :=
  ⟨durableSlotsAreReleased, waitingResponsesTakeFreeFrames⟩

end Sys2Proof.Machine
end

section
/-! A slot's completed write (O20). -/

namespace Sys2Proof.Machine

set_option Elab.async false

variable {p : Part} {j k : JournalId} {n : SlotId} {x : Slot}

/-! ## The frontier leaves the other journals (R42) -/

theorem passSlot_journal_ne (h : j ≠ k) : (p.passSlot j n).journal k = p.journal k := by
  unfold Part.passSlot
  split
  · rfl
  · rw [(setSlot_changes _ _ _).journal, modConf_journal_ne _ _ _ h]

theorem passSlots_journal_ne (h : j ≠ k) : ∀ (m : Nat) (p : Part), (Part.passSlots m p j).journal k = p.journal k
  | 0, _ => rfl
  | m + 1, p => by
    unfold Part.passSlots
    split
    · rfl
    · rw [passSlots_journal_ne h m, passSlot_journal_ne h]

theorem frontierAdvance_journal_ne (h : j ≠ k) : (p.frontierAdvance j).journal k = p.journal k := by
  unfold Part.frontierAdvance
  split
  · rfl
  · rw [markDirty_journal_ne _ h, passSlots_journal_ne h]

/-! ## The slot (R35) -/

/-- The slot with one write fewer outstanding. -/
def Slot.counted (x : Slot) : Slot := { x with outstanding := x.outstanding - 1 }

/-- The slot in LANDING or VOIDING once its last write has completed. -/
def Slot.resolved (x : Slot) : Slot :=
  { x.counted with
    state := if x.state = .landing then .landed else .voided
    outcome := some (if x.state = .landing then .landed else .voided) }

/-- The slot resolved, and a landed record counted (R47). -/
def Part.slotResolved (p : Part) (n : SlotId) (x : Slot) : Part :=
  { p.setSlot n (some x.resolved) with
    appendCnt := if x.state = .landing then { p.appendCnt with landed := satInc p.appendCnt.landed } else p.appendCnt }

theorem slotResolved_slot (m : SlotId) : (p.slotResolved n x).slot m = if m = n then some x.resolved else p.slot m := by
  change (p.setSlot n (some x.resolved)).slot m = _
  by_cases h : m = n
  · subst h; rw [if_pos rfl, setSlot_slot_self]
  · rw [if_neg h, setSlot_slot_ne _ _ _ (Ne.symm h)]

/-- A write of a slot that does not resolve by it. -/
theorem slotWritten_counted (hs : p.slot n = some x)
    (h : ¬((x.state = .landing ∨ x.state = .voiding) ∧ x.outstanding ≤ 1)) :
    p.slotWritten n = p.setSlot n (some x.counted) := by
  unfold Part.slotWritten
  rw [hs]
  dsimp only
  split
  case h_1 hx => exact if_neg fun h0 => h ⟨.inl hx, by omega⟩
  case h_2 hx => exact if_neg fun h0 => h ⟨.inr hx, by omega⟩
  case h_3 => rfl

/-- The last write of a slot in LANDING or VOIDING: it resolves, and the frontier follows (R42). -/
theorem slotWritten_resolved (hs : p.slot n = some x) (h : x.state = .landing ∨ x.state = .voiding)
    (hout : x.outstanding ≤ 1) : p.slotWritten n = (p.slotResolved n x).frontierAdvance x.journal := by
  have h0 : x.outstanding - 1 = 0 := by omega
  unfold Part.slotWritten Part.slotResolved Slot.resolved Slot.counted
  rw [hs]
  obtain hx | hx := h
  · simp only [hx, h0, if_true]
    rfl
  · simp only [hx, h0, if_true, reduceCtorEq, if_false]
    rfl

/-- Settles O20: the slot resolves by this write or it does not; where it does, `frontierAdvance_run` is applied to the slots
in which it counts as resolved. -/
theorem slotWritesCountDown : Obligations.SlotWritesCountDown := by
  intro a n w s x c hc ha hs hconf p j counted resolves y after resolvedAt
  have hcar := carryOut_changes p a
  have hs' : (p.carryOut a).slot n = some x := (hcar.slot n).trans hs
  have hconf' : ((p.carryOut a).journal j).conf = some c := (congrArg Journal.conf (hcar.journal j)).trans hconf
  refine ends_complete (act := fun
    | .slot n _ => some fun _ _ p => p.slotWritten n
    | _ => none) rfl hc (by rw [ha]) ?_ ?_
  · rw [(slotWritten_changes _ n).ret, hcar.ret]
    exact hc.1
  by_cases hres : resolves
  · rw [slotWritten_resolved hs' hres.1 hres.2]
    have hafter : ((p.carryOut a).slotResolved n x).slot = after := funext fun m => by
      rw [slotResolved_slot, hcar.slot]
      rfl
    have hresolved : (((p.carryOut a).slotResolved n x).journal j).conf = some c := hconf'
    have hf := frontierAdvance_changes ((p.carryOut a).slotResolved n x) x.journal
    refine ⟨hf.dram, hf.mem, fun k hk => ?_, fun h => absurd hres h, fun _ => ⟨hf.appendCnt, fun hnone => ?_,
      fun ns last hnd hrun hend hlast => ?_⟩⟩
    · exact (frontierAdvance_journal_ne (Ne.symm hk)).trans (hcar.journal k)
    · rw [frontierAdvance_none hresolved (hafter ▸ hnone)]
      exact ⟨fun m => congrFun hafter m, rfl⟩
    · obtain ⟨hslots, hjournal⟩ := frontierAdvance_run hresolved hnd (hafter ▸ hrun) (hafter ▸ hend) (hafter ▸ hlast)
      exact ⟨hafter ▸ hslots, hjournal⟩
  · rw [slotWritten_counted hs' hres]
    refine ⟨rfl, rfl, fun k _ => hcar.journal k, fun _ => ⟨fun m => ?_, rfl, rfl⟩, fun h => absurd h hres⟩
    by_cases h : m = n
    · subst h; rw [if_pos rfl, setSlot_slot_self]; rfl
    · rw [if_neg h, setSlot_slot_ne _ _ _ (Ne.symm h), hcar.slot]

end Sys2Proof.Machine
end

section
/-! The completion of a journal's directory write (O31): its steps named, what each leaves, and the two cases. -/

namespace Sys2Proof.Machine

set_option Elab.async false

variable {p : Part} {j k : JournalId} {i : Port} {c : Conf}

/-! ## Steps 1 and 2 of R19 -/

/-- The written copy is the newest, and the durable values are the snapshot's. -/
def Part.recorded (p : Part) (j : JournalId) : Part := (p.modDir (.journal j) DirWriter.written).takeSnapshot j

/-- The configuration of an entry whose snapshot has been recorded. -/
def Conf.recorded (c : Conf) (sn : Snapshot) : Conf :=
  { c with
    persistedHead := (sn.conf.map SnapConf.head).getD c.persistedHead
    durable := (sn.conf.map SnapConf.frontier).getD c.durable
    durableSeq := (sn.conf.map SnapConf.frontierSeq).getD c.durableSeq }

theorem recorded_changes (p : Part) (j : JournalId) : Part.Changes [.journals] p (p.recorded j) :=
  ((modDir_journal_changes p j _).trans (takeSnapshot_changes _ j)).mono

theorem recorded_journal {sn : Snapshot} (hc : (p.journal j).conf = some c) (hs : (p.journal j).dir.snapshot = some sn) :
    (p.recorded j).journal j
      = { p.journal j with dir := (p.journal j).dir.written, conf := some (c.recorded sn) } := by
  have hj := modDir_journal_self p j DirWriter.written
  refine (takeSnapshot_journal (c := c) (sn := sn) ?_ ?_ j).trans ?_
  · rw [hj]; exact hc
  · rw [hj]; exact hs
  · rw [if_pos rfl, hj]; rfl

theorem takeSnapshot_journal_ne (h : j ≠ k) : (p.takeSnapshot j).journal k = p.journal k := by
  unfold Part.takeSnapshot
  split
  · exact modConf_journal_ne _ _ _ h
  · rfl

theorem recorded_journal_ne (h : j ≠ k) : (p.recorded j).journal k = p.journal k := by
  unfold Part.recorded
  rw [takeSnapshot_journal_ne h, modDir_journal_ne _ h]

theorem modConf_unconfigured {f : Conf → Conf} (hc : (p.journal j).conf = none) :
    (p.modConf j f).journal j = p.journal j := by
  rw [modConf_journal_self, hc]
  change { p.journal j with conf := none } = p.journal j
  rw [← hc]

/-- An UNCONFIGURED entry takes no value of the snapshot. -/
theorem recorded_unconfigured (hc : (p.journal j).conf = none) :
    (p.recorded j).journal j = { p.journal j with dir := (p.journal j).dir.written } := by
  have hj := modDir_journal_self p j DirWriter.written
  unfold Part.recorded Part.takeSnapshot
  split
  · rw [modConf_unconfigured (by rw [hj]; exact hc), hj]
  · exact hj

/-! ## Step 3: the bound answers (R20) -/

/-- The answers bound to the write released, the last part of step 3. -/
def Part.answersReleased (p : Part) (j : JournalId) (bs : List Bound) : Part :=
  bs.foldl Part.releaseBound (p.modJournal j fun e => { e with boundFlight := [] })

theorem releaseAll_eq : p.releaseAll j
    = (((p.durableSlots j).foldl Part.releaseSlot p).trimEnd j).answersReleased j (p.journal j).boundFlight := rfl

section
variable (p : Part) (j : JournalId) (bs : List Bound)

theorem answersReleased_changes : Part.Changes [.journals, .reqs, .waiting, .maint] p (p.answersReleased j bs) :=
  ((modJournal_changes p j _).trans (Part.Changes.foldl releaseBound_changes _ _)).mono

theorem answersReleased_journal_self :
    (p.answersReleased j bs).journal j = { p.journal j with boundFlight := [] } :=
  ((Part.Changes.foldl releaseBound_changes bs _).journal j).trans (modJournal_journal_self p j _)

theorem answersReleased_journal_ne (h : j ≠ k) : (p.answersReleased j bs).journal k = p.journal k :=
  ((Part.Changes.foldl releaseBound_changes bs _).journal k).trans (modJournal_journal_ne p j _ h)

theorem answersReleased_session (k : Port) : ((p.answersReleased j bs).req k).session = (p.req k).session :=
  (foldl_releaseBound_inTurn k bs _).2 k

theorem answersReleased_inTurn (i : Port) :
    p.releasesInTurn (p.answersReleased j bs) i (p.answersTo i (boundAnswers bs)) :=
  (foldl_releaseBound_inTurn i bs _).1

theorem answersReleased_params : (p.answersReleased j bs).maint.params = p.maint.params :=
  (foldl_releaseBound bs _).2.2

theorem answersReleased_deferred {cmd : DeferredCommand} (h : p.maint.deferred = .waiting cmd) :
    (p.answersReleased j bs).maint.deferred = if .forceRelease ∈ bs then .done cmd .ok else .waiting cmd :=
  (foldl_releaseBound bs _).1 cmd h

end

/-! ## Steps 4 and 5 -/

/-- The subscribers told of an advance, and the next write started where one is due. -/
def Part.concluded (p : Part) (j : JournalId) (before : W64) : Part :=
  ((p.notifyFrontier j before).modDir (.journal j) DirWriter.landed).startWrite (.journal j)

/-- The entry whose write has ended, its next write started where one is due. -/
def Journal.concluded (e : Journal) : Journal := { e with dir := e.dir.landed }.started

theorem journalWritten_eq : p.journalWritten j
    = ((p.recorded j).releaseAll j).concluded j (((p.journal j).conf.map Conf.durable).getD 0) := rfl

section
variable (p : Part) (j : JournalId) (before : W64)

theorem concluded_changes : Part.Changes [.ntfs, .ntfCnt, .journals, .header, .mem] p (p.concluded j before) :=
  (((notifyFrontier_changes p j before).trans (modDir_journal_changes _ j _)).trans (startWrite_changes _ _)).mono

theorem concluded_journal_self : (p.concluded j before).journal j = (p.journal j).concluded := by
  unfold Part.concluded
  rw [startWrite_journal_self, modDir_journal_self, (notifyFrontier_changes p j before).journal]
  rfl

theorem concluded_journal_ne (h : j ≠ k) : (p.concluded j before).journal k = p.journal k := by
  unfold Part.concluded
  rw [startWrite_journal_ne _ fun e => h (Item.journal.inj e), modDir_journal_ne _ h,
    (notifyFrontier_changes p j before).journal]

theorem concluded_ntfs : (p.concluded j before).ntfs = (p.notifyFrontier j before).ntfs :=
  ((modDir_journal_changes _ j _).trans (startWrite_changes _ _)).ntfs

/-- The write that the completion starts, of an entry that has become dirty meanwhile (R18). -/
theorem concluded_mem :
    (p.concluded j before).mem = p.memAfter (if (p.journal j).dir.dirty then
      [directoryWrite (.dirWriter (.journal j)) (.journal j) (otherCopy (p.journal j).dir.newest)
        (entryBytes j (p.journal j).snap ((p.journal j).dir.gen + 1))] else []) := by
  have hch := (notifyFrontier_changes p j before).trans (modDir_journal_changes _ j DirWriter.landed)
  unfold Part.concluded
  rw [startWrite_mem, modDir_journal_self, (notifyFrontier_changes p j before).journal, Part.memAfter, hch.mem, hch.maint]
  by_cases h : (p.journal j).dir.dirty = true
  · have hdue : ((p.journal j).dir.landed.dirty && !(p.journal j).dir.landed.inFlight) = true := by
      rw [Bool.and_eq_true]
      exact ⟨h, rfl⟩
    rw [if_pos h, if_pos hdue]
    rfl
  · have hdue : ¬((p.journal j).dir.landed.dirty && !(p.journal j).dir.landed.inFlight) = true := by
      rw [Bool.and_eq_true]
      exact fun hd => h hd.1
    rw [if_neg h, if_neg hdue]
    rfl

end

/-! ## UNCONFIGURED (R19 after R12) -/

theorem releaseAll_unconfigured (hc : (p.journal j).conf = none) :
    p.releaseAll j = p.answersReleased j (p.journal j).boundFlight := by
  have hslots : p.durableSlots j = [] := by unfold Part.durableSlots; rw [hc]
  have htrim : p.trimEnd j = p := by unfold Part.trimEnd; rw [hc]
  rw [releaseAll_eq, hslots, List.foldl_nil, htrim]

theorem notifyFrontier_unconfigured {before : W64} (hc : (p.journal j).conf = none) : p.notifyFrontier j before = p := by
  unfold Part.notifyFrontier
  rw [hc]

theorem otherCopy_otherCopy (c : Copy) : otherCopy (otherCopy c) = c := by cases c <;> rfl

/-- The entry's writer two generations on. -/
theorem add_two (g : W32) : g + 1 + 1 = g + 2 := BitVec.add_assoc g 1 1

/-- What deferred answers leave speaks of the port's request layer and of its waiting responses only. -/
theorem releasesInTurn_congr {p p' q q' : Part} {as : List (Waiting × Rsp)} (h : p.releasesInTurn q i as)
    (hr : p.req i = p'.req i) (hw : p.waits i = p'.waits i) (hr' : q'.req i = q.req i) (hw' : q'.waits i = q.waits i) :
    p'.releasesInTurn q' i as := by
  unfold Part.releasesInTurn at h ⊢
  rw [hr] at h
  rwa [hr', hw', ← hw]

theorem unconfiguredWriteLands : Rules.UnconfiguredWriteLands := by
  intro j a s hc ha hnone p e
  have hcar := carryOut_changes p a
  refine ends_complete (act := fun
    | .dirWriter (.journal j) => some fun _ _ p => p.journalWritten j
    | _ => none) rfl hc (by rw [ha]) ?_ ?_
  · rw [(journalWritten_changes _ j).ret, hcar.ret]
    exact hc.1
  have hnone' : ((p.carryOut a).journal j).conf = none := (congrArg Journal.conf (hcar.journal j)).trans hnone
  have hrec := hcar.trans (recorded_changes (p.carryOut a) j)
  have hentry : ((p.carryOut a).recorded j).journal j = { e with dir := e.dir.written } := by
    rw [recorded_unconfigured hnone', hcar.journal]
  have hrel : ((p.carryOut a).recorded j).releaseAll j = ((p.carryOut a).recorded j).answersReleased j e.boundFlight := by
    rw [releaseAll_unconfigured, hentry]
    rw [hentry]
    exact hnone
  rw [journalWritten_eq, hrel]
  have hans := answersReleased_changes ((p.carryOut a).recorded j) j e.boundFlight
  have hself := answersReleased_journal_self ((p.carryOut a).recorded j) j e.boundFlight
  have hne : ∀ k, k ≠ j →
      (((p.carryOut a).recorded j).answersReleased j e.boundFlight).journal k = p.journal k := fun k hk => by
    rw [answersReleased_journal_ne _ j _ (Ne.symm hk), recorded_journal_ne (Ne.symm hk), hcar.journal]
  have hparams := answersReleased_params ((p.carryOut a).recorded j) j e.boundFlight
  have hturn := answersReleased_inTurn ((p.carryOut a).recorded j) j e.boundFlight
  have hdef := fun cmd => answersReleased_deferred ((p.carryOut a).recorded j) j e.boundFlight (cmd := cmd)
  generalize ((p.carryOut a).recorded j).answersReleased j e.boundFlight = q at *
  rw [hentry] at hself
  generalize ((((p.carryOut a).journal j).conf.map Conf.durable).getD 0) = before
  have hcon := concluded_changes q j before
  refine ⟨?_, ?_, ?_, fun k hk => ?_, ?_, ?_, fun i => ?_, fun cmd hcmd => ?_⟩
  · rw [hcon.dram, hans.dram, (recorded_changes _ j).dram]; rfl
  · rw [concluded_journal_self, hself, ← otherCopy_eq]; rfl
  · rw [concluded_mem, hself, Part.memAfter, hans.mem, hparams, (recorded_changes _ j).mem, (recorded_changes _ j).maint]
    unfold Journal.snap
    dsimp only [DirWriter.written]
    rw [hnone, otherCopy_otherCopy, add_two]
    rfl
  · rw [concluded_journal_ne _ j _ (Ne.symm hk), hne k hk]
  · rw [hcon.slots, hans.slots, hrec.slots]
  · rw [concluded_ntfs, notifyFrontier_unconfigured (by rw [hself]; exact hnone), hans.ntfs, hrec.ntfs]
  · have hturn := hturn i
    rw [answersTo_congr (p := p) fun k => by rw [hrec.req]] at hturn
    exact releasesInTurn_congr hturn (hrec.req i) (hrec.waits i) (hcon.req i) (hcon.waits i)
  · rw [hcon.maint]
    exact hdef cmd (hrec.maint ▸ hcmd)

/-! ## The slots and the trim of a configured journal (R44, R86) -/

theorem releasable_iff {durable : W64} {n : SlotId} :
    p.releasable j durable n = true ↔ ∃ x, p.slot n = some x ∧ x.journal = j ∧ x.state = .committed
      ∧ x.position.toNat + x.occupancy ≤ durable.toNat ∧ .appendDone n ∉ p.waits x.session.port := by
  unfold Part.releasable Slot.recordEnd
  rw [Option.any_eq_true]
  refine exists_congr fun x => and_congr_right fun _ => ?_
  simp only [Bool.and_eq_true, decide_eq_true_eq, Bool.not_eq_true', List.any_eq_false, and_assoc]
  constructor
  · exact fun ⟨hst, hj, hend, hw⟩ => ⟨hj, hst, hend, fun h => hw _ h rfl⟩
  · exact fun ⟨hj, hst, hend, hw⟩ => ⟨hst, hj, hend, fun w h e => hw (e ▸ h)⟩

/-- The answer to the trim that ends, if one does, given the epoch of the entry (R86). -/
def Conf.trimAnswers (c : Conf) (epoch : W32) : List (SessionId × Rsp) :=
  (c.trim.filter fun t => decide (t.phase = .advanced) && decide (t.target.toNat ≤ c.persistedHead.toNat)).toList.map
    fun t => (t.session, { code := 0x0B#8, tag := t.reqTag, status := .ok, values := .trim epoch c.head })

/-- The trim of an entry whose durable slots have been released: what is left of the entry, and the trim's answer. -/
theorem trimEnd_released {r : Part} {e : Journal} {w : DirWriter} {n : Nat}
    (hp : p.journal j = { e with dir := w, conf := some c }) (hw : w.dirty = e.dir.dirty) (h : p.Released r j n) :
    let ended := ∃ t, c.trim = some t ∧ t.phase = .advanced ∧ t.target.toNat ≤ c.persistedHead.toNat
    ∃ trim, (ended → trim = none) ∧ (¬ended → trim = c.trim)
      ∧ let after := p.freedEntry j { e with conf := some { c with trim := trim } } n
        (r.trimEnd j).journal j = { after with dir := { w with dirty := after.dir.dirty } }
        ∧ (∃ d, after.conf = some d ∧ d.durable = c.durable ∧ d.durableSeq = c.durableSeq ∧ d.subs = c.subs)
        ∧ (∀ k, k ≠ j → (r.trimEnd j).journal k = r.journal k)
        ∧ ∀ i, r.releasesInTurn (r.trimEnd j) i (r.answersTo i (c.trimAnswers after.epoch)) := by
  intro ended
  have hr : r.journal j = { p.freedEntry j { e with conf := some c } n with
      dir := { w with dirty := (p.freedEntry j { e with conf := some c } n).dir.dirty } } := by
    rw [h.journal, if_pos rfl, hp]
    exact freedEntry_dir p j { e with conf := some c } w n hw
  obtain ⟨d, hd, htrim, hhead, hpersisted, hdurable, hseq, hsubs, -⟩ := freedEntry_trim p j e c none n
  have hrc : (r.journal j).conf = some d := by rw [hr]; exact hd
  have hturn := fun i => trimEnd_inTurn r j i hrc
  obtain ⟨trim, hended, hkept, hself, hother⟩ := trimEnd_spec r j hrc
  rw [htrim, hpersisted] at hended hkept
  rw [htrim, hpersisted, hhead, hr] at hturn
  have hafter : p.freedEntry j { e with conf := some { c with trim := trim } } n
      = { p.freedEntry j { e with conf := some c } n with conf := some { d with trim := trim } } := by
    obtain ⟨d', hd', -, -, -, -, -, -, hall⟩ := freedEntry_trim p j e c trim n
    rw [hall]
    cases hd.symm.trans hd'
    rfl
  refine ⟨trim, hended, fun hn => (hkept hn).1, ?_⟩
  rw [hafter]
  exact ⟨by rw [hself, hr], ⟨_, rfl, hdurable, hseq, hsubs⟩, hother, hturn⟩

/-- No answer released in turn is the APPEND_DONE of a slot. -/
theorem releasesInTurn_waits {q : Part} {n : SlotId} {as : List (Waiting × Rsp)} (h : p.releasesInTurn q i as)
    (hn : ∀ a ∈ as, a.1 ≠ .appendDone n) : .appendDone n ∈ q.waits i ↔ .appendDone n ∈ p.waits i := by
  rw [h.2, List.mem_append]
  refine or_iff_left fun hm => ?_
  obtain ⟨a, ha, he⟩ := List.mem_map.1 hm
  exact hn a (List.mem_of_mem_drop ha) he

theorem donesTo_congr {q : Part} (hs : ∀ n, q.slot n = p.slot n)
    (hw : ∀ k, (q.req k).session.who = (p.req k).session.who) (i : Port) (ns : List SlotId) :
    q.donesTo i ns = p.donesTo i ns := by
  unfold Part.donesTo
  simp only [hs, live_congr hw]

/-- What step 3 of R19 leaves of a configured journal: `e` with `c` and the writer `w` is its entry before, `n` slots have
become FREE, `t` is the trim that stays. -/
structure Part.AllReleased (p q : Part) (j : JournalId) (e : Journal) (c : Conf) (w : DirWriter) (n : Nat)
    (t : Option PendingTrim) : Prop where
  journal : q.journal j =
    { p.freedEntry j { e with conf := some { c with trim := t } } n with
      dir := { w with dirty := (p.freedEntry j { e with conf := some { c with trim := t } } n).dir.dirty }
      boundFlight := [] }
  conf : ∃ d, (q.journal j).conf = some d ∧ d.durable = c.durable ∧ d.durableSeq = c.durableSeq ∧ d.subs = c.subs
  other : ∀ k, k ≠ j → q.journal k = p.journal k
  count : q.slotsOn j + n = p.slotsOn j
  ntf : ∀ k, q.ntf k = p.freedNtf j { e with conf := some { c with trim := t } } n k
  who : ∀ k, (q.req k).session.who = (p.req k).session.who
  slot : ∀ m, q.slot m =
    if m ∈ p.durableSlots j then
      (p.slot m).filter fun x => p.live x.session && decide (.appendDone m ∈ q.waits x.session.port)
    else p.slot m
  turn : ∀ i, p.releasesInTurn q i (p.donesTo i (p.durableSlots j) ++ p.answersTo i (c.trimAnswers
    (p.freedEntry j { e with conf := some { c with trim := t } } n).epoch ++ boundAnswers e.boundFlight))
  params : q.maint.params = p.maint.params
  deferred : ∀ cmd, p.maint.deferred = .waiting cmd →
    q.maint.deferred = if .forceRelease ∈ e.boundFlight then .done cmd .ok else .waiting cmd

/-- Step 3 of R19. -/
theorem releaseAll_released {e : Journal} {w : DirWriter}
    (hp : p.journal j = { e with dir := w, conf := some c }) (hw : w.dirty = e.dir.dirty) :
    let ended := ∃ t, c.trim = some t ∧ t.phase = .advanced ∧ t.target.toNat ≤ c.persistedHead.toNat
    ∃ n trim, (ended → trim = none) ∧ (¬ended → trim = c.trim) ∧ p.AllReleased (p.releaseAll j) j e c w n trim := by
  intro ended
  have hconf : (p.journal j).conf = some c := by rw [hp]
  have hflight : (p.journal j).boundFlight = e.boundFlight := by rw [hp]
  have hdurable : ∀ m ∈ p.durableSlots j, ∃ x, p.slot m = some x ∧ x.journal = j ∧ x.state = .committed
      ∧ x.position.toNat + x.occupancy ≤ c.durable.toNat ∧ .appendDone m ∉ p.waits x.session.port := fun m hm =>
    releasable_iff.1 ((mem_durableSlots hconf m).1 hm)
  obtain ⟨n, hrel⟩ := foldl_releaseSlot j (p.durableSlots j) (durableSlots_nodup p j) p fun m hm =>
    (hdurable m hm).imp fun x hx => ⟨hx.1, hx.2.1⟩
  obtain ⟨hdone, hgone, -, hkept⟩ := foldl_releaseSlot_inTurn (p.durableSlots j) (durableSlots_nodup p j) p fun m hm =>
    (hdurable m hm).imp fun x hx => ⟨hx.1, hx.2.2.2.2⟩
  rw [releaseAll_eq, hflight]
  generalize (p.durableSlots j).foldl Part.releaseSlot p = r at hrel hdone hgone hkept
  obtain ⟨trim, hended, hstays, hself, hd, hother, htrim⟩ := trimEnd_released hp hw hrel
  have hbound := answersReleased_changes (r.trimEnd j) j e.boundFlight
  have hch := (trimEnd_changes r j).trans hbound
  have hmaint : (r.trimEnd j).maint = p.maint := (trimEnd_changes r j).maint.trans hrel.maint
  have hturn : ∀ i, r.releasesInTurn ((r.trimEnd j).answersReleased j e.boundFlight) i (p.answersTo i (c.trimAnswers
      (p.freedEntry j { e with conf := some { c with trim := trim } } n).epoch ++ boundAnswers e.boundFlight)) := fun i => by
    have hb := answersReleased_inTurn (r.trimEnd j) j e.boundFlight i
    rw [answersTo_congr (p := r) fun k => congrArg Session.who (trimEnd_who r j k)] at hb
    rw [← answersTo_congr hrel.who, answersTo_append]
    exact releasesInTurn_append (htrim i) hb
  have hwaits : ∀ i m,
      .appendDone m ∈ ((r.trimEnd j).answersReleased j e.boundFlight).waits i ↔ .appendDone m ∈ r.waits i := fun i m => releasesInTurn_waits (hturn i) fun _ => answersTo_notDone
  have hboth := answersReleased_journal_self (r.trimEnd j) j e.boundFlight
  rw [hself] at hboth
  refine ⟨n, trim, hended, hstays, hboth, ?_, fun k hk => ?_, ?_, fun k => ?_, fun k => ?_, fun m => ?_, fun i => ?_, ?_,
    fun cmd hcmd => ?_⟩
  · rw [hboth]
    exact hd
  · rw [answersReleased_journal_ne _ j _ (Ne.symm hk), hother k hk, hrel.journal, if_neg (Ne.symm hk)]
  · unfold Part.slotsOn Part.slotsWith
    simp only [hch.slot]
    exact hrel.count
  · rw [hch.ntf, hrel.ntf, hp]
    exact freedNtf_trim p j e c w trim n k hw
  · rw [answersReleased_session, trimEnd_who]
    exact hrel.who k
  · rw [hch.slot]
    by_cases hm : m ∈ p.durableSlots j
    · rw [if_pos hm, hgone m hm]
      simp only [hwaits]
    · rw [if_neg hm, hkept m hm]
  · exact releasesInTurn_append (hdone i) (hturn i)
  · rw [answersReleased_params, hmaint]
  · exact answersReleased_deferred _ j _ (hmaint ▸ hcmd)

/-! ## CONFIGURED -/

theorem configuredWriteLands : Rules.ConfiguredWriteLands := by
  intro j a s c sn hc ha hconf hsnap p e head durable durableSeq ended
  have hcar := carryOut_changes p a
  refine ends_complete (act := fun
    | .dirWriter (.journal j) => some fun _ _ p => p.journalWritten j
    | _ => none) rfl hc (by rw [ha]) ?_ ?_
  · rw [(journalWritten_changes _ j).ret, hcar.ret]
    exact hc.1
  have hrec := hcar.trans (recorded_changes (p.carryOut a) j)
  have hbefore : (((p.carryOut a).journal j).conf.map Conf.durable).getD 0 = c.durable := by
    rw [hcar.journal, hconf]
    rfl
  have hentry : ((p.carryOut a).recorded j).journal j = { e with dir := e.dir.written, conf := some (c.recorded sn) } := by
    rw [recorded_journal (c := c) (sn := sn) (by rw [hcar.journal]; exact hconf) (by rw [hcar.journal]; exact hsnap),
      hcar.journal]
  have hne : ∀ k, k ≠ j → ((p.carryOut a).recorded j).journal k = p.journal k := fun k hk => by
    rw [recorded_journal_ne (Ne.symm hk), hcar.journal]
  have hmem : ((p.carryOut a).recorded j).mem = (p.carryOut a).mem := (recorded_changes _ j).mem
  have hdram : ((p.carryOut a).recorded j).dram = a.store p.dram := (recorded_changes _ j).dram
  obtain ⟨n, trim, hended, hkept, h⟩ := releaseAll_released hentry rfl
  have hall := releaseAll_changes ((p.carryOut a).recorded j) j
  rw [journalWritten_eq, hbefore]
  generalize (p.carryOut a).recorded j = r at *
  generalize r.releaseAll j = q at *
  have hcon := concluded_changes q j c.durable
  have hwho : ∀ k, (r.req k).session.who = (p.req k).session.who := fun k => by rw [hrec.req]
  have hfreed : ∀ e' n, r.freedEntry j e' n = p.freedEntry j e' n := fun e' n =>
    freedEntry_congr hwho (by rw [hrec.maint]) j e' n
  have hself := h.journal
  rw [hfreed] at hself
  have hcount : (p.slotsWith fun x => decide (x.journal = j)).length
      - ((q.concluded j c.durable).slotsWith fun x => decide (x.journal = j)).length = n := by
    have hn : q.slotsOn j + n = r.slotsOn j := h.count
    rw [slotsWith_congr hcon.slot, ← slotsWith_congr hrec.slot]
    unfold Part.slotsOn at hn
    omega
  refine ⟨?_, ⟨trim, hended, hkept, ?_⟩, fun k hk => ?_, fun cmd hcmd => ?_⟩
  · rw [hcon.dram, hall.dram, hdram]
  · rw [hcount]
    intro d gone after trimmed
    refine ⟨?_, ?_, fun k => ?_, r.durableSlots j, durableSlots_nodup r j, ?_, fun m => ?_, fun m => ?_, fun i => ?_⟩
    · rw [concluded_journal_self, hself, ← otherCopy_eq]
      rfl
    · rw [concluded_mem, hself, Part.memAfter, hall.mem, h.params, hrec.maint, hmem]
      dsimp only [DirWriter.written]
      rw [otherCopy_otherCopy, add_two]
      rfl
    · obtain ⟨d', hd', hdur, hseq, hsubs⟩ := h.conf
      have htold : q.ntf k = p.freedNtf j { e with conf := some d } n k :=
        (h.ntf k).trans (freedNtf_congr hwho (by rw [hrec.maint]) hrec.ntf j _ n k)
      have hactive : (q.req k).session.active = (p.req k).session.active :=
        active_of_who ((h.who k).trans (hwho k))
      change (q.concluded j c.durable).ntfs.get k = _
      rw [concluded_ntfs]
      refine (notifyFrontier_ntf q j c.durable hd' k).trans ?_
      rw [hdur, hseq, hsubs, Part.handed, htold, hactive]
      rfl
    · have := durableSlots_sorted r j
      simpa only [hrec.slot] using this
    · rw [mem_durableSlots (c := c.recorded sn) (by rw [hentry]), releasable_iff]
      simp only [hrec.slot, hrec.waits]
      rfl
    · rw [hcon.slot, h.slot]
      simp only [hcon.waits, hrec.slot, live_congr hwho]
    · have hturn := h.turn i
      rw [donesTo_congr hrec.slot hwho, answersTo_congr hwho, hfreed] at hturn
      exact releasesInTurn_congr hturn (hrec.req i) (hrec.waits i) (hcon.req i) (hcon.waits i)
  · rw [concluded_journal_ne _ j _ (Ne.symm hk), h.other k hk, hne k hk]
  · rw [hcon.maint]
    exact h.deferred cmd (hrec.maint ▸ hcmd)

/-- Settles O31, by the configuration of the entry when its write lands. -/
theorem journalWriteLands : Obligations.JournalWriteLands := ⟨configuredWriteLands, unconfiguredWriteLands⟩

end Sys2Proof.Machine
end

section
/-! APPEND (O18). -/

namespace Sys2Proof.Machine

set_option Elab.async false

variable {p : Part} {i : Port} {j : JournalId} {r : Req} {c : Conf} {n : SlotId}

/-! ## The checks (R27, R14) -/

theorem freeSlotId_none (h : ∀ n, p.slot n ≠ none) : p.freeSlotId = none := by
  unfold Part.freeSlotId
  rw [List.find?_eq_none]
  exact fun n _ hn => h n (Option.isNone_iff_eq_none.1 hn)

theorem slot_of_freeSlotId (h : p.freeSlotId = some n) : p.slot n = none := by
  have hn := List.find?_some (p := fun n => (p.slot n).isNone) h
  exact Option.isNone_iff_eq_none.1 hn

theorem freeSlotId_of_free (h : ∃ n, p.slot n = none) : ∃ n, p.freeSlotId = some n := by
  refine Option.ne_none_iff_exists'.1 fun hn => ?_
  obtain ⟨n, hf⟩ := h
  exact List.find?_eq_none.1 hn n (mem_allSlots n) (Option.isNone_iff_eq_none.2 hf)

theorem padFor_fits {occ : Nat} (h : occ ≤ c.room) : c.padFor occ = none := if_pos h

theorem padFor_wraps {occ : Nat} (h : ¬occ ≤ c.room) : c.padFor occ = some c.room := if_neg h

theorem padFor_getD (c : Conf) (occ : Nat) : (c.padFor occ).getD 0 = if occ ≤ c.room then 0 else c.room := by
  by_cases h : occ ≤ c.room
  · rw [padFor_fits h, if_pos h]; rfl
  · rw [padFor_wraps h, if_neg h]; rfl

/-- The need of a record, by whether it fits before the end of the region (R13). -/
theorem need_eq (c : Conf) (occ : Nat) : c.need occ = if occ ≤ c.room then occ else c.room + occ := by
  unfold Conf.need
  rw [padFor_getD]
  split
  · exact Nat.zero_add occ
  · rfl

theorem reserveCheck_full {len : Nat} (h : c.freeSpace < c.need (occupancyOf len)) :
    reserveCheck c len = some .journalFull := if_pos h

theorem reserveCheck_fits {len : Nat} (h : c.need (occupancyOf len) ≤ c.freeSpace) :
    reserveCheck c len =
      if c.nextSeq = 0xFFFFFFFF#32 ∨ 2 ^ 64 ≤ c.reserve.toNat + c.need (occupancyOf len) then some .streamExhausted
      else none := if_neg (Nat.not_lt.2 h)

theorem appendCheck_tooLong (h : ¬(1 ≤ r.payloadLength ∧ r.payloadLength ≤ 65536)) :
    p.appendCheck i r j c = some .tooLong := by
  have hlen : r.payloadLength = 0 ∨ 65536 < r.payloadLength := by omega
  exact if_pos hlen

/-- The checks of a request whose payload length is in its range. -/
theorem appendCheck_sized (h : 1 ≤ r.payloadLength ∧ r.payloadLength ≤ 65536) :
    p.appendCheck i r j c =
      if c.fencedFor (p.sessionOf i) = true then some .fenced
      else if c.ownedBy (p.sessionOf i) = false then some .notOwner
      else if r.epoch ≠ (p.journal j).epoch then some .staleEpoch
      else if 4 ≤ p.openAppends (p.sessionOf i) then some .noSlot
      else if p.freeSlotId.isNone = true then some .noSlot
      else reserveCheck c r.payloadLength := by
  have hlen : ¬(r.payloadLength = 0 ∨ 65536 < r.payloadLength) := by omega
  exact if_neg hlen

/-- The checks of the owner's request. -/
theorem appendCheck_owner {t : W32} (h : 1 ≤ r.payloadLength ∧ r.payloadLength ≤ 65536)
    (ho : c.own = .owned (p.sessionOf i) t) :
    p.appendCheck i r j c =
      if r.epoch ≠ (p.journal j).epoch then some .staleEpoch
      else if 4 ≤ p.openAppends (p.sessionOf i) then some .noSlot
      else if p.freeSlotId.isNone = true then some .noSlot
      else reserveCheck c r.payloadLength := by
  rw [appendCheck_sized h, fencedFor_of_ownedBy ho, if_neg (by decide), ownedBy_iff.2 ⟨t, ho⟩, if_neg (by decide)]

/-- No slot for the request: the session has four, or none is FREE. -/
theorem appendCheck_noSlot {t : W32} (h : 1 ≤ r.payloadLength ∧ r.payloadLength ≤ 65536)
    (ho : c.own = .owned (p.sessionOf i) t) (he : r.epoch = (p.journal j).epoch)
    (hs : 4 ≤ p.openAppends (p.sessionOf i) ∨ ∀ n, p.slot n ≠ none) : p.appendCheck i r j c = some .noSlot := by
  rw [appendCheck_owner h ho, if_neg (not_not.2 he)]
  split
  · rfl
  · next hopen => rw [freeSlotId_none (hs.resolve_left hopen)]; rfl

/-- Where a slot is there for the request the reservation decides (R14). -/
theorem appendCheck_reserve {t : W32} (h : 1 ≤ r.payloadLength ∧ r.payloadLength ≤ 65536)
    (ho : c.own = .owned (p.sessionOf i) t) (he : r.epoch = (p.journal j).epoch)
    (hopen : p.openAppends (p.sessionOf i) < 4) (hfree : ∃ n, p.slot n = none) :
    p.appendCheck i r j c = reserveCheck c r.payloadLength := by
  obtain ⟨n, hn⟩ := freeSlotId_of_free hfree
  rw [appendCheck_owner h ho, if_neg (not_not.2 he), if_neg (Nat.not_le.2 hopen), hn]
  rfl

theorem append_refused {st : Status} (hj : r.journal.toNat = j.val) (hc : (p.journal j).conf = some c)
    (h : p.appendCheck i r j c = some st) :
    p.append i r = (p.answer i (r.rsp st .none)).countAppend fun k => k.refuse st := by
  unfold Part.append
  rw [configured_some hj hc]
  dsimp only
  rw [h]

theorem append_accepted (hj : r.journal.toNat = j.val) (hc : (p.journal j).conf = some c)
    (h : p.appendCheck i r j c = none) (hn : p.freeSlotId = some n) : p.append i r = p.acceptAppend i r j c n := by
  unfold Part.append
  rw [configured_some hj hc]
  dsimp only
  rw [h, hn]

/-- A refused APPEND is answered and counted, and changes nothing else (R27, R47). -/
theorem append_refused_run {s : State} {payload : List Byte} {st : Status} (hq : s.part.quiet = true)
    (hreach : s.part.reachesBlock i codeAppend payload) (hj : (Req.ofPayload payload).journal.toNat = j.val)
    (hc : (s.part.journal j).conf = some c)
    (h : (s.part.served i RequestLayer.took).appendCheck i (Req.ofPayload payload) j c = some st) :
    Runs (.append i) s fun q =>
      q = { s.part.served i fun l => l.took.answered ((Req.ofPayload payload).rsp st .none) with
        appendCnt := s.part.appendCnt.refuse st } := by
  have hrun : s.part.ret.running = true := hreach.1.1
  have hserved := answer_served (p := s.part) (i := i) (f := RequestLayer.took) ((Req.ofPayload payload).rsp st .none)
    hreach.1.2.2.2
  have happ := append_refused (p := s.part.served i RequestLayer.took) (i := i) hj hc h
  rw [hserved] at happ
  refine block_run (serve := fun r p => p.append i r) rfl hreach _ happ hrun ?_
  refine react_calm hq hrun ((served_changes _ _ _).trans (countAppend_changes _ _)) fun k => ?_
  rw [countAppend_req]
  by_cases h : i = k
  · subst h; rw [served_req_self]; rfl
  · rw [served_req_ne _ _ h]

theorem appendChecks : Rules.AppendChecks := by
  intro i j s payload c hq hreach hj hc p r sid refused open_ occ size room need free sized
  have hsid : (p.served i RequestLayer.took).sessionOf i = sid := served_took_sessionOf
  have hopen : (p.served i RequestLayer.took).openAppends sid = open_ := rfl
  have hneed : c.need (occupancyOf r.payloadLength) = need := need_eq c _
  refine ⟨fun h => ?_, fun h t cl ho => ?_, fun h hf ho => ?_, fun t h ho => ?_⟩
  · exact append_refused_run hq hreach hj hc (appendCheck_tooLong h)
  · refine append_refused_run hq hreach hj hc ((appendCheck_sized h).trans (if_pos ?_))
    rw [hsid]
    exact fencedFor_iff.2 ⟨t, cl, ho⟩
  · refine append_refused_run hq hreach hj hc ((appendCheck_sized h).trans ((if_neg ?_).trans (if_pos ?_)))
    · rw [hsid]
      exact fun hx => (fencedFor_iff.1 hx).elim fun t ⟨cl, hx⟩ => hf t cl hx
    · rw [hsid]
      exact Bool.eq_false_iff.2 fun hx => (ownedBy_iff.1 hx).elim ho
  · rw [← hsid] at ho
    rw [← hopen, ← hsid, ← hneed]
    refine ⟨fun he => ?_, fun he hs => ?_, fun he hlt hfree => ⟨fun hfull => ?_, fun hfit hex => ?_⟩⟩
    · exact append_refused_run hq hreach hj hc ((appendCheck_owner h ho).trans (if_pos he))
    · exact append_refused_run hq hreach hj hc (appendCheck_noSlot h ho he hs)
    · exact append_refused_run hq hreach hj hc ((appendCheck_reserve h ho he hlt hfree).trans (reserveCheck_full hfull))
    · exact append_refused_run hq hreach hj hc
        ((appendCheck_reserve h ho he hlt hfree).trans ((reserveCheck_fits hfit).trans (if_pos hex)))

/-! ## The watermark (R16) -/

theorem watermarkReached_iff {w : Byte} :
    c.watermarkReached w = true ↔ c.armed = true ∧ w.toNat < 100 ∧ c.size * w.toNat / 100 ≤ c.fill := by
  unfold Conf.watermarkReached Conf.level
  rw [Bool.and_eq_true, Bool.and_eq_true, decide_eq_true_eq, decide_eq_true_eq, and_assoc]

theorem fillCheck_reached {o : Port} (hc : (p.journal j).conf = some c)
    (h : c.watermarkReached (p.journal j).watermark = true) :
    p.fillCheck j o = (p.modConf j fun c => { c with armed := false }).notify (.fill j c.fill c.size) o := by
  unfold Part.fillCheck
  rw [hc]
  exact if_pos h

theorem fillCheck_below {o : Port} (hc : (p.journal j).conf = some c)
    (h : ¬c.watermarkReached (p.journal j).watermark = true) : p.fillCheck j o = p := by
  unfold Part.fillCheck
  rw [hc]
  exact if_neg h

/-- The watermark check disarms the journal and tells its owner where the level is reached. -/
theorem fillCheck_spec {o : Port} (hc : (p.journal j).conf = some c) :
    (p.fillCheck j o).journal j
        = { p.journal j with
            conf := some
              { c with armed := if c.watermarkReached (p.journal j).watermark = true then false else c.armed } }
      ∧ (∀ k, k ≠ j → (p.fillCheck j o).journal k = p.journal k)
      ∧ ∀ k, (p.fillCheck j o).ntf k
          = if k = o ∧ c.watermarkReached (p.journal j).watermark = true then p.handed k (.fill j c.fill c.size)
            else p.ntf k := by
  by_cases h : c.watermarkReached (p.journal j).watermark = true
  · have hch := modConf_changes p j fun c => { c with armed := false }
    have hn := notify_changes (p.modConf j fun c => { c with armed := false }) (.fill j c.fill c.size) o
    rw [fillCheck_reached hc h, if_pos h]
    refine ⟨?_, fun k hk => ?_, fun k => ?_⟩
    · rw [hn.journal, modConf_journal_self, hc]
      rfl
    · rw [hn.journal, modConf_journal_ne _ _ _ (Ne.symm hk)]
    · by_cases hk : k = o
      · subst hk
        rw [if_pos ⟨rfl, h⟩, notify_self, handed_congr (hch.req k) (hch.ntf k)]
      · rw [if_neg fun hr => hk hr.1, notify_ne _ (Ne.symm hk), hch.ntf]
  · rw [fillCheck_below hc h, if_neg h]
    refine ⟨?_, fun _ _ => rfl, fun k => (if_neg fun hr => h hr.2).symm⟩
    change p.journal j = { p.journal j with conf := some c }
    rw [← hc]

/-! ## The reservation (R13, R15, R28) -/

/-- The pad's header goes out where the record does not fit before the end of the region (R15, step 1). -/
theorem handPad_mem {occ : Nat} (hc : (p.journal j).conf = some c) :
    (p.handPad n i j c occ).mem = if occ ≤ c.room then p.mem else
      p.memAfter (runWrites (.slot n .pad) 32 (c.address c.reserve.toNat)
        (padHeader i (p.journal j).epoch c.reserve c.room)) := by
  have hlen : (padHeader i (p.journal j).epoch c.reserve c.room).length = 32 := recordHeader_length _ _ _ _ _ _ _ _ _
  unfold Part.handPad
  by_cases h : occ ≤ c.room
  · rw [padFor_fits h, if_pos h]
  · rw [padFor_wraps h, if_neg h]
    dsimp only
    rw [handRun_mem _ _ _ _ _ hc, hlen]

/-- The slot an accepted APPEND takes (R24, R28), by whether the record fits before the end of the region. -/
theorem newSlot_eq (ep : W32) (sid : SessionId) (idle : Byte) :
    newSlot r j c ep sid idle =
      { state := .receiving, session := sid, reqTag := r.tag, journal := j, epoch := ep, seq := c.nextSeq
        position := c.reserve
          + BitVec.ofNat 64 (if occupancyOf r.payloadLength ≤ c.room then 0 else c.room)
        length := r.payloadLength, occupancy := occupancyOf r.payloadLength, received := 0
        carry := [], check := 0xFFFFFFFF#32, declared := r.payloadCheck, recordTag := r.recordTag
        outstanding := if occupancyOf r.payloadLength ≤ c.room then 0 else 1
        idle := some idle, outcome := none, reason := none } := by
  unfold newSlot
  rw [padFor_getD]
  by_cases h : occupancyOf r.payloadLength ≤ c.room
  · rw [padFor_fits h, if_pos h, if_pos h]
    rfl
  · rw [padFor_wraps h, if_neg h, if_neg h]
    rfl

/-- The part when the slot is taken, the pad handed and the space reserved. -/
def Part.reservedFor (p : Part) (i : Port) (r : Req) (j : JournalId) (c : Conf) (n : SlotId) : Part :=
  ((p.setSlot n (some (newSlot r j c (p.journal j).epoch (p.sessionOf i) p.maint.params.idle))).handPad n i j c
    (occupancyOf r.payloadLength)).modConf j fun c => c.reserved (occupancyOf r.payloadLength)

/-- The request layer with one more open append. -/
def RequestLayer.opensAppend (l : RequestLayer) : RequestLayer :=
  { l with session := { l.session with openAppends := l.session.openAppends + 1 } }

theorem acceptAppend_eq : p.acceptAppend i r j c n
    = ((((p.reservedFor i r j c n).fillCheck j i).enterTag i r.tag).modReq i RequestLayer.opensAppend).countAppend
      fun k => { k with accepted := satInc k.accepted } := rfl

theorem reservedFor_changes : Part.Changes [.slots, .mem, .journals] p (p.reservedFor i r j c n) :=
  (((setSlot_changes p _ _).trans (handPad_changes _ n i j c _)).trans (modConf_changes _ _ _)).mono

theorem reservedFor_conf (hc : (p.journal j).conf = some c) :
    (p.reservedFor i r j c n).journal j
      = { p.journal j with conf := some (c.reserved (occupancyOf r.payloadLength)) } := by
  unfold Part.reservedFor
  rw [modConf_journal_self, (handPad_changes _ n i j c _).journal, setSlot_journal, hc]
  rfl

theorem reservedFor_journal_ne {k : JournalId} (h : j ≠ k) : (p.reservedFor i r j c n).journal k = p.journal k := by
  unfold Part.reservedFor
  rw [modConf_journal_ne _ _ _ h, (handPad_changes _ n i j c _).journal, setSlot_journal]

theorem reservedFor_slot (m : SlotId) :
    (p.reservedFor i r j c n).slot m
      = if m = n then some (newSlot r j c (p.journal j).epoch (p.sessionOf i) p.maint.params.idle) else p.slot m := by
  unfold Part.reservedFor
  rw [(modConf_changes _ _ _).slot, (handPad_changes _ n i j c _).slot]
  by_cases h : m = n
  · subst h; rw [if_pos rfl, setSlot_slot_self]
  · rw [if_neg h, setSlot_slot_ne _ _ _ (Ne.symm h)]

theorem reservedFor_mem (hc : (p.journal j).conf = some c) :
    (p.reservedFor i r j c n).mem = if occupancyOf r.payloadLength ≤ c.room then p.mem else
      p.memAfter (runWrites (.slot n .pad) 32 (c.address c.reserve.toNat)
        (padHeader i (p.journal j).epoch c.reserve c.room)) := by
  unfold Part.reservedFor
  rw [(modConf_changes _ _ _).mem, handPad_mem (by rw [setSlot_journal]; exact hc)]
  rfl

/-- What follows the reservation in an accepted APPEND: the watermark check, the tag and the counts. -/
theorem acceptAppend_after :
    Part.Changes [.journals, .ntfs, .ntfCnt, .reqs, .appendCnt] (p.reservedFor i r j c n) (p.acceptAppend i r j c n) :=
  ((((fillCheck_changes _ j i).trans (enterTag_changes _ i _)).trans (modReq_changes _ i _)).trans
    (countAppend_changes _ _)).mono

/-- The entry and the notifications after an accepted APPEND: the reservation (R15) and the watermark check (R16). -/
theorem acceptAppend_reserved (hc : (p.journal j).conf = some c) :
    let d := c.reserved (occupancyOf r.payloadLength)
    (p.acceptAppend i r j c n).journal j
        = { p.journal j with
            conf := some { d with armed := if d.watermarkReached (p.journal j).watermark = true then false else d.armed } }
      ∧ (∀ k, k ≠ j → (p.acceptAppend i r j c n).journal k = p.journal k)
      ∧ ∀ k, (p.acceptAppend i r j c n).ntf k
          = if k = i ∧ d.watermarkReached (p.journal j).watermark = true then p.handed k (.fill j d.fill d.size)
            else p.ntf k := by
  intro d
  have hconf := reservedFor_conf (i := i) (r := r) (n := n) hc
  have hres := reservedFor_changes (p := p) (i := i) (r := r) (j := j) (c := c) (n := n)
  have hrest : Part.Changes [.reqs, .appendCnt] ((p.reservedFor i r j c n).fillCheck j i) (p.acceptAppend i r j c n) :=
    (((enterTag_changes _ i _).trans (modReq_changes _ i _)).trans (countAppend_changes _ _)).mono
  obtain ⟨hself, hother, hntf⟩ := fillCheck_spec (o := i) (congrArg Journal.conf hconf)
  rw [hconf] at hself hntf
  refine ⟨(hrest.journal j).trans hself, fun k hk => ?_, fun k => ?_⟩
  · rw [hrest.journal, hother k hk, reservedFor_journal_ne (Ne.symm hk)]
  · rw [hrest.ntf, hntf, handed_congr (hres.req k) (hres.ntf k), hres.ntf]

theorem acceptAppend_slot (m : SlotId) :
    (p.acceptAppend i r j c n).slot m
      = if m = n then some (newSlot r j c (p.journal j).epoch (p.sessionOf i) p.maint.params.idle) else p.slot m := by
  rw [acceptAppend_after.slot, reservedFor_slot]

theorem acceptAppend_mem (hc : (p.journal j).conf = some c) :
    (p.acceptAppend i r j c n).mem = if occupancyOf r.payloadLength ≤ c.room then p.mem else
      p.memAfter (runWrites (.slot n .pad) 32 (c.address c.reserve.toNat)
        (padHeader i (p.journal j).epoch c.reserve c.room)) := by
  rw [acceptAppend_after.mem, reservedFor_mem hc]

theorem acceptAppend_req (h : r.tag ∉ (p.req i).tags) :
    (p.acceptAppend i r j c n).req i = ((p.req i).entered r.tag).opensAppend := by
  have hreq : ((p.reservedFor i r j c n).fillCheck j i).req i = p.req i :=
    (reservedFor_changes.trans (fillCheck_changes _ j i)).req i
  rw [acceptAppend_eq, countAppend_req, modReq_req_self, enterTag_new, modReq_req_self, hreq]
  rw [hreq]
  exact h

theorem acceptAppend_appendCnt :
    (p.acceptAppend i r j c n).appendCnt = { p.appendCnt with accepted := satInc p.appendCnt.accepted } := by
  have hcnt : ((((p.reservedFor i r j c n).fillCheck j i).enterTag i r.tag).modReq i RequestLayer.opensAppend).appendCnt
      = p.appendCnt :=
    (((reservedFor_changes.trans (fillCheck_changes _ j i)).trans (enterTag_changes _ i _)).trans
      (modReq_changes _ i _)).appendCnt
  rw [acceptAppend_eq, countAppend_appendCnt, hcnt]

/-- An accepted APPEND leaves nothing due: no entry becomes dirty, and its slot is in use. -/
theorem acceptAppend_react (hc : (p.journal j).conf = some c) (hq : p.quiet = true) (hr : p.ret.running = true)
    (hm : p.ret.mode = .serving) : (p.acceptAppend i r j c n).react = p.acceptAppend i r j c n := by
  have hch := acceptAppend_changes p i r j c n
  obtain ⟨hself, hother, -⟩ := acceptAppend_reserved (i := i) (r := r) (n := n) hc
  refine react_serving_calm hq hr (hch.ret ▸ hm) (formatDue_slot (n := n) ?_) fun m => ?_
  · rw [acceptAppend_slot, if_pos rfl]
    rfl
  · cases m with
    | header => exact congrArg DeviceHeader.dir hch.header
    | journal k =>
      have hdir : ((p.acceptAppend i r j c n).journal k).dir = (p.journal k).dir := by
        by_cases h : k = j
        · subst h
          rw [hself]
        · rw [hother k h]
      exact hdir

theorem appendReserves : Rules.AppendReserves := by
  intro i j s payload c t hq hreach hj hc p r sid e occ size room pad fill reached h1 h2 ho he hopen hfree hfit hseq hmax
  have hrun : p.ret.running = true := hreach.1.1
  have hsid : (p.served i RequestLayer.took).sessionOf i = sid := served_took_sessionOf
  have hconf : ((p.served i RequestLayer.took).journal j).conf = some c := hc
  have htag : r.tag ∉ ((p.served i RequestLayer.took).req i).tags := by
    rw [served_req_self]
    exact hreach.2.2.2.2.1
  have hneed : c.need occ = pad + occ := by
    unfold Conf.need
    rw [padFor_getD]
    rfl
  have hcheck : (p.served i RequestLayer.took).appendCheck i r j c = none := by
    rw [← hsid] at ho hopen
    have hoccupancy : c.need (occupancyOf r.payloadLength) = pad + occ := hneed
    rw [appendCheck_reserve ⟨h1, h2⟩ ho he hopen hfree, reserveCheck_fits (hoccupancy ▸ hfit), hoccupancy]
    exact if_neg fun h => h.elim hseq (Nat.not_le.2 hmax)
  obtain ⟨n, hn⟩ := freeSlotId_of_free (p := p.served i RequestLayer.took) hfree
  have happ := append_accepted (p := p.served i RequestLayer.took) (i := i) hj hconf hcheck hn
  have hch := acceptAppend_changes (p.served i RequestLayer.took) i r j c n
  obtain ⟨hself, hother, hntf⟩ := acceptAppend_reserved (i := i) (r := r) (n := n) hconf
  have hreserved : c.reserved (occupancyOf r.payloadLength) =
      { c with
        reserve := c.reserve + BitVec.ofNat 64 (pad + occ), nextSeq := c.nextSeq + 1, openSlots := c.openSlots + 1 } := by
    rw [← hneed]
    rfl
  have hreached : (c.reserved (occupancyOf r.payloadLength)).watermarkReached
      ((p.served i RequestLayer.took).journal j).watermark = true ↔ reached := by
    rw [hreserved]
    exact watermarkReached_iff
  rw [hreserved] at hself hntf hreached
  refine block_run (serve := fun r p => p.append i r) rfl hreach _ happ (hch.ret ▸ hrun) ?_
  rw [acceptAppend_react hconf (served_quiet hq hrun rfl) hrun hreach.2.2.1]
  refine ⟨⟨n, slot_of_freeSlotId hn, ?_, fun m hm => ?_, acceptAppend_mem hconf⟩, hself.trans ?_, hother, ?_, ?_,
    acceptAppend_appendCnt, fun k => (hntf k).trans ?_⟩
  · rw [acceptAppend_slot, if_pos rfl, newSlot_eq, hsid]
    rfl
  · rw [acceptAppend_slot, if_neg hm]
    rfl
  · by_cases h : reached
    · rw [if_pos h, if_pos (hreached.2 h)]
      rfl
    · rw [if_neg h, if_neg fun hx => h (hreached.1 hx)]
      rfl
  · rw [acceptAppend_req htag, served_req_self]
    rfl
  · rw [hch.link, served_link_self]
  · by_cases h : k = i ∧ reached
    · obtain ⟨rfl, hr⟩ := h
      rw [if_pos ⟨rfl, hreached.2 hr⟩, if_pos ⟨rfl, hr⟩]
      unfold Part.handed
      rw [served_took_session]
      rfl
    · rw [if_neg h, if_neg fun hx => h (hx.imp_right hreached.1)]
      rfl

/-- Settles O18, by what `appendCheck` answers. -/
theorem appendIsCheckedAndReserved : Obligations.AppendIsCheckedAndReserved := ⟨appendChecks, appendReserves⟩

end Sys2Proof.Machine
end

section
/-! Every step keeps the bounds of the part (O7): both invariants, command by command. -/

namespace Sys2Proof.Machine

set_option Elab.async false

/-! ## What keeps both invariants -/

/-- Where p is within its bounds q is, those of the queues (`sound`) and those of the tables (`tablesSound`) apart. -/
structure Part.Keeps (p q : Part) : Prop where
  sound : p.sound → q.sound
  tables : p.tablesSound → q.tablesSound

variable {p q : Part} {s t : State}

theorem Part.Keeps.refl (p : Part) : p.Keeps p := ⟨id, id⟩

theorem Part.Keeps.trans {r : Part} (h : p.Keeps q) (h' : q.Keeps r) : p.Keeps r :=
  ⟨h'.sound ∘ h.sound, h'.tables ∘ h.tables⟩

/-- Neither invariant speaks of the other fields. -/
theorem Part.Changes.keeps {fs : List Part.Field} (h : Part.Changes fs p q)
    (hn : ∀ f ∈ [Part.Field.links, .reqs, .ntfs, .mem, .dram, .journals, .slots, .reads], f ∉ fs := by decide) :
    p.Keeps q :=
  ⟨fun hp => h.sound (hn _ (by decide)) (hn _ (by decide)) (hn _ (by decide)) (hn _ (by decide)) (hn _ (by decide)) hp,
    (h.same (hn _ (by decide)) (hn _ (by decide)) (hn _ (by decide))).tables⟩

/-- A change of one link unit. -/
theorem modLink_keeps (i : Port) {f : LinkUnit → LinkUnit} (hf : (p.link i).sound → (f (p.link i)).sound) :
    p.Keeps (p.modLink i f) :=
  ⟨fun hp => modLink_sound hp i hf, (modLink_changes p i f).same.tables⟩

/-! ## The wrappers of the meanings -/

theorem next_keeps {f : Part → Part} (h : (.next (s.onPart f) : Result) = .next t) (hf : s.part.Keeps (f s.part)) :
    s.part.Keeps t.part := by
  cases h
  exact hf

theorem event_keeps {f : Part → Option Part} (hf : ∀ q, f p = some q → p.Keeps q) : p.Keeps (p.event f) :=
  ⟨fun hp => event_sound hp fun q hq => (hf q hq).sound hp, fun hp => event_tables hp fun q hq => (hf q hq).tables hp⟩

theorem eventIf_keeps {b : Part → Prop} [DecidablePred b] {op : Part → Part} (hop : b p → p.Keeps (op p)) :
    p.Keeps (p.event fun p => if b p then some (op p) else none) := by
  refine event_keeps fun q hq => ?_
  split at hq
  · next hb => cases hq; exact hop hb
  · cases hq

theorem if_keeps {b : Prop} [Decidable b] {q r : Part} (hq : p.Keeps q) (hr : p.Keeps r) :
    p.Keeps (if b then q else r) := by
  split
  · exact hq
  · exact hr

theorem intake_keeps (i : Port) (isIt : List Byte → Bool) {serve : Req → Part → Part} (h : ∀ r (q : Part), q.Keeps (serve r q)) :
    p.Keeps (p.intake i isIt serve) :=
  ⟨fun hp => intake_sound hp i isIt fun r q => (h r q).sound, fun hp => intake_tables hp i isIt fun r q => (h r q).tables⟩

/-- A request that enters a tag does so behind the checks of the request layer, which leave it room (R111, R112). -/
theorem request_keeps (i : Port) (isIt : List Byte → Bool) {serve : Req → Part → Part}
    (hs : ∀ r q, Part.sound q → (q.req i).tags.length < Config.maxTags → (serve r q).sound)
    (ht : ∀ r q, Part.tablesSound q → (serve r q).tablesSound) :
    p.Keeps (p.intake i isIt fun r p => p.checked i r (serve r p)) :=
  intake_keeps i isIt fun r q =>
    ⟨fun hq => checked_sound hq (hs r q hq) r, fun hq => checked_tables hq (ht r q hq) i r⟩

theorem complete_keeps {act : Client → Option (Nat → List Byte → Part → Part)} (h : s.complete act = .next t)
    (ha : ∀ c f, act c = some f → ∀ a bs q, Part.Keeps q (f a bs q)) : s.part.Keeps t.part :=
  ⟨fun hs => complete_sound hs (fun c f hf a bs q => (ha c f hf a bs q).sound) h,
    fun hs => complete_tables hs (fun c f hf a bs q => (ha c f hf a bs q).tables) h⟩

theorem transaction_keeps (modes : List Mode) {act : Part → Part} (h : ∀ q : Part, q.Keeps (act q)) :
    p.Keeps (p.transaction modes act) :=
  ⟨fun hp => transaction_sound hp modes fun q => (h q).sound, fun hp => transaction_tables hp modes fun q => (h q).tables⟩

theorem respond_keeps (st : MaintStatus) (bs : List Byte) : p.Keeps (p.respond st bs) := (respond_changes p st bs).keeps

/-! ## Starts and stops -/

theorem start_keeps (p : Part) : p.Keeps p.start := ⟨start_sound, fun _ => start_tables⟩

theorem stopMain_keeps (p : Part) : p.Keeps p.stopMain := ⟨stopMain_sound, fun _ => stopMain_tables⟩

/-- A line that rises and may start the main domain. -/
theorem lineUp_keeps {b : Prop} [Decidable b] {f : Retention → Retention} :
    p.Keeps (if b then (p.modRet f).start else p.modRet f) :=
  have hf : p.Keeps (p.modRet f) := (modRet_changes p f).keeps
  if_keeps (hf.trans (start_keeps _)) hf

theorem pfailFalls_keeps (p : Part) : p.Keeps p.pfailFalls := ⟨pfailFalls_sound, pfailFalls_tables⟩

theorem quiesce_keeps (p : Part) (c : QuiesceCause) : p.Keeps (p.quiesce c) :=
  ⟨fun hp => quiesce_sound hp c, fun hp => quiesce_tables hp c⟩

/-- The commands of the board's supplies and lines. -/
theorem lineCommand_keeps {c : Instr} (hl : lineCommand c = true) (h : exec c s = .next t) : s.part.Keeps t.part := by
  cases c with cases hl
  | pfailNFall =>
    have hlow : s.part.Keeps (s.part.modRet fun r => { r with pfailHigh := false }) := (modRet_changes _ _).keeps
    exact next_keeps h (if_keeps (hlow.trans (pfailFalls_keeps _)) (.refl _))
  | pfailNRise => exact next_keeps h (if_keeps lineUp_keeps (.refl _))
  | mainDomainStart => exact next_keeps h (if_keeps (start_keeps _) (.refl _))
  | mainPowerOn => exact next_keeps h (if_keeps (.refl _) lineUp_keeps)
  | mainPowerLoss =>
    exact next_keeps h (if_keeps ((stopMain_keeps _).trans (modRet_changes _ _).keeps) (.refl _))
  | rstNLow =>
    exact next_keeps h (if_keeps ((stopMain_keeps _).trans (modRet_changes _ _).keeps) (.refl _))
  | rstNRelease => exact next_keeps h (if_keeps (.refl _) lineUp_keeps)
  | retentionPowerOn =>
    exact next_keeps h ⟨fun _ => fresh_sound _ ⟨.nil, by simp⟩, fun _ => fresh_tables _ _ _⟩

/-! ## Every command -/

/-- A request, a link, memory, directory or maintenance command. -/
theorem eventCommand_keeps {c : Instr} (hl : lineCommand c = false) (h : exec c s = .next t) : s.part.Keeps t.part := by
  cases c with dsimp only [exec] at h
  | attach i =>
    exact next_keeps h (intake_keeps i _ fun r q => ⟨fun hq => attach_sound hq i r, (attach_changes q i r).same.tables⟩)
  | detach i =>
    exact next_keeps h (request_keeps i _ (fun r q hq _ => detach_sound hq i r) fun r q hq => detach_tables hq i r)
  | status i =>
    exact next_keeps h
      (request_keeps i _ (fun r q hq _ => status_sound hq i r) fun r q => (status_changes q i r).same.tables)
  | subscribe i =>
    exact next_keeps h
      (request_keeps i _ (fun r q hq _ => subscribe_sound hq i r) fun r q => (subscribe_same q i r).tables)
  | unsubscribe i =>
    exact next_keeps h
      (request_keeps i _ (fun r q hq _ => unsubscribe_sound hq i r) fun r q => (unsubscribe_same q i r).tables)
  | claim i =>
    exact next_keeps h (request_keeps i _ (fun r q hq hr => claim_sound hq hr r) fun r q => (claim_same q i r).tables)
  | release i =>
    exact next_keeps h
      (request_keeps i _ (fun r q hq hr => releaseRequest_sound hq hr r) fun r q => (release_same q i r).tables)
  | takeover i =>
    exact next_keeps h
      (request_keeps i _ (fun r q hq hr => takeover_sound hq hr r) fun r q => (takeover_same q i r).tables)
  | append i =>
    exact next_keeps h (request_keeps i _ (fun r q hq hr => append_sound hq hr r) fun r q hq => append_tables hq i r)
  | read i =>
    exact next_keeps h
      (request_keeps i _ (fun r q hq hr => readRequest_sound hq hr r) fun r q hq => readRequest_tables hq i r)
  | trim i =>
    exact next_keeps h
      (request_keeps i _ (fun r q hq hr => trimRequest_sound hq hr r) fun r q => (trimRequest_same q i r).tables)
  | unknownRequest i =>
    exact next_keeps h
      (intake_keeps i _ fun r q => ⟨fun hq => unknown_sound hq i r _, (unknown_changes q i r _).same.tables⟩)
  | data i =>
    refine next_keeps h (event_keeps fun q hq => ?_)
    obtain ⟨payload, -, rfl⟩ := Option.map_eq_some_iff.1 hq
    exact ⟨fun hp => data_sound (countReq_sound (popFrame_sound hp i) i _) i payload,
      (((popFrame_changes _ i).trans (countReq_changes _ i _)).same.trans (data_same _ i payload)).tables⟩
  | idleTimerExpiry n =>
    refine next_keeps h (event_keeps fun q hq => ?_)
    split at hq
    · cases hq
    · split at hq
      · cases hq; exact ⟨fun hp => voidSlot_sound hp n _, (voidSlot_same _ n _).tables⟩
      · cases hq
  | holdGraceExpiry j =>
    exact next_keeps h (eventIf_keeps fun _ =>
      ⟨fun hp => (modConf_changes _ j _).sound (hp := hp), fun hp => expireGrace_tables hp j⟩)
  | appendWriteComplete =>
    refine complete_keeps h fun c f hf a bs q => ?_
    split at hf <;> cases hf
    exact ⟨fun hq => slotWritten_sound hq _, (slotWritten_same q _).tables⟩
  | frontierAdvance j =>
    refine next_keeps h (event_keeps fun q hq => ?_)
    obtain ⟨n, -, rfl⟩ := Option.map_eq_some_iff.1 hq
    exact ⟨fun hp => frontierAdvance_sound hp j, (frontierAdvance_same _ j).tables⟩
  | directoryWriteStart i =>
    exact next_keeps h (eventIf_keeps fun _ => ⟨fun hp => startWrite_sound hp i, (startWrite_same _ i).tables⟩)
  | directoryWriteComplete =>
    refine complete_keeps h fun c f hf a bs q => ?_
    split at hf <;> cases hf
    exact ⟨fun hq => journalWritten_sound hq _, fun hq => journalWritten_tables hq _⟩
  | appendDoneRelease n =>
    exact next_keeps h (eventIf_keeps fun _ => ⟨fun hp => releaseSlot_sound hp n, fun hp => releaseSlot_tables hp n⟩)
  | deviceHeaderWriteComplete =>
    refine complete_keeps h fun c f hf a bs q => ?_
    split at hf <;> cases hf
    exact ⟨headerWritten_sound, (headerWritten_same q).tables⟩
  | transferComplete j =>
    exact next_keeps h (eventIf_keeps fun _ => ⟨fun hp => transferCheck_sound hp j, (transferCheck_same _ j).tables⟩)
  | trimCheckComplete =>
    refine complete_keeps h fun c f hf a bs q => ?_
    split at hf <;> cases hf
    exact ⟨fun hq => trimChecked_sound hq _ _, (trimChecked_same q _ _).tables⟩
  | trimHeadAdvance j =>
    exact next_keeps h (eventIf_keeps fun _ => ⟨fun hp => headAdvance_sound hp j, (headAdvance_same _ j).tables⟩)
  | trimComplete j =>
    exact next_keeps h (eventIf_keeps fun _ => ⟨fun hp => trimEnd_sound hp j, (trimEnd_same _ j).tables⟩)
  | readBurstComplete =>
    refine complete_keeps h fun c f hf a bs q => ?_
    split at hf <;> cases hf
    exact ⟨fun hq => (burstArrived_changes q _ _ _).sound (hp := hq), (burstArrived_same q _ _ _).tables⟩
  | readFrameQueued r =>
    exact next_keeps h (event_keeps fun q hq => ⟨fun hp => queueFrame_sound hp r hq, (queueFrame_same _ r hq).tables⟩)
  | readResponseQueued r =>
    exact next_keeps h
      (event_keeps fun q hq => ⟨fun hp => queueReadResponse_sound hp r hq, fun hp => queueReadResponse_tables hp r hq⟩)
  | appendDoneQueued i =>
    exact next_keeps h (event_keeps fun q hq => ⟨fun hp => serveDone_sound hp i hq, fun hp => serveDone_tables hp i hq⟩)
  | waitingResponseQueued i =>
    exact next_keeps h
      (event_keeps fun q hq => ⟨fun hp => serveWaiting_sound hp i hq, (serveWaiting_changes _ i hq).same.tables⟩)
  | formatExecute => exact next_keeps h (eventIf_keeps fun _ => ⟨formatNow_sound, (formatNow_same _).tables⟩)
  | formatWritesComplete =>
    refine complete_keeps h fun c f hf a bs q => ?_
    split at hf <;> cases hf
    exact ⟨fun hq => (formatWritten_changes q _ _).sound (hp := hq), (formatWritten_same q _ _).tables⟩
  | transmitSelect i =>
    refine next_keeps h (event_keeps fun q hq => ?_)
    obtain ⟨x, hx, rfl⟩ := Option.map_eq_some_iff.1 hq
    have hr := selects_ready hx
    cases x with
    | responses => exact ⟨fun hp => sendResponse_sound hp hr, (sendResponse_changes _ i).same.tables⟩
    | notifications => exact ⟨fun hp => sendNotification_sound hp hr, (sendNotification_changes _ i).same.tables⟩
  | sendIdle i => exact next_keeps h (eventIf_keeps fun _ => modLink_keeps i sendIdle_sound)
  | sendLinkReset i => exact next_keeps h (eventIf_keeps fun _ => modLink_keeps i sendReset_sound)
  | replaySend i =>
    refine next_keeps h (event_keeps fun q hq => ?_)
    split at hq
    · cases hq; exact modLink_keeps i fun hu => resend_sound hu _
    · cases hq
  | goodSequencedFrame i ty hd payload =>
    refine next_keeps h (event_keeps fun q hq => ?_)
    split at hq
    · cases hq
      exact ⟨fun hp => goodSequenced_sound hp i ty hd payload, fun hp => goodSequenced_tables hp i ty hd payload⟩
    · cases hq; exact modLink_keeps i checkFail_sound
  | idleFrame i hd =>
    exact next_keeps h
      (event_keeps fun q hq => Option.some.inj hq ▸ ⟨fun hp => goodIdle_sound hp i hd, fun hp => goodIdle_tables hp i hd⟩)
  | linkResetFrame f =>
    exact next_keeps h (event_keeps fun q hq => Option.some.inj hq ▸
      ⟨fun hp => goodReset_sound hp f.port f.header, fun hp => goodReset_tables hp f.port f.header⟩)
  | frameCheckFail i =>
    exact next_keeps h (event_keeps fun q hq => Option.some.inj hq ▸ modLink_keeps i checkFail_sound)
  | replayTimerExpiry i =>
    exact next_keeps h
      (eventIf_keeps fun _ => ⟨fun hp => replayTrigger_sound hp i, fun hp => replayTrigger_tables hp i⟩)
  | silenceTimerExpiry i =>
    refine next_keeps h (event_keeps fun q hq => ?_)
    split at hq
    · split at hq
      · cases hq; exact ⟨fun hp => linkDown_sound hp i _, fun hp => linkDown_tables hp i _⟩
      · next hs => cases hq; exact modLink_keeps i fun hu => syncSilence_sound hu hs
      · cases hq
    · cases hq
  | accessAdmit c =>
    exact next_keeps h (event_keeps fun q hq => ⟨fun hp => admitHeld_sound hp c hq, (admitHeld_same _ c hq).tables⟩)
  | refreshTimerExpiry =>
    exact next_keeps h (eventIf_keeps fun _ => ⟨refreshOwed_sound, (refreshOwed_changes _).same.tables⟩)
  | refreshComplete =>
    refine next_keeps h (event_keeps fun q hq => ?_)
    split at hq
    · cases hq
      exact ⟨fun hp => arbitrate_sound (modMem_sound hp fun hm => refreshed_sound hm _),
        ((modMem_changes _ _).both (arbitrate_changes _)).same.tables⟩
    · cases hq
  | initialiseComplete =>
    exact next_keeps h (eventIf_keeps fun _ => ⟨initialiseDone_sound, (initialiseDone_same _).tables⟩)
  | selfRefreshEntryComplete =>
    exact next_keeps h (eventIf_keeps fun _ => ⟨entryComplete_sound, entryComplete_tables⟩)
  | selfRefreshExitComplete =>
    exact next_keeps h (eventIf_keeps fun _ => ⟨exitComplete_sound, (exitComplete_same _).tables⟩)
  | coldStartWriteComplete =>
    refine complete_keeps h fun c f hf a bs q => ?_
    split at hf <;> cases hf
    exact ⟨fun hq => (modDir_changes q _ _).sound (hp := hq), (modDir_same q _ _).tables⟩
  | coldStartDone => exact next_keeps h (eventIf_keeps fun _ => (coldDone_changes _).keeps)
  | headerLoadComplete =>
    refine complete_keeps h fun c f hf a bs q => ?_
    split at hf <;> cases hf
    exact ⟨fun hq => loadArrived_sound hq _ _ _, (loadArrived_same q _ _ _).tables⟩
  | entryLoadComplete =>
    refine complete_keeps h fun c f hf a bs q => ?_
    split at hf <;> cases hf
    exact ⟨fun hq => loadArrived_sound hq _ _ _, (loadArrived_same q _ _ _).tables⟩
  | directoryRewriteComplete =>
    refine complete_keeps h fun c f hf a bs q => ?_
    split at hf <;> cases hf
    exact ⟨fun hq => rewritten_sound hq _, (rewritten_same q _).tables⟩
  | restoreComplete =>
    exact next_keeps h (eventIf_keeps fun _ =>
      ⟨fun hp => (restoreDone_changes _).sound (hp := hp), (restoreDone_same _).tables⟩)
  | quiesceDrainDone =>
    exact next_keeps h (eventIf_keeps fun _ => ⟨drainCheck_sound, (drainCheck_changes _).same.tables⟩)
  | readStatus => exact next_keeps h (transaction_keeps _ fun q => respond_keeps _ _)
  | readJournal j =>
    refine next_keeps h (transaction_keeps _ fun q => ?_)
    split
    · exact respond_keeps _ _
    · exact respond_keeps _ _
  | setLayout j base count =>
    exact next_keeps h (transaction_keeps _ fun q =>
      ⟨fun hq => (setLayout_changes q j base count).sound (hp := hq), (setLayout_same q j base count).tables⟩)
  | clearLayout j =>
    exact next_keeps h
      (transaction_keeps _ fun q => ⟨fun hq => clearLayout_sound hq j, (clearLayout_same q j).tables⟩)
  | setParam param journal value =>
    exact next_keeps h (transaction_keeps _ fun q =>
      ⟨fun hq => (setParam_changes q param journal value).sound (hp := hq), (setParam_same q param journal value).tables⟩)
  | forceRelease j =>
    exact next_keeps h
      (transaction_keeps _ fun q => ⟨fun hq => forceRelease_sound hq j, (forceRelease_same q j).tables⟩)
  | saveAndHalt =>
    exact next_keeps h
      (transaction_keeps _ fun q => if_keeps (respond_keeps _ _) ((respond_keeps _ _).trans (quiesce_keeps _ _)))
  | resume =>
    exact next_keeps h (transaction_keeps _ fun q =>
      (respond_keeps _ _).trans ⟨enterRestoring_sound, (enterRestoring_changes _).same.tables⟩)
  | format => exact next_keeps h (transaction_keeps _ fun q => (format_changes q).keeps)
  | readCounters block index =>
    refine next_keeps h (transaction_keeps _ fun q => ?_)
    split
    · exact respond_keeps _ _
    · exact respond_keeps _ _
  | clearCounters =>
    exact next_keeps h (transaction_keeps _ fun q =>
      Part.Keeps.trans ⟨clearCounters_sound, (clearCounters_changes q).same.tables⟩ (respond_keeps _ _))
  | ackAttention mask =>
    exact next_keeps h (transaction_keeps _ fun q => (modMaint_changes q _).keeps.trans (respond_keeps _ _))
  | setAttentionMask mask =>
    exact next_keeps h (transaction_keeps _ fun q => (modMaint_changes q _).keeps.trans (respond_keeps _ _))
  | badCommand command =>
    exact next_keeps h (if_keeps (.refl _) (event_keeps fun q hq => Option.some.inj hq ▸
      (countMaint_changes _ _).keeps.trans (respond_keeps _ _)))
  | spiCutShort received =>
    exact next_keeps h (if_keeps (event_keeps fun q hq => Option.some.inj hq ▸
      (countMaint_changes _ _).keeps.trans (modMaint_changes _ _).keeps) (.refl _))
  | pfailNFall | pfailNRise | mainDomainStart | mainPowerOn | mainPowerLoss | rstNLow | rstNRelease
  | retentionPowerOn => cases hl

theorem exec_keeps {c : Instr} (h : exec c s = .next t) : s.part.Keeps t.part := by
  cases hl : lineCommand c with
  | true => exact lineCommand_keeps hl h
  | false => exact eventCommand_keeps hl h

/-! ## O7 -/

/-- Settles O7: every command keeps both invariants (`exec_keeps`), and a move of the SPI transaction is no concern of
them. -/
theorem stepsKeepThePartSound : Obligations.StepsKeepThePartSound :=
  ⟨fun _ _ hs h => step_keeps (fun _ _ _ hp hx => (exec_keeps hx).sound hp) (fun p x r => (moved_sound p x r).2) hs h,
    fun _ _ hs h => step_keeps (fun _ _ _ hp hx => (exec_keeps hx).tables hp) (fun p x r => (moved_tablesSound p x r).2) hs h⟩

end Sys2Proof.Machine
end

section
/-! The beginning of a transfer (R57, R61), and TAKEOVER (O17). -/

namespace Sys2Proof.Machine

set_option Elab.async false

/-! ## What the beginning of a transfer leaves -/

section
variable {p : Part} {j : JournalId} {c : Conf} {o : SessionId} {t : W32} {cl : Option Claimant}

theorem beginTransfer_open (hc : (p.journal j).conf = some c) (ho : c.own = .owned o t) (h : c.openSlots ≠ 0) :
    p.beginTransfer j cl = p.fenced j o t cl := by
  have hf := fenced_journal (o := o) (t := t) (cl := cl) hc j
  rw [if_pos rfl] at hf
  rw [beginTransfer_eq hc ho, transferCheck_open (congrArg Journal.conf hf) h]

theorem beginTransfer_done (hc : (p.journal j).conf = some c) (ho : c.own = .owned o t) (h : c.openSlots = 0) :
    p.beginTransfer j cl = (p.fenced j o t cl).completeTransfer j (some o) cl := by
  have hf := fenced_journal (o := o) (t := t) (cl := cl) hc j
  rw [if_pos rfl] at hf
  rw [beginTransfer_eq hc ho, transferCheck_done (congrArg Journal.conf hf) rfl h]

theorem beginTransfer_slot (hc : (p.journal j).conf = some c) (ho : c.own = .owned o t) (n : SlotId) :
    (p.beginTransfer j cl).slot n
      = (p.slot n).map fun x => if x.journal = j ∧ x.session = o ∧ x.state = .receiving then x.voided .fenced else x := by
  rw [beginTransfer_eq hc ho, (transferCheck_changes _ j).slot, fenced_slot]

/-- The VOID headers are handed and the voids counted (R36, R47). -/
theorem beginTransfer_voids (hc : (p.journal j).conf = some c) (ho : c.own = .owned o t) :
    (p.beginTransfer j cl).mem = p.memAfter (p.voidHeaders .fenced fun x => x.fencedBy j o)
      ∧ (p.beginTransfer j cl).appendCnt = p.fencedCnt j o := by
  have h := transferCheck_changes (p.fenced j o t cl) j
  rw [beginTransfer_eq hc ho, h.mem, h.appendCnt]
  exact fenced_left

theorem fenced_transferred (hc : (p.journal j).conf = some c) :
    (p.fenced j o t cl).transferred j cl = p.transferred j cl := by
  have hf := fenced_journal (o := o) (t := t) (cl := cl) hc j
  have hch := fenced_changes (p := p) (j := j) (o := o) (t := t) (cl := cl)
  rw [if_pos rfl] at hf
  unfold Part.transferred Part.forceDue
  rw [hf, hch.maint]
  simp only [hch.req]
  rfl

/-- The entry at the beginning of a transfer: TRANSFERRING while a slot is open, else handed over at once (R59, R60). -/
theorem beginTransfer_journal (hc : (p.journal j).conf = some c) (ho : c.own = .owned o t) (k : JournalId) :
    (p.beginTransfer j cl).journal k
      = if j = k then
          if c.openSlots = 0 then
            (p.journal j).changed c (p.transferred j cl).1 ((p.journal j).epoch + 1) (p.transferred j cl).2
          else { (p.journal j).dirtied with conf := some { c with own := .transferring (some o) t cl } }
        else p.journal k := by
  have hf := fun k => fenced_journal (o := o) (t := t) (cl := cl) hc k
  have hself := hf j
  rw [if_pos rfl] at hself
  by_cases h : c.openSlots = 0
  · rw [beginTransfer_done hc ho h, completeTransfer_journal (congrArg Journal.conf hself), fenced_transferred hc, hself,
      if_pos h, hf]
    by_cases hk : j = k
    · rw [if_pos hk, if_pos hk]
      rfl
    · rw [if_neg hk, if_neg hk, if_neg hk]
  · rw [beginTransfer_open hc ho h, hf, if_neg h]

/-- What the old owner is told of the transfer begun (R57, R66). -/
def Part.fenceTold (p : Part) (j : JournalId) (o : SessionId) (t : W32) (k : Port) : NotifyPort :=
  if k = o.port ∧ p.live o = true then p.handed k (.owner j .transferring (p.journal j).epoch (some t)) else p.ntf k

theorem beginTransfer_told (hc : (p.journal j).conf = some c) (ho : c.own = .owned o t) (h : c.openSlots ≠ 0) (k : Port) :
    (p.beginTransfer j cl).ntf k = p.fenceTold j o t k := by
  rw [beginTransfer_open hc ho h]
  exact fenced_ntf hc k

/-- A transfer completed at its beginning is told to the subscribers and to the old owner besides (R66). -/
theorem beginTransfer_completed (hc : (p.journal j).conf = some c) (ho : c.own = .owned o t) (h : c.openSlots = 0)
    {own : Ownership} {bs : List Bound} (htr : p.transferred j cl = (own, bs)) (k : Port) :
    (p.beginTransfer j cl).ntf k
      = if k ∈ c.subs ∨ (k = o.port ∧ p.live o = true) then
          (p.fenceTold j o t k).handed (p.req k).session.active
            (.owner j (Conf.state { c with own := own }) ((p.journal j).epoch + 1) (Conf.ownerTag { c with own := own }))
        else p.fenceTold j o t k := by
  have hch := fenced_changes (p := p) (j := j) (o := o) (t := t) (cl := cl)
  have hself := fenced_journal (o := o) (t := t) (cl := cl) hc j
  rw [if_pos rfl] at hself
  have hlive : (p.fenced j o t cl).live o = p.live o := by unfold Part.live; rw [hch.req]
  rw [beginTransfer_done hc ho h, completeTransfer_ntf (congrArg Journal.conf hself), fenced_transferred hc, htr, hself]
  unfold Part.handed
  rw [fenced_ntf hc, hch.req]
  refine if_congr (or_congr Iff.rfl ((attachedPort_iff _ k).trans ⟨?_, ?_⟩)) rfl rfl
  · rintro ⟨_, e, hk, hl⟩
    cases e
    exact ⟨hk.symm, hlive ▸ hl⟩
  · rintro ⟨hk, hl⟩
    exact ⟨o, rfl, hk.symm, hlive.trans hl⟩

end

/-! ## TAKEOVER (R56, R57) -/

variable {p : Part} {s : State} {i : Port} {j : JournalId} {payload : List Byte} {c : Conf} {o : SessionId} {t : W32}

theorem takeoverCheck_notOwned {epoch : W32} {r : Req} {sid : SessionId} (h : c.state = .unassigned ∨ c.state = .held) :
    takeoverCheck c epoch r sid = some .notOwned := by
  unfold Conf.state at h
  unfold takeoverCheck
  cases ho : c.own with
  | unassigned => rfl
  | owned => simp [ho] at h
  | held => rfl
  | transferring => simp [ho] at h

theorem takeoverCheck_transferring {epoch : W32} {r : Req} {sid : SessionId} (h : c.state = .transferring) :
    takeoverCheck c epoch r sid = some .busy := by
  unfold Conf.state at h
  unfold takeoverCheck
  cases ho : c.own with
  | unassigned => simp [ho] at h
  | owned => simp [ho] at h
  | held => simp [ho] at h
  | transferring => rfl

/-- The checks of a TAKEOVER of an OWNED journal. -/
theorem takeoverCheck_owned {epoch : W32} {r : Req} {sid : SessionId} (h : c.own = .owned o t) :
    takeoverCheck c epoch r sid
      = if o = sid then some .badRequest
        else if r.epoch ≠ epoch then some .staleEpoch
        else if epoch = Config.lastEpoch then some .streamExhausted else none := by
  unfold takeoverCheck
  rw [h]

theorem takeover_pending {r : Req} (hj : r.journal.toNat = j.val) (hc : (p.journal j).conf = some c)
    (hf : p.formatPending = true) : p.takeover i r = p.refuseEpoch i r .busy j := by
  unfold Part.takeover
  rw [configured_some hj hc]
  exact if_pos hf

theorem takeover_refused {r : Req} {st : Status} (hj : r.journal.toNat = j.val) (hc : (p.journal j).conf = some c)
    (hf : p.formatPending = false) (h : takeoverCheck c (p.journal j).epoch r (p.sessionOf i) = some st) :
    p.takeover i r = p.refuseEpoch i r st j := by
  unfold Part.takeover
  rw [configured_some hj hc]
  dsimp only
  rw [hf, if_neg (by decide), h]

theorem takeover_accepted {r : Req} (hj : r.journal.toNat = j.val) (hc : (p.journal j).conf = some c)
    (hf : p.formatPending = false) (h : takeoverCheck c (p.journal j).epoch r (p.sessionOf i) = none) :
    p.takeover i r = (p.enterTag i r.tag).beginTransfer j (some ⟨p.sessionOf i, r.tag⟩) := by
  unfold Part.takeover
  rw [configured_some hj hc]
  dsimp only
  rw [hf, if_neg (by decide), h]

theorem takeoverChecks : Rules.TakeoverChecks := by
  intro i j s payload c hq hreach hj hc p r e sid refused
  have hsid : (p.served i RequestLayer.took).sessionOf i = sid := served_took_sessionOf
  have hrefused : ∀ st, p.formatPending = false → takeoverCheck c e.epoch r sid = some st → refused st := fun st hf h =>
    refusedEpoch_run rfl hq hreach
      (takeover_refused (p := p.served i RequestLayer.took) hj hc hf (by rw [hsid]; exact h))
  refine ⟨fun hf => ?_, fun hf h => ?_, fun hf h => ?_, fun hf o t ho => ⟨fun hs => ?_, fun hs he => ?_, fun hs he hl => ?_⟩⟩
  · exact refusedEpoch_run rfl hq hreach (takeover_pending hj hc hf)
  · exact hrefused _ hf (takeoverCheck_notOwned h)
  · exact hrefused _ hf (takeoverCheck_transferring h)
  · exact hrefused _ hf ((takeoverCheck_owned ho).trans (if_pos hs))
  · exact hrefused _ hf ((takeoverCheck_owned ho).trans ((if_neg hs).trans (if_pos he)))
  · exact hrefused _ hf
      ((takeoverCheck_owned ho).trans ((if_neg hs).trans ((if_neg (not_not.2 he)).trans (if_pos hl))))

theorem takeoverFencesTheOwner : Rules.TakeoverFencesTheOwner := by
  intro i j s payload c tag o t hq hreach hj hc htag hf ho hne hepoch hlast p r e sid live told
  have hrun : p.ret.running = true := hreach.1.1
  have hmode : p.ret.mode = .serving := hreach.2.2.1
  have hsid : (p.served i RequestLayer.took).sessionOf i = sid := served_took_sessionOf
  have hcheck : takeoverCheck c e.epoch r ((p.served i RequestLayer.took).sessionOf i) = none := by
    rw [hsid, takeoverCheck_owned ho, if_neg hne, if_neg (not_not.2 hepoch)]
    exact if_neg hlast
  have hserve := takeover_accepted (p := p.served i RequestLayer.took) hj hc hf hcheck
  have hnew : r.tag ∉ ((p.served i RequestLayer.took).req i).tags := by
    rw [served_req_self]
    exact hreach.2.2.2.2.1
  rw [hsid, enterTag_new _ hnew, served_modReq] at hserve
  -- `b`: the request taken and its tag entered
  generalize hb : p.served i (fun l => l.took.entered r.tag) = b at hserve
  have hch : Part.Changes [.reqs, .links] p b := hb ▸ served_changes p i _
  have hsession : ∀ k, (b.req k).session = (p.req k).session := fun k => by
    rw [← hb]
    by_cases h : i = k
    · subst h; rw [served_req_self]; rfl
    · rw [served_req_ne _ _ h]
  have hbq : b.quiet = true := hb ▸ served_quiet hq hrun rfl
  have hlive : b.live o = true ↔ live := by rw [live_iff, hsession]
  have htold : ∀ k, b.fenceTold j o t k = told k := fun k => by
    unfold Part.fenceTold Part.handed
    rw [hch.journal, hch.ntf, hsession]
    exact if_congr (and_congr Iff.rfl hlive) rfl rfl
  have hbc : (b.journal j).conf = some c := by rw [hch.journal]; exact hc
  have htr : b.transferred j (some ⟨sid, r.tag⟩)
      = (.owned sid tag, [.answer sid (ownershipAnswer codeTakeover r.tag (e.epoch + 1))]) := by
    unfold Part.transferred
    dsimp only
    rw [hsession, htag, hch.journal]
    rfl
  have hchB := beginTransfer_changes b j (some ⟨sid, r.tag⟩)
  have hjB := beginTransfer_journal (cl := some ⟨sid, r.tag⟩) hbc ho
  rw [htr, hch.journal] at hjB
  have hdir : ((b.beginTransfer j (some ⟨sid, r.tag⟩)).journal j).dir = e.dirtied.dir := by
    rw [hjB, if_pos rfl]
    split <;> rfl
  have hmB : (b.beginTransfer j (some ⟨sid, r.tag⟩)).ret.mode = .serving := by rw [hchB.ret, hch.ret]; exact hmode
  have hjR := react_dirtied_journal hmB (by rw [hdir]; rfl)
  have hjne : ∀ k, k ≠ j → (b.beginTransfer j (some ⟨sid, r.tag⟩)).journal k = p.journal k := fun k hk => by
    rw [hjB, if_neg (Ne.symm hk), hch.journal]
  obtain ⟨hmem, hcnt⟩ := beginTransfer_voids (cl := some ⟨sid, r.tag⟩) hbc ho
  have hconf : ∀ k, (b.journal k).conf.map Conf.address = (p.journal k).conf.map Conf.address := fun k => by rw [hch.journal]
  refine block_run rfl hreach _ hserve (by rw [hchB.ret, hch.ret]; exact hrun)
    ⟨?_, ?_, fun n => ?_, ?_, ?_, fun h => ⟨?_, fun k => ?_⟩, fun h => ⟨?_, fun k => ?_⟩, fun k hk => ?_⟩
  · rw [react_req, hchB.req, ← hb, served_req_self]
  · rw [react_link, hchB.link, ← hb, served_link_self]
  · rw [react_slot, beginTransfer_slot hbc ho, hch.slot]
  · rw [react_dirtied_mem hq hrun hmB (by rw [hdir]; rfl) hjne (by rw [hchB.header, hch.header]), hdir]
    unfold Part.memAfter
    rw [hmem, hchB.maint, hch.maint, Part.memAfter, hch.mem, hch.maint, voidHeaders_congr hch.slot hconf]
    unfold MemEngine.handedAll
    rw [List.foldl_append]
    rfl
  · rw [react_appendCnt, hcnt, fencedCnt_congr hch.slot hch.appendCnt]
  · rw [hjR, hjB, if_pos rfl, if_neg h]
  · rw [react_ntf, beginTransfer_told hbc ho h, htold]
  · rw [hjR, hjB, if_pos rfl, if_pos h]
    rfl
  · rw [react_ntf, beginTransfer_completed hbc ho h htr, htold, hch.journal, hsession]
    exact if_congr (or_congr Iff.rfl (and_congr Iff.rfl hlive)) rfl rfl
  · rw [hjR, hjne k hk, started_of_quiet hq hrun]

/-- Settles O17, by what `takeoverCheck` answers: a refusal, or the transfer that `beginTransfer` begins. -/
theorem takeoverChecksAndFences : Obligations.TakeoverChecksAndFences := ⟨takeoverChecks, takeoverFencesTheOwner⟩

end Sys2Proof.Machine
end

section
/-! FORCE_RELEASE (O57). -/

namespace Sys2Proof.Machine

set_option Elab.async false

section
variable {p : Part} {b : Byte} {j : JournalId} {c : Conf}

theorem isWaiting_iff {d : Deferred} : d.isWaiting = true ↔ ∃ cmd, d = .waiting cmd := by
  cases d <;> simp [Deferred.isWaiting]

/-! ## The order of the tests (log 19) -/

theorem forceRelease_waiting (hw : p.maint.deferred.isWaiting = true) : p.forceRelease b = p.respond .busy [] := if_pos hw

theorem forceRelease_unconfigured (hw : p.maint.deferred.isWaiting = false)
    (h : ∀ j : JournalId, b.toNat = j.val → (p.journal j).conf = none) :
    p.forceRelease b = p.respond .badLayout [] := by
  unfold Part.forceRelease
  rw [hw, if_neg (by decide), configured_none h]

theorem forceRelease_configured (hw : p.maint.deferred.isWaiting = false) (hj : b.toNat = j.val)
    (hc : (p.journal j).conf = some c) :
    p.forceRelease b = if p.formatPending then p.respond .busy [] else p.forceJournal j c := by
  unfold Part.forceRelease
  rw [hw, if_neg (by decide), configured_some hj hc]

/-! ## By the state of the journal (R61) -/

theorem forceJournal_unassigned (ho : c.own = .unassigned) : p.forceJournal j c = p.respond .ok [] := by
  unfold Part.forceJournal
  rw [ho]

theorem forceJournal_transferring {o : Option SessionId} {t : W32} {cl : Option Claimant}
    (ho : c.own = .transferring o t cl) : p.forceJournal j c = p.respond .busy [] := by
  unfold Part.forceJournal
  rw [ho]

theorem forceJournal_lastEpoch (ho : c.own ≠ .unassigned) (he : (p.journal j).epoch = Config.lastEpoch) :
    p.forceJournal j c = p.respond .busy [] := by
  unfold Part.forceJournal
  cases hw : c.own with
  | unassigned => exact absurd hw ho
  | owned o t => exact if_pos he
  | held t g => exact if_pos he
  | transferring o t cl => rfl

theorem forceJournal_held {t : W32} {g : Grace} (ho : c.own = .held t g) (he : (p.journal j).epoch ≠ Config.lastEpoch) :
    p.forceJournal j c = (p.accepted (.forceRelease j)).releaseHeld j := by
  unfold Part.forceJournal
  rw [ho]
  exact if_neg he

theorem forceJournal_owned {o : SessionId} {t : W32} (ho : c.own = .owned o t)
    (he : (p.journal j).epoch ≠ Config.lastEpoch) :
    p.forceJournal j c = (p.accepted (.forceRelease j)).beginTransfer j none := by
  unfold Part.forceJournal
  rw [ho]
  exact if_neg he

/-! ## A HELD journal released (R62) -/

theorem releaseHeld_changes : Part.Changes [.journals, .ntfs, .ntfCnt] p (p.releaseHeld j) :=
  (((modJournal_changes p j _).trans (markDirty_journal_changes _ j)).trans (notifyOwner_changes _ j none)).mono

theorem releaseHeld_journal (hc : (p.journal j).conf = some c) (k : JournalId) :
    (p.releaseHeld j).journal k
      = if j = k then (p.journal j).changed c .unassigned ((p.journal j).epoch + 1) [.forceRelease] else p.journal k := by
  unfold Part.releaseHeld
  rw [(notifyOwner_changes _ _ _).journal]
  by_cases h : j = k
  · subst h
    rw [markDirty_journal_self, modJournal_journal_self, if_pos rfl]
    unfold Journal.change
    rw [hc]
    rfl
  · rw [markDirty_journal_ne _ h, modJournal_journal_ne _ _ _ h, if_neg h]

theorem releaseHeld_ntf (hc : (p.journal j).conf = some c) (k : Port) :
    (p.releaseHeld j).ntf k
      = if k ∈ c.subs then p.handed k (.owner j .unassigned ((p.journal j).epoch + 1) none) else p.ntf k := by
  have hself := releaseHeld_journal hc j
  unfold Part.releaseHeld at hself ⊢
  rw [(notifyOwner_changes _ _ _).journal, if_pos rfl] at hself
  have hch := (modJournal_changes p j fun e => e.change .unassigned (e.epoch + 1) [.forceRelease]).trans
    (markDirty_journal_changes _ j)
  generalize Part.markDirty _ _ = q at hself hch
  have hsubs : q.subscribers j = c.subs := by unfold Part.subscribers; rw [hself]; rfl
  have hent : q.ownerEntry j = .owner j .unassigned ((p.journal j).epoch + 1) none := by
    unfold Part.ownerEntry; rw [hself]; rfl
  rw [notifyOwner_ntf, hsubs, hent, Part.handed, hch.ntf, hch.req]
  simp

end

/-! ## O57 -/

/-- Settles O57: the tests in their order, then `releaseHeld` in HELD and `beginTransfer` in OWNED. -/
theorem forceReleaseByState : Obligations.ForceReleaseByState := by
  intro b s ⟨hrun, hmode⟩ p waiting replies
  have hmodes : s.part.ret.mode ∈ [Mode.serving] := by rw [hmode]; exact List.mem_singleton.2 rfl
  -- `p'`: the transaction counted
  generalize hp' : (p.modMaint fun m => { m with cnt := { m.cnt with completed := satInc m.cnt.completed } }) = p'
  have hch : Part.Changes [.maint] p p' := hp' ▸ modMaint_changes p _
  have hwait : p'.maint.deferred.isWaiting = true ↔ waiting := by rw [← hp']; exact isWaiting_iff
  have htakes : ∀ {Q : Part → Part → Prop}, (p'.forceRelease b).ret.running = true → Q p' (p'.forceRelease b) →
      Takes (.forceRelease b) s Q := fun hr hq =>
    takes_run (modes := [.serving]) (act := fun q => q.forceRelease b) rfl hrun hmodes hp' hr hq
  have hrunning : (p'.forceRelease b).ret.running = true := by
    rw [(forceRelease_changes p' b).ret, hch.ret]; exact hrun
  have hreplies : ∀ st, p'.forceRelease b = p'.respond st [] → replies st := fun st h => htakes hrunning h
  have hidle : ¬waiting → p'.maint.deferred.isWaiting = false := fun hw => Bool.eq_false_iff.2 fun h => hw (hwait.1 h)
  refine ⟨fun hw => hreplies _ (forceRelease_waiting (hwait.2 hw)), fun hw hnone => ?_, ?_⟩
  · exact hreplies _ (forceRelease_unconfigured (hidle hw) fun j hj => by rw [hch.journal]; exact hnone j hj)
  intro j c hw hj hc e accepted
  have hforce := forceRelease_configured (hidle hw) hj (by rw [hch.journal]; exact hc)
  rw [hch.formatPending] at hforce
  refine ⟨fun hf => hreplies _ (by rw [hforce, hf]; rfl), fun hf => ?_⟩
  rw [hf, if_neg (by decide)] at hforce
  have hepoch : (p'.journal j).epoch = e.epoch := by rw [hch.journal]
  -- `a`: ACCEPTED answered, and the record WAITING
  have hcha : Part.Changes [.maint] p (p'.accepted (.forceRelease j)) := hch.both (accepted_changes p' _)
  have hmaint : (p'.accepted (.forceRelease j)).maint = { p'.maint.answered [1] with deferred := .waiting (.forceRelease j) } :=
    rfl
  have hparams : (p'.accepted (.forceRelease j)).maint.params = p.maint.params := by rw [hmaint, ← hp']; rfl
  refine ⟨fun ho => ?_, fun o t cl ho => ?_, fun ho he => ?_, fun t g ho he => ?_, ?_⟩
  · exact hreplies _ (hforce.trans (forceJournal_unassigned ho))
  · exact hreplies _ (hforce.trans (forceJournal_transferring ho))
  · exact hreplies _ (hforce.trans (forceJournal_lastEpoch ho (hepoch.trans he)))
  · rw [forceJournal_held ho (by rw [hepoch]; exact he)] at hforce
    generalize p'.accepted (.forceRelease j) = a at hforce hcha hmaint hparams
    have hac : (a.journal j).conf = some c := by rw [hcha.journal]; exact hc
    have hja := releaseHeld_journal hac
    have hchr := releaseHeld_changes (p := a) (j := j)
    refine htakes hrunning ?_
    rw [hforce]
    refine ⟨⟨by rw [hchr.maint, hmaint], fun k hk => ?_⟩, ?_, fun k => ?_, ?_, ?_, ?_⟩
    · rw [hja, if_neg (Ne.symm hk), hcha.journal]
    · rw [hja, if_pos rfl, hcha.journal]
      rfl
    · rw [releaseHeld_ntf hac, hcha.journal, Part.handed, hcha.ntf, hcha.req]
    · rw [hchr.slots, hcha.slots]
    · rw [hchr.mem, hcha.mem]
    · rw [hchr.appendCnt, hcha.appendCnt]
  · intro o t ho he told fenced
    rw [forceJournal_owned ho (by rw [hepoch]; exact he)] at hforce
    generalize p'.accepted (.forceRelease j) = a at hforce hcha hmaint hparams
    have hac : (a.journal j).conf = some c := by rw [hcha.journal]; exact hc
    have hchb := beginTransfer_changes a j none
    have hjb := beginTransfer_journal (cl := none) hac ho
    rw [hcha.journal] at hjb
    have htr : a.transferred j none
        = (.unassigned, if .forceRelease ∈ e.boundNext ++ e.boundFlight then [] else [.forceRelease]) := by
      have hdeferred : a.maint.deferred = .waiting (.forceRelease j) := by rw [hmaint]
      have hdue : a.forceDue j = !decide (.forceRelease ∈ e.boundNext ++ e.boundFlight) := by
        rw [forceDue_eq, hdeferred, decide_eq_true rfl, Bool.true_and, hcha.journal]
      unfold Part.transferred
      rw [hdue]
      by_cases hm : Bound.forceRelease ∈ e.boundNext ++ e.boundFlight
      · rw [if_pos hm, decide_eq_true hm]
        rfl
      · rw [if_neg hm, decide_eq_false hm]
        rfl
    have haccepted : accepted p' (a.beginTransfer j none) := by
      refine ⟨by rw [hchb.maint, hmaint], fun k hk => ?_⟩
      rw [hjb, if_neg (Ne.symm hk), hcha.journal]
    have hlive : a.live o = p.live o := by unfold Part.live; rw [hcha.req]
    have htold : ∀ k, a.fenceTold j o t k = told k := fun k => by
      unfold Part.fenceTold Part.handed
      rw [hcha.journal, hcha.ntf, hcha.req, hlive]
    have hfenced : fenced (a.beginTransfer j none) := by
      obtain ⟨hmem, hcnt⟩ := beginTransfer_voids (cl := none) hac ho
      refine ⟨fun n => by rw [beginTransfer_slot hac ho, hcha.slot], ?_, ?_⟩
      · rw [hmem, voidHeaders_congr hcha.slot fun k => by rw [hcha.journal]]
        unfold Part.memAfter
        rw [hcha.mem, hparams]
      · rw [hcnt, fencedCnt_congr hcha.slot hcha.appendCnt]
    refine ⟨fun h => htakes hrunning ?_, fun h => htakes hrunning ?_⟩
    · rw [hforce]
      refine ⟨haccepted, hfenced, ?_, fun k => ?_⟩
      · rw [hjb, if_pos rfl, if_neg h]
      · rw [beginTransfer_told hac ho h, htold]
    · rw [hforce]
      refine ⟨haccepted, hfenced, ?_, fun k => ?_⟩
      · rw [hjb, if_pos rfl, if_pos h, htr]
        rfl
      · rw [beginTransfer_completed hac ho h htr, htold, hcha.req, hcha.journal, hlive]
        rfl

end Sys2Proof.Machine
end

section
/-! FRONTIER_ADVANCE (O21). -/

namespace Sys2Proof.Machine

set_option Elab.async false

/-- A run with a last slot has a first one, and that holds the frontier sequence. -/
theorem frontierSlot_isSome {p : Part} {j : JournalId} {c : Conf} {ns : List SlotId} {last : Slot}
    (hc : (p.journal j).conf = some c)
    (hrun : ∀ k (h : k < ns.length), ∀ m, ResolvedIn p.slot j m (c.frontierSeq + BitVec.ofNat 32 k) ↔ m = ns[k])
    (hl : ns.getLast?.bind p.slot = some last) : ∃ n, p.frontierSlot j = some n := by
  cases ns with
  | nil => cases hl
  | cons n ns =>
    refine ⟨n, frontierSlot_some hc fun m => ?_⟩
    have h := hrun 0 (by simp) m
    rw [List.getElem_cons_zero] at h
    simpa using h

/-- Settles O21: the frontier passes the run (`frontierAdvance_run`), and the entry it leaves dirty is written. -/
theorem frontierPassesResolvedSlots : Obligations.FrontierPassesResolvedSlots := by
  intro j s c ns last ⟨hrun, hmode⟩ hc hnd p resolvedAt hseq hend hlast
  obtain ⟨n, hn⟩ := frontierSlot_isSome hc hseq hlast
  obtain ⟨hslot, hjournal⟩ := frontierAdvance_run hc hnd hseq hend hlast
  have hret := (frontierAdvance_changes p j).ret
  have hdue : (p.frontierSlot j).map (fun _ => p.frontierAdvance j) = some (p.frontierAdvance j) := by rw [hn]; rfl
  refine runs_next rfl (event_run hrun hdue (by rw [hret]; exact hrun)) ⟨fun m => ?_, ?_⟩
  · rw [react_slot, hslot]
  · rw [react_dirtied_journal (by rw [hret]; exact hmode) (by rw [hjournal]; rfl), hjournal]

end Sys2Proof.Machine
end

section
/-! What a session end leaves, seen from another part (R106): DETACH (O34), and the entry to QUIESCING (O48). -/

namespace Sys2Proof.Machine

set_option Elab.async false

/-! ## Parts that a session end does not tell apart -/

/-- The parts agree in what the end of a session of port i looks at beside the port's own request layer, link unit and
notification queue. -/
structure Part.Alike (p p' : Part) (i : Port) : Prop where
  journal : ∀ j, p'.journal j = p.journal j
  slot : ∀ n, p'.slot n = p.slot n
  readCtx : ∀ r, p'.readCtx r = p.readCtx r
  waits : ∀ k, p'.waits k = p.waits k
  mem : p'.mem = p.mem
  params : p'.maint.params = p.maint.params
  appendCnt : p'.appendCnt = p.appendCnt
  readCnt : p'.readCnt = p.readCnt
  active : ∀ k, k ≠ i → (p'.req k).session.active = (p.req k).session.active
  ntf : ∀ k, k ≠ i → p'.ntf k = p.ntf k

section
variable {p p' q q' : Part} {s : SessionId}

/-- What the end of a session leaves, said of a part that it does not tell from the one it began in. -/
theorem Part.Alike.sessionLeft (ha : p.Alike p' s.port) (h : p'.sessionLeft q s) : p.sessionLeft q s := by
  have hcancels : p'.cancels s = p.cancels s := funext fun r => by unfold Part.cancels; rw [ha.readCtx]
  have hstarts : ∀ j, p'.startsOf s j = p.startsOf s j := fun j => by
    unfold Part.startsOf
    rw [hcancels]
    simp only [ha.readCtx]
  have hwaiting : ∀ j, p'.waitingOn s.port j = p.waitingOn s.port j := fun j => by
    unfold Part.waitingOn
    simp only [ha.slot, ha.waits]
  have hvoids : p'.memAfter (p'.voidsOf s) = p.memAfter (p.voidsOf s) := by
    unfold Part.memAfter Part.voidsOf
    rw [ha.mem, ha.params, voidHeaders_congr ha.slot fun j => by rw [ha.journal]]
  unfold Part.sessionLeft at h ⊢
  simp only [ha.journal, ha.slot, ha.readCtx, ha.waits, ha.params, ha.appendCnt, ha.readCnt, hcancels, hstarts, hwaiting,
    hvoids, slotsWith_congr ha.slot] at h ⊢
  obtain ⟨hslot, hread, hwaits, hmem, hjournal, hheld, ⟨done, hnd, hdone, hntf⟩, hcnt, hreadCnt⟩ := h
  refine ⟨hslot, hread, hwaits, hmem, hjournal, hheld, ⟨done, hnd, hdone, fun k hk => ?_⟩, hcnt, hreadCnt⟩
  rw [hntf k hk, ha.ntf k hk, ha.active k hk]

/-- What a session end has left stands when only request layers change after it, their sessions kept. -/
theorem sessionLeft_reqs (hq : Part.Changes [.reqs] q q')
    (hw : ∀ k, (q'.req k).session.who = (q.req k).session.who) (h : p.sessionLeft q s) : p.sessionLeft q' s := by
  have hfreed : ∀ j e k, q'.freedEntry j e k = q.freedEntry j e k := fun j e k => freedEntry_congr hw (by rw [hq.maint]) j e k
  unfold Part.sessionLeft at h ⊢
  simp only [hq.slot, hq.readCtx, hq.waits, hq.mem, hq.journal, hq.maint, hq.ntf, hq.appendCnt, hq.readCnt, hfreed,
    ownerGoesTo_congr hw]
  exact h

end

/-! ## DETACH (R105) -/

theorem block_ends {c : Instr} {s : State} {i : Port} {payload : List Byte} {code : Byte} {serve : Req → Part → Part}
    {P : Part → Prop}
    (hc : exec c s = .next (s.onPart fun p => p.intake i (isRequest code) fun r p => p.checked i r (serve r p)))
    (ht : s.part.reachesBlock i code payload) (q : Part)
    (hs : serve (Req.ofPayload payload) (s.part.served i RequestLayer.took) = q) (hr : q.ret.running = true)
    (hp : P q) : Ends c s P := by
  obtain ⟨x, hx, he⟩ := block_run (P := fun x => x = q.react) hc ht q hs hr rfl
  exact ⟨q, he ▸ hx, hp⟩

/-- A frame taken and the frames left in the buffer return their credits one by one or together (R108). -/
theorem credited_credited (u : LinkUnit) (m n : Nat) : (u.credited m).credited n = u.credited (m + n) := by
  unfold LinkUnit.credited
  have h : min Config.requestPlaces (min Config.requestPlaces (u.freePlaces + m) + n)
      = min Config.requestPlaces (u.freePlaces + (m + n)) := by omega
  rw [h]

theorem served_alike (p : Part) (i : Port) (f : RequestLayer → RequestLayer) : p.Alike (p.served i f) i :=
  have hch := served_changes p i f
  ⟨fun j => hch.journal j, fun n => hch.slot n, fun r => hch.readCtx r, fun k => hch.waits k, hch.mem,
    by rw [hch.maint], hch.appendCnt, hch.readCnt, fun k hk => by rw [served_req_ne _ _ (Ne.symm hk)], fun k _ => hch.ntf k⟩

/-- Settles O34: what `endSession` leaves of the part that has taken the request, and the answer in the emptied response
queue. -/
theorem detachEndsTheSession : Obligations.DetachEndsTheSession := by
  intro i s payload hreach p sid
  obtain ⟨frame, rest, hbuf⟩ : ∃ f rest, (p.req i).buffer = f :: rest := by
    have hhead := hreach.1.2.1
    cases hb : (p.req i).buffer with
    | nil => rw [hb] at hhead; cases hhead
    | cons f rest => exact ⟨f, rest, rfl⟩
  -- `b`: the request taken; `q`: the session ended
  have hbr : (p.served i RequestLayer.took).req i = (p.req i).took := served_req_self p i _
  have hbl : (p.served i RequestLayer.took).link i = (p.link i).credited 1 := served_link_self p i _
  have hchb := served_changes p i RequestLayer.took
  have halike := served_alike p i RequestLayer.took
  have hsid : (p.served i RequestLayer.took).sessionOf i = sid := served_took_sessionOf
  generalize hb : p.served i RequestLayer.took = b at hbr hbl hchb halike hsid
  have hreq := endSession_req_self b i .detach
  have hlink := endSession_link b i .detach
  have hntf := endSession_ntf b i .detach i (.inl rfl)
  have hleft := endSession_left b i .detach
  have hret := (endSession_changes b i .detach).ret
  rw [hbr] at hreq
  rw [if_neg (by decide), hbl, hbr] at hlink
  rw [if_pos rfl, hchb.ntf] at hntf
  rw [hsid] at hleft
  have hserve : (p.served i RequestLayer.took).detach i (Req.ofPayload payload)
      = (b.endSession i .detach).answer i ((Req.ofPayload payload).rsp .ok (.detach (p.req i).session.gen)) := by
    rw [hb]
    unfold Part.detach
    rw [hbr]
    rfl
  generalize b.endSession i .detach = q at hreq hlink hntf hleft hret hserve
  rw [answer_room _ (by unfold Part.respRoom; rw [hreq]; rfl)] at hserve
  have hch := modReq_changes q i fun r =>
    r.answered ((Req.ofPayload payload).rsp .ok (.detach (p.req i).session.gen))
  refine block_ends rfl hreach _ hserve (by rw [hch.ret, hret, hchb.ret]; exact hreach.1.1) ⟨?_, ?_, ?_, ?_⟩
  · rw [modReq_req_self, hreq]
    rfl
  · rw [hch.link, hlink, credited_credited, hbuf]
    unfold RequestLayer.took
    rw [hbuf, List.tail_cons, List.length_cons, Nat.add_comm]
  · rw [hch.ntf, hntf]
  · refine sessionLeft_reqs hch (fun k => ?_) (halike.sessionLeft hleft)
    by_cases hk : i = k
    · subst hk
      rw [modReq_req_self]
      rfl
    · rw [modReq_req_ne _ _ _ hk]

end Sys2Proof.Machine
end

section
/-! The entry to QUIESCING (O48). -/

namespace Sys2Proof.Machine

set_option Elab.async false

/-! ## The sessions that end, port by port (log 43) -/

section
variable {p : Part}

theorem endIfActive_on {i : Port} (h : (p.req i).session.active = true) : p.endIfActive i = p.endSession i .quiesce :=
  if_pos h

theorem endIfActive_off {i : Port} (h : (p.req i).session.active = false) : p.endIfActive i = p :=
  if_neg (by rw [h]; decide)

theorem endIfActive_req (i k : Port) :
    (p.endIfActive i).req k
      = if i = k ∧ (p.req k).session.active = true then (p.req k).closed .quiesce else p.req k := by
  cases ha : (p.req i).session.active with
  | false => rw [endIfActive_off ha, if_neg]; rintro ⟨rfl, h⟩; rw [ha] at h; cases h
  | true =>
    rw [endIfActive_on ha]
    by_cases hk : i = k
    · subst hk
      rw [endSession_req_self, if_pos ⟨rfl, ha⟩]
    · rw [endSession_req_ne p hk, if_neg fun h => hk h.1]

theorem endIfActive_link (i k : Port) :
    (p.endIfActive i).link k
      = if i = k ∧ (p.req k).session.active = true then (p.link k).credited (p.req k).buffer.length else p.link k := by
  cases ha : (p.req i).session.active with
  | false => rw [endIfActive_off ha, if_neg]; rintro ⟨rfl, h⟩; rw [ha] at h; cases h
  | true =>
    rw [endIfActive_on ha]
    by_cases hk : i = k
    · subst hk
      rw [endSession_link, if_neg (by decide), if_pos ⟨rfl, ha⟩]
    · rw [endSession_link_ne p hk, if_neg fun h => hk h.1]

theorem endIfActive_raised (i : Port) : p.maint.Raised (p.endIfActive i).maint := by
  unfold Part.endIfActive
  split
  · exact endSession_raised p i _
  · exact .refl _

/-- Every port has no session or holds a retained MODE entry alone, which a session end leaves (R97, R98). -/
def Part.modesRetained (p : Part) : Prop :=
  ∀ k, p.deaf k ∧ ((p.req k).session.active = true → (p.ntf k).emptied = p.ntf k)

theorem endIfActive_ntf (h : p.modesRetained) (i k : Port) : (p.endIfActive i).ntf k = p.ntf k := by
  unfold Part.endIfActive
  split
  · next ha =>
    rw [endSession_ntf p i _ k (.inr (h k).1)]
    split
    · next hk => rw [hk, (h i).2 ha]
    · rfl
  · rfl

theorem endIfActive_retained (h : p.modesRetained) (i : Port) : (p.endIfActive i).modesRetained := by
  intro k
  obtain ⟨hd, he⟩ := h k
  have hn := endIfActive_ntf h i k
  have hr := endIfActive_req (p := p) i k
  by_cases hk : i = k ∧ (p.req k).session.active = true
  · rw [if_pos hk] at hr
    have hoff : ((p.endIfActive i).req k).session.active = false := by rw [hr]; rfl
    exact ⟨.inl hoff, fun ha => by rw [hoff] at ha; cases ha⟩
  · rw [if_neg hk] at hr
    exact ⟨deaf_congr hd hr hn, by rw [hr, hn]; exact he⟩

/-- Of the ports of the list, those with a session lose it. -/
theorem endAll_left (l : List Port) (hl : l.Nodup) : ∀ p : Part,
    (∀ k, (l.foldl Part.endIfActive p).req k
        = if k ∈ l ∧ (p.req k).session.active = true then (p.req k).closed .quiesce else p.req k)
      ∧ (∀ k, (l.foldl Part.endIfActive p).link k
        = if k ∈ l ∧ (p.req k).session.active = true then (p.link k).credited (p.req k).buffer.length else p.link k)
      ∧ (p.modesRetained → ∀ k, (l.foldl Part.endIfActive p).ntf k = p.ntf k)
      ∧ p.maint.Raised (l.foldl Part.endIfActive p).maint := by
  induction l with
  | nil => exact fun p => ⟨fun k => by simp, fun k => by simp, fun _ _ => rfl, .refl _⟩
  | cons i l ih =>
    intro p
    obtain ⟨hi, hl⟩ := List.nodup_cons.1 hl
    obtain ⟨hreq, hlink, hntf, hraised⟩ := ih hl (p.endIfActive i)
    rw [List.foldl_cons]
    have hr := endIfActive_req (p := p) i
    refine ⟨fun k => ?_, fun k => ?_, fun h k => ?_, (endIfActive_raised i).trans hraised⟩
    · rw [hreq, hr]
      by_cases hk : i = k
      · subst hk
        simp [hi]
      · simp [hk, Ne.symm hk]
    · rw [hlink, hr, endIfActive_link]
      by_cases hk : i = k
      · subst hk
        simp [hi]
      · simp [hk, Ne.symm hk]
    · rw [hntf (endIfActive_retained h i), endIfActive_ntf h]

/-- Where no port of the list has a session nothing ends. -/
theorem endAll_none (l : List Port) : ∀ p : Part, (∀ k ∈ l, (p.req k).session.active = false) →
    l.foldl Part.endIfActive p = p := by
  induction l with
  | nil => exact fun p _ => rfl
  | cons k l ih =>
    intro p h
    rw [List.foldl_cons, endIfActive_off (h k List.mem_cons_self)]
    exact ih p fun m hm => h m (List.mem_cons_of_mem _ hm)

/-- Where one port has a session that one ends. -/
theorem endAll_single {i : Port} (l : List Port) : ∀ p : Part, l.Nodup → i ∈ l → (p.req i).session.active = true →
    (∀ k, k ≠ i → (p.req k).session.active = false) → l.foldl Part.endIfActive p = p.endSession i .quiesce := by
  induction l with
  | nil => exact fun p _ h => absurd h List.not_mem_nil
  | cons k l ih =>
    intro p hl hi ha hne
    obtain ⟨hk, hl⟩ := List.nodup_cons.1 hl
    rw [List.foldl_cons]
    by_cases h : k = i
    · subst h
      rw [endIfActive_on ha]
      refine endAll_none l _ fun m hm => ?_
      have hmk : m ≠ k := fun e => hk (e ▸ hm)
      rw [endSession_req_ne p (Ne.symm hmk)]
      exact hne m hmk
    · rw [endIfActive_off (hne k h)]
      exact ih p hl ((List.mem_cons.1 hi).resolve_left (Ne.symm h)) ha hne

/-! ## The retained MODE entries (R97) -/

/-- The queue of a port with a session at the entry to QUIESCING. -/
def modeAlone : NotifyPort := { queue := [.mode .quiescing], overflow := false, drops := 0, modeRetained := true }

theorem retainMode_ntf (i k : Port) :
    (p.retainMode i).ntf k = if i = k ∧ (p.req k).session.active = true then modeAlone else p.ntf k := by
  unfold Part.retainMode
  by_cases ha : (p.req i).session.active = true
  · rw [if_pos ha]
    dsimp only
    rw [(countNtf_changes _ _).ntf]
    by_cases hk : i = k
    · subst hk
      rw [modNtf_ntf_self, if_pos ⟨rfl, ha⟩]
      rfl
    · rw [modNtf_ntf_ne _ _ _ hk, if_neg fun h => hk h.1]
  · rw [if_neg ha, if_neg]
    rintro ⟨rfl, h⟩
    exact ha h

theorem retainAll_ntf (l : List Port) : ∀ (p : Part) (k : Port),
    (l.foldl Part.retainMode p).ntf k = if k ∈ l ∧ (p.req k).session.active = true then modeAlone else p.ntf k := by
  induction l with
  | nil => intro p k; simp
  | cons i l ih =>
    intro p k
    rw [List.foldl_cons, ih, retainMode_ntf, (retainMode_changes p i).req]
    by_cases hk : i = k
    · subst hk
      by_cases ha : (p.req i).session.active = true
      · simp [ha]
      · simp [ha]
    · simp [hk, Ne.symm hk]

/-! ## The entry -/

/-- The part at the entry to QUIESCING before its sessions end: mode, cause and MODE entries are set. -/
def Part.quiesceBegun (p : Part) (cause : QuiesceCause) : Part :=
  allPorts.foldl Part.retainMode
    ((((p.setMode .quiescing).modRet fun r => { r with cause := some cause }).countRet fun c => c.quiesce cause).modCtl
      fun c => { c with drainOrdered := false })

theorem quiesceBegun_changes (cause : QuiesceCause) :
    Part.Changes [.ret, .ctl, .maint, .ntfs, .ntfCnt] p (p.quiesceBegun cause) :=
  (((((setMode_changes p .quiescing).trans (modRet_changes _ _)).trans (countRet_changes _ _)).trans
    (modCtl_changes _ _)).trans (Part.Changes.foldl retainMode_changes allPorts _)).mono

/-- The retention controller and the maintenance port do not change with the MODE entries. -/
theorem quiesceBegun_control (cause : QuiesceCause) :
    (p.quiesceBegun cause).ret = { p.ret with mode := .quiescing, cause := some cause }
      ∧ (p.quiesceBegun cause).ctl = { p.ctl with drainOrdered := false, cnt := p.ctl.cnt.quiesce cause }
      ∧ (p.quiesceBegun cause).maint = if p.ret.running then p.maint.raise causeModeChanged else p.maint := by
  have h := Part.Changes.foldl retainMode_changes allPorts
    ((((p.setMode .quiescing).modRet fun r => { r with cause := some cause }).countRet fun c => c.quiesce cause).modCtl
      fun c => { c with drainOrdered := false })
  unfold Part.quiesceBegun
  rw [h.ret, h.ctl, h.maint]
  unfold Part.setMode
  dsimp only
  rw [modRet_ret]
  dsimp only
  split
  · exact ⟨rfl, rfl, rfl⟩
  · exact ⟨rfl, rfl, rfl⟩

theorem quiesceBegun_ntf (cause : QuiesceCause) (k : Port) :
    (p.quiesceBegun cause).ntf k = if (p.req k).session.active = true then modeAlone else p.ntf k := by
  have h := (((setMode_changes p .quiescing).trans (modRet_changes _ fun r => { r with cause := some cause })).trans
    (countRet_changes _ fun c => c.quiesce cause)).trans (modCtl_changes _ fun c => { c with drainOrdered := false })
  unfold Part.quiesceBegun
  rw [retainAll_ntf, h.req, h.ntf]
  exact if_congr (and_iff_right (mem_allPorts k)) rfl rfl

theorem quiesceBegun_retained (cause : QuiesceCause) : (p.quiesceBegun cause).modesRetained := by
  intro k
  have hn := quiesceBegun_ntf (p := p) cause k
  have hr := (quiesceBegun_changes (p := p) cause).req k
  by_cases ha : (p.req k).session.active = true
  · rw [if_pos ha] at hn
    exact ⟨.inr (by rw [hn]; rfl), fun _ => by rw [hn]; rfl⟩
  · have hoff : ((p.quiesceBegun cause).req k).session.active = false := by rw [hr]; exact Bool.eq_false_iff.2 ha
    exact ⟨.inl hoff, fun h => by rw [hoff] at h; cases h⟩

theorem quiesceBegun_alike {i : Port} (hne : ∀ k, k ≠ i → (p.req k).session.active = false) (cause : QuiesceCause) :
    p.Alike (p.quiesceBegun cause) i := by
  have hch := quiesceBegun_changes (p := p) cause
  obtain ⟨-, -, hmaint⟩ := quiesceBegun_control (p := p) cause
  refine ⟨fun j => hch.journal j, fun n => hch.slot n, fun r => hch.readCtx r, fun k => hch.waits k, hch.mem, ?_,
    hch.appendCnt, hch.readCnt, fun k _ => by rw [hch.req], fun k hk => ?_⟩
  · rw [hmaint]
    split
    · obtain ⟨-, hparams, -⟩ := raise_raised p.maint causeModeChanged
      exact hparams
    · rfl
  · rw [quiesceBegun_ntf, if_neg (by rw [hne k hk]; decide)]

theorem quiesce_eq (cause : QuiesceCause) : p.quiesce cause = allPorts.foldl Part.endIfActive (p.quiesceBegun cause) := rfl

/-- What the entry to QUIESCING leaves (R163). -/
theorem quiesce_left (hrun : p.ret.running = true) (cause : QuiesceCause) :
    (p.quiesce cause).ret = { p.ret with mode := .quiescing, cause := some cause }
      ∧ (p.quiesce cause).ctl = { p.ctl with drainOrdered := false, cnt := p.ctl.cnt.quiesce cause }
      ∧ (p.maint.raise causeModeChanged).Raised (p.quiesce cause).maint
      ∧ (∀ k, (p.quiesce cause).req k
        = if (p.req k).session.active = true then (p.req k).closed .quiesce else p.req k)
      ∧ (∀ k, (p.quiesce cause).ntf k = if (p.req k).session.active = true then modeAlone else p.ntf k)
      ∧ (∀ k, (p.quiesce cause).link k
        = if (p.req k).session.active = true then (p.link k).credited (p.req k).buffer.length else p.link k)
      ∧ ∀ i, (p.req i).session.active = true → (∀ k, k ≠ i → (p.req k).session.active = false) →
        p.sessionLeft (p.quiesce cause) (p.sessionOf i) := by
  have hch := quiesceBegun_changes (p := p) cause
  obtain ⟨hret, hctl, hmaint⟩ := quiesceBegun_control (p := p) cause
  rw [if_pos hrun] at hmaint
  obtain ⟨hreq, hlink, hntf, hraised⟩ := endAll_left allPorts allPorts_nodup (p.quiesceBegun cause)
  have hend := Part.Changes.foldl endIfActive_changes allPorts (p.quiesceBegun cause)
  have hall : ∀ k : Port, ∀ b : Prop, k ∈ allPorts ∧ b ↔ b := fun k _ => and_iff_right (mem_allPorts k)
  simp only [hch.req, hch.link, hall] at hreq hlink
  rw [quiesce_eq]
  refine ⟨hend.ret.trans hret, hend.ctl.trans hctl, hmaint ▸ hraised, hreq, fun k => ?_, hlink, fun i ha hne => ?_⟩
  · rw [hntf (quiesceBegun_retained cause), quiesceBegun_ntf]
  · have hbegun : ∀ k, ((p.quiesceBegun cause).req k).session.active = (p.req k).session.active := fun k => by rw [hch.req]
    rw [endAll_single allPorts _ allPorts_nodup (mem_allPorts i) ((hbegun i).trans ha) fun k hk => (hbegun k).trans (hne k hk)]
    have hleft := endSession_left (p.quiesceBegun cause) i .quiesce
    have hsid : (p.quiesceBegun cause).sessionOf i = p.sessionOf i := by unfold Part.sessionOf; rw [hch.req]
    rw [hsid] at hleft
    exact (quiesceBegun_alike hne cause).sessionLeft hleft

end

/-- A fall of PFAIL_N in SERVING begins a quiesce. -/
theorem pfailFalls_serving {p : Part} (hrun : p.ret.running = true) (hmode : p.ret.mode = .serving) :
    p.pfailFalls = (p.quiesce .pfail).react := by
  obtain ⟨hret, -⟩ := quiesce_left hrun .pfail
  unfold Part.pfailFalls
  exact event_run hrun (by rw [hmode]) (by rw [hret]; exact hrun)

/-! ## O48 -/

/-- Settles O48: `quiesce_left` of the part with its level taken, or with its transaction answered. -/
theorem quiesceBegins : Obligations.QuiesceBegins := by
  intro s ⟨hrun, hmode⟩ p begun
  -- `b`: the level taken, or the transaction counted and answered
  have hbegun : ∀ (b : Part) (cause : QuiesceCause) (high : Bool), Part.Changes [.ret, .maint] p b →
      b.ret = { p.ret with pfailHigh := high } → b.maint.params = p.maint.params → begun cause high (b.quiesce cause) := by
    intro b cause high hch hbret hparams
    obtain ⟨hret, hctl, hraised, hreq, hntf, hlink, hleft⟩ := quiesce_left (by rw [hbret]; exact hrun) cause
    simp only [hch.req, hch.ntf, hch.link] at hreq hntf hlink hleft
    refine ⟨by rw [hret, hbret], by rw [hctl], ?_, fun i => ⟨fun ha => ?_, fun ha => ?_⟩, hlink, fun i ha hne => ?_⟩
    · obtain ⟨hpending, -⟩ := hraised
      refine hpending 0 ?_
      rw [raise_pending, BitVec.getLsbD_or]
      exact Bool.or_true _
    · rw [hreq, hntf, ha]
      exact ⟨rfl, rfl⟩
    · rw [hreq, hntf, ha]
      exact ⟨rfl, rfl⟩
    · have halike : p.Alike b i :=
        ⟨fun j => hch.journal j, fun n => hch.slot n, fun r => hch.readCtx r, fun k => hch.waits k, hch.mem, hparams,
          hch.appendCnt, hch.readCnt, fun k _ => by rw [hch.req], fun k _ => hch.ntf k⟩
      have hsid : b.sessionOf i = ⟨i, (p.req i).session.gen⟩ := by unfold Part.sessionOf; rw [hch.req]
      have hl := hleft i ha hne
      rw [hsid] at hl
      exact halike.sessionLeft hl
  refine ⟨fun hpower hhigh => ?_, ?_⟩
  · have hch : Part.Changes [.ret, .maint] p (p.modRet fun r => { r with pfailHigh := false }) := (modRet_changes p _).mono
    obtain ⟨-, hctl, -⟩ := quiesce_left (p := p.modRet fun r => { r with pfailHigh := false }) hrun .pfail
    refine ⟨_, ?_, hbegun _ .pfail false hch rfl rfl, by rw [hctl]; rfl⟩
    have hfall : (if p.ret.retentionPower && p.ret.pfailHigh then
        (p.modRet fun r => { r with pfailHigh := false }).pfailFalls else p)
          = ((p.modRet fun r => { r with pfailHigh := false }).quiesce .pfail).react := by
      rw [hpower, hhigh]
      exact pfailFalls_serving hrun hmode
    exact congrArg (fun q : Part => (.next { s with part := q } : Result)) hfall
  · have hmodes : s.part.ret.mode ∈ [Mode.serving, .quiescing] := by rw [hmode]; decide
    have hne : p.ret.mode ≠ .quiescing := by rw [hmode]; decide
    generalize hp' : (p.modMaint fun m => { m with cnt := { m.cnt with completed := satInc m.cnt.completed } }) = p'
    have hact : (if p'.ret.mode = .quiescing then p'.respond .busy [] else (p'.respond .ok []).quiesce .saveAndHalt)
        = (p'.respond .ok []).quiesce .saveAndHalt := if_neg (by rw [← hp']; exact hne)
    have hrespond : Part.Changes [.ret, .maint] p (p'.respond .ok []) :=
      ((hp' ▸ modMaint_changes p _ : Part.Changes [.maint] p p').both (respond_changes p' .ok [])).mono
    have hret : (p'.respond .ok []).ret = p.ret := by rw [← hp']; rfl
    obtain ⟨hqret, hctl, ⟨-, -, -, -, hresponse, hspi⟩, -⟩ :=
      quiesce_left (p := p'.respond .ok []) (by rw [hret]; exact hrun) .saveAndHalt
    obtain ⟨-, -, -, -, hraisedResponse, hraisedSpi⟩ := raise_raised (p'.respond .ok []).maint causeModeChanged
    have htakes : Takes .saveAndHalt s fun p' q => q = (p'.respond .ok []).quiesce .saveAndHalt :=
      takes_run (modes := [.serving, .quiescing])
        (act := fun q => if q.ret.mode = .quiescing then q.respond .busy [] else (q.respond .ok []).quiesce .saveAndHalt)
        rfl hrun hmodes hp' (by rw [hact, hqret, hret]; exact hrun) hact
    obtain ⟨q, hx, hq⟩ := htakes
    have hq' : q = (p'.respond .ok []).quiesce .saveAndHalt := hp' ▸ hq
    refine ⟨q, hx, ?_, ?_, ?_, ?_⟩
    · rw [hq']
      exact hbegun _ .saveAndHalt p.ret.pfailHigh hrespond hret (by rw [← hp']; rfl)
    · rw [hq', hresponse, hraisedResponse]
      rfl
    · rw [hq', hspi, hraisedSpi]
      rfl
    · rw [hq', hctl, ← hp']
      rfl

end Sys2Proof.Machine
end

section
/-! DATA (O19). -/

namespace Sys2Proof.Machine

set_option Elab.async false

variable {p : Part} {s : State} {i : Port} {n : SlotId} {x : Slot} {c : Conf} {payload bytes : List Byte}

/-! ## The intake of a DATA frame (R110, R113) -/

theorem popFrame_countData :
    ((p.popFrame i).countReq i fun k => { k with dataTaken := satInc k.dataTaken }) = p.served i RequestLayer.tookData := by
  unfold Part.popFrame Part.countReq Part.returnCredits Part.served
  rw [modLink_modReq, modReq_modReq]
  rfl

theorem headData_some (hb : (p.req i).buffer.head? = some ⟨true, payload⟩) (hh : p.holdsPayload i = false) :
    p.headData i = some payload := by
  unfold Part.headData
  cases hl : (p.req i).buffer with
  | nil => rw [hl] at hb; cases hb
  | cons f rest =>
    rw [hl] at hb
    cases hb
    simp [hh]

theorem served_tookData_session (k : Port) :
    ((p.served i RequestLayer.tookData).req k).session = (p.req k).session := by
  by_cases h : i = k
  · subst h; rw [served_req_self]; rfl
  · rw [served_req_ne _ _ h]

/-- A DATA frame that the intake takes is handed to the append engine. -/
theorem data_run {q : Part} {P : Part → Prop} (hr : s.part.ret.running = true)
    (hb : (s.part.req i).buffer.head? = some ⟨true, payload⟩) (hh : s.part.holdsPayload i = false)
    (hd : (s.part.served i RequestLayer.tookData).data i payload = q) (hcalm : q.react = q) (hp : P q) :
    Runs (.data i) s P := by
  have hq : (s.part.headData i).map (fun payload =>
      ((s.part.popFrame i).countReq i fun k => { k with dataTaken := satInc k.dataTaken }).data i payload) = some q := by
    rw [headData_some hb hh, Option.map_some, popFrame_countData, hd]
  have hret : q.ret = s.part.ret := by
    rw [← hd, (data_changes _ i payload).ret]
    rfl
  exact runs_next rfl (event_run hr hq (by rw [hret]; exact hr)) (hcalm.symm ▸ hp)

/-! ## Frames dropped (R30, R113, R185) -/

theorem data_notServing (h : p.ret.mode ≠ .serving) : p.data i payload = p.lateData i := if_pos h

theorem data_short (h : payload.length < 6) : p.data i payload = p.lateData i := by
  unfold Part.data dataFields
  rw [if_pos h]
  split <;> rfl

/-- The tag of a DATA frame names the slot (R30). -/
def Part.matchesData (p : Part) (i : Port) (tag : Byte) (y : Slot) : Prop :=
  y.state = .receiving ∧ y.session = p.sessionOf i ∧ y.reqTag = tag

theorem matchesData_test (i : Port) (tag : Byte) (m : SlotId) :
    ((p.slot m).any fun y =>
        decide (y.state = .receiving) && decide (y.session = p.sessionOf i) && decide (y.reqTag = tag)) = true
      ↔ ∃ y, p.slot m = some y ∧ p.matchesData i tag y := by
  unfold Part.matchesData
  simp only [Option.any_eq_true, Bool.and_eq_true, decide_eq_true_eq, and_assoc]

theorem dataSlot_inactive {tag : Byte} (h : (p.req i).session.active = false) : p.dataSlot i tag = none :=
  if_neg (by rw [h]; decide)

theorem dataSlot_none {tag : Byte} (h : ∀ m y, p.slot m = some y → ¬p.matchesData i tag y) : p.dataSlot i tag = none := by
  unfold Part.dataSlot
  split
  · rw [List.find?_eq_none]
    intro m _ hm
    obtain ⟨y, hy, hmatch⟩ := (matchesData_test i tag m).1 hm
    exact h m y hy hmatch
  · rfl

theorem data_unmatched (h : p.dataSlot i (byteAt payload 0) = none) : p.data i payload = p.lateData i := by
  unfold Part.data dataFields
  split
  · rfl
  · split
    · rfl
    · next hf =>
      split at hf
      · cases hf
      · cases hf
        rw [h]

theorem unmatchedDataIsDropped : Rules.UnmatchedDataIsDropped := by
  intro i s payload hq hr hb hh hcases
  have hlate : (s.part.served i RequestLayer.tookData).data i payload
      = (s.part.served i RequestLayer.tookData).lateData i := by
    rcases hcases with hm | hl | ha | hno
    · exact data_notServing hm
    · exact data_short hl
    · exact data_unmatched (dataSlot_inactive (by rw [served_tookData_session]; exact ha))
    · refine data_unmatched (dataSlot_none fun m y hy ⟨hstate, hsession, htag⟩ => hno m y hy hstate ?_ htag)
      rw [hsession]
      unfold Part.sessionOf
      rw [served_tookData_session]
  refine data_run hr hb hh hlate (react_modLink (served_quiet hq hr rfl) hr) ?_
  unfold Part.lateData Part.served
  rw [modLink_modLink]
  rfl

/-! ## The slot that a frame is matched to -/

theorem allSlots_getElem (k : Nat) (h : k < allSlots.length) : allSlots[k] = ⟨k, h⟩ :=
  List.getElem_finRange (n := 12) h

/-- The first slot in RECEIVING of the session whose tag is the frame's. -/
theorem dataSlot_some {tag : Byte} (ha : (p.req i).session.active = true)
    (h : ∀ m y, m ≤ n → p.slot m = some y → (p.matchesData i tag y ↔ m = n)) (hn : p.slot n = some x) :
    p.dataSlot i tag = some n := by
  unfold Part.dataSlot
  rw [if_pos ha, List.find?_eq_some_iff_getElem]
  refine ⟨(matchesData_test i tag n).2 ⟨x, hn, (h n x le_rfl hn).2 rfl⟩, n.val, n.isLt, allSlots_getElem _ _,
    fun k hk => ?_⟩
  have hlt : (⟨k, hk.trans n.isLt⟩ : SlotId) < n := hk
  rw [allSlots_getElem, Bool.not_eq_true', Bool.eq_false_iff]
  intro hm
  obtain ⟨y, hy, hmatch⟩ := (matchesData_test i tag _).1 hm
  exact absurd ((h _ y hlt.le hy).1 hmatch) hlt.ne

/-! ## The slot after the frame (R31 to R36) -/

/-- The part after an event of slot n: the slot, the append counters and the memory engine differ. -/
def Part.slotAfter (p : Part) (n : SlotId) (z : Slot) (cnt : AppendCounters) (as : List Access) : Part :=
  { p.setSlot n (some z) with appendCnt := cnt, mem := p.memAfter as }

theorem slotAfter_slotAfter {y z : Slot} {cnt cnt' : AppendCounters} {as bs : List Access} :
    (p.slotAfter n y cnt as).slotAfter n z cnt' bs = p.slotAfter n z cnt' (as ++ bs) := by
  have hmem : (p.slotAfter n y cnt as).memAfter bs = p.memAfter (as ++ bs) := by
    unfold Part.memAfter MemEngine.handedAll
    rw [List.foldl_append]
    rfl
  have hslots : putAt (putAt p.slots n (some y)) n (some z) = putAt p.slots n (some z) := putAt_putAt ..
  unfold Part.slotAfter at hmem ⊢
  rw [hmem]
  unfold Part.setSlot
  dsimp only
  rw [hslots]

theorem slotAfter_slot_self {z : Slot} {cnt : AppendCounters} {as : List Access} :
    (p.slotAfter n z cnt as).slot n = some z := setSlot_slot_self p n _

theorem voidSlot_slotAfter (hs : p.slot n = some x) (hx : x.state = .receiving) (hc : (p.journal x.journal).conf = some c)
    (r : VoidReason) :
    p.voidSlot n r = p.slotAfter n (x.voided r) (p.appendCnt.void r)
      (runWrites (.slot n .header) 32 (c.address x.position.toNat) (x.voided r).header) :=
  voidSlot_receiving hs hx hc r

/-- A slot's new state with the writes that go with it. -/
theorem setSlot_handRun {j : JournalId} (hc : (p.journal j).conf = some c) (z : Slot) (w : SlotWrite) (pos : Nat)
    (bs : List Byte) :
    (p.setSlot n (some z)).handRun (.slot n w) j pos bs
      = p.slotAfter n z p.appendCnt (runWrites (.slot n w) bs.length (c.address pos) bs) :=
  handRun_eq (p := p.setSlot n (some z)) hc n w pos bs

theorem header_length (z : Slot) : z.header.length = 32 := recordHeader_length ..

/-- The end of a payload whose check agrees (R34). -/
theorem endPayload_lands (hs : p.slot n = some x) (hc : (p.journal x.journal).conf = some c)
    (h : ~~~ x.check = x.declared) :
    p.endPayload n =
      p.slotAfter n { x with state := .landing, idle := none, outstanding := x.outstanding + 1 } p.appendCnt
        (runWrites (.slot n .header) 32 (c.address x.position.toNat) x.header) := by
  unfold Part.endPayload
  rw [hs]
  dsimp only
  rw [if_pos h, setSlot_handRun hc, header_length]

theorem endPayload_mismatch (hs : p.slot n = some x) (h : ~~~ x.check ≠ x.declared) :
    p.endPayload n = p.voidSlot n .checkMismatch := by
  unfold Part.endPayload
  rw [hs]
  exact if_neg h

/-- The writes of the payload that a taken frame completes bursts of (R33). -/
def Slot.payloadWrites (x : Slot) (c : Conf) (n : SlotId) (bytes : List Byte) : List Access :=
  runWrites (.slot n .payload) (x.run bytes).1.length (c.address x.runStart) (x.run bytes).1

/-- A frame taken for a slot (R32 to R34). -/
theorem takeData_eq (hc : (p.journal x.journal).conf = some c) :
    p.takeData n x bytes =
      (let q := p.slotAfter n (x.taken bytes (x.payloadWrites c n bytes).length p.maint.params.idle) p.appendCnt
        (x.payloadWrites c n bytes)
      if x.received + bytes.length = x.length then q.endPayload n else q) := by
  have hlen : runLength (c.address x.runStart) (x.run bytes).1 = (x.payloadWrites c n bytes).length :=
    runWrites_length _ _ _ _ _
  unfold Part.takeData
  rw [hc]
  dsimp only
  rw [setSlot_handRun hc, hlen]
  rfl

theorem data_matched {m : SlotId} (hm : p.ret.mode = .serving) (hl : 6 ≤ payload.length)
    (hn : p.dataSlot i (byteAt payload 0) = some m) (hs : p.slot m = some x) :
    p.data i payload =
      (dataCheck x (field payload 2 4) (payload.drop 6)).elim (p.takeData m x (payload.drop 6)) (p.voidSlot m) := by
  unfold Part.data dataFields
  rw [if_neg (not_not.2 hm), if_neg (Nat.not_lt.2 hl)]
  dsimp only
  rw [hn]
  dsimp only
  rw [hs]
  dsimp only
  cases dataCheck x (field payload 2 4) (payload.drop 6) with
  | none => rfl
  | some reason => rfl

theorem dataCheck_offset {offset : Nat} (h : offset ≠ x.received) : dataCheck x offset bytes = some .offsetError :=
  if_pos h

/-- A frame's length (R31). -/
def Slot.sized (x : Slot) (bytes : List Byte) : Prop :=
  bytes ≠ [] ∧ bytes.length ≤ 256 ∧ x.received + bytes.length ≤ x.length

theorem dataCheck_length {offset : Nat} (h : offset = x.received) (hs : ¬x.sized bytes) :
    dataCheck x offset bytes = some .lengthError := by
  unfold dataCheck
  rw [if_neg (not_not.2 h), if_pos]
  unfold Slot.sized at hs
  by_contra hno
  obtain ⟨h1, h2⟩ := not_or.1 hno
  obtain ⟨h2, h3⟩ := not_or.1 h2
  exact hs ⟨h1, Nat.le_of_not_lt h2, Nat.le_of_not_lt h3⟩

theorem dataCheck_passes {offset : Nat} (h : offset = x.received) (hs : x.sized bytes) : dataCheck x offset bytes = none := by
  obtain ⟨h1, h2, h3⟩ := hs
  unfold dataCheck
  rw [if_neg (not_not.2 h), if_neg]
  rintro (h | h | h)
  · exact h1 h
  · exact absurd h2 (Nat.not_le.2 h)
  · exact absurd h3 (Nat.not_le.2 h)

theorem dataFillsTheSlot : Rules.DataFillsTheSlot := by
  intro i n s payload x c hq ⟨hr, hmode⟩ hb hh hl ha hmatch hs hc p offset bytes e headerAt start all run writes y goes sized
  -- `b`: the frame taken from its buffer
  have hbr : (p.served i RequestLayer.tookData).req i = (p.req i).tookData := served_req_self p i _
  have hbl : (p.served i RequestLayer.tookData).link i = (p.link i).credited 1 := served_link_self p i _
  have hch := served_changes p i RequestLayer.tookData
  have hsid : (p.served i RequestLayer.tookData).sessionOf i = ⟨i, (p.req i).session.gen⟩ := by
    unfold Part.sessionOf
    rw [hbr]
    rfl
  have hrun := fun q (P : Part → Prop) hd => data_run (P := P) (q := q) hr hb hh hd
  change ∀ q (P : Part → Prop), (p.served i RequestLayer.tookData).data i payload = q → _ at hrun
  generalize p.served i RequestLayer.tookData = b at hbr hbl hch hsid hrun
  have hbs : b.slot n = some x := by rw [hch.slot]; exact hs
  have hbc : (b.journal x.journal).conf = some c := by rw [hch.journal]; exact hc
  have hfirst : ∀ m y, m ≤ n → b.slot m = some y → (b.matchesData i (byteAt payload 0) y ↔ m = n) := fun m y hm hy => by
    unfold Part.matchesData
    rw [hsid]
    exact hmatch m y hm (by rw [← hch.slot]; exact hy)
  obtain ⟨hstate, -, -⟩ := (hfirst n x le_rfl hbs).2 rfl
  have hdata := data_matched (p := b) (i := i) (by rw [hch.ret]; exact hmode) hl
    (dataSlot_some (by rw [hbr]; exact ha) hfirst hbs) hbs
  have hgoes : ∀ z cnt as, b.data i payload = b.slotAfter n z cnt as → goes z cnt as := by
    intro z cnt as hd
    have hslot : (b.slotAfter n z cnt as).slot n = some z := slotAfter_slot_self
    refine hrun _ _ hd (react_slot_inUse (n := n) hq hr (by rw [hs]; rfl) (by rw [hslot]; rfl)
      (congrArg Retention.mode hch.ret) hch.ctl fun k => hch.dirOf k) ⟨hslot, fun m hm => ?_, rfl, ?_, ?_, ?_, hch.journals⟩
    · exact (setSlot_slot_ne b n _ (Ne.symm hm)).trans (hch.slot m)
    · change b.memAfter as = p.memAfter as
      unfold Part.memAfter
      rw [hch.mem, hch.maint]
    · exact hbr
    · exact hbl
  have hvoid : ∀ r, b.voidSlot n r = b.slotAfter n (x.voided r) (p.appendCnt.void r)
      (runWrites (.slot n .header) 32 headerAt (x.voided r).header) := fun r => by
    rw [voidSlot_slotAfter hbs hstate hbc, hch.appendCnt]
  -- the run and the carry of a taken frame
  have hrunEq : x.run bytes = (run, if e = x.length then [] else all.drop (all.length - e % 8)) := by
    unfold Slot.run
    dsimp only
    by_cases h : e = x.length
    · rw [if_pos h, if_pos h, show run = _ from if_pos h]
      rfl
    · rw [if_neg h, if_neg h, show run = _ from if_neg h]
  have hwrites : x.payloadWrites c n bytes = writes := by
    unfold Slot.payloadWrites
    rw [hrunEq]
    rfl
  have hy : x.taken bytes writes.length b.maint.params.idle = y := by
    unfold Slot.taken
    rw [hrunEq, hch.maint]
  have htake := takeData_eq (p := b) (n := n) (bytes := bytes) hbc
  rw [hwrites, hy, hch.appendCnt] at htake
  have hys : (b.slotAfter n y p.appendCnt writes).slot n = some y := slotAfter_slot_self
  have hyc : ((b.slotAfter n y p.appendCnt writes).journal y.journal).conf = some c := hbc
  refine ⟨fun ho => hgoes _ _ _ ?_, fun ho hno => hgoes _ _ _ ?_, fun ho hsz he => hgoes _ _ _ ?_,
    fun ho hsz he hk => hgoes _ _ _ ?_, fun ho hsz he hk => hgoes _ _ _ ?_⟩
  · rw [hdata, dataCheck_offset ho]
    exact hvoid _
  · rw [hdata, dataCheck_length ho hno]
    exact hvoid _
  all_goals
    rw [hdata, dataCheck_passes ho hsz]
    refine htake.trans ?_
  · exact if_neg he
  · refine (if_pos he).trans ?_
    rw [endPayload_lands hys hyc hk, slotAfter_slotAfter]
    rfl
  · refine (if_pos he).trans ?_
    rw [endPayload_mismatch hys hk, voidSlot_slotAfter hys hstate hyc, slotAfter_slotAfter]
    rfl

/-- Settles O19: a frame dropped, or matched to a slot. -/
theorem dataFramesAreTaken : Obligations.DataFramesAreTaken := ⟨unmatchedDataIsDropped, dataFillsTheSlot⟩

end Sys2Proof.Machine
end

section
/-! Reset: what it leaves in every block (O4), and the invariants there (O9). -/

namespace Sys2Proof.Machine

set_option Elab.async false

/-- Reset is a start of the main domain with the cold start under way (R161, R162). -/
theorem reset_eq :
    State.reset.part = ((Part.fresh Retention.reset [] 0).modCtl fun c => { c with work := .coldInit }).modMem fun m =>
      { m with op := some .initialise } := rfl

/-! ## The values at reset (O4) -/

theorem reset_link (i : Port) : State.reset.part.link i = {} := fresh_get _ i

theorem reset_req (i : Port) : State.reset.part.req i = {} := fresh_get _ i

theorem reset_ntf (i : Port) : State.reset.part.ntf i = {} := fresh_get _ i

theorem reset_journal (j : JournalId) : State.reset.part.journal j = {} := fresh_get _ j

theorem reset_bank (b : Fin 16) : State.reset.part.mem.banks.get b = {} := fresh_get _ b

theorem zero_of_replicate {l : List W32} (n : Nat) (h : l = List.replicate n 0) : ∀ v ∈ l, v = 0 := fun _ hv =>
  List.eq_of_mem_replicate (h ▸ hv)

/-- Every counter of every block is 0. -/
theorem reset_counters (block : Nat) : ∀ v ∈ State.reset.part.counterBlock block, v = 0 := by
  unfold Part.counterBlock
  split
  · rw [reset_link]; exact zero_of_replicate 11 rfl
  split
  · rw [reset_req]; exact zero_of_replicate 9 rfl
  split
  · exact zero_of_replicate 11 rfl
  split
  · exact zero_of_replicate 7 rfl
  split
  · exact zero_of_replicate 6 rfl
  split
  · exact zero_of_replicate 0 rfl
  split
  · rw [reset_bank]; exact zero_of_replicate 4 rfl
  split
  · exact zero_of_replicate 3 rfl
  split
  · exact zero_of_replicate 6 rfl
  split
  · exact zero_of_replicate 4 rfl
  · exact zero_of_replicate 0 rfl

/-- Settles O4: the blocks of a start of the main domain, and the initialise operation in flight. -/
theorem resetState : Obligations.ResetState :=
  ⟨rfl, rfl, rfl, rfl, ⟨rfl, rfl, rfl, rfl, rfl⟩, reset_link, reset_journal, ⟨rfl, rfl, fun i => fresh_get _ i⟩,
    reset_counters, fun i => by rw [reset_req]; exact ⟨rfl, rfl, rfl, rfl, rfl, rfl⟩, reset_ntf, fun n => fresh_get _ n,
    fun r => fresh_get _ r,
    ⟨rfl, rfl, rfl, fun b => by rw [reset_bank]; exact ⟨rfl, rfl⟩, rfl, rfl, rfl, rfl, rfl, rfl, rfl⟩,
    ⟨rfl, rfl, rfl, rfl, rfl, rfl⟩⟩

/-! ## The invariants at reset (O9) -/

theorem reset_sound : State.reset.part.sound := by
  have hfresh : (Part.fresh Retention.reset [] 0).sound := fresh_sound _ ⟨.nil, fun _ h => absurd h List.not_mem_nil⟩
  rw [reset_eq]
  exact modMem_sound ((modCtl_changes _ _).sound (hp := hfresh)) fun hm => hm

theorem reset_tablesSound : State.reset.part.tablesSound := by
  rw [reset_eq]
  exact ((modCtl_changes _ _).trans (modMem_changes _ _)).same.tables (fresh_tables _ _ _)

/-- The directory is clean, and the cold start waits for the DRAM (R162). -/
theorem reset_quiet : State.reset.part.quiet = true :=
  quiet_of_nothingDue (Part.Starting.nothingDue ⟨rfl, rfl, rfl, Mode.noConfusion, .inr (.inr (.inr rfl))⟩)

/-- Settles O9. -/
theorem resetKeepsTheInvariants : Obligations.ResetKeepsTheInvariants := ⟨⟨reset_sound, reset_tablesSound⟩, reset_quiet⟩

end Sys2Proof.Machine
end

section
/-! TRANSFER_COMPLETE (O32). -/

namespace Sys2Proof.Machine

set_option Elab.async false

section
variable {p : Part} {j : JournalId} {c : Conf} {owner : Option SessionId} {t : W32} {claimant : Option Claimant}

theorem transferDue_of_transferring (hc : (p.journal j).conf = some c) (ho : c.own = .transferring owner t claimant)
    (h : c.openSlots = 0) : p.transferDue j = true := by
  unfold Part.transferDue
  rw [hc, Option.any_some, h, ho]
  rfl

theorem transferred_claimant {cl : Claimant} {tag : W32} (ht : (p.req cl.session.port).session.tag = some tag) :
    p.transferred j (some cl)
      = (.owned cl.session tag,
          [.answer cl.session (ownershipAnswer codeTakeover cl.reqTag ((p.journal j).epoch + 1))]) := by
  unfold Part.transferred
  dsimp only
  rw [ht]
  rfl

/-- Without a claimant a FORCE_RELEASE that waits and is bound to no write yet is bound (R60). -/
theorem transferred_nobody :
    p.transferred j none
      = (.unassigned,
          if p.maint.deferred = .waiting (.forceRelease j)
              ∧ .forceRelease ∉ (p.journal j).boundNext ++ (p.journal j).boundFlight then [.forceRelease] else []) := by
  unfold Part.transferred
  rw [forceDue_eq]
  simp only [Bool.and_eq_true, Bool.not_eq_true', decide_eq_true_eq, decide_eq_false_iff_not]

/-- The entry and the notifications of a completed transfer, by the ownership and the response it leaves (R60, R66). -/
theorem completeTransfer_spec {own : Ownership} {bs : List Bound} (hc : (p.journal j).conf = some c)
    (htr : p.transferred j claimant = (own, bs)) :
    (p.completeTransfer j owner claimant).journal j = (p.journal j).changed c own ((p.journal j).epoch + 1) bs
      ∧ ∀ k, (p.completeTransfer j owner claimant).ntf k
          = if k ∈ c.subs ∨ ∃ o : SessionId, owner = some o ∧ o.port = k ∧ p.live o = true then
              p.handed k
                (.owner j (Conf.state { c with own := own }) ((p.journal j).epoch + 1)
                  (Conf.ownerTag { c with own := own }))
            else p.ntf k := by
  refine ⟨?_, fun k => ?_⟩
  · rw [completeTransfer_journal hc, if_pos rfl, htr]
  · rw [completeTransfer_ntf hc, htr]
    exact if_congr (or_congr Iff.rfl (attachedPort_iff owner k)) rfl rfl

end

/-- Settles O32: the check finds the transfer done (`transferCheck_done`), and `transferred` says to whom. -/
theorem transfersComplete : Obligations.TransfersComplete := by
  intro j s c owner t claimant hrun hc ho hopen p e told waits
  have hdone : p.transferCheck j = p.completeTransfer j owner claimant := transferCheck_done hc ho hopen
  have hevent : (if p.transferDue j = true then some (p.transferCheck j) else none)
      = some (p.completeTransfer j owner claimant) := by
    rw [transferDue_of_transferring hc ho hopen, if_pos rfl, hdone]
  have hret : (p.completeTransfer j owner claimant).ret = p.ret := by rw [← hdone, (transferCheck_changes p j).ret]
  refine ends_event rfl hrun hevent (by rw [hret]; exact hrun) ⟨fun k hk => ?_, ?_, ?_⟩
  · rw [completeTransfer_journal hc, if_neg (Ne.symm hk)]
  · rintro cl tag rfl ht
    exact completeTransfer_spec hc (transferred_claimant ht)
  · rintro rfl
    exact completeTransfer_spec hc transferred_nobody

end Sys2Proof.Machine
end

section
/-! A link that leaves UP (O35). -/

namespace Sys2Proof.Machine

set_option Elab.async false

/-! ## The loss of a link (R126, R107, R99) -/

/-- What a link that leaves UP leaves in `q`, the link unit being `v` then: the attention cause raised, the port's buffer
and queues emptied, and an ACTIVE session ended in every block. -/
def Part.linkLost (p q : Part) (i : Port) (v : LinkUnit) : Prop :=
  q.link i = v
    ∧ q.maint.pending.getLsbD (4 + i.val) = true
    ∧ q.ntf i = { queue := [], overflow := false, drops := 0, modeRetained := false }
    ∧ ((p.req i).session.active = false → q.req i = { p.req i with buffer := [], respQ := [] })
    ∧ ((p.req i).session.active = true →
        q.req i = (p.req i).ended { (p.req i).cnt with endsLinkLoss := satInc (p.req i).cnt.endsLinkLoss }
        ∧ p.sessionLeft q (p.sessionOf i))

theorem linkDown_bit (i : Port) : (causeLinkDown i).getLsbD (4 + i.val) = true := by
  revert i
  decide

/-- What a session end has left stands when the port's own notification queue changes after it. -/
theorem sessionLeft_ntfs {p q q' : Part} {s : SessionId} (hq : Part.Changes [.ntfs, .ntfCnt] q q')
    (hn : ∀ k, k ≠ s.port → q'.ntf k = q.ntf k) (h : p.sessionLeft q s) : p.sessionLeft q' s := by
  have hw : ∀ k, (q'.req k).session.who = (q.req k).session.who := fun k => by rw [hq.req]
  have hfreed : ∀ j e k, q'.freedEntry j e k = q.freedEntry j e k := fun j e k =>
    freedEntry_congr hw (by rw [hq.maint]) j e k
  unfold Part.sessionLeft at h ⊢
  simp only [hq.slot, hq.readCtx, hq.waits, hq.mem, hq.journal, hq.maint, hq.appendCnt, hq.readCnt, hfreed,
    ownerGoesTo_congr hw]
  obtain ⟨hslot, hread, hwaits, hmem, hjournal, hheld, ⟨done, hnd, hdone, hntf⟩, hcnt, hreadCnt⟩ := h
  refine ⟨hslot, hread, hwaits, hmem, hjournal, hheld, ⟨done, hnd, hdone, fun k hk => ?_⟩, hcnt, hreadCnt⟩
  rw [hn k hk]
  exact hntf k hk

/-- The part as the session of a lost link ends: the link down, LINK_DOWN raised, and buffer and response queue
emptied. -/
def Part.unlinked (p : Part) (i : Port) (cause : DownCause) : Part :=
  ((p.modLink i fun u => u.down cause).raise (causeLinkDown i)).modReq i fun r => { r with buffer := [], respQ := [] }

section
variable (p : Part) (i : Port) (cause : DownCause)

theorem unlinked_changes : Part.Changes [.links, .maint, .reqs] p (p.unlinked i cause) :=
  (((modLink_changes p i _).trans (raise_changes _ _)).trans (modReq_changes _ i _)).mono

theorem unlinked_link : (p.unlinked i cause).link i = (p.link i).down cause :=
  modLink_link_self p i fun u => u.down cause

theorem unlinked_req : (p.unlinked i cause).req i = { p.req i with buffer := [], respQ := [] } :=
  modReq_req_self _ _ _

theorem unlinked_pending : (p.unlinked i cause).maint.pending.getLsbD (4 + i.val) = true := by
  unfold Part.unlinked
  rw [modReq_maint, raise_maint, raise_pending, BitVec.getLsbD_or, linkDown_bit, Bool.or_true]

theorem unlinked_alike : p.Alike (p.unlinked i cause) i := by
  have hch := unlinked_changes p i cause
  refine ⟨fun j => hch.journal j, fun n => hch.slot n, fun r => hch.readCtx r, fun k => hch.waits k, hch.mem, ?_,
    hch.appendCnt, hch.readCnt, fun k hk => ?_, fun k _ => hch.ntf k⟩
  · unfold Part.unlinked
    rw [modReq_maint, raise_maint]
    exact (raise_raised _ _).2.1
  · unfold Part.unlinked
    rw [modReq_req_ne _ _ _ (Ne.symm hk)]
    rfl

/-- The notification queue emptied with its retained mark (R99). -/
def Part.silenced (p : Part) (i : Port) : Part :=
  (p.clearNtf i fun _ => false).modNtf i fun n => { n with modeRetained := false }

theorem silenced_changes : Part.Changes [.ntfs, .ntfCnt] p (p.silenced i) :=
  ((clearNtf_changes p i _).trans (modNtf_changes _ i _)).mono

theorem silenced_ntf_self :
    (p.silenced i).ntf i = { queue := [], overflow := false, drops := 0, modeRetained := false } := by
  unfold Part.silenced
  rw [modNtf_ntf_self, clearNtf_self, List.filter_false]

theorem silenced_ntf_ne {k : Port} (h : i ≠ k) : (p.silenced i).ntf k = p.ntf k := by
  unfold Part.silenced
  rw [modNtf_ntf_ne _ _ _ h, clearNtf_ne _ h]

theorem linkDown_eq :
    p.linkDown i cause
      = (if (p.req i).session.active = true then (p.unlinked i cause).endSession i .linkLoss
          else p.unlinked i cause).silenced i := by
  have h : ((p.unlinked i cause).req i).session.active = (p.req i).session.active := by rw [unlinked_req]
  rw [← h]
  rfl

theorem linkDown_lost : p.linkLost (p.linkDown i cause) i ((p.link i).down cause) := by
  rw [linkDown_eq]
  have hlink := unlinked_link p i cause
  have hreq := unlinked_req p i cause
  have hpend := unlinked_pending p i cause
  have halike := unlinked_alike p i cause
  generalize p.unlinked i cause = u at hlink hreq hpend halike
  cases hact : (p.req i).session.active with
  | false =>
    have hch := silenced_changes u i
    rw [if_neg (by decide)]
    refine ⟨by rw [hch.link, hlink], by rw [hch.maint, hpend], silenced_ntf_self u i, fun _ => by rw [hch.req, hreq],
      fun h => ?_⟩
    rw [hact] at h
    cases h
  | true =>
    have hch := silenced_changes (u.endSession i .linkLoss) i
    have hsid : u.sessionOf i = p.sessionOf i := by unfold Part.sessionOf; rw [hreq]
    have hleft := endSession_left u i .linkLoss
    rw [hsid] at hleft
    rw [if_pos rfl]
    refine ⟨?_, ?_, silenced_ntf_self _ i, fun h => ?_, fun _ => ⟨?_, ?_⟩⟩
    · rw [hch.link, endSession_link, if_pos rfl, hlink]
    · rw [hch.maint]
      exact (endSession_raised u i .linkLoss).1 _ hpend
    · rw [hact] at h
      cases h
    · rw [hch.req, endSession_req_self, hreq]
      rfl
    · exact sessionLeft_ntfs hch (fun k hk => silenced_ntf_ne _ i (Ne.symm hk)) (halike.sessionLeft hleft)

end

section
variable {p q : Part} {i : Port} {u v : LinkUnit} {h : Header}

theorem modLink_alike (p : Part) (i : Port) (f : LinkUnit → LinkUnit) : p.Alike (p.modLink i f) i :=
  ⟨fun _ => rfl, fun _ => rfl, fun _ => rfl, fun _ => rfl, rfl, rfl, rfl, rfl, fun _ _ => rfl, fun _ _ => rfl⟩

/-- A link unit's own changes before it leaves UP make no difference to what the loss leaves. -/
theorem linkLost_modLink {f : LinkUnit → LinkUnit} (hl : (p.modLink i f).linkLost q i v) : p.linkLost q i v := by
  obtain ⟨hlink, hpend, hntf, hidle, hactive⟩ := hl
  refine ⟨hlink, hpend, hntf, hidle, fun ha => ?_⟩
  obtain ⟨hreq, hleft⟩ := hactive ha
  exact ⟨hreq, (modLink_alike p i f).sessionLeft hleft⟩

theorem modLink_linkDown_lost (f : LinkUnit → LinkUnit) (cause : DownCause) :
    p.linkLost ((p.modLink i f).linkDown i cause) i ((f (p.link i)).down cause) := by
  have hl := linkDown_lost (p.modLink i f) i cause
  rw [modLink_link_self] at hl
  exact linkLost_modLink hl

theorem linkDown_ret (p : Part) (i : Port) (cause : DownCause) : (p.linkDown i cause).ret = p.ret :=
  (linkDown_changes p i cause).ret

/-! ## The header of a good frame (R131) -/

/-- The link unit when an acknowledgement has released `k` entries of the replay buffer. -/
def LinkUnit.released (u : LinkUnit) (k : Nat) : LinkUnit :=
  { u with
    replayBuf := u.replayBuf.drop k
    replay := if k = u.replayBuf.length then none else u.replay.map fun x => x - k
    replayCount := 0
    replayTimer := decide (k < u.replayBuf.length) }

theorem release_eq {k : Nat} (hk : k ≤ u.replayBuf.length) : u.release k = u.released k := by
  have hnil : u.replayBuf.drop k = [] ↔ k = u.replayBuf.length := by rw [List.drop_eq_nil_iff]; omega
  have hmore : (!(u.replayBuf.drop k).isEmpty) = decide (k < u.replayBuf.length) := by
    rw [Bool.eq_iff_iff, Bool.not_eq_true', Bool.eq_false_iff, Ne, List.isEmpty_iff, hnil, decide_eq_true_iff]
    omega
  unfold LinkUnit.release LinkUnit.released
  rw [hmore]
  simp only [hnil]

theorem acked_nil {a : Seq} (hb : u.replayBuf = []) : u.acked a = u := by
  unfold LinkUnit.acked
  rw [hb]

theorem acked_cons {a : Seq} {e : ReplayEntry} {rest : List ReplayEntry} (hb : u.replayBuf = e :: rest) :
    u.acked a
      = if (a - e.seq).toNat + 1 ≤ u.replayBuf.length then u.released ((a - e.seq).toNat + 1) else u := by
  unfold LinkUnit.acked LinkUnit.released
  rw [hb]

/-- The model's acknowledgement is that of the statements. -/
theorem takeAck_eq (u : LinkUnit) (a : Seq) : u.takeAck a = u.acked a := by
  cases hb : u.replayBuf with
  | nil =>
    rw [acked_nil hb]
    unfold LinkUnit.takeAck
    rw [hb]
  | cons e rest =>
    have htake : u.takeAck a
        = if (a - e.seq).toNat + 1 ≤ u.replayBuf.length then u.release ((a - e.seq).toNat + 1) else u := by
      unfold LinkUnit.takeAck
      rw [hb]
      rfl
    rw [htake, acked_cons hb]
    split
    · next hk => exact release_eq hk
    · rfl

theorem acked_state (u : LinkUnit) (a : Seq) : (u.acked a).state = u.state := by
  cases hb : u.replayBuf with
  | nil => rw [acked_nil hb]
  | cons e rest =>
    rw [acked_cons hb]
    split <;> rfl

/-- The count, the silence timer and the three fields of the header together (R121, R128, R131). -/
theorem heard_eq (u : LinkUnit) (h : Header) :
    (u.countGood.restartSilence.takeAck h.ack).takeCredit h.credit = u.heard h := by
  rw [takeAck_eq]
  unfold LinkUnit.heard
  cases hb : u.replayBuf with
  | nil =>
    rw [acked_nil hb, acked_nil (u := u.countGood.restartSilence) hb]
    rfl
  | cons e rest =>
    rw [acked_cons hb, acked_cons (u := u.countGood.restartSilence) hb]
    by_cases hk : (h.ack - e.seq).toNat + 1 ≤ u.replayBuf.length
    · rw [if_pos hk, if_pos (c := _ ≤ u.countGood.restartSilence.replayBuf.length) hk]
      rfl
    · rw [if_neg hk, if_neg (c := _ ≤ u.countGood.restartSilence.replayBuf.length) hk]
      rfl

theorem heard_state (u : LinkUnit) (h : Header) : (u.heard h).state = u.state := acked_state u h.ack

theorem takes_state (ht : u.takes h v) : v.state = u.state := by
  obtain ⟨-, -, rfl⟩ | ⟨-, rfl⟩ := ht <;> exact heard_state u h

/-! ## Replay triggers (R134, R135) -/

theorem replayTrigger_none (hn : ¬(p.link i).triggered) : p.replayTrigger i = p := by
  refine if_pos ?_
  by_contra hno
  obtain ⟨hbuf, hreplay⟩ := not_or.1 hno
  exact hn ⟨hbuf, Option.not_isSome_iff_eq_none.1 hreplay⟩

theorem replayTrigger_triggered (ht : (p.link i).triggered) :
    p.replayTrigger i
      = if (p.link i).replayCount < Config.replayLimit then p.modLink i LinkUnit.startReplay
        else p.linkDown i .replayLimit := by
  obtain ⟨hbuf, hreplay⟩ := ht
  refine if_neg ?_
  rintro (h | h)
  · exact hbuf h
  · rw [hreplay] at h
    cases h

theorem replayTrigger_limit (ht : (p.link i).triggered) (hl : 8 ≤ (p.link i).replayCount) :
    p.replayTrigger i = p.linkDown i .replayLimit :=
  (replayTrigger_triggered ht).trans (if_neg (Nat.not_lt.2 hl))

/-! ## A good frame in UP -/

/-- A good frame counted and heard, and its header taken (R121, R128, R131). -/
def Part.headerHeard (p : Part) (i : Port) (h : Header) : Part :=
  ((p.modLink i LinkUnit.countGood).modLink i LinkUnit.restartSilence).takeHeader i h

theorem headerHeard_eq (p : Part) (i : Port) (h : Header) :
    p.headerHeard i h
      = if h.nak = true then (p.modLink i fun u => u.heard h).replayTrigger i else p.modLink i fun u => u.heard h := by
  unfold Part.headerHeard Part.takeHeader
  rw [modLink_modLink, modLink_modLink]
  simp only [heard_eq]

/-- A NAK flag that finds the replay limit reached. -/
theorem headerHeard_limit (hn : (p.link i).nakEnds h) :
    p.headerHeard i h = (p.modLink i fun u => u.heard h).linkDown i .replayLimit := by
  obtain ⟨hnak, ht, hl⟩ := hn
  rw [headerHeard_eq, if_pos hnak]
  refine replayTrigger_limit ?_ ?_ <;> rw [modLink_link_self]
  · exact ht
  · exact hl

/-- Any other header leaves the link in UP. -/
theorem headerHeard_takes (hn : ¬(p.link i).nakEnds h) (ht : (p.link i).takes h v) :
    p.headerHeard i h = p.modLink i fun _ => v := by
  rw [headerHeard_eq]
  obtain ⟨hnak, htrig, rfl⟩ | ⟨hno, rfl⟩ := ht
  · have hcount : ((p.link i).heard h).replayCount < 8 := Nat.not_le.1 fun hl => hn ⟨hnak, htrig, hl⟩
    rw [if_pos hnak, replayTrigger_triggered (by rw [modLink_link_self]; exact htrig), modLink_link_self,
      if_pos hcount, modLink_modLink]
    rfl
  · split
    · next hnak =>
      rw [replayTrigger_none (by rw [modLink_link_self]; exact fun ht => hno ⟨hnak, ht⟩)]
      rfl
    · rfl

theorem linkDown_state (p : Part) (i : Port) (cause : DownCause) : ((p.linkDown i cause).link i).state = .down := by
  rw [(linkDown_lost p i cause).1]
  rfl

theorem goodIdle_up (hu : (p.link i).state = .up) :
    p.goodIdle i h
      = if ((p.headerHeard i h).link i).state = .up then (p.headerHeard i h).modLink i fun u => u.idleSeq h.seq
        else p.headerHeard i h := by
  unfold Part.goodIdle
  rw [hu]
  rfl

theorem goodReset_up (hu : (p.link i).state = .up) :
    p.goodReset i h
      = if ((p.headerHeard i h).link i).state = .up then (p.headerHeard i h).linkDown i .linkReset
        else p.headerHeard i h := by
  unfold Part.goodReset
  rw [hu]
  rfl

theorem goodSequenced_up {t : SeqType} {payload : List Byte} (hu : (p.link i).state = .up) :
    p.goodSequenced i t h payload
      = if ((p.headerHeard i h).link i).state = .up then (p.headerHeard i h).classify i t h.seq payload
        else p.headerHeard i h := by
  unfold Part.goodSequenced
  rw [hu]
  rfl

/-- A good LINK_RESET whose NAK flag does not take the link down (R127). -/
theorem goodReset_takes (hu : (p.link i).state = .up) (hn : ¬(p.link i).nakEnds h) (ht : (p.link i).takes h v) :
    p.goodReset i h = (p.modLink i fun _ => v).linkDown i .linkReset := by
  rw [goodReset_up hu, headerHeard_takes hn ht, modLink_link_self, takes_state ht, if_pos hu]

/-- A frame whose NAK flag takes the link down does nothing more (logs 14 and 15). -/
theorem nakEnds_frame {further : Part} (hn : (p.link i).nakEnds h) :
    (if ((p.headerHeard i h).link i).state = .up then further else p.headerHeard i h)
      = (p.modLink i fun u => u.heard h).linkDown i .replayLimit := by
  rw [headerHeard_limit hn, linkDown_state, if_neg (by decide)]

end

/-! ## O35 -/

/-- An event that takes the link down, after changes `f` of the link unit alone. -/
theorem ends_linkLost {c : Instr} {s : State} {i : Port} {f : LinkUnit → LinkUnit} {cause : DownCause}
    {act : Part → Option Part} (hc : exec c s = .next (s.onPart fun p => p.event act)) (hr : s.part.ret.running = true)
    (ha : act s.part = some ((s.part.modLink i f).linkDown i cause)) :
    Ends c s fun q => s.part.linkLost q i ((f (s.part.link i)).down cause) :=
  ends_event hc hr ha (by rw [linkDown_ret]; exact hr) (modLink_linkDown_lost f cause)

/-- A frame whose NAK flag takes the link down. -/
theorem ends_nakLimit {c : Instr} {s : State} {i : Port} {h : Header} {act : Part → Option Part} {q : Part}
    (hc : exec c s = .next (s.onPart fun p => p.event act)) (hr : s.part.ret.running = true) (ha : act s.part = some q)
    (hq : q = (s.part.modLink i fun u => u.heard h).linkDown i .replayLimit) :
    Ends c s fun x => s.part.linkLost x i (((s.part.link i).heard h).down .replayLimit) :=
  ends_linkLost (f := fun u => u.heard h) hc hr (ha.trans (congrArg some hq))

theorem modLink_id (p : Part) (i : Port) : (p.modLink i fun u => u) = p :=
  congrArg (fun ls => { p with links := ls }) (putAt_get_eq p.links i)

/-- Settles O35: each event is `linkDown` after what it does to the link unit, and `linkDown_lost` says what that
leaves. -/
theorem linkLossEndsEverything : Obligations.LinkLossEndsEverything := by
  intro i s hrun hup p u sid lost
  have hsame : p.linkDown i = (p.modLink i fun u => u).linkDown i := by rw [modLink_id]
  refine ⟨fun h v hn ht => ?_, fun hsilence => ?_, fun htimer htrig hlimit => ?_, fun h hn =>
    ⟨?_, ?_, fun t payload hl => ?_⟩⟩
  · exact ends_linkLost (f := fun _ => v) (cause := .linkReset) rfl hrun (congrArg some (goodReset_takes hup hn ht))
  · refine ends_linkLost (f := fun u => u) (cause := .silence) rfl hrun ?_
    rw [if_pos hsilence, hup, ← hsame]
  · refine ends_linkLost (f := fun u => u) (cause := .replayLimit) rfl hrun ?_
    rw [if_pos ⟨hup, htimer⟩, replayTrigger_limit htrig hlimit, ← hsame]
  · exact ends_nakLimit rfl hrun rfl ((goodIdle_up hup).trans (nakEnds_frame hn))
  · exact ends_nakLimit rfl hrun rfl ((goodReset_up hup).trans (nakEnds_frame hn))
  · exact ends_nakLimit rfl hrun (if_pos hl) ((goodSequenced_up hup).trans (nakEnds_frame hn))

end Sys2Proof.Machine
end

section
/-! What the read contexts' accesses leave (R76, R141): a held access admitted (O41), and a completed read burst (O24). -/

namespace Sys2Proof.Machine

set_option Elab.async false

variable {p : Part} {s : State} {x y : ReadId} {r : ReadCtx} {c : Conf} {a : Access}

/-! ## The arbiter leaves what clients hold (R143) -/

theorem take_held (m : MemEngine) (k : Pick) : (m.take k).held = m.held := by
  unfold MemEngine.take
  split
  · rfl
  · rfl

theorem memArbitrate_held (m : MemEngine) (urgent : Nat) : (m.arbitrate urgent).held = m.held := by
  unfold MemEngine.arbitrate
  split
  · rfl
  · split
    · rfl
    · split
      · exact take_held m _
      · split
        · rfl
        · split
          · rfl
          · rfl

theorem carryOut_held : (p.carryOut a).mem.held = p.mem.held := memArbitrate_held _ _

/-! ## An access that joins the queue (R141) -/

/-- Its read context, if it has one, counts it as outstanding (R76). -/
theorem countHanded_readCtx (cl : Client) (x : ReadId) :
    (p.countHanded cl).readCtx x = (p.readCtx x).map fun r =>
      { r with outstanding := if cl = .readCtx x then r.outstanding + 1 else r.outstanding } := by
  have hother : cl ≠ .readCtx x → p.readCtx x = (p.readCtx x).map fun r =>
      { r with outstanding := if cl = .readCtx x then r.outstanding + 1 else r.outstanding } := fun h => by
    simp only [h, if_false]
    exact Option.map_id'.symm
  unfold Part.countHanded
  split
  · next y =>
    unfold Part.modRead
    by_cases h : y = x
    · subst h
      rw [setRead_readCtx_self]
      simp only [if_true]
    · rw [setRead_readCtx_ne _ _ _ h]
      exact hother fun e => h (Client.readCtx.inj e)
  · next h => exact hother (h x)

theorem enqueue_readCtx (x : ReadId) :
    (p.enqueue a).readCtx x = (p.readCtx x).map fun r =>
      { r with outstanding := if a.client = .readCtx x then r.outstanding + 1 else r.outstanding } :=
  countHanded_readCtx a.client x

theorem enqueue_mem :
    (p.enqueue a).mem = MemEngine.arbitrate { p.mem with queue := p.mem.queue ++ [a] } p.maint.params.urgent.toNat := by
  unfold Part.enqueue Part.arbitrate
  rw [modMem_mem, modMem_mem, modMem_maint, countHanded_mem, countHanded_maint]

/-! ## ACCESS_ADMIT (O41) -/

theorem room_of_places {m : MemEngine} (hq : m.queue.length < 64) (ho : a.cls = .directory ∨ m.ordinary < 55) :
    m.room a.cls = true := by
  unfold MemEngine.ordinary at ho
  unfold MemEngine.room
  rw [Bool.and_eq_true, decide_eq_true_eq]
  refine ⟨hq, ?_⟩
  cases hcls : a.cls with
  | directory => rfl
  | ordinary =>
    have h : m.queue.countP (fun a => decide (a.cls = .ordinary)) < 55 := ho.resolve_left (by rw [hcls]; decide)
    rw [List.countP_eq_length_filter] at h
    exact decide_eq_true h

/-- The first access of the client among those held. -/
theorem heldPlace_first {m : MemEngine} {cl : Client} {k : Nat} (hk : m.held[k]? = some a)
    (ha : sameClient a.client cl = true) (h : ∀ b ∈ m.held.take k, sameClient b.client cl = false) :
    m.heldPlace cl = some k := by
  obtain ⟨hlt, hget⟩ := List.getElem?_eq_some_iff.1 hk
  unfold MemEngine.heldPlace
  rw [List.find?_range_eq_some]
  refine ⟨by rw [hk]; exact ha, List.mem_range.2 hlt, fun i hi => ?_⟩
  have hilt : i < m.held.length := hi.trans hlt
  have hmem : m.held[i] ∈ m.held.take k := List.mem_take_iff_getElem.2 ⟨i, lt_min hi hilt, rfl⟩
  rw [List.getElem?_eq_getElem hilt, Option.any_some, h _ hmem]
  rfl

/-- Settles O41: the access found is the one named, it has room, and `Part.enqueue` takes it. -/
theorem heldAccessesAreAdmitted : Obligations.HeldAccessesAreAdmitted := by
  intro cl k a s hrun hk ha hfirst hq ho p
  refine ends_event (r := (p.modMem fun m => { m with held := m.held.eraseIdx k }).enqueue a) rfl hrun ?_ ?_
    ⟨enqueue_mem, fun x => enqueue_readCtx x⟩
  · unfold Part.admitHeld
    simp only [heldPlace_first hk ha hfirst, hk]
    exact if_pos (room_of_places hq ho)
  · rw [(enqueue_changes _ a).ret]
    exact hrun

/-! ## Bursts handed by a read context (R76) -/

/-- A burst handed is outstanding or held. -/
theorem hand_readCtx (ha : a.client = .readCtx x) (hr : p.readCtx x = some r) :
    (∃ handed, handed + (p.hand a).mem.held.length = r.outstanding + 1 + p.mem.held.length
      ∧ (p.hand a).readCtx x = some { r with outstanding := handed })
    ∧ ∀ y, y ≠ x → (p.hand a).readCtx y = p.readCtx y := by
  unfold Part.hand
  split
  · refine ⟨⟨r.outstanding + 1, ?_, ?_⟩, fun y hy => ?_⟩
    · rw [enqueue_mem, memArbitrate_held]
    · rw [enqueue_readCtx, hr, ha, Option.map_some, if_pos rfl]
    · rw [enqueue_readCtx, ha]
      simp only [Client.readCtx.injEq, Ne.symm hy, if_false]
      exact Option.map_id'
  · refine ⟨⟨r.outstanding, ?_, hr⟩, fun y _ => rfl⟩
    rw [modMem_mem, List.length_append, List.length_singleton]
    omega

theorem handAll_readCtx : ∀ (as : List Access) {p : Part} {r : ReadCtx}, (∀ a ∈ as, a.client = .readCtx x) →
    p.readCtx x = some r →
    (∃ handed, handed + (p.handAll as).mem.held.length = r.outstanding + as.length + p.mem.held.length
      ∧ (p.handAll as).readCtx x = some { r with outstanding := handed })
    ∧ ∀ y, y ≠ x → (p.handAll as).readCtx y = p.readCtx y
  | [], _, r, _, hr => ⟨⟨r.outstanding, rfl, hr⟩, fun _ _ => rfl⟩
  | a :: as, p, r, ha, hr => by
    obtain ⟨⟨n, hn, hx⟩, hother⟩ := hand_readCtx (ha a List.mem_cons_self) hr
    obtain ⟨⟨m, hm, hx'⟩, hother'⟩ := handAll_readCtx as (fun b hb => ha b (List.mem_cons_of_mem _ hb)) hx
    refine ⟨⟨m, ?_, hx'⟩, fun y hy => (hother' y hy).trans (hother y hy)⟩
    change m + ((p.hand a).handAll as).mem.held.length = _
    rw [hm, List.length_cons]
    dsimp only
    omega

/-- The next frame of a read staged, `n` bytes long: they hold 00h (log 33), and its bursts are handed. -/
theorem stage_spec {n : Nat} (hr : p.readCtx x = some r) (hc : (p.journal r.journal).conf = some c)
    (hn : min 256 (r.start.toNat + r.length - r.nextPos.toNat) = n) :
    (p.stage x).mem = p.memAfter ((c.bursts r.nextPos.toNat n).map (readAccess (.readCtx x)))
    ∧ (∃ handed, handed + (p.stage x).mem.held.length
        = r.outstanding + (c.bursts r.nextPos.toNat n).length + p.mem.held.length
      ∧ (p.stage x).readCtx x = some
        { r with state := .fetching, staged := some ⟨r.nextPos, zeros n⟩, outstanding := handed })
    ∧ ∀ y, y ≠ x → (p.stage x).readCtx y = p.readCtx y := by
  have hstage : p.stage x = (p.setRead x (some { r with state := .fetching, staged := some ⟨r.nextPos, zeros n⟩ })).handAll
      ((c.bursts r.nextPos.toNat n).map (readAccess (.readCtx x))) := by
    subst hn
    unfold Part.stage
    simp only [hr, hc]
  have hclient : ∀ a ∈ (c.bursts r.nextPos.toNat n).map (readAccess (.readCtx x)), a.client = .readCtx x := fun a ha => by
    obtain ⟨b, _, rfl⟩ := List.mem_map.1 ha
    rfl
  obtain ⟨hself, hother⟩ := handAll_readCtx _ hclient
    (setRead_readCtx_self p x (some { r with state := .fetching, staged := some ⟨r.nextPos, zeros n⟩ }))
  rw [List.length_map] at hself
  rw [hstage]
  exact ⟨handAll_mem _ _, hself, fun y hy => (hother y hy).trans (setRead_readCtx_ne _ _ _ (Ne.symm hy))⟩

/-! ## A burst arrives (O24) -/

theorem byteAt_readBytes {m : List Host.Cell} {addr n k : Nat} (h : k < n) :
    byteAt (Memory.readBytes m addr n) k = Memory.read m (addr + k) := by
  unfold byteAt Memory.readBytes
  simp [h]

/-- The bytes of the staged frame that lie in the burst are those of DRAM (R76). -/
theorem fill_readBytes (c : Conf) (st : Staged) (m : List Host.Cell) (addr : Nat) :
    st.fill c addr (Memory.readBytes m addr Config.burstBytes)
      = { st with
          bytes := st.bytes.mapIdx fun k b =>
            if c.address (st.position.toNat + k) / 64 * 64 = addr then Memory.read m (c.address (st.position.toNat + k))
            else b } := by
  unfold Staged.fill
  congr 2
  funext k b
  have hburst : burstOf (c.address (st.position.toNat + k)) = c.address (st.position.toNat + k) / 64 * 64 := rfl
  dsimp only
  rw [hburst]
  split
  · next h =>
    rw [byteAt_readBytes (show _ < 64 by omega)]
    congr 1
    omega
  · rfl

theorem holdsBursts_eq_false : p.holdsBursts x = false ↔ ∀ h ∈ p.mem.held, h.client ≠ .readCtx x := by
  unfold Part.holdsBursts
  simp

theorem burstArrived_fetching (hr : p.readCtx x = some r) (hc : (p.journal r.journal).conf = some c)
    (hs : r.state = .fetching) (addr : Nat) (burst : List Byte) :
    p.burstArrived x addr burst = p.setRead x (some
      { r with
        outstanding := r.outstanding - 1
        staged := r.staged.map fun st => st.fill c addr burst
        state := if r.outstanding - 1 = 0 ∧ p.holdsBursts x = false then .holding else .fetching }) := by
  unfold Part.burstArrived
  simp only [hr, hs, hc]

theorem burstArrived_draining (hr : p.readCtx x = some r) (hs : r.state = .draining) (addr : Nat) (burst : List Byte) :
    p.burstArrived x addr burst
      = p.setRead x (if r.outstanding - 1 = 0 then none else some { r with outstanding := r.outstanding - 1 }) := by
  unfold Part.burstArrived
  simp only [hr, hs]

theorem burstArrived_ne (h : y ≠ x) (addr : Nat) (burst : List Byte) :
    (p.burstArrived x addr burst).readCtx y = p.readCtx y := by
  unfold Part.burstArrived
  split
  · rfl
  · dsimp only
    split
    · exact setRead_readCtx_ne _ _ _ (Ne.symm h)
    · exact setRead_readCtx_ne _ _ _ (Ne.symm h)
    · exact setRead_readCtx_ne _ _ _ (Ne.symm h)

/-- Settles O24, by the state of the context. -/
theorem readBurstsArrive : Obligations.ReadBurstsArrive := by
  intro x a s r c hcompletes hclient hr hc p filled
  have hcar := carryOut_changes p a
  have hr' : (p.carryOut a).readCtx x = some r := (hcar.readCtx x).trans hr
  have hc' : ((p.carryOut a).journal r.journal).conf = some c := (congrArg Journal.conf (hcar.journal _)).trans hc
  have hch := burstArrived_changes (p.carryOut a) x a.addr (Memory.readBytes p.dram a.addr Config.burstBytes)
  have hlast : r.outstanding - 1 = 0 ↔ r.outstanding ≤ 1 := by omega
  refine ends_complete (act := fun
    | .readCtx r => some fun addr bytes p => p.burstArrived r addr bytes
    | _ => none) rfl hcompletes (by rw [hclient]) ?_ ⟨hch.dram, fun y hy => ?_, fun hs => ?_, fun hs => ?_⟩
  · rw [hch.ret, hcar.ret]
    exact hcompletes.1
  · rw [burstArrived_ne hy, hcar.readCtx]
  · have hfill : (fun st : Staged => st.fill c a.addr (Memory.readBytes p.dram a.addr Config.burstBytes)) = filled :=
      funext fun st => fill_readBytes c st p.dram a.addr
    rw [burstArrived_fetching hr' hc' hs, setRead_readCtx_self, hfill]
    simp only [holdsBursts_eq_false, carryOut_held, hlast]
  · rw [burstArrived_draining hr' hs, setRead_readCtx_self]
    simp only [hlast]

end Sys2Proof.Machine
end

section
/-! READ (O23), and the delivery of what it reads (O25), with the head-advance check that follows a pin's removal. -/

namespace Sys2Proof.Machine

set_option Elab.async false

variable {p q : Part} {s : State} {i : Port} {j : JournalId} {x : ReadId} {r : Req} {c : Conf}

/-! ## A request that reaches its block -/

/-- An answer given at once to a request that the intake has just taken. -/
theorem answer_took {payload : List Byte} (ht : p.takes i payload) (a : Rsp) :
    (p.served i RequestLayer.took).answer i a = p.served i fun l => l.took.answered a :=
  answer_served a ht.2.2.2

/-- The tag of a request that has reached its block enters the tag table (R112). -/
theorem enterTag_took {payload : List Byte} {code : Byte} (ht : p.reachesBlock i code payload) :
    ((p.served i RequestLayer.took).enterTag i (Req.ofPayload payload).tag).req i
      = (p.req i).took.entered (Req.ofPayload payload).tag := by
  have htag : (Req.ofPayload payload).tag ∉ ((p.served i RequestLayer.took).req i).tags := by
    rw [served_req_self]
    exact ht.2.2.2.2.1
  rw [enterTag_new _ htag, modReq_req_self, served_req_self]

/-! ## The checks of READ (Table 4-2) -/

theorem portOfRead_eq : portOfRead x = i ↔ x.val / 2 = i.val := Fin.ext_iff

theorem freeRead_isNone : (p.freeRead i).isNone = true ↔ ¬∃ x : ReadId, x.val / 2 = i.val ∧ p.readCtx x = none := by
  unfold Part.freeRead
  simp [mem_allReads, portOfRead_eq]

theorem freeRead_some (h : p.freeRead i = some x) : x.val / 2 = i.val ∧ p.readCtx x = none := by
  have hx := List.find?_some h
  rw [Bool.and_eq_true, decide_eq_true_eq, Option.isNone_iff_eq_none, portOfRead_eq] at hx
  exact hx

theorem trimBar_eq_some {b : W64} : c.trimBar = some b ↔ ∃ t, c.trim = some t ∧ t.phase ≠ .checking ∧ t.target = b := by
  unfold Conf.trimBar
  cases c.trim with
  | none => simp
  | some t => by_cases h : t.phase = .checking <;> simp [h]

theorem readCheck_badRequest (h : ¬(1 ≤ r.readLength ∧ r.readLength ≤ 4096)) :
    p.readCheck i r c = some (r.rsp .badRequest .none) := by
  have hlen : r.readLength = 0 ∨ 4096 < r.readLength := by omega
  exact if_pos hlen

/-- No read is taken while a FORMAT is pending, and none without a FREE context. -/
theorem readCheck_busy (h : 1 ≤ r.readLength ∧ r.readLength ≤ 4096)
    (hb : p.formatPending = true ∨ ¬∃ x : ReadId, x.val / 2 = i.val ∧ p.readCtx x = none) :
    p.readCheck i r c = some (r.rsp .busy .none) := by
  have hlen : ¬(r.readLength = 0 ∨ 4096 < r.readLength) := by omega
  unfold Part.readCheck
  rw [if_neg hlen]
  split
  · rfl
  · next hf => exact if_pos (freeRead_isNone.2 (hb.resolve_left hf))

section
variable (hlen : 1 ≤ r.readLength ∧ r.readLength ≤ 4096) (hf : p.formatPending = false)
  (hx : ∃ x : ReadId, x.val / 2 = i.val ∧ p.readCtx x = none)
include hlen hf hx

theorem readCheck_belowHead (h : r.readPosition.toNat < c.head.toNat) :
    p.readCheck i r c = some (r.rsp .trimmed (.read 0 c.head)) := by
  have hsized : ¬(r.readLength = 0 ∨ 4096 < r.readLength) := by omega
  unfold Part.readCheck
  rw [if_neg hsized, if_neg (by rw [hf]; decide), if_neg fun hn => freeRead_isNone.1 hn hx, if_pos h]

/-- The checks of a position that head has not passed. -/
theorem readCheck_fromHead (h : c.head.toNat ≤ r.readPosition.toNat) :
    (∀ b, c.trimBar = some b → r.readPosition.toNat < b.toNat →
      p.readCheck i r c = some (r.rsp .trimmed (.read 0 b)))
    ∧ ((∀ b, c.trimBar = some b → ¬r.readPosition.toNat < b.toNat) →
      p.readCheck i r c =
        if c.durable.toNat ≤ r.readPosition.toNat then some { r.rsp .ok (.read 0 c.durable) with atFrontier := true }
        else none) := by
  have hsized : ¬(r.readLength = 0 ∨ 4096 < r.readLength) := by omega
  unfold Part.readCheck
  rw [if_neg hsized, if_neg (by rw [hf]; decide), if_neg fun hn => freeRead_isNone.1 hn hx, if_neg (Nat.not_lt.2 h)]
  cases c.trimBar with
  | none =>
    refine ⟨fun b hb => ?_, fun _ => rfl⟩
    cases hb
  | some t =>
    refine ⟨fun b hb hlt => ?_, fun hb => if_neg (hb t rfl)⟩
    obtain rfl : t = b := Option.some.inj hb
    exact if_pos hlt

end

/-! ## READ answered at once (R73, R74) -/

theorem readRequest_answered {a : Rsp} (hj : r.journal.toNat = j.val) (hc : (p.journal j).conf = some c)
    (h : p.readCheck i r c = some a) :
    p.readRequest i r = (p.answer i a).countRead fun n => n.answered a.status := by
  unfold Part.readRequest
  simp only [configured_some hj hc, h]

theorem readRequest_accepted (hj : r.journal.toNat = j.val) (hc : (p.journal j).conf = some c)
    (h : p.readCheck i r c = none) (hx : p.freeRead i = some x) : p.readRequest i r = p.acceptRead i r j c x := by
  unfold Part.readRequest
  simp only [configured_some hj hc, h, hx]

theorem read_answered {payload : List Byte} {a : Rsp} (hreach : s.part.reachesBlock i codeRead payload)
    (hj : (Req.ofPayload payload).journal.toNat = j.val) (hc : (s.part.journal j).conf = some c)
    (h : (s.part.served i RequestLayer.took).readCheck i (Req.ofPayload payload) c = some a) :
    Ends (.read i) s fun q =>
      q = { s.part.served i (fun l => l.took.answered a) with readCnt := s.part.readCnt.answered a.status } := by
  have hserve := readRequest_answered (p := s.part.served i RequestLayer.took) hj hc h
  rw [answer_took hreach.1] at hserve
  exact block_ends (serve := fun r p => p.readRequest i r) rfl hreach _ hserve hreach.1.1 rfl

/-! ## READ accepted (R75) -/

/-- The part once an accepted READ has pinned its position and taken its context, before its first frame is staged. -/
def Part.readTaken (p : Part) (i : Port) (r : Req) (j : JournalId) (c : Conf) (x : ReadId) : Part :=
  (((p.modConf j fun c => { c with pins := c.pins ++ [r.readPosition] }).setRead x
    (some (newRead r j c (p.req i).session.gen))).enterTag i r.tag).countRead
      fun n => { n with accepted := satInc n.accepted }

theorem acceptRead_eq : p.acceptRead i r j c x = (p.readTaken i r j c x).stage x := rfl

theorem readTaken_journal_self (hc : (p.journal j).conf = some c) :
    (p.readTaken i r j c x).journal j
      = { p.journal j with conf := some { c with pins := c.pins ++ [r.readPosition] } } := by
  refine (modConf_journal_self p j _).trans ?_
  rw [hc, Option.map_some]

theorem readTaken_journal_ne {k : JournalId} (h : k ≠ j) : (p.readTaken i r j c x).journal k = p.journal k :=
  modConf_journal_ne p j _ (Ne.symm h)

theorem readTaken_readCtx_self :
    (p.readTaken i r j c x).readCtx x = some (newRead r j c (p.req i).session.gen) := setRead_readCtx_self _ x _

theorem readTaken_readCtx_ne {y : ReadId} (h : y ≠ x) : (p.readTaken i r j c x).readCtx y = p.readCtx y :=
  setRead_readCtx_ne _ x _ (Ne.symm h)

theorem acceptRead_left (hc : (p.journal j).conf = some c) (x : ReadId) :
    let n := min r.readLength (c.durable.toNat - r.readPosition.toNat)
    let bursts := c.bursts r.readPosition.toNat (min 256 n)
    let q := p.acceptRead i r j c x
    q.mem = p.memAfter (bursts.map (readAccess (.readCtx x)))
    ∧ (∃ handed, handed + q.mem.held.length = bursts.length + p.mem.held.length
      ∧ q.readCtx x = some
        { state := .fetching, gen := (p.req i).session.gen, reqTag := r.tag, journal := j, start := r.readPosition
          length := n, frontierEnd := decide (r.readPosition.toNat + n = c.durable.toNat), nextPos := r.readPosition
          staged := some ⟨r.readPosition, zeros (min 256 n)⟩, outstanding := handed })
    ∧ (∀ y, y ≠ x → q.readCtx y = p.readCtx y)
    ∧ q.journal j = { p.journal j with conf := some { c with pins := c.pins ++ [r.readPosition] } }
    ∧ (∀ k, k ≠ j → q.journal k = p.journal k)
    ∧ q.req i = (p.enterTag i r.tag).req i ∧ q.link i = p.link i
    ∧ q.readCnt = { p.readCnt with accepted := satInc p.readCnt.accepted } := by
  intro n bursts
  rw [acceptRead_eq]
  have hframe : min 256 (r.readPosition.toNat + n - r.readPosition.toNat) = min 256 n := by rw [Nat.add_sub_cancel_left]
  have hself := readTaken_journal_self (i := i) (r := r) (x := x) hc
  have hch := stage_changes (p.readTaken i r j c x) x
  obtain ⟨hmem, ⟨handed, hheld, hctx⟩, hctxs⟩ :=
    stage_spec readTaken_readCtx_self (congrArg Journal.conf hself) hframe
  refine ⟨hmem, ⟨handed, hheld.trans ?_, hctx⟩, fun y hy => (hctxs y hy).trans (readTaken_readCtx_ne hy),
    (hch.journal j).trans hself, fun k hk => (hch.journal k).trans (readTaken_journal_ne hk), hch.req i, hch.link i,
    hch.readCnt⟩
  exact congrArg (· + p.mem.held.length) (Nat.zero_add bursts.length)

/-- Settles O23, by what `readCheck` answers. -/
theorem readIsAnsweredOrAccepted : Obligations.ReadIsAnsweredOrAccepted := by
  intro i j s payload c hreach hj hc p r answered sized context barred
  have hbar : ∀ b, c.trimBar = some b → r.readPosition.toNat < b.toNat → ∃ t, barred t ∧ t.target = b := by
    intro b hb hlt
    obtain ⟨t, ht, hphase, rfl⟩ := trimBar_eq_some.1 hb
    exact ⟨t, ⟨ht, hphase, hlt⟩, rfl⟩
  refine ⟨fun h => ?_, fun h hb => ?_, fun h hf hx => ⟨fun hlow => ?_, fun hhead t hbarred => ?_,
    fun hhead hno hend => ?_, fun hhead hno hlt => ?_⟩⟩
  · exact read_answered hreach hj hc (readCheck_badRequest h)
  · exact read_answered hreach hj hc (readCheck_busy h hb)
  · exact read_answered hreach hj hc (readCheck_belowHead h hf hx hlow)
  · obtain ⟨ht, hphase, hpos⟩ := hbarred
    exact read_answered hreach hj hc
      ((readCheck_fromHead h hf hx hhead).1 _ (trimBar_eq_some.2 ⟨t, ht, hphase, rfl⟩) hpos)
  · refine read_answered hreach hj hc (((readCheck_fromHead h hf hx hhead).2 fun b hb hpos => ?_).trans (if_pos hend))
    exact (hbar b hb hpos).elim fun t ht => hno t ht.1
  · intro n bursts
    have hcheck : (p.served i RequestLayer.took).readCheck i r c = none :=
      ((readCheck_fromHead h hf hx hhead).2 fun b hb hpos => (hbar b hb hpos).elim fun t ht => hno t ht.1).trans
        (if_neg (Nat.not_le.2 hlt))
    obtain ⟨x, hfree⟩ : ∃ x, (p.served i RequestLayer.took).freeRead i = some x :=
      Option.ne_none_iff_exists'.1 fun hn => freeRead_isNone.1 (Option.isNone_iff_eq_none.2 hn) hx
    obtain ⟨hport, hnone⟩ := freeRead_some hfree
    have hserve := readRequest_accepted (p := p.served i RequestLayer.took) hj hc hcheck hfree
    obtain ⟨hmem, ⟨handed, hheld, hctx⟩, hctxs, hself, hother, hreq, hlink, hcnt⟩ :=
      acceptRead_left (p := p.served i RequestLayer.took) (i := i) (r := r) hc x
    rw [served_took_session] at hctx
    refine block_ends (serve := fun r p => p.readRequest i r) rfl hreach _ hserve ?_
      ⟨⟨x, handed, hport, hnone, hctx, hheld, hmem, hctxs⟩, hself, hother, hreq.trans (enterTag_took hreach), ?_, hcnt⟩
    · rw [(acceptRead_changes _ i r j c x).ret]
      exact hreach.1.1
    · rw [hlink, served_link_self]

/-! ## Frames queued (R77) -/

theorem queueResp_room {f : RespFrame} (h : (p.req i).respQ.length < 32) :
    p.queueResp i f = p.modReq i fun l => { l with respQ := l.respQ ++ [f] } := if_pos (decide_eq_true h)

section
variable {r : ReadCtx} {st : Staged}

/-- The part once a HOLDING context's frame has been queued, the context being `y` (R77, R89). -/
def Part.frameQueued (p : Part) (i : Port) (x : ReadId) (r : ReadCtx) (st : Staged) (y : ReadCtx) : Part :=
  ((p.modReq i fun l => { l with respQ := l.respQ ++ [.rdata r.reqTag st.position st.bytes] }).countRead
    fun n => { n with bytes := satAdd n.bytes st.bytes.length }).setRead x (some y)

/-- A HOLDING context's frame takes a free place, and the next frame is staged while the read's end is not reached. -/
theorem queueFrame_holding (hport : x.val / 2 = i.val) (hr : p.readCtx x = some r) (hs : r.state = .holding)
    (hst : r.staged = some st) (hroom : (p.req i).respQ.length < 32) :
    p.queueFrame x =
      let next := r.nextPos + BitVec.ofNat 64 st.bytes.length
      if next.toNat < r.start.toNat + r.length then
        some ((p.frameQueued i x r st { r with nextPos := next, staged := none, state := .fetching }).stage x)
      else some (p.frameQueued i x r st { r with nextPos := next, staged := none, state := .closing }) := by
  have hfree : p.respRoom i = true := decide_eq_true hroom
  unfold Part.queueFrame
  simp only [hr, hs, hst, portOfRead_eq.2 hport, hfree, if_true, queueResp_room hroom]
  rfl

theorem stagedFramesAreQueued : Rules.StagedFramesAreQueued := by
  intro x i s r st c hrun hport hr hs hst hc hroom p next left bursts
  have hqueue := queueFrame_holding hport hr hs hst hroom
  have hreq : ∀ y, (p.frameQueued i x r st y).req i
      = { p.req i with respQ := (p.req i).respQ ++ [.rdata r.reqTag st.position st.bytes] } := fun y =>
    modReq_req_self p i fun l => { l with respQ := l.respQ ++ [.rdata r.reqTag st.position st.bytes] }
  have hctx : ∀ y, (p.frameQueued i x r st y).readCtx x = some y := fun y => setRead_readCtx_self _ x _
  have hctxs : ∀ y z, z ≠ x → (p.frameQueued i x r st y).readCtx z = p.readCtx z := fun y z hz =>
    setRead_readCtx_ne _ x _ (Ne.symm hz)
  by_cases hmore : next.toNat < r.start.toNat + r.length
  · have hleft : 1 ≤ left := Nat.sub_pos_of_lt hmore
    have hch := stage_changes (p.frameQueued i x r st { r with nextPos := next, staged := none, state := .fetching }) x
    obtain ⟨hm, ⟨handed, hh, hx⟩, hy⟩ := stage_spec (hctx { r with nextPos := next, staged := none, state := .fetching }) hc rfl
    refine ends_event rfl hrun (hqueue.trans (if_pos hmore)) (hch.ret ▸ hrun)
      ⟨(hch.req i).trans (hreq _), hch.readCnt, fun z hz => (hy z hz).trans (hctxs _ z hz), hch.journals,
        fun _ => ⟨hm, handed, hh, hx⟩, fun h0 => ?_⟩
    omega
  · have hleft : left = 0 := Nat.sub_eq_zero_of_le (Nat.not_lt.1 hmore)
    refine ends_event rfl hrun (hqueue.trans (if_neg hmore)) hrun
      ⟨hreq _, rfl, fun z hz => hctxs _ z hz, rfl, fun h1 => ?_, fun _ => ⟨rfl, hctx _⟩⟩
    omega

end

/-! ## The head-advance check (R85) -/

theorem headAdvance_stands (hc : (p.journal j).conf = some c) (h : ∀ t, ¬c.headMoves t) : p.headAdvance j = p := by
  unfold Part.headAdvance
  simp only [hc]
  cases ht : c.trim with
  | none => rfl
  | some t =>
    refine if_neg fun ⟨hphase, hpins⟩ => h t ⟨ht, hphase, fun x hx => ?_⟩
    exact of_decide_eq_true (List.all_eq_true.1 hpins x hx)

/-- The check of an entry whose configuration has just been changed. -/
theorem modConf_headAdvance_checked (hc : (p.journal j).conf = some c) (f : Conf → Conf) :
    p.headChecked ((p.modConf j f).headAdvance j) j (f c) := by
  have hself : (p.modConf j f).journal j = { p.journal j with conf := some (f c) } := by
    rw [modConf_journal_self, hc, Option.map_some]
  have hother : ∀ k, k ≠ j → (p.modConf j f).journal k = p.journal k := fun k hk =>
    modConf_journal_ne p j f (Ne.symm hk)
  have hconf : ((p.modConf j f).journal j).conf = some (f c) := congrArg Journal.conf hself
  by_cases hm : ∃ t, (f c).headMoves t
  · obtain ⟨t, ht⟩ := hm
    obtain ⟨hj, hk, hcnt⟩ := headAdvance_moves hconf ht
    refine ⟨fun t' ht' => ?_, fun hn => absurd ht (hn t), fun k h => (hk k h).trans (hother k h)⟩
    obtain rfl : t = t' := Option.some.inj (ht.1.symm.trans ht'.1)
    exact ⟨hj.trans (by rw [hself]; rfl), congrArg ReadCounters.trims hcnt⟩
  · have hstands := headAdvance_stands hconf fun t ht => hm ⟨t, ht⟩
    rw [hstands]
    exact ⟨fun t ht => absurd ⟨t, ht⟩ hm, fun _ => ⟨hself, rfl⟩, hother⟩

/-- The check compares with the journal table and the read counters of the part before it. -/
theorem headChecked_congr {p' : Part} (hj : ∀ k, p'.journal k = p.journal k) (hr : p'.readCnt = p.readCnt)
    (h : p'.headChecked q j c) : p.headChecked q j c := by
  unfold Part.headChecked at h ⊢
  simp only [hj, hr] at h
  exact h

/-! ## The read's response (R78) -/

theorem queueReadResponse_closing {r : ReadCtx} (hport : x.val / 2 = i.val) (hr : p.readCtx x = some r)
    (hs : r.state = .closing) (hroom : (p.req i).respQ.length < 32) :
    p.queueReadResponse x = some (((p.queueDeferred i r.response).setRead x none).removePin r.journal r.start) := by
  have hfree : p.respRoom i = true := decide_eq_true hroom
  unfold Part.queueReadResponse
  simp only [hr, portOfRead_eq.2 hport]
  exact if_pos ⟨hs, hfree⟩

theorem readsAreAnswered : Rules.ReadsAreAnswered := by
  intro x i s r c hrun hport hr hs hc hroom p answer
  have hq := (queueDeferred_changes p i r.response).trans (setRead_changes _ x none)
  have hpin := removePin_changes ((p.queueDeferred i r.response).setRead x none) r.journal r.start
  refine ends_event rfl hrun (queueReadResponse_closing hport hr hs hroom) ?_ ⟨?_, ?_, fun y hy => ?_, ?_⟩
  · rw [hpin.ret, hq.ret]
    exact hrun
  · rw [hpin.req, setRead_req, queueDeferred_req _ hroom]
    rfl
  · rw [hpin.readCtx, setRead_readCtx_self]
  · rw [hpin.readCtx, setRead_readCtx_ne _ x _ (Ne.symm hy), (queueDeferred_changes p i r.response).readCtx]
  · have hc' : (((p.queueDeferred i r.response).setRead x none).journal r.journal).conf = some c :=
      (congrArg Journal.conf (hq.journal _)).trans hc
    exact headChecked_congr hq.journal hq.readCnt
      (modConf_headAdvance_checked hc' fun c => { c with pins := c.pins.erase r.start })

/-- Settles O25. -/
theorem readsAreDelivered : Obligations.ReadsAreDelivered := ⟨stagedFramesAreQueued, readsAreAnswered⟩

end Sys2Proof.Machine
end

section
/-! TRIM (O26), and the check of its target in DRAM (O27). -/

namespace Sys2Proof.Machine

set_option Elab.async false

variable {p : Part} {s : State} {i : Port} {j : JournalId} {r : Req} {c : Conf} {t : PendingTrim}

/-! ## The checks of TRIM (Table 4-3) -/

section
variable {epoch : W32} {sid : SessionId}

theorem trimRequestCheck_fenced (h : c.fencedFor sid = true) : trimRequestCheck c epoch r sid = some .fenced := if_pos h

theorem trimRequestCheck_notOwner (hf : c.fencedFor sid = false) (h : c.ownedBy sid = false) :
    trimRequestCheck c epoch r sid = some .notOwner := by
  unfold trimRequestCheck
  rw [hf, if_neg (by decide), if_pos h]

/-- The checks of the owner's TRIM. -/
theorem trimRequestCheck_owner {tag : W32} (h : c.own = .owned sid tag) :
    trimRequestCheck c epoch r sid =
      if r.epoch ≠ epoch then some .staleEpoch
      else if c.trim.isSome = true then some .busy
      else if r.trimPosition.toNat < c.head.toNat ∨ c.durable.toNat < r.trimPosition.toNat
        ∨ r.trimPosition.toNat % 32 ≠ 0 then some .badPosition
      else if r.trimPosition = c.head then some .ok
      else none := by
  unfold trimRequestCheck
  rw [fencedFor_of_ownedBy h, if_neg (by decide), ownedBy_iff.2 ⟨tag, h⟩, if_neg (by decide)]

/-- The checks of the position, while the journal has no pending trim. -/
theorem trimRequestCheck_position {tag : W32} (h : c.own = .owned sid tag) (he : r.epoch = epoch) (ht : c.trim = none) :
    trimRequestCheck c epoch r sid =
      if r.trimPosition.toNat < c.head.toNat ∨ c.durable.toNat < r.trimPosition.toNat
        ∨ r.trimPosition.toNat % 32 ≠ 0 then some .badPosition
      else if r.trimPosition = c.head then some .ok
      else none := by
  rw [trimRequestCheck_owner h, if_neg (not_not.2 he), ht]
  rfl

end

/-! ## TRIM answered at once (R82, R83) -/

theorem trimRequest_answered {st : Status} (hj : r.journal.toNat = j.val) (hc : (p.journal j).conf = some c)
    (h : trimRequestCheck c (p.journal j).epoch r (p.sessionOf i) = some st) :
    p.trimRequest i r = p.answer i (r.rsp st (.trim (p.journal j).epoch c.head)) := by
  unfold Part.trimRequest
  simp only [configured_some hj hc, h]

theorem trimRequest_accepted (hj : r.journal.toNat = j.val) (hc : (p.journal j).conf = some c)
    (h : trimRequestCheck c (p.journal j).epoch r (p.sessionOf i) = none) :
    p.trimRequest i r = p.acceptTrim i r j c := by
  unfold Part.trimRequest
  simp only [configured_some hj hc, h]

theorem trim_answered {payload : List Byte} {st : Status} (hreach : s.part.reachesBlock i codeTrim payload)
    (hj : (Req.ofPayload payload).journal.toNat = j.val) (hc : (s.part.journal j).conf = some c)
    (h : trimRequestCheck c (s.part.journal j).epoch (Req.ofPayload payload) ⟨i, (s.part.req i).session.gen⟩ = some st) :
    Ends (.trim i) s fun q =>
      q = s.part.served i fun l =>
        l.took.answered ((Req.ofPayload payload).rsp st (.trim (s.part.journal j).epoch c.head)) := by
  rw [← served_took_sessionOf] at h
  have hserve := trimRequest_answered (p := s.part.served i RequestLayer.took) hj hc h
  rw [answer_took hreach.1] at hserve
  exact block_ends (serve := fun r p => p.trimRequest i r) rfl hreach _ hserve hreach.1.1 rfl

/-! ## TRIM accepted (R84) -/

/-- The trim that a request to the session `sid` leaves pending. -/
def Req.pendingTrim (r : Req) (sid : SessionId) (phase : TrimPhase) : PendingTrim :=
  { target := r.trimPosition, session := sid, reqTag := r.tag, phase := phase }

theorem acceptTrim_atFrontier (h : r.trimPosition = c.durable) :
    p.acceptTrim i r j c =
      (((p.enterTag i r.tag).modConf j fun c => { c with trim := some (r.pendingTrim (p.sessionOf i) .held) }).headAdvance
        j) := by
  unfold Part.acceptTrim
  simp only [h, decide_true, if_true]
  rw [← h]
  rfl

theorem acceptTrim_checking (h : r.trimPosition ≠ c.durable) :
    p.acceptTrim i r j c =
      (((p.enterTag i r.tag).modConf j fun c =>
        { c with trim := some (r.pendingTrim (p.sessionOf i) .checking) }).hand
          (readAccess (.trim j) (c.address r.trimPosition.toNat))) := by
  unfold Part.acceptTrim
  simp only [h, decide_false, Bool.false_eq_true, if_false]
  rfl

theorem acceptTrim_req : (p.acceptTrim i r j c).req i = (p.enterTag i r.tag).req i := by
  by_cases h : r.trimPosition = c.durable
  · rw [acceptTrim_atFrontier h, (headAdvance_changes _ j).req]
    rfl
  · rw [acceptTrim_checking h, (hand_noRead_changes _ rfl).req]
    rfl

/-- A trim to the durable frontier is HELD, and the head-advance check follows (R85). -/
theorem acceptTrim_held (hc : (p.journal j).conf = some c) (h : r.trimPosition = c.durable) :
    p.headChecked (p.acceptTrim i r j c) j { c with trim := some (r.pendingTrim (p.sessionOf i) .held) }
    ∧ (p.acceptTrim i r j c).mem = p.mem := by
  rw [acceptTrim_atFrontier h]
  exact ⟨headChecked_congr (fun _ => rfl) rfl
    (modConf_headAdvance_checked (p := p.enterTag i r.tag) hc fun c =>
      { c with trim := some (r.pendingTrim (p.sessionOf i) .held) }), (headAdvance_changes _ j).mem⟩

/-- A trim to another position is CHECKING, and the read of its header is handed. -/
theorem acceptTrim_handed (hc : (p.journal j).conf = some c) (h : r.trimPosition ≠ c.durable) :
    let q := p.acceptTrim i r j c
    q.journal j = { p.journal j with conf := some { c with trim := some (r.pendingTrim (p.sessionOf i) .checking) } }
    ∧ (∀ k, k ≠ j → q.journal k = p.journal k) ∧ q.readCnt = p.readCnt
    ∧ q.mem = p.memAfter [readAccess (.trim j) (c.address r.trimPosition.toNat)] := by
  intro q
  have hq : q = _ := acceptTrim_checking h
  have hself := modConf_journal_self (p.enterTag i r.tag) j fun c =>
    { c with trim := some (r.pendingTrim (p.sessionOf i) .checking) }
  rw [(enterTag_changes p i r.tag).journal, hc, Option.map_some] at hself
  have hch := hand_noRead_changes ((p.enterTag i r.tag).modConf j fun c =>
    { c with trim := some (r.pendingTrim (p.sessionOf i) .checking) })
    (a := readAccess (.trim j) (c.address r.trimPosition.toNat)) rfl
  rw [hq]
  exact ⟨(hch.journal j).trans hself, fun k hk => (hch.journal k).trans (modConf_journal_ne _ j _ (Ne.symm hk)),
    hch.readCnt, hand_mem _ _⟩

/-- Settles O26, by what `trimRequestCheck` answers, and by the phase of an accepted trim. -/
theorem trimIsAnsweredOrAccepted : Obligations.TrimIsAnsweredOrAccepted := by
  intro i j s payload c hreach hj hc p r sid answered placed
  have hsid : (p.served i RequestLayer.took).sessionOf i = sid := served_took_sessionOf
  have hplaced : placed ↔ ¬(r.trimPosition.toNat < c.head.toNat ∨ c.durable.toNat < r.trimPosition.toNat
      ∨ r.trimPosition.toNat % 32 ≠ 0) := by
    rw [not_or, not_or, not_lt, not_lt, not_not]
  refine ⟨fun t cl ho => ?_, fun hf ho => ?_, fun t ho => ⟨fun he => ?_, fun he hbusy => ?_, fun he htrim =>
    ⟨fun hpos => ?_, fun hpos hhead => ?_, fun hpos hhead => ?_⟩⟩⟩
  · exact trim_answered hreach hj hc (trimRequestCheck_fenced (fencedFor_iff.2 ⟨t, cl, ho⟩))
  · refine trim_answered hreach hj hc (trimRequestCheck_notOwner ?_ ?_)
    · exact Bool.eq_false_iff.2 fun h => (fencedFor_iff.1 h).elim fun t ⟨cl, h⟩ => hf t cl h
    · exact Bool.eq_false_iff.2 fun h => (ownedBy_iff.1 h).elim ho
  · exact trim_answered hreach hj hc ((trimRequestCheck_owner ho).trans (if_pos he))
  · exact trim_answered hreach hj hc ((trimRequestCheck_owner ho).trans
      ((if_neg (not_not.2 he)).trans (if_pos (Option.isSome_iff_ne_none.2 hbusy))))
  · exact trim_answered hreach hj hc
      ((trimRequestCheck_position ho he htrim).trans (if_pos (not_not.1 (mt hplaced.2 hpos))))
  · exact trim_answered hreach hj hc
      ((trimRequestCheck_position ho he htrim).trans ((if_neg (hplaced.1 hpos)).trans (if_pos hhead)))
  · have hcheck : trimRequestCheck c (p.journal j).epoch r ((p.served i RequestLayer.took).sessionOf i) = none := by
      rw [hsid]
      exact (trimRequestCheck_position ho he htrim).trans ((if_neg (hplaced.1 hpos)).trans (if_neg hhead))
    have hserve := trimRequest_accepted (p := p.served i RequestLayer.took) hj hc hcheck
    have hch := acceptTrim_changes (p.served i RequestLayer.took) i r j c
    refine block_ends (serve := fun r p => p.trimRequest i r) rfl hreach _ hserve (by rw [hch.ret]; exact hreach.1.1)
      ⟨acceptTrim_req.trans (enterTag_took hreach), (hch.link i).trans (served_link_self p i _), fun hfront => ?_,
        fun hfront => ?_⟩
    · have hheld := acceptTrim_held (p := p.served i RequestLayer.took) (i := i) hc hfront
      rw [hsid] at hheld
      exact ⟨headChecked_congr (fun _ => rfl) rfl hheld.1, hheld.2⟩
    · have hhanded := acceptTrim_handed (p := p.served i RequestLayer.took) (i := i) hc hfront
      rw [hsid] at hhanded
      exact hhanded

/-! ## The target's header (R84) -/

theorem readBytes_length (m : List Host.Cell) (addr n : Nat) : (Memory.readBytes m addr n).length = n := by
  unfold Memory.readBytes
  rw [List.length_map, List.length_range]

/-- Bytes out of those read from an address. -/
theorem readBytes_drop_take (m : List Host.Cell) (addr : Nat) {n k l : Nat} (h : k + l ≤ n) :
    ((Memory.readBytes m addr n).drop k).take l = Memory.readBytes m (addr + k) l := by
  refine List.ext_getElem (by simp [readBytes_length]; omega) fun i hi hi' => ?_
  simp [Memory.readBytes, Nat.add_assoc]

/-- An aligned header lies within its burst. -/
theorem headerAt_readBytes {m : List Host.Cell} {addr : Nat} (ha : addr = c.address t.target.toNat / 64 * 64)
    (h32 : c.address t.target.toNat % 32 = 0) :
    c.headerAt t.target (Memory.readBytes m addr Config.burstBytes) = Memory.readBytes m (c.address t.target.toNat) 32 := by
  have hfits : c.address t.target.toNat % 64 + 32 ≤ 64 := by omega
  have haddr : addr + c.address t.target.toNat % 64 = c.address t.target.toNat := by omega
  exact (readBytes_drop_take m addr hfits).trans (congrArg (Memory.readBytes m · 32) haddr)

/-- A record boundary: CRC-16, kind and position of the header there agree (R9). -/
theorem isBoundary_iff {header : List Byte} {target : W64} (h : header.length = 32) :
    isBoundary header target = true ↔
      leNat (header.drop 30) = (crc16 (header.take 30)).toNat
      ∧ (byteAt header 0 = 1 ∨ byteAt header 0 = 2 ∨ byteAt header 0 = 3) ∧ field header 16 8 = target.toNat := by
  have hlast : (header.drop 30).take 2 = header.drop 30 := List.take_of_length_le (by rw [List.length_drop, h])
  unfold isBoundary
  rw [hlast, Bool.and_eq_true, Bool.and_eq_true, decide_eq_true_eq, decide_eq_true_eq, decide_eq_true_eq, and_assoc,
    List.mem_cons, List.mem_cons, List.mem_singleton]
  rfl

/-! ## TRIM_CHECK_COMPLETE -/

section
variable {burst : List Byte} (hc : (p.journal j).conf = some c) (ht : c.trim = some t) (hphase : t.phase = .checking)
include hc ht hphase

theorem trimChecked_boundary (h : isBoundary (c.headerAt t.target burst) t.target = true) :
    p.trimChecked j burst = (p.modConf j fun c => { c with trim := some { t with phase := .held } }).headAdvance j := by
  unfold Part.trimChecked
  simp only [hc, ht]
  rw [if_neg (not_not.2 hphase), if_pos h]

theorem trimChecked_noBoundary (h : ¬isBoundary (c.headerAt t.target burst) t.target = true) :
    p.trimChecked j burst =
      ((p.modConf j fun c => { c with trim := none }).countRead fun n =>
        { n with notABoundary := satInc n.notABoundary }).releaseAnswer t.session
          { code := codeTrim, tag := t.reqTag, status := .notABoundary, values := .trim (p.journal j).epoch c.head } := by
  unfold Part.trimChecked
  simp only [hc, ht]
  rw [if_neg (not_not.2 hphase), if_neg h]

end

/-- The release of an answer compares with the request layers and the waiting responses of the part before it. -/
theorem releasedTo_congr {p' q : Part} {sid : SessionId} {answer : Rsp} (hr : ∀ k, p'.req k = p.req k)
    (hw : ∀ k, p'.waits k = p.waits k) (h : p'.releasedTo q sid answer) : p.releasedTo q sid answer := by
  unfold Part.releasedTo at h ⊢
  simp only [hr, hw] at h
  exact h

/-- Settles O27, by whether the header makes the target a record boundary. -/
theorem trimTargetsAreVerified : Obligations.TrimTargetsAreVerified := by
  intro j a s c t hcompletes hclient hkind hc ht hphase haddr h32 p header boundary
  have hcar := carryOut_changes p a
  have hc' : ((p.carryOut a).journal j).conf = some c := (congrArg Journal.conf (hcar.journal j)).trans hc
  have hstore : (p.carryOut a).dram = p.dram := by
    change a.store p.dram = p.dram
    unfold Access.store
    rw [hkind]
  have hboundary : isBoundary (c.headerAt t.target (Memory.readBytes p.dram a.addr Config.burstBytes)) t.target = true
      ↔ boundary := by
    rw [headerAt_readBytes haddr h32]
    exact isBoundary_iff (readBytes_length _ _ _)
  have hch := trimChecked_changes (p.carryOut a) j (Memory.readBytes p.dram a.addr Config.burstBytes)
  refine ends_complete (act := fun
    | .trim j => some fun _ bytes p => p.trimChecked j bytes
    | _ => none) rfl hcompletes (by rw [hclient]) ?_ ⟨hch.dram.trans hstore, fun hb => ?_, fun hb => ?_⟩
  · rw [hch.ret, hcar.ret]
    exact hcompletes.1
  · rw [trimChecked_boundary hc' ht hphase (hboundary.2 hb)]
    have hadv := (modConf_changes (p.carryOut a) j fun c => { c with trim := some { t with phase := .held } }).trans
      (headAdvance_changes _ j)
    exact ⟨headChecked_congr hcar.journal hcar.readCnt
      (modConf_headAdvance_checked hc' fun c => { c with trim := some { t with phase := .held } }), hadv.reqs, hadv.waiting⟩
  · rw [trimChecked_noBoundary hc' ht hphase (mt hboundary.1 hb)]
    generalize hp1 : (((p.carryOut a).modConf j fun c => { c with trim := none }).countRead fun n =>
      { n with notABoundary := satInc n.notABoundary }) = p1
    have hsame : Part.Changes [.mem, .dram, .journals, .readCnt] p p1 := by
      rw [← hp1]
      exact (hcar.trans ((modConf_changes _ j _).trans (countRead_changes _ _))).mono
    have hself : p1.journal j = { p.journal j with conf := some { c with trim := none } } := by
      rw [← hp1, countRead_journal, modConf_journal_self, hc', Option.map_some, hcar.journal]
    have hcnt : p1.readCnt = { p.readCnt with notABoundary := satInc p.readCnt.notABoundary } := by rw [← hp1]; rfl
    have hrelease := releaseAnswer_releasedTo p1 t.session
      { code := codeTrim, tag := t.reqTag, status := .notABoundary, values := .trim ((p.carryOut a).journal j).epoch c.head }
    rw [hcar.journal] at hrelease
    rw [hcar.journal]
    refine ⟨?_, ?_, releasedTo_congr hsame.req hsame.waits hrelease⟩
    · rw [(releaseAnswer_changes _ _ _).journal, hself]
    · rw [(releaseAnswer_changes _ _ _).readCnt, hcnt]

end Sys2Proof.Machine
end

section
/-! SUBSCRIBE and UNSUBSCRIBE (O14). -/

namespace Sys2Proof.Machine

variable {p : Part} {s : State} {i k : Port} {j : JournalId} {r : Req} {c : Conf}

theorem mem_addPort {subs : List Port} : k ∈ addPort i subs ↔ k = i ∨ k ∈ subs := by
  unfold addPort
  simp [mem_allPorts]

section
variable (hj : r.journal.toNat = j.val) (hc : (p.journal j).conf = some c)
include hj hc

theorem subscribe_pending (hf : p.formatPending = true) : p.subscribe i r = p.answer i (r.rsp .busy .none) := by
  unfold Part.subscribe
  rw [configured_some hj hc]
  exact if_pos hf

theorem subscribe_joins (hf : p.formatPending = false) :
    p.subscribe i r = (p.modConf j fun c => { c with subs := addPort i c.subs }).answer i
      (r.rsp .ok (.subscribe c.state c.ownerTag (p.journal j).epoch (c.durableSeq - 1) c.durable)) := by
  unfold Part.subscribe
  rw [configured_some hj hc]
  exact if_neg (ne_true_of_eq_false hf)

theorem unsubscribe_leaves :
    p.unsubscribe i r = (p.modConf j fun c => { c with subs := c.subs.filter fun k => decide (k ≠ i) }).answer i
      (r.rsp .ok .none) := by
  unfold Part.unsubscribe
  rw [configured_some hj hc]

end

/-- A request that changes a journal's subscriber set and is answered at once leaves nothing due. -/
theorem subscribers_run {cmd : Instr} {payload : List Byte} {code : Byte} {serve : Req → Part → Part}
    {f : List Port → List Port} {a : Rsp}
    (hexec : exec cmd s = .next (s.onPart fun p => p.intake i (isRequest code) fun r p => p.checked i r (serve r p)))
    (hq : s.part.quiet = true) (hreach : s.part.reachesBlock i code payload) (hc : (s.part.journal j).conf = some c)
    (hs : serve (Req.ofPayload payload) (s.part.served i RequestLayer.took)
      = ((s.part.served i RequestLayer.took).modConf j fun c => { c with subs := f c.subs }).answer i a) :
    Runs cmd s fun q =>
      q = (s.part.modConf j fun c' => { c' with subs := f c.subs }).served i fun l => l.took.answered a := by
  have hrun := hreach.1.1
  rw [modConf_served, modConf_congr (g := fun c' => { c' with subs := f c.subs }) hc rfl,
    answer_served a (by rw [took_respQ]; exact hreach.1.2.2.2)] at hs
  exact block_run hexec hreach _ hs hrun (react_modConf_served hq hrun (fun _ => rfl) rfl)

/-- Settles O14, by what each request's block answers. -/
theorem subscriptionsChange : Obligations.SubscriptionsChange := by
  intro i j s payload c hq hj hc p r
  refine ⟨fun hreach => ⟨fun hf => ?_, fun hf => ?_⟩, fun hreach => ?_⟩
  · exact block_answered (serve := fun r p => p.subscribe i r) rfl hq hreach (subscribe_pending hj hc hf)
  · obtain ⟨q, hstep, hq'⟩ := subscribers_run (cmd := .subscribe i) (serve := fun r p => p.subscribe i r)
      (f := addPort i) rfl hq hreach hc (subscribe_joins hj hc hf)
    exact ⟨q, hstep, _, hq', fun _ => mem_addPort⟩
  · obtain ⟨q, hstep, hq'⟩ := subscribers_run (cmd := .unsubscribe i) (serve := fun r p => p.unsubscribe i r)
      (f := List.filter fun k => decide (k ≠ i)) rfl hq hreach hc (unsubscribe_leaves hj hc)
    refine ⟨q, hstep, _, hq', fun k => ?_⟩
    rw [List.mem_filter, decide_eq_true_eq, and_comm]

end Sys2Proof.Machine
end

section
/-! TRANSMIT_SELECT (O36). -/

namespace Sys2Proof.Machine

variable {p : Part} {i : Port} {f : RespFrame} {rest : List RespFrame} {e : Ntf} {more : List Ntf}

/-! ## The selector's choice (R117) -/

theorem ready_of_up {u : LinkUnit} (hup : u.state = .up) (hreplay : u.replay = none) (hroom : u.replayBuf.length < 16)
    (hcredit : u.replayBuf.length < u.report) : u.ready = true := by
  unfold LinkUnit.ready LinkUnit.masterCredit
  rw [hup, hreplay, decide_eq_true hroom, decide_eq_true (Nat.sub_pos_of_lt hcredit)]
  rfl

theorem selects_responses (hready : (p.link i).ready = true) (hresp : (p.req i).respQ = f :: rest)
    (hturn : (p.ntf i).queue = [] ∨ (p.req i).prefers = .responses) : p.selects i = some .responses := by
  unfold Part.selects
  rw [if_pos hready, hresp]
  cases hntf : (p.ntf i).queue with
  | nil => rfl
  | cons e more =>
    rw [hntf] at hturn
    exact congrArg some (hturn.resolve_left (List.cons_ne_nil e more))

theorem selects_notifications (hready : (p.link i).ready = true) (hntf : (p.ntf i).queue = e :: more)
    (hturn : (p.req i).respQ = [] ∨ (p.req i).prefers = .notifications) : p.selects i = some .notifications := by
  unfold Part.selects
  rw [if_pos hready, hntf]
  cases hresp : (p.req i).respQ with
  | nil => rfl
  | cons f rest =>
    rw [hresp] at hturn
    exact congrArg some (hturn.resolve_left (List.cons_ne_nil f rest))

/-! ## The frame sent (R122, R132) -/

/-- The model's frame of UP is that of the statements. -/
theorem sendUp_eq (u : LinkUnit) (ftype : Byte) (seq : Seq) (payload : List Byte) :
    u.sendUp ftype seq payload = u.sent ftype seq payload := by
  unfold LinkUnit.sendUp LinkUnit.sent
  simp only [decide_eq_true_eq]

theorem accept_eq (u : LinkUnit) (t : TxType) (payload : List Byte) :
    u.accept t payload
      = ({ u with
          nextSeq := u.nextSeq + 1
          replayBuf := u.replayBuf ++ [⟨u.nextSeq, t, payload⟩]
          replayTimer := true } : LinkUnit).sent t.code u.nextSeq payload := sendUp_eq _ _ _ _

/-! ## The sources (R96, R97, R117) -/

theorem sendResponse_sends (hresp : (p.req i).respQ = f :: rest) :
    (p.sendResponse i).link i = (p.link i).accept f.ftype f.payload
      ∧ (p.sendResponse i).req i = { p.req i with respQ := rest, prefers := .notifications }
      ∧ (p.sendResponse i).ntf i = p.ntf i := by
  unfold Part.sendResponse
  rw [hresp]
  dsimp only
  rw [modLink_link_self, modReq_link, modLink_req, modReq_req_self]
  exact ⟨rfl, rfl, rfl⟩

/-- The queue that a departing notification leaves: a set overflow flag puts an OVERFLOW at its tail. -/
theorem takeNtf_ntf (hntf : (p.ntf i).queue = e :: more) :
    (p.takeNtf i).ntf i =
      { queue := if (p.ntf i).overflow then more ++ [.overflow (p.ntf i).drops] else more
        overflow := false
        drops := if (p.ntf i).overflow then 0 else (p.ntf i).drops
        modeRetained := (p.ntf i).modeRetained && !e.isMode } := by
  unfold Part.takeNtf
  rw [hntf]
  dsimp only
  split
  · rw [countNtf_ntf, modNtf_ntf_self]
  · next hflag => rw [modNtf_ntf_self, Bool.eq_false_iff.2 hflag]

theorem sendNotification_sends (hntf : (p.ntf i).queue = e :: more) :
    (p.sendNotification i).link i = (p.link i).accept .ntf e.bytes
      ∧ (p.sendNotification i).req i = { p.req i with prefers := .responses }
      ∧ (p.sendNotification i).ntf i = (p.takeNtf i).ntf i := by
  have htake := takeNtf_changes p i
  unfold Part.sendNotification
  rw [hntf]
  dsimp only
  rw [modLink_link_self, modReq_link, modLink_req, modReq_req_self, htake.link, htake.req]
  exact ⟨rfl, rfl, rfl⟩

/-- Settles O36: the selector's choice, and what each source leaves. -/
theorem selectorSends : Obligations.SelectorSends := by
  intro i s hrun p u r n held hup hreplay hroom hcredit
  have hready : (p.link i).ready = true := ready_of_up hup hreplay hroom hcredit
  refine ⟨fun f rest hresp hturn => ?_, fun e more hntf hturn => ?_⟩
  · obtain ⟨hlink, hreq, hqueue⟩ := sendResponse_sends hresp
    refine ends_event rfl hrun (congrArg (Option.map _) (selects_responses hready hresp hturn)) ?_
      ⟨hlink.trans (accept_eq _ _ _), hreq, hqueue⟩
    rw [(sendResponse_changes p i).ret]
    exact hrun
  · obtain ⟨hlink, hreq, hqueue⟩ := sendNotification_sends hntf
    refine ends_event rfl hrun (congrArg (Option.map _) (selects_notifications hready hntf hturn)) ?_
      ⟨hlink.trans (accept_eq _ _ _), hreq, hqueue.trans (takeNtf_ntf hntf)⟩
    rw [(sendNotification_changes p i).ret]
    exact hrun

end Sys2Proof.Machine
end

section
/-! Starts and stops of the main domain (O51). -/

namespace Sys2Proof.Machine

variable {p q q' : Part} {s : State} {c : Instr}

theorem mayStart_iff {r : Retention} :
    r.mayStart = true ↔ r.retentionPower = true ∧ r.mainPower = true ∧ r.rstHigh = true ∧ r.running = false := by
  unfold Retention.mayStart
  simp [and_assoc]

/-! ## The blocks of a start (R161) -/

/-- The blocks keep their start values while the retention controller and the memory engine act and attention causes are
raised. -/
theorem Part.startsFresh.changes {fs : List Part.Field} (h : p.startsFresh q) (hch : Part.Changes fs q q')
    (hm : q.maint.Raised q'.maint) (hfs : ∀ f ∈ fs, f ∈ [Part.Field.ret, .ctl, .mem, .maint] := by decide) :
    p.startsFresh q' := by
  replace hch := hch.mono hfs
  obtain ⟨-, hparams, hmask, hdeferred, hresponse, hspi⟩ := hm
  unfold Part.startsFresh at h ⊢
  rw [hch.links, hch.reqs, hch.ntfs, hch.ntfCnt, hch.journals, hch.header, hch.formatPending, hch.waiting, hch.slots,
    hch.appendCnt, hch.reads, hch.readCnt, hch.dram, hparams, hmask, hdeferred, hresponse, hspi]
  exact h

theorem setMode_raised (p : Part) (m : Mode) : p.maint.Raised (p.setMode m).maint := by
  unfold Part.setMode
  dsimp only
  split
  · exact raise_raised _ _
  · exact .refl _

/-- The part at a start, its blocks at their start values, before the start kind is known. -/
def Part.restarted (p : Part) : Part :=
  Part.fresh { p.ret with mode := .initializing, cause := none, running := true } p.dram p.mem.missCount

theorem restarted_startsFresh (p : Part) : p.startsFresh p.restarted :=
  ⟨rfl, rfl, rfl, rfl, rfl, rfl, rfl, rfl, rfl, rfl, rfl, rfl, rfl, rfl, rfl, rfl, rfl, rfl⟩

theorem startBlocks_warm (h : p.ret.flag = true) :
    p.startBlocks = (p.restarted.modRet fun r => { r with startKind := .warm }).setMode .restoring := if_pos h

theorem startBlocks_cold (h : p.ret.flag = false) :
    p.startBlocks = p.restarted.modRet fun r => { r with startKind := .cold } := if_neg (ne_true_of_eq_false h)

theorem startBlocks_startsFresh (p : Part) : p.startsFresh p.startBlocks := by
  have hfresh := restarted_startsFresh p
  cases hflag : p.ret.flag with
  | true =>
    rw [startBlocks_warm hflag]
    exact hfresh.changes ((modRet_changes _ _).trans (setMode_changes _ _))
      (setMode_raised (p.restarted.modRet _) .restoring)
  | false =>
    rw [startBlocks_cold hflag]
    exact hfresh.changes (modRet_changes _ _) (.refl _)

theorem startBlocks_mem (p : Part) : p.startBlocks.mem = MemEngine.stopped p.ret.selfRefresh p.mem.missCount := by
  cases hflag : p.ret.flag with
  | true =>
    rw [startBlocks_warm hflag]
    exact (setMode_changes _ _).mem
  | false =>
    rw [startBlocks_cold hflag]
    rfl

theorem startBlocks_ret_warm (h : p.ret.flag = true) :
    p.startBlocks.ret = { p.ret with mode := .restoring, cause := none, startKind := .warm, running := true } := by
  rw [startBlocks_warm h, setMode_ret]
  rfl

theorem startBlocks_ret_cold (h : p.ret.flag = false) :
    p.startBlocks.ret = { p.ret with mode := .initializing, cause := none, startKind := .cold, running := true } := by
  rw [startBlocks_cold h]
  rfl

/-! ## The orders of a start -/

theorem giveExit_mem {kept : Bool} {n : Nat} (hk : kept = true) (h : p.mem = MemEngine.stopped kept n) :
    p.giveExit.mem = { MemEngine.stopped kept n with op := some .exit } := by
  subst hk
  unfold Part.giveExit
  rw [modMem_mem, h]
  rfl

theorem giveInitialise_mem {n : Nat} (h : p.mem = MemEngine.stopped false n) :
    p.giveInitialise.mem = { MemEngine.stopped false n with op := some .initialise } := by
  unfold Part.giveInitialise
  rw [modMem_mem, h]
  rfl

theorem beginCold_begins {kept : Bool} {n : Nat} (h : p.mem = MemEngine.stopped kept n) :
    p.beginCold.ctl.work = (if kept then .coldExit else .coldInit)
      ∧ p.beginCold.mem = { MemEngine.stopped kept n with op := some (if kept then .exit else .initialise) } := by
  unfold Part.beginCold
  cases kept with
  | true =>
    rw [if_pos (by rw [h]; rfl)]
    exact ⟨rfl, giveExit_mem rfl h⟩
  | false =>
    rw [if_neg (by rw [h]; exact DramCond.noConfusion)]
    exact ⟨rfl, giveInitialise_mem h⟩

theorem startHigh_warm (h : p.ret.flag = true) :
    p.startHigh = (p.startBlocks.modCtl fun c => { c with work := .restoreExit }).giveExit :=
  if_pos (by rw [startBlocks_ret_warm h]; exact h)

theorem startHigh_cold (h : p.ret.flag = false) : p.startHigh = p.startBlocks.beginCold :=
  if_neg (by rw [startBlocks_ret_cold h]; exact ne_true_of_eq_false h)

theorem startHigh_startsHigh (p : Part) : p.startsHigh p.startHigh p.ret := by
  have hfresh := startBlocks_startsFresh p
  have hmem := startBlocks_mem p
  refine ⟨?_, fun hflag hself => ?_, fun hflag => ?_⟩
  · cases hflag : p.ret.flag with
    | true =>
      rw [startHigh_warm hflag]
      exact hfresh.changes ((modCtl_changes _ _).trans (giveExit_changes _)) (.refl _)
    | false =>
      have hch := beginCold_changes p.startBlocks
      rw [startHigh_cold hflag]
      exact hfresh.changes hch (by rw [hch.maint]; exact .refl _)
  · rw [startHigh_warm hflag]
    exact ⟨startBlocks_ret_warm hflag, rfl, giveExit_mem hself hmem⟩
  · rw [startHigh_cold hflag]
    exact ⟨(beginCold_changes _).ret.trans (startBlocks_ret_cold hflag), beginCold_begins hmem⟩

/-- What a start of the main domain with PFAIL_N low leaves (R161, R173): `r` is the retention domain at the start. -/
def Part.startsLow (p q : Part) (r : Retention) : Prop :=
  p.startsFresh q
    ∧ q.ret =
      { r with
        mode := .retaining
        cause := none
        startKind := if r.flag then .warm else .cold
        running := false }
    ∧ q.mem = MemEngine.stopped r.selfRefresh p.mem.missCount

theorem retain_ret (p : Part) : p.retain.ret = { p.ret with mode := .retaining, running := false } := by
  unfold Part.retain
  rw [modRet_ret, setMode_ret]

theorem startLow_startsLow (p : Part) : p.startsLow p.startLow p.ret := by
  have hfresh := startBlocks_startsFresh p
  have hctl := (countRet_changes p.startBlocks fun c => { c with abandoned := satInc c.abandoned }).trans
    (modCtl_changes _ fun c => { c with abandoned := true })
  unfold Part.startLow
  generalize (p.startBlocks.countRet fun c => { c with abandoned := satInc c.abandoned }).modCtl
    (fun c => { c with abandoned := true }) = b at hctl
  refine ⟨(hfresh.changes hctl (by rw [hctl.maint]; exact .refl _)).changes (retain_changes b)
    (setMode_raised b .retaining), ?_, ?_⟩
  · rw [retain_ret, hctl.ret]
    obtain hflag | hflag := Bool.eq_false_or_eq_true p.ret.flag
    · rw [startBlocks_ret_warm hflag, if_pos hflag]
    · rw [startBlocks_ret_cold hflag, if_neg (ne_true_of_eq_false hflag)]
  · rw [(retain_changes b).mem, hctl.mem, startBlocks_mem]

/-- A command that starts the main domain, `r` being the retention domain as the command has changed it. -/
theorem runs_start {f : Part → Part} {r : Retention} (hexec : exec c s = .next (s.onPart f))
    (hf : f s.part = ({ s.part with ret := r } : Part).start) :
    (r.pfailHigh = true → Runs c s fun q => s.part.startsHigh q r)
      ∧ (r.pfailHigh = false → Runs c s fun q => s.part.startsLow q r) := by
  refine ⟨fun hhigh => runs_next hexec hf ?_, fun hlow => runs_next hexec hf ?_⟩
  · have hstart : ({ s.part with ret := r } : Part).start = ({ s.part with ret := r } : Part).startHigh := if_pos hhigh
    rw [hstart]
    exact startHigh_startsHigh { s.part with ret := r }
  · have hstart : ({ s.part with ret := r } : Part).start = ({ s.part with ret := r } : Part).startLow :=
      if_neg (ne_true_of_eq_false hlow)
    rw [hstart]
    exact startLow_startsLow { s.part with ret := r }

/-- The four causes of a start, each due. -/
theorem mainDomainStarts : Rules.MainDomainStarts := by
  intro s hstopped hret p r starts
  refine ⟨fun hmain hrst hdue => runs_start rfl (if_pos ?_), fun hmain hrst => ?_, fun hmain hrst => ?_,
    fun hmain hrst hlow hmode => ?_⟩
  · unfold Part.startDue
    rw [mayStart_iff.2 ⟨hret, hmain, hrst, hstopped⟩, Bool.true_and, Bool.or_eq_true, decide_eq_true_eq]
    exact hdue
  · have hmay : ({ r with mainPower := true } : Retention).mayStart = true := mayStart_iff.2 ⟨hret, rfl, hrst, hstopped⟩
    exact runs_start rfl ((if_neg (ne_true_of_eq_false hmain)).trans (if_pos hmay))
  · have hmay : ({ r with rstHigh := true } : Retention).mayStart = true := mayStart_iff.2 ⟨hret, hmain, rfl, hstopped⟩
    exact runs_start rfl ((if_neg (ne_true_of_eq_false hrst)).trans (if_pos hmay))
  · have hmay : ({ r with pfailHigh := true } : Retention).mayStart = true :=
      mayStart_iff.2 ⟨hret, hmain, hrst, hstopped⟩
    have hrises : (r.retentionPower && !r.pfailHigh) = true := by rw [hret, hlow]; rfl
    exact runs_start rfl ((if_pos hrises).trans (if_pos ⟨hmode, hmay⟩))

/-! ## Stops (R158, R174) -/

/-- Every block of the main domain as a stop leaves it; DRAM is kept in self-refresh, or lost (log 9). -/
def Part.blanked (p q : Part) (kept : Bool) : Prop :=
  let z := State.reset.part
  q.links = z.links ∧ q.reqs = z.reqs ∧ q.ntfs = z.ntfs ∧ q.slots = z.slots ∧ q.reads = z.reads
  ∧ q.journals = z.journals ∧ q.waiting = z.waiting ∧ q.maint = z.maint ∧ q.header = z.header
  ∧ q.formatPending = false ∧ q.ctl = {} ∧ q.ntfCnt = {} ∧ q.appendCnt = {} ∧ q.readCnt = {}
  ∧ q.mem = MemEngine.stopped kept p.mem.missCount ∧ q.dram = if kept then p.dram else []

theorem fresh_blanked (p : Part) (r : Retention) :
    p.blanked (Part.fresh r (if r.selfRefresh then p.dram else []) p.mem.missCount) r.selfRefresh :=
  ⟨rfl, rfl, rfl, rfl, rfl, rfl, rfl, rfl, rfl, rfl, rfl, rfl, rfl, rfl, rfl, rfl⟩

/-- The DRAM stays in self-refresh at a stop of the main domain: no exit has begun. -/
def Part.keepsDram (p : Part) : Bool := p.ret.selfRefresh && !(p.ret.running && decide (p.mem.op = some .exit))

/-- The retention domain after a stop of the main domain; the lines are not its concern. -/
def Part.stoppedRet (p : Part) : Retention :=
  if p.ret.running && !p.keepsDram then { p.ret with running := false, flag := false, selfRefresh := false }
  else { p.ret with running := false }

theorem keepsDram_iff :
    p.keepsDram = true ↔ p.ret.selfRefresh = true ∧ (p.ret.running = true → p.mem.op ≠ some .exit) := by
  unfold Part.keepsDram
  cases p.ret.running <;> simp

theorem stoppedRet_kept (h : p.keepsDram = true) : p.stoppedRet = { p.ret with running := false } :=
  if_neg (by rw [h]; simp)

theorem stoppedRet_lost (hrun : p.ret.running = true) (h : p.keepsDram = false) :
    p.stoppedRet = { p.ret with running := false, flag := false, selfRefresh := false } :=
  if_pos (by rw [hrun, h]; rfl)

theorem stoppedRet_still (h : p.ret.running = false) : p.stoppedRet = p.ret :=
  (if_neg (by rw [h]; simp)).trans (congrArg (fun b => { p.ret with running := b }) h.symm)

theorem keepsDram_still (h : p.ret.running = false) : p.keepsDram = p.ret.selfRefresh := by
  rw [Bool.eq_iff_iff, keepsDram_iff, h]
  simp

theorem stoppedRet_selfRefresh (p : Part) : p.stoppedRet.selfRefresh = p.keepsDram := by
  cases hrun : p.ret.running with
  | false => rw [stoppedRet_still hrun, keepsDram_still hrun]
  | true =>
    cases hkeep : p.keepsDram with
    | true => rw [stoppedRet_kept hkeep]; exact (keepsDram_iff.1 hkeep).1
    | false => rw [stoppedRet_lost hrun hkeep]

/-- The three ways of `stopMain` in one form. -/
theorem stopMain_eq (p : Part) :
    p.stopMain = Part.fresh p.stoppedRet (if p.keepsDram then p.dram else []) p.mem.missCount := by
  unfold Part.stopMain
  split
  · next hrun =>
    split
    · next h =>
      have hkeep : p.keepsDram = true := keepsDram_iff.2 ⟨h.1, fun _ => h.2⟩
      rw [stoppedRet_kept hkeep, if_pos hkeep]
    · next h =>
      have hlost : ¬p.keepsDram = true := fun hkeep =>
        h ⟨(keepsDram_iff.1 hkeep).1, (keepsDram_iff.1 hkeep).2 hrun⟩
      rw [stoppedRet_lost hrun (Bool.eq_false_iff.2 hlost), if_neg hlost]
  · next hrun =>
    have hstill := Bool.eq_false_iff.2 hrun
    rw [stoppedRet_still hstill, keepsDram_still hstill]

theorem stopMain_blanked (p : Part) : p.blanked p.stopMain p.keepsDram := by
  rw [stopMain_eq, ← stoppedRet_selfRefresh]
  exact fresh_blanked p p.stoppedRet

theorem stopMain_ret (p : Part) : p.stopMain.ret = p.stoppedRet := by
  rw [stopMain_eq]
  rfl

theorem mainDomainStops : Rules.MainDomainStops := by
  intro s p r keeps stopped blank
  refine ⟨fun hmain => runs_next rfl (if_pos hmain) ⟨?_, stopMain_blanked p⟩,
    fun hrst => runs_next rfl (if_pos hrst) ⟨?_, stopMain_blanked p⟩,
    runs_next rfl rfl ⟨rfl, fresh_blanked p r.poweredOn⟩⟩
  · rw [modRet_ret, stopMain_ret]
    rfl
  · rw [modRet_ret, stopMain_ret]
    rfl

/-! ## Lines alone (R160, R165, R167) -/

theorem linesAloneAreTaken : Rules.LinesAloneAreTaken := by
  intro s p r takes
  refine ⟨fun hmain hno => runs_next rfl ((if_neg (ne_true_of_eq_false hmain)).trans (if_neg fun hmay => ?_)) rfl,
    fun hrst hno => runs_next rfl ((if_neg (ne_true_of_eq_false hrst)).trans (if_neg fun hmay => ?_)) rfl,
    fun hret hlow hno => ?_⟩
  · obtain ⟨hret, -, hrst, -⟩ := mayStart_iff.1 hmay
    exact hno.elim (ne_false_of_eq_true hrst) (ne_false_of_eq_true hret)
  · obtain ⟨hret, hmain, -, -⟩ := mayStart_iff.1 hmay
    exact hno.elim (ne_false_of_eq_true hmain) (ne_false_of_eq_true hret)
  · have hrises : (r.retentionPower && !r.pfailHigh) = true := by rw [hret, hlow]; rfl
    refine runs_next rfl ((if_pos hrises).trans (if_neg fun hstart => ?_)) rfl
    obtain ⟨hmode, hmay⟩ := hstart
    obtain ⟨-, hmain, hrst, hstopped⟩ := mayStart_iff.1 hmay
    obtain hrun | hother | hoff | hlow := hno
    · exact ne_true_of_eq_false hstopped hrun
    · exact hother hmode
    · exact ne_false_of_eq_true hmain hoff
    · exact ne_false_of_eq_true hrst hlow

/-- Settles O51, by what `start`, `stopMain` and `Part.fresh` leave. -/
theorem mainDomainStartsAndStops : Obligations.MainDomainStartsAndStops :=
  ⟨mainDomainStarts, mainDomainStops, linesAloneAreTaken⟩

end Sys2Proof.Machine
end

section
/-! The request layer's checks (O13) and STATUS (O12). -/

namespace Sys2Proof.Machine

variable {p : Part} {s : State} {i : Port} {r : Req} {c : Instr} {payload : List Byte}

/-! ## STATUS (R114) -/

theorem status_device (hj : r.journal = 0xFF#8) :
    p.status i r = p.answer i
      (r.rsp .ok (.statusDevice p.ret.mode (allJournals.map fun j => (p.journal j).state) i (p.req i).session.gen)) :=
  if_pos hj

theorem journalOf_none {b : Byte} (h : 8 ≤ b.toNat) : journalOf b = none := dif_neg (Nat.not_lt.2 h)

theorem status_badJournal (hj : 8 ≤ r.journal.toNat) (hne : r.journal ≠ 0xFF#8) :
    p.status i r = p.answer i (r.rsp .badJournal .none) := by
  unfold Part.status
  rw [if_neg hne, journalOf_none hj]

section
variable {j : JournalId} (hj : r.journal.toNat = j.val)
include hj

/-- A byte that names a journal is not the device's. -/
theorem journal_ne_device : r.journal ≠ 0xFF#8 := by
  intro h
  rw [h] at hj
  exact absurd j.isLt (by rw [← hj]; decide)

theorem status_unconfigured (hc : (p.journal j).conf = none) :
    p.status i r = p.answer i (r.rsp .ok (.statusUnconfigured (p.journal j).epoch)) := by
  unfold Part.status
  rw [if_neg (journal_ne_device hj), journalOf_val hj]
  simp only [hc]

theorem status_configured {g : Conf} (hc : (p.journal j).conf = some g) :
    p.status i r = p.answer i (r.rsp .ok (p.statusOf i j g)) := by
  unfold Part.status
  rw [if_neg (journal_ne_device hj), journalOf_val hj]
  simp only [hc]

end

/-- Settles O12: what `status` answers in each case, of the part that has taken the request. -/
theorem statusReports : Obligations.StatusReports := by
  intro i s payload hq hreach p r answers
  have hanswers : ∀ st v, (p.served i RequestLayer.took).status i r
      = (p.served i RequestLayer.took).answer i (r.rsp st v) → answers st v := fun st v hs =>
    block_answered (serve := fun r p => p.status i r) rfl hq hreach hs
  refine ⟨fun hj => hanswers _ _ ?_, fun hj hne => hanswers _ _ (status_badJournal hj hne), fun j hj =>
    ⟨fun hc => hanswers _ _ (status_unconfigured hj hc), fun g hc => hanswers _ _ (status_configured hj hc)⟩⟩
  have hmode : (p.served i RequestLayer.took).ret.mode = .serving := hreach.2.2.1
  rw [status_device hj, hmode, served_req_self]
  rfl

/-! ## The checks of the request layer (R111) -/

section
variable (hm : p.ret.mode = .serving)
include hm

theorem requestCheck_noSession (ha : (p.req i).session.active = false) :
    p.requestCheck i r = some (.noSession, .none) := by
  unfold Part.requestCheck
  rw [if_neg (not_not_intro hm), if_pos ha]

theorem requestCheck_tagBusy (ha : (p.req i).session.active = true) (ht : r.tag ∈ (p.req i).tags) :
    p.requestCheck i r = some (.tagBusy, .none) := by
  unfold Part.requestCheck
  rw [if_neg (not_not_intro hm), if_neg (ne_false_of_eq_true ha), if_pos ht]

theorem requestCheck_busy (ha : (p.req i).session.active = true) (ht : r.tag ∉ (p.req i).tags)
    (hfull : 16 ≤ (p.req i).tags.length) : p.requestCheck i r = some (.busy, .none) := by
  unfold Part.requestCheck
  rw [if_neg (not_not_intro hm), if_neg (ne_false_of_eq_true ha), if_neg ht, if_pos hfull]

end

theorem requestCheck_notServing (hm : p.ret.mode ≠ .serving) :
    p.requestCheck i r = some (.notServing, .mode p.ret.mode) := if_pos hm

/-- The checks look at the mode, the session and the tag table, which the intake leaves. -/
theorem requestCheck_took : (p.served i RequestLayer.took).requestCheck i r = p.requestCheck i r := by
  unfold Part.requestCheck
  rw [served_req_self]
  rfl

/-- A request that the request layer's checks refuse. -/
theorem checked_refused {isIt : List Byte → Bool} {serve : Req → Part → Part} {st : Status} {v : Values}
    (hc : exec c s = .next (s.onPart fun p => p.intake i isIt serve))
    (hserve : ∃ block, serve (Req.ofPayload payload) (s.part.served i RequestLayer.took)
      = (s.part.served i RequestLayer.took).checked i (Req.ofPayload payload) block)
    (hq : s.part.quiet = true) (ht : s.part.takes i payload) (hi : isIt payload = true)
    (h : s.part.requestCheck i (Req.ofPayload payload) = some (st, v)) :
    Runs c s fun q => q = s.part.served i fun l => l.took.answered ((Req.ofPayload payload).rsp st v) := by
  obtain ⟨block, hblock⟩ := hserve
  refine answered_run hc hq ht hi (hblock.trans ?_)
  unfold Part.checked
  rw [requestCheck_took, h]

/-- The refusals of the request layer, for a command that refuses with `refused`. -/
def Part.layerRefuses (p : Part) (i : Port) (r : Req) (refused : Status → Values → Prop) : Prop :=
  (p.ret.mode ≠ .serving → refused .notServing (.mode p.ret.mode))
  ∧ (p.ret.mode = .serving → (p.req i).session.active = false → refused .noSession .none)
  ∧ (p.ret.mode = .serving → (p.req i).session.active = true → r.tag ∈ (p.req i).tags → refused .tagBusy .none)
  ∧ (p.ret.mode = .serving → (p.req i).session.active = true → r.tag ∉ (p.req i).tags →
      16 ≤ (p.req i).tags.length → refused .busy .none)

theorem layerRefuses_of {refused : Status → Values → Prop}
    (h : ∀ st v, p.requestCheck i r = some (st, v) → refused st v) : p.layerRefuses i r refused :=
  ⟨fun hm => h _ _ (requestCheck_notServing hm), fun hm ha => h _ _ (requestCheck_noSession hm ha),
    fun hm ha ht => h _ _ (requestCheck_tagBusy hm ha ht), fun hm ha ht hf => h _ _ (requestCheck_busy hm ha ht hf)⟩

/-! ## Requests by their codes -/

/-- The command takes requests of its code, checks them and hands them to `serve`. -/
def IsRequestOf (cmd : Port → Instr) (code : Byte) (serve : Port → Req → Part → Part) : Prop :=
  ∀ (i : Port) (s : State),
    exec (cmd i) s = .next (s.onPart fun p => p.intake i (isRequest code) fun r p => p.checked i r (serve i r p))

/-- The block refuses a journal byte that names no configured journal. -/
def RefusesBadJournal (serve : Port → Req → Part → Part) : Prop :=
  ∀ i r p, p.configured r.journal = none → serve i r p = p.answer i (r.rsp .badJournal .none)

/-- Every request but ATTACH has a block that serves it, and every block but those of DETACH and STATUS wants a configured
journal. -/
theorem requestCommands_served {x : (Port → Instr) × Byte} (hx : x ∈ requestCommands) :
    ∃ serve, IsRequestOf x.1 x.2 serve ∧ (x.2 ≠ codeDetach → x.2 ≠ codeStatus → RefusesBadJournal serve) := by
  simp only [requestCommands, List.mem_cons, List.not_mem_nil, or_false] at hx
  obtain rfl | rfl | rfl | rfl | rfl | rfl | rfl | rfl | rfl | rfl := hx
  · exact ⟨fun i r p => p.detach i r, fun _ _ => rfl, fun h => absurd rfl h⟩
  · exact ⟨fun i r p => p.status i r, fun _ _ => rfl, fun _ h => absurd rfl h⟩
  · exact ⟨fun i r p => p.subscribe i r, fun _ _ => rfl, fun _ _ _ _ _ h => by simp only [Part.subscribe, h]⟩
  · exact ⟨fun i r p => p.unsubscribe i r, fun _ _ => rfl, fun _ _ _ _ _ h => by simp only [Part.unsubscribe, h]⟩
  · exact ⟨fun i r p => p.claim i r, fun _ _ => rfl, fun _ _ _ _ _ h => by simp only [Part.claim, h]⟩
  · exact ⟨fun i r p => p.release i r, fun _ _ => rfl, fun _ _ _ _ _ h => by simp only [Part.release, h]⟩
  · exact ⟨fun i r p => p.takeover i r, fun _ _ => rfl, fun _ _ _ _ _ h => by simp only [Part.takeover, h]⟩
  · exact ⟨fun i r p => p.append i r, fun _ _ => rfl, fun _ _ _ _ _ h => by simp only [Part.append, h]⟩
  · exact ⟨fun i r p => p.readRequest i r, fun _ _ => rfl, fun _ _ _ _ _ h => by simp only [Part.readRequest, h]⟩
  · exact ⟨fun i r p => p.trimRequest i r, fun _ _ => rfl, fun _ _ _ _ _ h => by simp only [Part.trimRequest, h]⟩

/-! ## UNKNOWN_REQUEST (R111, R185) -/

/-- The frame at the head names no code exactly when its payload is too short (R185). -/
theorem headShort_eq (ht : p.takes i payload) : p.headShort i = decide (payload.length < 2) := by
  obtain ⟨-, hhead, -, -⟩ := ht
  unfold Part.headShort
  cases hb : (p.req i).buffer with
  | nil => rw [hb] at hhead; cases hhead
  | cons f rest =>
    rw [hb] at hhead
    cases hhead
    rfl

theorem exec_unknownRequest :
    exec (.unknownRequest i) s
      = .next (s.onPart fun p => p.intake i isUnknown fun r q => q.unknown i r (s.part.headShort i)) := rfl

theorem unknown_checked (ht : s.part.takes i payload) (hl : 2 ≤ payload.length) (q : Part) :
    q.unknown i r (s.part.headShort i) = q.checked i r (q.answer i (r.rsp .badRequest .none)) := by
  unfold Part.unknown
  rw [headShort_eq ht, decide_eq_false (Nat.not_lt.2 hl), if_neg Bool.false_ne_true]

theorem unknown_short (ht : s.part.takes i payload) (hl : payload.length < 2) (q : Part) :
    q.unknown i r (s.part.headShort i) = q.answer i (r.rsp .badRequest .none) := by
  unfold Part.unknown
  rw [headShort_eq ht, decide_eq_true hl, if_pos rfl]

theorem isUnknown_short (hl : payload.length < 2) : isUnknown payload = true := by
  unfold isUnknown
  rw [decide_eq_true hl, Bool.true_or]

theorem ofPayload_short (hl : payload.length < 2) : Req.ofPayload payload = ⟨0, 0, []⟩ := by
  match payload with
  | [] => rfl
  | [_] => rfl
  | _ :: _ :: _ => simp at hl

/-! ## O13 -/

theorem requestLayerChecksFirst : Rules.RequestLayerChecksFirst := by
  intro i s payload hq ht p r refused checks
  refine ⟨fun x hx hi => ?_, fun hi hl => ⟨?_, fun hadm => ?_⟩⟩
  · obtain ⟨serve, hexec, -⟩ := requestCommands_served hx
    exact layerRefuses_of (refused := refused (x.1 i)) fun st v h =>
      checked_refused (hexec i s) ⟨_, rfl⟩ hq ht hi h
  · exact layerRefuses_of (refused := refused (.unknownRequest i)) fun st v h =>
      checked_refused exec_unknownRequest ⟨_, unknown_checked ht hl _⟩ hq ht hi h
  · refine answered_run exec_unknownRequest hq ht hi ((unknown_checked ht hl _).trans ?_)
    exact checked_run (admits_served hadm)

theorem shortRequestIsBad : Rules.ShortRequestIsBad := by
  intro i s payload hq ht hl
  have hrun := answered_run exec_unknownRequest hq ht (isUnknown_short hl) (unknown_short ht hl _)
  rw [ofPayload_short hl] at hrun
  exact hrun

theorem badJournalIsRefused : Rules.BadJournalIsRefused := by
  intro i s payload x hx hdetach hstatus hq hreach hbad
  obtain ⟨serve, hexec, hserve⟩ := requestCommands_served hx
  exact block_answered (hexec i s) hq hreach (hserve hdetach hstatus i _ _ (configured_none hbad))

/-- Settles O13, by the request layer's checks before every block, and by what each block does first. -/
theorem requestsAreChecked : Obligations.RequestsAreChecked :=
  ⟨requestLayerChecksFirst, shortRequestIsBad, badJournalIsRefused⟩

end Sys2Proof.Machine
end

section
/-! Good sequenced frames in UP (O38). -/

namespace Sys2Proof.Machine

variable {p : Part} {s : State} {i : Port} {u v w : LinkUnit} {x : RequestLayer} {h : Header} {t : SeqType}
  {payload : List Byte}

/-! ## A port's link unit and request layer set together -/

/-- The part with a port's link unit and request layer given. -/
def Part.portSet (p : Part) (i : Port) (w : LinkUnit) (x : RequestLayer) : Part :=
  (p.modLink i fun _ => w).modReq i fun _ => x

@[simp] theorem portSet_link : (p.portSet i w x).link i = w := modLink_link_self p i fun _ => w

@[simp] theorem portSet_req : (p.portSet i w x).req i = x := modReq_req_self _ i fun _ => x

theorem portSet_modLink (f : LinkUnit → LinkUnit) : (p.portSet i w x).modLink i f = p.portSet i (f w) x := by
  unfold Part.portSet
  rw [← modLink_modReq, modLink_modLink]

theorem portSet_modReq (f : RequestLayer → RequestLayer) : (p.portSet i w x).modReq i f = p.portSet i w (f x) := by
  unfold Part.portSet
  rw [modReq_modReq]

theorem modLink_eq_portSet : (p.modLink i fun _ => w) = p.portSet i w (p.req i) :=
  (congrArg (fun rs => { p.modLink i fun _ => w with reqs := rs }) (putAt_get_eq p.reqs i)).symm

/-! ## The classes (R129) -/

theorem frameOrder_inOrder {d : Nat} (hd : d = 0) : frameOrder d = .inOrder := if_pos hd

theorem frameOrder_ahead {d : Nat} (h1 : 1 ≤ d) (h2 : d ≤ 47) : frameOrder d = .ahead := by
  unfold frameOrder
  rw [if_neg (by omega), if_pos h2]

theorem frameOrder_duplicate {d : Nat} (hd : 48 ≤ d) : frameOrder d = .duplicate := by
  unfold frameOrder
  rw [if_neg (by omega), if_neg (by omega)]

theorem nakDue_eq (u : LinkUnit) : u.nakDue = u.owesNak := by
  unfold LinkUnit.nakDue LinkUnit.owesNak
  cases u.nak <;> rfl

section
variable {q : Seq}

theorem classify_inOrder (hd : (q - (p.link i).expected).toNat = 0) :
    p.classify i t q payload = p.receiveInOrder i t payload := by
  unfold Part.classify seqDistance
  rw [frameOrder_inOrder hd]

theorem classify_ahead (h1 : 1 ≤ (q - (p.link i).expected).toNat) (h2 : (q - (p.link i).expected).toNat ≤ 47) :
    p.classify i t q payload = p.modLink i fun u => u.countDiscard.nakDue := by
  unfold Part.classify seqDistance
  rw [frameOrder_ahead h1 h2]

theorem classify_duplicate (hd : 48 ≤ (q - (p.link i).expected).toNat) :
    p.classify i t q payload = p.modLink i LinkUnit.countDiscard := by
  unfold Part.classify seqDistance
  rw [frameOrder_duplicate hd]

end

/-! ## Delivery (R108, R109) -/

/-- The link unit once an in-order frame has been counted in the sequence (R129). -/
def LinkUnit.advanced (u : LinkUnit) : LinkUnit := { u with expected := u.expected + 1, nak := .none }

theorem receiveInOrder_delivers (ht : t = .req ∨ t = .data) :
    p.receiveInOrder i t payload = (p.modLink i LinkUnit.advanced).deliver i ⟨decide (t = .data), payload⟩ := by
  obtain rfl | rfl := ht <;> rfl

theorem receiveInOrder_unexpected (hr : t ≠ .req) (hd : t ≠ .data) :
    p.receiveInOrder i t payload
      = (p.modLink i LinkUnit.advanced).modLink i fun u =>
          { u with cnt := { u.cnt with unexpected := satInc u.cnt.unexpected } } := by
  cases t with
  | req => exact absurd rfl hr
  | data => exact absurd rfl hd
  | _ => rfl

theorem ofPayload_tag (payload : List Byte) :
    (Req.ofPayload payload).tag = if payload.length < 2 then 0 else byteAt payload 1 := by
  match payload with
  | [] => rfl
  | [_] => rfl
  | _ :: _ :: rest =>
    rw [if_neg (by simp)]
    rfl

/-- The tag of a REJECT by the frame's type (R109; a frame too short to hold one: log 23). -/
theorem rejectTag_eq (t : SeqType) (payload : List Byte) :
    rejectTag ⟨decide (t = .data), payload⟩
      = if payload.length < (if t = .data then 6 else 2) then 0
        else if t = .data then byteAt payload 0 else byteAt payload 1 := by
  unfold rejectTag
  by_cases ht : t = .data
  · simp only [ht, decide_true, if_true]
    unfold dataFields
    by_cases hl : payload.length < 6
    · rw [if_pos hl, if_pos hl]
      rfl
    · rw [if_neg hl, if_neg hl]
  · simp only [ht, decide_false, if_false]
    exact ofPayload_tag payload

section
variable {f : BufFrame}

theorem deliver_room (hr : x.buffer.length < 8) :
    (p.portSet i w x).deliver i f
      = p.portSet i { w with freePlaces := w.freePlaces - 1 } { x with buffer := x.buffer ++ [f] } := by
  unfold Part.deliver
  rw [portSet_req, if_pos hr, portSet_modReq, portSet_modLink]

theorem deliver_full (hr : 8 ≤ x.buffer.length) : (p.portSet i w x).deliver i f = (p.portSet i w x).overrun i f := by
  unfold Part.deliver
  rw [portSet_req, if_neg (Nat.not_lt.2 hr)]

/-- The link unit with an overrun counted (R109). -/
def LinkUnit.countOverrun (u : LinkUnit) : LinkUnit := { u with cnt := { u.cnt with overruns := satInc u.cnt.overruns } }

theorem portSet_respRoom : (p.portSet i w x).respRoom i = decide (x.respQ.length < 32) := by
  unfold Part.respRoom
  rw [portSet_req]

theorem overrun_rejected (hr : x.respQ.length < 32) :
    (p.portSet i w x).overrun i f
      = p.portSet i w.countOverrun
          { x with
            respQ := x.respQ ++ [.rsp (reject f)]
            cnt := { x.cnt with rejects := satInc x.cnt.rejects } } := by
  unfold Part.overrun
  dsimp only
  rw [portSet_modLink, portSet_respRoom, decide_eq_true hr, if_pos rfl]
  unfold Part.queueResp
  rw [portSet_respRoom, decide_eq_true hr, if_pos rfl, portSet_modReq, portSet_modReq]
  rfl

theorem overrun_suppressed (hr : 32 ≤ x.respQ.length) :
    (p.portSet i w x).overrun i f
      = p.portSet i w.countOverrun
          { x with cnt := { x.cnt with rejectsSuppressed := satInc x.cnt.rejectsSuppressed } } := by
  unfold Part.overrun
  dsimp only
  rw [portSet_modLink, portSet_respRoom, decide_eq_false (Nat.not_lt.2 hr), if_neg Bool.false_ne_true, portSet_modReq]
  rfl

end

/-! ## O38 -/

/-- A header that does not take the link down is taken, and its frame is then classified (log 14). -/
theorem goodSequenced_takes (hu : (p.link i).state = .up) (hn : ¬(p.link i).nakEnds h) (ht : (p.link i).takes h v) :
    p.goodSequenced i t h payload = (p.portSet i v (p.req i)).classify i t h.seq payload := by
  rw [goodSequenced_up hu, headerHeard_takes hn ht, modLink_link_self, takes_state ht, if_pos hu, modLink_eq_portSet]

theorem acked_expected (u : LinkUnit) (a : Seq) : (u.acked a).expected = u.expected := by
  cases hb : u.replayBuf with
  | nil => rw [acked_nil hb]
  | cons e rest =>
    rw [acked_cons hb]
    split <;> rfl

/-- A header leaves the expected sequence. -/
theorem takes_expected (ht : u.takes h v) : v.expected = u.expected := by
  obtain ⟨-, -, rfl⟩ | ⟨-, rfl⟩ := ht <;> exact acked_expected u h.ack

/-- Settles O38: the header is taken, and the three classes of `classify` are read off, an in-order frame by what
`deliver` and `overrun` leave. -/
theorem sequencedFramesAreClassified : Obligations.SequencedFramesAreClassified := by
  intro i t h payload s v hrun hlen hup hn ht p r d frame next tag leaves
  have hd : d = (h.seq - ((p.portSet i v r).link i).expected).toNat := by rw [portSet_link, takes_expected ht]
  have hends : ∀ w x, (p.portSet i v r).classify i t h.seq payload = p.portSet i w x → leaves w x := fun w x hwx =>
    ends_event rfl hrun ((if_pos hlen).trans (congrArg some ((goodSequenced_takes hup hn ht).trans hwx))) hrun rfl
  have hinOrder (h0 : d = 0) :
      (p.portSet i v r).classify i t h.seq payload = (p.portSet i v r).receiveInOrder i t payload :=
    classify_inOrder (hd ▸ h0)
  have hdelivers (h0 : d = 0) (htype : t = .req ∨ t = .data) :
      (p.portSet i v r).classify i t h.seq payload = (p.portSet i next r).deliver i frame := by
    rw [hinOrder h0, receiveInOrder_delivers htype, portSet_modLink]
    rfl
  have htag : tag = rejectTag frame := (rejectTag_eq t payload).symm
  refine ⟨fun h0 htype hroom => ?_, fun h0 htype hfull => ⟨fun hresp => ?_, fun hresp => ?_⟩, fun h0 hreq hdata => ?_,
    fun h1 h47 => ?_, fun h48 => ?_⟩
  · exact hends _ _ ((hdelivers h0 htype).trans (deliver_room hroom))
  · rw [htag]
    exact hends _ _ ((hdelivers h0 htype).trans ((deliver_full hfull).trans (overrun_rejected hresp)))
  · exact hends _ _ ((hdelivers h0 htype).trans ((deliver_full hfull).trans (overrun_suppressed hresp)))
  · refine hends _ _ ?_
    rw [hinOrder h0, receiveInOrder_unexpected hreq hdata, portSet_modLink, portSet_modLink]
    rfl
  · refine hends _ _ ?_
    rw [classify_ahead (hd ▸ h1) (hd ▸ h47), portSet_modLink, nakDue_eq]
    rfl
  · refine hends _ _ ?_
    rw [classify_duplicate (hd ▸ h48), portSet_modLink]
    rfl

end Sys2Proof.Machine
end

section
/-! ATTACH (O11). -/

namespace Sys2Proof.Machine

variable {p : Part} {s : State} {i : Port} {r : Req} {payload : List Byte}

/-! ## The checks (R103) -/

/-- The parameters of an ATTACH are acceptable in form (R103, check 2). -/
def Req.attaches (r : Req) : Prop := r.params.length = 5 ∧ r.attachTag ≠ 0 ∧ r.revision = 1

theorem attaches_or_not : ¬r.attaches ↔ (r.params.length ≠ 5 ∨ r.attachTag = 0 ∨ r.revision ≠ 1) := by
  unfold Req.attaches
  tauto

theorem tagInUse_iff {t : W32} :
    p.tagInUse t = true ↔ ∃ k, (p.req k).session.active = true ∧ (p.req k).session.tag = some t := by
  unfold Part.tagInUse
  simp [mem_allPorts]

theorem attachCheck_notServing (hm : p.ret.mode ≠ .serving) :
    p.attachCheck i r = some (.notServing, .mode p.ret.mode) := if_pos hm

section
variable (hm : p.ret.mode = .serving)
include hm

theorem attachCheck_badRequest (hb : r.params.length ≠ 5 ∨ r.attachTag = 0 ∨ r.revision ≠ 1) :
    p.attachCheck i r = some (.badRequest, .none) := by
  unfold Part.attachCheck
  rw [if_neg (not_not_intro hm), if_pos hb]

variable (hr : r.attaches)
include hr

theorem attachCheck_busy (ha : (p.req i).session.active = true) : p.attachCheck i r = some (.busy, .none) := by
  unfold Part.attachCheck
  rw [if_neg (not_not_intro hm), if_neg fun hb => attaches_or_not.2 hb hr, if_pos ha]

variable (ha : (p.req i).session.active = false)
include ha

theorem attachCheck_tag :
    p.attachCheck i r = if p.tagInUse r.attachTag = true then some (.tagInUse, .none) else none := by
  unfold Part.attachCheck
  rw [if_neg (not_not_intro hm), if_neg fun hb => attaches_or_not.2 hb hr, if_neg (ne_true_of_eq_false ha)]

theorem attachCheck_tagInUse
    (ht : ∃ k, (p.req k).session.active = true ∧ (p.req k).session.tag = some r.attachTag) :
    p.attachCheck i r = some (.tagInUse, .none) :=
  (attachCheck_tag hm hr ha).trans (if_pos (tagInUse_iff.2 ht))

theorem attachCheck_accepts
    (ht : ∀ k, (p.req k).session.active = true → (p.req k).session.tag ≠ some r.attachTag) :
    p.attachCheck i r = none := by
  refine (attachCheck_tag hm hr ha).trans (if_neg fun hu => ?_)
  obtain ⟨k, hact, htag⟩ := tagInUse_iff.1 hu
  exact ht k hact htag

end

/-- The checks look at the mode and the sessions, which the intake leaves. -/
theorem attachCheck_took : (p.served i RequestLayer.took).attachCheck i r = p.attachCheck i r := by
  unfold Part.attachCheck Part.tagInUse
  simp only [served_took_session]
  rfl

theorem attach_refused {st : Status} {v : Values} (h : p.attachCheck i r = some (st, v)) :
    p.attach i r = p.answer i (r.rsp st v) := by
  unfold Part.attach
  rw [h]

/-- An ATTACH that a check refuses. -/
theorem attach_refused_run {st : Status} {v : Values} (hq : s.part.quiet = true) (ht : s.part.takes i payload)
    (hi : isAttach payload = true) (h : s.part.attachCheck i (Req.ofPayload payload) = some (st, v)) :
    Runs (.attach i) s fun q =>
      q = s.part.served i fun l => l.took.answered ((Req.ofPayload payload).rsp st v) :=
  answered_run (serve := fun r p => p.attach i r) rfl hq ht hi (attach_refused (attachCheck_took.trans h))

/-! ## The session opened (R103, R97) -/

/-- The part once an accepted ATTACH has opened its session, before the answer. -/
def Part.attached (p : Part) (i : Port) (tag : W32) : Part :=
  (p.modReq i fun l => l.opened tag).attachNtf i

theorem attached_changes {tag : W32} : Part.Changes [.reqs, .ntfs, .ntfCnt] p (p.attached i tag) :=
  ((modReq_changes _ _ _).trans (attachNtf_changes _ _)).mono

theorem attached_req {tag : W32} : (p.attached i tag).req i = (p.req i).opened tag :=
  ((attachNtf_changes _ i).req i).trans (modReq_req_self _ _ _)

theorem attachNtf_self :
    (p.attachNtf i).ntf i = { queue := [], overflow := false, drops := 0, modeRetained := false } := by
  unfold Part.attachNtf
  rw [modNtf_ntf_self, clearNtf_self, List.filter_false]

theorem attachNtf_ne {k : Port} (h : i ≠ k) : (p.attachNtf i).ntf k = p.ntf k := by
  unfold Part.attachNtf
  rw [modNtf_ntf_ne _ _ _ h, clearNtf_ne _ h]

/-- The answer of an accepted ATTACH is the only frame of the emptied response queue (log 16). -/
theorem attach_accepted (h : p.attachCheck i r = none) :
    p.attach i r = (p.attached i r.attachTag).modReq i fun l =>
      l.answered (r.rsp .ok (.attach i (nextGen (p.req i).session.gen) p.ret.mode)) := by
  have hroom : (p.attached i r.attachTag).respRoom i = true := by
    unfold Part.respRoom
    rw [attached_req]
    rfl
  unfold Part.attach
  rw [h]
  exact answer_room _ hroom

/-! ## O11 -/

/-- Settles O11: the checks in their order, and what `attached` leaves of an accepted ATTACH, the end of its event changing
nothing of its port. -/
theorem attachOpensASession : Obligations.AttachOpensASession := by
  intro i s payload hq ht hi p r ok refused
  have hrefused : ∀ st v, p.attachCheck i r = some (st, v) → refused st v := fun _ _ => attach_refused_run hq ht hi
  refine ⟨fun hm => hrefused _ _ (attachCheck_notServing hm), fun hm hb => hrefused _ _ (attachCheck_badRequest hm hb),
    fun ⟨hm, hr⟩ ha => hrefused _ _ (attachCheck_busy hm hr ha), fun ⟨hm, hr⟩ ha htag =>
      hrefused _ _ (attachCheck_tagInUse hm hr ha htag), ?_⟩
  rintro ⟨hm, hr⟩ ha htag gen
  have hserved := served_changes p i RequestLayer.took
  have haccepted := attach_accepted (attachCheck_took.trans (attachCheck_accepts hm hr ha htag))
  have hreq := attached_req (p := p.served i RequestLayer.took) (i := i) (tag := r.attachTag)
  have hch := (attached_changes (p := p.served i RequestLayer.took) (i := i) (tag := r.attachTag)).both
    ((modReq_changes _ i fun l => l.answered (r.rsp .ok (.attach i gen p.ret.mode))).mono)
  rw [served_req_self] at haccepted hreq
  have hrun : p.intake i isAttach (fun r p => p.attach i r)
      = ((p.served i RequestLayer.took).attach i r).react :=
    intake_run ht hi (by rw [(attach_changes _ i r).ret, hserved.ret]; exact ht.1)
  refine runs_next rfl hrun ?_
  rw [haccepted]
  refine ⟨?_, ?_, ?_, fun k hk => ?_⟩
  · rw [react_req, modReq_req_self, hreq]
    rfl
  · rw [react_link]
    exact (hch.link i).trans (served_link_self p i _)
  · rw [react_ntf, modReq_ntf]
    exact attachNtf_self
  · rw [react_ntf, modReq_ntf]
    exact (attachNtf_ne (Ne.symm hk)).trans rfl

end Sys2Proof.Machine
end

section
/-! A port's command leaves the other ports alone (O6). -/

namespace Sys2Proof.Machine

/-! ## What another port sees -/

/-- The link unit, the request layer and the waiting responses of a port, the same in both parts. -/
structure Part.SamePort (k : Port) (p q : Part) : Prop where
  link : q.link k = p.link k
  req : q.req k = p.req k
  waits : q.waits k = p.waits k

variable {i k : Port} {p q : Part}

theorem Part.SamePort.refl (p : Part) : p.SamePort k p := ⟨rfl, rfl, rfl⟩

theorem Part.SamePort.trans {r : Part} (h : p.SamePort k q) (h' : q.SamePort k r) : p.SamePort k r :=
  ⟨h'.link.trans h.link, h'.req.trans h.req, h'.waits.trans h.waits⟩

/-- A change elsewhere than in links, request layers and waiting responses. -/
theorem Part.Changes.samePort {fs : List Part.Field} (h : Part.Changes fs p q) (hl : Part.Field.links ∉ fs := by decide)
    (hr : Part.Field.reqs ∉ fs := by decide) (hw : Part.Field.waiting ∉ fs := by decide) : p.SamePort k q :=
  ⟨h.link k hl, h.req k hr, h.waits k hw⟩

/-- A change followed by one elsewhere than in links, request layers and waiting responses. -/
theorem Part.SamePort.also {r : Part} {fs : List Part.Field} (h : p.SamePort k q) (hc : Part.Changes fs q r)
    (hl : Part.Field.links ∉ fs := by decide) (hr : Part.Field.reqs ∉ fs := by decide)
    (hw : Part.Field.waiting ∉ fs := by decide) : p.SamePort k r := h.trans (hc.samePort hl hr hw)

/-- An event leaves a port alone that its own effect leaves alone. -/
theorem event_samePort {f : Part → Option Part} (hf : ∀ q, f p = some q → p.SamePort k q) : p.SamePort k (p.event f) := by
  unfold Part.event
  split
  · split
    · next q hq =>
      split
      · exact (hf q hq).also (react_changes q)
      · exact hf q hq
    · exact .refl p
  · exact .refl p

section
variable (h : i ≠ k)
include h

/-! ## Updates of the port's own blocks -/

theorem modReq_samePort (f : RequestLayer → RequestLayer) : p.SamePort k (p.modReq i f) :=
  ⟨rfl, modReq_req_ne _ _ _ h, rfl⟩

theorem modLink_samePort (f : LinkUnit → LinkUnit) : p.SamePort k (p.modLink i f) :=
  ⟨modLink_link_ne _ _ _ h, rfl, rfl⟩

theorem setWaits_samePort (w : List Waiting) : p.SamePort k (p.setWaits i w) :=
  ⟨rfl, rfl, setWaits_waits_ne _ _ _ h⟩

theorem queueResp_samePort (f : RespFrame) : p.SamePort k (p.queueResp i f) := by
  unfold Part.queueResp
  split
  · exact modReq_samePort h _
  · exact .refl p

theorem leaveTag_samePort (t : Byte) : p.SamePort k (p.leaveTag i t) := modReq_samePort h _

theorem queueDeferred_samePort (a : Rsp) : p.SamePort k (p.queueDeferred i a) :=
  (queueResp_samePort h _).trans (leaveTag_samePort h _)

theorem answer_samePort (a : Rsp) : p.SamePort k (p.answer i a) := by
  unfold Part.answer
  dsimp only
  split
  · exact queueResp_samePort h _
  · exact (queueResp_samePort h _).trans (modReq_samePort h _)

theorem enterTag_samePort (t : Byte) : p.SamePort k (p.enterTag i t) := modReq_samePort h _

/-! ## The intake -/

theorem returnCredits_samePort (n : Nat) : p.SamePort k (p.returnCredits i n) := modLink_samePort h _

theorem popFrame_samePort : p.SamePort k (p.popFrame i) :=
  (modReq_samePort h _).trans (returnCredits_samePort h 1)

theorem taken_samePort (f : RequestCounters → RequestCounters) : p.SamePort k ((p.popFrame i).countReq i f) :=
  (popFrame_samePort h).trans (modReq_samePort h _)

theorem intake_samePort {isIt : List Byte → Bool} {serve : Req → Part → Part}
    (hs : ∀ r q, Part.SamePort k q (serve r q)) : p.SamePort k (p.intake i isIt serve) := by
  refine event_samePort fun q hq => ?_
  obtain ⟨r, -, rfl⟩ := Option.map_eq_some_iff.1 hq
  exact (taken_samePort h _).trans (hs r _)

theorem checked_samePort {r : Req} (hs : p.SamePort k q) : p.SamePort k (p.checked i r q) := by
  unfold Part.checked
  split
  · exact answer_samePort h _
  · exact hs

theorem request_samePort {isIt : List Byte → Bool} {serve : Req → Part → Part}
    (hs : ∀ r q, Part.SamePort k q (serve r q)) :
    p.SamePort k (p.intake i isIt fun r p => p.checked i r (serve r p)) :=
  intake_samePort h fun r q => checked_samePort h (hs r q)

/-! ## Sessions and links -/

theorem endSession_samePort (c : EndCause) : p.SamePort k (p.endSession i c) := by
  obtain ⟨-, -, hwaits, -⟩ := endSession_left p i c
  exact ⟨endSession_link_ne p h c, endSession_req_ne p h c, (hwaits k).trans (if_neg (Ne.symm h))⟩

theorem linkDown_samePort (c : DownCause) : p.SamePort k (p.linkDown i c) := by
  have hunlinked : p.SamePort k (p.unlinked i c) :=
    ((modLink_samePort h _).also (raise_changes _ _)).trans (modReq_samePort h _)
  rw [linkDown_eq]
  refine Part.SamePort.also ?_ (silenced_changes _ i)
  split
  · exact hunlinked.trans (endSession_samePort h _)
  · exact hunlinked

theorem replayTrigger_samePort : p.SamePort k (p.replayTrigger i) := by
  unfold Part.replayTrigger
  dsimp only
  split
  · exact .refl p
  · split
    · exact modLink_samePort h _
    · exact linkDown_samePort h _

theorem headerHeard_samePort (hd : Header) : p.SamePort k (p.headerHeard i hd) := by
  rw [headerHeard_eq]
  split
  · exact (modLink_samePort h _).trans (replayTrigger_samePort h)
  · exact modLink_samePort h _

/-! ## Requests -/

theorem attach_samePort (r : Req) : p.SamePort k (p.attach i r) := by
  unfold Part.attach
  split
  · exact answer_samePort h _
  · exact ((modReq_samePort h _).also (attachNtf_changes _ _)).trans (answer_samePort h _)

theorem status_samePort (r : Req) : p.SamePort k (p.status i r) := by
  unfold Part.status
  split
  · exact answer_samePort h _
  · split
    · exact answer_samePort h _
    · split <;> exact answer_samePort h _

theorem subscribe_samePort (r : Req) : p.SamePort k (p.subscribe i r) := by
  unfold Part.subscribe
  split
  · exact answer_samePort h _
  · split
    · exact answer_samePort h _
    · exact (modConf_changes _ _ _).samePort.trans (answer_samePort h _)

theorem unsubscribe_samePort (r : Req) : p.SamePort k (p.unsubscribe i r) := by
  unfold Part.unsubscribe
  split
  · exact answer_samePort h _
  · exact (modConf_changes _ _ _).samePort.trans (answer_samePort h _)

theorem owned_samePort {t : Byte} {j : JournalId} {own : Ownership} {ep : W32} {bs : List Bound} :
    p.SamePort k (p.owned i t j own ep bs) :=
  (((modJournal_changes _ _ _).samePort.also (markDirty_journal_changes _ j)).trans (enterTag_samePort h _)).also
    (notifyOwner_changes _ _ _)

theorem claim_samePort (r : Req) : p.SamePort k (p.claim i r) := by
  unfold Part.claim
  split
  · exact answer_samePort h _
  · split
    · exact answer_samePort h _
    · split
      · exact answer_samePort h _
      · exact owned_samePort h

theorem release_samePort (r : Req) : p.SamePort k (p.release i r) := by
  unfold Part.release
  split
  · exact answer_samePort h _
  · split
    · exact answer_samePort h _
    · exact owned_samePort h

theorem takeover_samePort (r : Req) : p.SamePort k (p.takeover i r) := by
  unfold Part.takeover
  split
  · exact answer_samePort h _
  · split
    · exact answer_samePort h _
    · split
      · exact answer_samePort h _
      · exact (enterTag_samePort h _).also (beginTransfer_changes _ _ _)

theorem acceptAppend_samePort (r : Req) (j : JournalId) (c : Conf) (n : SlotId) :
    p.SamePort k (p.acceptAppend i r j c n) :=
  ((((((setSlot_changes _ _ _).samePort.also (handPad_changes _ n i j c _)).also (modConf_changes _ _ _)).also
    (fillCheck_changes _ j i)).trans (enterTag_samePort h _)).trans (modReq_samePort h _)).also (countAppend_changes _ _)

theorem append_samePort (r : Req) : p.SamePort k (p.append i r) := by
  unfold Part.append
  split
  · exact answer_samePort h _
  · split
    · exact (answer_samePort h _).also (countAppend_changes _ _)
    · split
      · exact .refl p
      · exact acceptAppend_samePort h _ _ _ _

theorem readRequest_samePort (r : Req) : p.SamePort k (p.readRequest i r) := by
  unfold Part.readRequest
  split
  · exact answer_samePort h _
  · split
    · exact (answer_samePort h _).also (countRead_changes _ _)
    · split
      · exact .refl p
      · exact ((((modConf_changes _ _ _).trans (setRead_changes _ _ _)).samePort.trans (enterTag_samePort h _)).also
          (countRead_changes _ _)).also (stage_changes _ _)

theorem trimRequest_samePort (r : Req) : p.SamePort k (p.trimRequest i r) := by
  unfold Part.trimRequest
  split
  · exact answer_samePort h _
  · split
    · exact answer_samePort h _
    · have hentered := fun f : Conf → Conf => fun j t =>
        (modConf_changes p j f).samePort.trans (enterTag_samePort (p := p.modConf j f) h t)
      unfold Part.acceptTrim
      dsimp only
      split
      · exact (hentered _ _ _).also (headAdvance_changes _ _)
      · exact (hentered _ _ _).also (hand_noRead_changes _ rfl)

theorem unknown_samePort (r : Req) (b : Bool) : p.SamePort k (p.unknown i r b) := by
  unfold Part.unknown
  split
  · exact answer_samePort h _
  · exact checked_samePort h (answer_samePort h _)

theorem lateData_samePort : p.SamePort k (p.lateData i) := modLink_samePort h _

theorem data_samePort (payload : List Byte) : p.SamePort k (p.data i payload) := by
  unfold Part.data
  split
  · exact lateData_samePort h
  · split
    · exact lateData_samePort h
    · split
      · exact lateData_samePort h
      · split
        · exact .refl p
        · split
          · exact (voidSlot_changes _ _ _).samePort
          · exact (takeData_changes _ _ _ _).samePort

/-! ## Waiting responses -/

theorem serveDone_samePort (hq : p.serveDone i = some q) : p.SamePort k q := by
  unfold Part.serveDone at hq
  split at hq
  · split at hq
    · split at hq
      · cases hq
        exact (((setWaits_samePort h _).trans (queueDeferred_samePort h _)).trans (modReq_samePort h _)).also
          (freeSlot_changes _ _)
      · cases hq
    · cases hq
  · cases hq

theorem serveWaiting_samePort (hq : p.serveWaiting i = some q) : p.SamePort k q := by
  unfold Part.serveWaiting at hq
  split at hq
  · split at hq
    · cases hq
      exact (setWaits_samePort h _).trans (queueDeferred_samePort h _)
    · cases hq
  · cases hq

/-! ## Frames sent and received -/

theorem sendResponse_samePort : p.SamePort k (p.sendResponse i) := by
  unfold Part.sendResponse
  split
  · exact .refl p
  · exact (modReq_samePort h _).trans (modLink_samePort h _)

theorem sendNotification_samePort : p.SamePort k (p.sendNotification i) := by
  unfold Part.sendNotification
  split
  · exact .refl p
  · exact ((takeNtf_changes _ _).samePort.trans (modReq_samePort h _)).trans (modLink_samePort h _)

theorem deliver_samePort (f : BufFrame) : p.SamePort k (p.deliver i f) := by
  unfold Part.deliver
  split
  · exact (modReq_samePort h _).trans (modLink_samePort h _)
  · unfold Part.overrun
    dsimp only
    split
    · exact ((modLink_samePort h _).trans (queueResp_samePort h _)).trans (modReq_samePort h _)
    · exact (modLink_samePort h _).trans (modReq_samePort h _)

theorem classify_samePort (t : SeqType) (x : Seq) (payload : List Byte) : p.SamePort k (p.classify i t x payload) := by
  unfold Part.classify
  split
  · unfold Part.receiveInOrder
    dsimp only
    split
    · exact (modLink_samePort h _).trans (deliver_samePort h _)
    · exact (modLink_samePort h _).trans (deliver_samePort h _)
    · exact (modLink_samePort h _).trans (modLink_samePort h _)
  · exact modLink_samePort h _
  · exact modLink_samePort h _

/-- A good frame in UP: its header is taken, and it does more where the link stays in UP (logs 14 and 15). -/
theorem frameUp_samePort {hd : Header} {further : Part → Part} (hf : ∀ q, Part.SamePort k q (further q)) :
    p.SamePort k (if ((p.headerHeard i hd).link i).state = .up then further (p.headerHeard i hd)
      else p.headerHeard i hd) := by
  split
  · exact (headerHeard_samePort h hd).trans (hf _)
  · exact headerHeard_samePort h hd

theorem goodSequenced_samePort (t : SeqType) (hd : Header) (payload : List Byte) :
    p.SamePort k (p.goodSequenced i t hd payload) := by
  unfold Part.goodSequenced
  split
  · exact modLink_samePort h _
  · exact (modLink_samePort h _).trans (modLink_samePort h _)
  · exact frameUp_samePort h fun q => classify_samePort h t hd.seq payload

theorem syncIdle_samePort : p.SamePort k (p.syncIdle i) := by
  unfold Part.syncIdle
  dsimp only
  split
  · exact ((modLink_samePort h _).trans (modLink_samePort h _)).trans (modReq_samePort h _)
  · exact modLink_samePort h _

/-- A good frame in DOWN may enter SYNC (R123). -/
theorem frameDown_samePort {b : Prop} [Decidable b] :
    p.SamePort k (if b then (p.modLink i LinkUnit.countGood).modLink i LinkUnit.enterSync
      else p.modLink i LinkUnit.countGood) := by
  split
  · exact (modLink_samePort h _).trans (modLink_samePort h _)
  · exact modLink_samePort h _

theorem goodIdle_samePort (hd : Header) : p.SamePort k (p.goodIdle i hd) := by
  unfold Part.goodIdle
  split
  · exact frameDown_samePort h
  · exact (modLink_samePort h _).trans (syncIdle_samePort h)
  · exact frameUp_samePort (further := fun q => q.modLink i fun u => u.idleSeq hd.seq) h fun q => modLink_samePort h _

theorem goodReset_samePort (hd : Header) : p.SamePort k (p.goodReset i hd) := by
  unfold Part.goodReset
  split
  · exact frameDown_samePort h
  · exact (modLink_samePort h _).trans (modLink_samePort h _)
  · exact frameUp_samePort (further := fun q => q.linkDown i .linkReset) h fun q => linkDown_samePort h _

end

/-! ## O6 -/

/-- An event whose own effect leaves the port alone. -/
theorem samePort_event {s t : State} {f : Part → Option Part}
    (ht : (.next (s.onPart fun p => p.event f) : Result) = .next t) (hf : ∀ q, f s.part = some q → s.part.SamePort k q) :
    s.part.SamePort k t.part := by
  cases ht
  exact event_samePort hf

/-- A command of a link unit alone, where a test holds. -/
theorem samePort_sends {s t : State} {b : Part → Prop} [DecidablePred b] {f : LinkUnit → LinkUnit} (h : i ≠ k)
    (ht : (.next (s.onPart fun p => p.event fun p => if b p then some (p.modLink i f) else none) : Result) = .next t) :
    s.part.SamePort k t.part := by
  refine samePort_event ht fun q hq => ?_
  split at hq
  · cases hq
    exact modLink_samePort h f
  · cases hq

theorem samePort_served {s t : State} {f : Part → Part} (ht : (.next (s.onPart f) : Result) = .next t)
    (hf : s.part.SamePort k (f s.part)) : s.part.SamePort k t.part := by
  cases ht
  exact hf

/-- Every command that names a port, by what its own effect does to the blocks of other ports. -/
theorem exec_samePort {c : Instr} {s t : State} (hc : portOf c = some i) (h : i ≠ k) (ht : exec c s = .next t) :
    s.part.SamePort k t.part := by
  cases c with cases hc
  | attach _ => exact samePort_served ht (intake_samePort h fun r _ => attach_samePort h r)
  | detach _ =>
    exact samePort_served ht (request_samePort h fun _ _ => (endSession_samePort h _).trans (answer_samePort h _))
  | status _ => exact samePort_served ht (request_samePort h fun r _ => status_samePort h r)
  | subscribe _ => exact samePort_served ht (request_samePort h fun r _ => subscribe_samePort h r)
  | unsubscribe _ => exact samePort_served ht (request_samePort h fun r _ => unsubscribe_samePort h r)
  | claim _ => exact samePort_served ht (request_samePort h fun r _ => claim_samePort h r)
  | release _ => exact samePort_served ht (request_samePort h fun r _ => release_samePort h r)
  | takeover _ => exact samePort_served ht (request_samePort h fun r _ => takeover_samePort h r)
  | append _ => exact samePort_served ht (request_samePort h fun r _ => append_samePort h r)
  | read _ => exact samePort_served ht (request_samePort h fun r _ => readRequest_samePort h r)
  | trim _ => exact samePort_served ht (request_samePort h fun r _ => trimRequest_samePort h r)
  | unknownRequest _ => exact samePort_served ht (intake_samePort h fun r _ => unknown_samePort h r _)
  | data _ =>
    refine samePort_event ht fun q hq => ?_
    obtain ⟨payload, -, rfl⟩ := Option.map_eq_some_iff.1 hq
    exact (taken_samePort h _).trans (data_samePort h payload)
  | appendDoneQueued _ => exact samePort_event ht fun _ => serveDone_samePort h
  | waitingResponseQueued _ => exact samePort_event ht fun _ => serveWaiting_samePort h
  | transmitSelect _ =>
    refine samePort_event ht fun q hq => ?_
    obtain ⟨source, -, rfl⟩ := Option.map_eq_some_iff.1 hq
    cases source with
    | responses => exact sendResponse_samePort h
    | notifications => exact sendNotification_samePort h
  | sendIdle _ => exact samePort_sends h ht
  | sendLinkReset _ => exact samePort_sends h ht
  | replaySend _ =>
    refine samePort_event ht fun q hq => ?_
    split at hq
    · cases hq
      exact modLink_samePort h _
    · cases hq
  | goodSequencedFrame _ ty hd payload =>
    refine samePort_event ht fun q hq => ?_
    split at hq
    · cases hq
      exact goodSequenced_samePort h ty hd payload
    · cases hq
      exact modLink_samePort h _
  | idleFrame _ hd => exact samePort_event ht fun _ hq => Option.some.inj hq ▸ goodIdle_samePort h hd
  | linkResetFrame f => exact samePort_event ht fun _ hq => Option.some.inj hq ▸ goodReset_samePort h f.header
  | frameCheckFail _ => exact samePort_event ht fun _ hq => Option.some.inj hq ▸ modLink_samePort h _
  | replayTimerExpiry _ =>
    refine samePort_event ht fun q hq => ?_
    split at hq
    · cases hq
      exact replayTrigger_samePort h
    · cases hq
  | silenceTimerExpiry _ =>
    refine samePort_event ht fun q hq => ?_
    split at hq
    · split at hq
      · cases hq
        exact linkDown_samePort h _
      · cases hq
        exact modLink_samePort h _
      · cases hq
    · cases hq

/-- Settles O6, by what each command leaves of another port. -/
theorem portCommandsKeepOtherPorts : Obligations.PortCommandsKeepOtherPorts := by
  intro c i k s t hc hk ht
  have hsame := exec_samePort hc (Ne.symm hk) ht
  exact ⟨hsame.link, hsame.req, hsame.waits⟩

end Sys2Proof.Machine
end

section
/-! The frames that a link unit sends beside new sequenced ones (O37). -/

namespace Sys2Proof.Machine

variable {p : Part} {s : State} {i : Port} {u : LinkUnit} {c : Instr} {act : Part → Option Part}

/-- An event that changes one port's link unit and nothing else. -/
theorem ends_modLink {w : LinkUnit} (hc : exec c s = .next (s.onPart fun p => p.event act))
    (hr : s.part.ret.running = true) (ha : act s.part = some (s.part.modLink i fun _ => w)) :
    Ends c s fun q => q = s.part.modLink i fun _ => w :=
  ends_event hc hr ha hr rfl

theorem ownCause_iff : u.ownCause = true ↔ u.cause = some .silence ∨ u.cause = some .replayLimit := by
  unfold LinkUnit.ownCause
  rw [Bool.or_eq_true, decide_eq_true_eq, decide_eq_true_eq]

/-! ## When an IDLE is sent (R123, R124, R133) -/

/-- A full replay buffer, or one that uses up the master's report, leaves no room for a new sequenced frame (R132, R136). -/
theorem ready_of_full (h : 16 ≤ u.replayBuf.length ∨ u.report ≤ u.replayBuf.length) : u.ready = false := by
  unfold LinkUnit.ready LinkUnit.masterCredit
  obtain hfull | hcredit := h
  · rw [decide_eq_false (p := u.replayBuf.length < Config.replayEntries) (Nat.not_lt.2 hfull), Bool.and_false,
      Bool.false_and]
  · rw [Nat.sub_eq_zero_of_le hcredit, decide_eq_false (Nat.lt_irrefl 0), Bool.and_false]

theorem selects_of_not_ready (h : (p.link i).ready = false) : p.selects i = none := by
  unfold Part.selects
  rw [h, if_neg Bool.false_ne_true]

theorem selects_of_empty (hresp : (p.req i).respQ = []) (hntf : (p.ntf i).queue = []) : p.selects i = none := by
  unfold Part.selects
  rw [hresp, hntf]
  split <;> rfl

theorem idles_sync (hs : (p.link i).state = .sync) : p.idles i = true := by
  unfold Part.idles
  rw [hs]

theorem idles_down (hs : (p.link i).state = .down) (hc : (p.link i).ownCause = false) : p.idles i = true := by
  unfold Part.idles
  rw [hs, hc]
  rfl

theorem idles_up (hs : (p.link i).state = .up) (hr : (p.link i).replay = none) (hn : p.selects i = none) :
    p.idles i = true := by
  unfold Part.idles
  rw [hs, hr, hn]
  rfl

/-! ## The frames (R122, R134) -/

theorem sendIdle_up (hs : u.state = .up) : u.sendIdle = u.sent typeIdle u.nextSeq [] :=
  (if_pos hs).trans (sendUp_eq u typeIdle u.nextSeq [])

theorem sendIdle_not_up (hs : u.state ≠ .up) : u.sendIdle = u.sendIdleForm typeIdle := if_neg hs

theorem resend_entry {k : Nat} {e : ReplayEntry} (he : u.replayBuf[k]? = some e) :
    u.resend k
      = ({ u with replay := if k + 1 < u.replayBuf.length then some (k + 1) else none } : LinkUnit).sent e.ftype.code
          e.seq e.payload := by
  unfold LinkUnit.resend
  rw [he]
  exact sendUp_eq _ _ _ _

theorem ends_sendIdle {w : LinkUnit} (hr : s.part.ret.running = true) (hi : s.part.idles i = true)
    (hw : (s.part.link i).sendIdle = w) : Ends (.sendIdle i) s fun q => q = s.part.modLink i fun _ => w := by
  subst hw
  exact ends_modLink rfl hr (if_pos hi)

/-- Settles O37: when the link unit sends an IDLE, and what each of the three frames leaves of it. -/
theorem linkSendsItsFrames : Obligations.LinkSendsItsFrames := by
  intro i s hrun p u sends ownCause silent
  refine ⟨fun hstate => ?_, fun hup hreplay hsilent => ?_, fun hdown hown => ?_, fun k e hup hreplay he => ?_⟩
  · obtain hsync | ⟨hdown, hnone⟩ := hstate
    · exact ends_sendIdle hrun (idles_sync hsync) (sendIdle_not_up fun h => nomatch hsync.symm.trans h)
    · have hother : u.ownCause = false := Bool.eq_false_iff.2 fun h => hnone (ownCause_iff.1 h)
      exact ends_sendIdle hrun (idles_down hdown hother) (sendIdle_not_up fun h => nomatch hdown.symm.trans h)
  · have hnone : p.selects i = none := by
      obtain hfull | hcredit | ⟨hresp, hntf⟩ := hsilent
      · exact selects_of_not_ready (ready_of_full (.inl hfull))
      · exact selects_of_not_ready (ready_of_full (.inr hcredit))
      · exact selects_of_empty hresp hntf
    exact ends_sendIdle hrun (idles_up hup hreplay hnone) (sendIdle_up hup)
  · exact ends_modLink rfl hrun (if_pos ⟨hdown, ownCause_iff.2 hown⟩)
  · refine ends_modLink rfl hrun ?_
    rw [← resend_entry he, hup, hreplay]
    rfl

end Sys2Proof.Machine
end

section
/-! Frames outside the sequence, and the way up through SYNC (O39). -/

namespace Sys2Proof.Machine

variable {p : Part} {s : State} {i : Port} {u v : LinkUnit} {h : Header} {t : SeqType} {payload : List Byte}

/-! ## IDLE frames in UP (R130) -/

/-- The header of an IDLE that does not take the link down is taken, and its sequence is then compared (log 14). -/
theorem goodIdle_takes (hu : (p.link i).state = .up) (hn : ¬(p.link i).nakEnds h) (ht : (p.link i).takes h v) :
    p.goodIdle i h = p.modLink i fun _ => v.idleSeq h.seq := by
  rw [goodIdle_up hu, headerHeard_takes hn ht, modLink_link_self, takes_state ht, if_pos hu, modLink_modLink]

section
variable {q : Seq}

theorem idleSeq_inOrder (hd : (q - u.expected).toNat = 0) :
    u.idleSeq q = { u with nak := if u.nak = .pending then .none else u.nak } := by
  unfold LinkUnit.idleSeq seqDistance
  rw [frameOrder_inOrder hd]
  dsimp only
  split <;> rfl

theorem idleSeq_ahead (h1 : 1 ≤ (q - u.expected).toNat) (h2 : (q - u.expected).toNat ≤ 47) :
    u.idleSeq q = u.owesNak := by
  unfold LinkUnit.idleSeq seqDistance
  rw [frameOrder_ahead h1 h2]
  exact nakDue_eq u

theorem idleSeq_duplicate (hd : 48 ≤ (q - u.expected).toNat) : u.idleSeq q = u := by
  unfold LinkUnit.idleSeq seqDistance
  rw [frameOrder_duplicate hd]

end

/-! ## Frames that fail the check (R121) -/

/-- The link unit with a check failure counted (R121). -/
def LinkUnit.countFailure (u : LinkUnit) : LinkUnit :=
  { u with cnt := { u.cnt with checkFailures := satInc u.cnt.checkFailures } }

theorem checkFail_down (hs : u.state = .down) : u.checkFail = u.countFailure := by
  cases u
  cases hs
  rfl

theorem checkFail_sync (hs : u.state = .sync) : u.checkFail = { u.countFailure with syncCount := 0 } := by
  cases u
  cases hs
  rfl

theorem checkFail_up (hs : u.state = .up) : u.checkFail = u.countFailure.owesNak := by
  cases u
  cases hs
  exact nakDue_eq _

/-! ## The replay timer below the limit (R134, R135) -/

theorem replayTrigger_replays (ht : (p.link i).triggered) (hl : (p.link i).replayCount < 8) :
    p.replayTrigger i = p.modLink i fun _ => (p.link i).replaying :=
  (replayTrigger_triggered ht).trans (if_pos hl)

/-- IDLE frames and failures: each event changes the port's link unit alone. -/
theorem idleFramesAndFailures : Rules.IdleFramesAndFailures := by
  intro i s hrun p u leaves failed fails
  have hidle : ∀ h v w, u.state = .up → ¬u.nakEnds h → u.takes h v → v.idleSeq h.seq = w → leaves (.idleFrame i h) w :=
    fun h v w hup hn ht hw => ends_modLink rfl hrun (congrArg some (hw ▸ goodIdle_takes hup hn ht))
  have hfails : ∀ c, (∀ w, u.checkFail = w → leaves c w) → fails c := fun c hc =>
    ⟨fun hs => hc _ (checkFail_down hs), fun hs => hc _ (checkFail_sync hs), fun hs => hc _ (checkFail_up hs)⟩
  refine ⟨fun h v hup hn ht => ?_, hfails _ fun w hw => ?_, fun t h payload hlen => hfails _ fun w hw => ?_,
    fun hup htimer => ⟨fun htrig hlimit => ?_, fun hnone => ?_⟩⟩
  · intro d
    have hd : d = (h.seq - v.expected).toNat := by rw [takes_expected ht]
    exact ⟨fun h0 => hidle h v _ hup hn ht (idleSeq_inOrder (hd ▸ h0)),
      fun h1 h47 => hidle h v _ hup hn ht (idleSeq_ahead (hd ▸ h1) (hd ▸ h47)),
      fun h48 => hidle h v _ hup hn ht (idleSeq_duplicate (hd ▸ h48))⟩
  · subst hw
    exact ends_modLink rfl hrun rfl
  · subst hw
    exact ends_modLink rfl hrun (if_neg (Nat.not_le.2 hlen))
  · exact ends_modLink rfl hrun ((if_pos ⟨hup, htimer⟩).trans (congrArg some (replayTrigger_replays htrig hlimit)))
  · refine ends_modLink rfl hrun ((if_pos ⟨hup, htimer⟩).trans (congrArg some ?_))
    rw [replayTrigger_none hnone]
    exact (modLink_id p i).symm

/-! ## Good frames in DOWN (R123) -/

theorem listens_iff : u.listens = true ↔ ¬(u.cause = some .silence ∨ u.cause = some .replayLimit) ∨ 8 ≤ u.resets := by
  unfold LinkUnit.listens
  rw [Bool.or_eq_true, Bool.not_eq_true', ← Bool.not_eq_true, ownCause_iff, decide_eq_true_eq]

/-- The link unit in DOWN after a good IDLE or LINK_RESET. -/
def LinkUnit.heardInDown (u : LinkUnit) : LinkUnit := if u.listens then u.countGood.enterSync else u.countGood

theorem modLink_heardInDown :
    (if (p.link i).listens then (p.modLink i LinkUnit.countGood).modLink i LinkUnit.enterSync
        else p.modLink i LinkUnit.countGood)
      = p.modLink i fun _ => (p.link i).heardInDown := by
  unfold LinkUnit.heardInDown
  split
  · exact modLink_modLink _ i _ _
  · rfl

theorem goodIdle_down (hd : (p.link i).state = .down) :
    p.goodIdle i h = p.modLink i fun _ => (p.link i).heardInDown := by
  rw [← modLink_heardInDown]
  unfold Part.goodIdle
  rw [hd]

theorem goodReset_down (hd : (p.link i).state = .down) :
    p.goodReset i h = p.modLink i fun _ => (p.link i).heardInDown := by
  rw [← modLink_heardInDown]
  unfold Part.goodReset
  rw [hd]

theorem goodSequenced_down (hd : (p.link i).state = .down) :
    p.goodSequenced i t h payload = p.modLink i fun _ => (p.link i).countGood := by
  unfold Part.goodSequenced
  rw [hd]
  rfl

/-! ## Good frames in SYNC (R124, R125) -/

/-- The link unit in SYNC after a good IDLE, before the count is compared (R124). -/
def LinkUnit.idleCounted (u : LinkUnit) : LinkUnit :=
  { u.countGood with syncCount := u.syncCount + 1, silenceTimer := true }

/-- The link unit in SYNC after any other good frame (R124). -/
def LinkUnit.syncRestarted (u : LinkUnit) : LinkUnit := { u.countGood with syncCount := 0, silenceTimer := true }

theorem goodIdle_sync (hs : (p.link i).state = .sync) :
    p.goodIdle i h
      = if 8 ≤ (p.link i).syncCount + 1 then
          (p.modLink i fun _ => (p.link i).idleCounted.enterUp).modReq i fun r => { r with prefers := .responses }
        else p.modLink i fun _ => (p.link i).idleCounted := by
  unfold Part.goodIdle
  rw [hs]
  unfold Part.syncIdle
  dsimp only
  rw [modLink_modLink, modLink_link_self, modLink_modLink]
  rfl

theorem goodReset_sync (hs : (p.link i).state = .sync) :
    p.goodReset i h = p.modLink i fun _ => (p.link i).syncRestarted := by
  unfold Part.goodReset
  rw [hs]
  exact modLink_modLink _ i _ _

theorem goodSequenced_sync (hs : (p.link i).state = .sync) :
    p.goodSequenced i t h payload = p.modLink i fun _ => (p.link i).syncRestarted := by
  unfold Part.goodSequenced
  rw [hs]
  exact modLink_modLink _ i _ _

/-- The way up, by what each good frame and silence leave of the link unit in DOWN and in SYNC. -/
theorem linksComeUpThroughSync : Rules.LinksComeUpThroughSync := by
  intro i s hrun p u leaves good ownCause synced
  refine ⟨fun hdown => ⟨fun hlistens => ?_, fun hown hresets => ?_, fun t h payload hlen => ?_⟩, fun hsync =>
    ⟨fun h hcount => ?_, fun h hcount => ?_, fun h => ?_, fun t h payload hlen => ?_, fun htimer => ?_⟩⟩
  · have hu : u.heardInDown = synced := if_pos (listens_iff.2 hlistens)
    exact fun h => ⟨ends_modLink rfl hrun (congrArg some (hu ▸ goodIdle_down hdown)),
      ends_modLink rfl hrun (congrArg some (hu ▸ goodReset_down hdown))⟩
  · have hu : u.heardInDown = good := if_neg fun hl =>
      (listens_iff.1 hl).elim (fun hno => hno hown) (Nat.not_le.2 hresets)
    exact fun h => ⟨ends_modLink rfl hrun (congrArg some (hu ▸ goodIdle_down hdown)),
      ends_modLink rfl hrun (congrArg some (hu ▸ goodReset_down hdown))⟩
  · exact ends_modLink rfl hrun ((if_pos hlen).trans (congrArg some (goodSequenced_down hdown)))
  · exact ends_modLink rfl hrun (congrArg some ((goodIdle_sync hsync).trans (if_neg (Nat.not_le.2 hcount))))
  · exact ends_event rfl hrun (congrArg some ((goodIdle_sync hsync).trans (if_pos hcount))) hrun rfl
  · exact ends_modLink rfl hrun (congrArg some (goodReset_sync hsync))
  · exact ends_modLink rfl hrun ((if_pos hlen).trans (congrArg some (goodSequenced_sync hsync)))
  · refine ends_modLink rfl hrun ?_
    rw [if_pos htimer, hsync]
    rfl

/-- Settles O39, by its two parts. -/
theorem framesOutsideTheSequence : Obligations.FramesOutsideTheSequence :=
  ⟨idleFramesAndFailures, linksComeUpThroughSync⟩

end Sys2Proof.Machine
end

section
/-! The bytes of a frame and the receive event they spell (O60). -/

namespace Sys2Proof.Machine

/-! ## Fields -/

theorem leNat_leBytes (n v : Nat) : leNat (leBytes n v) = v % 256 ^ n := by
  induction n generalizing v with
  | zero => exact (Nat.mod_one v).symm
  | succ n ih =>
    rw [leBytes, leNat, ih, BitVec.toNat_ofNat, pow_succ' 256]
    exact Nat.mod_mul.symm

theorem leNat_leBytes_of_lt {n v : Nat} (hv : v < 256 ^ n) : leNat (leBytes n v) = v := by
  rw [leNat_leBytes, Nat.mod_eq_of_lt hv]

/-! ## The parts of a frame (Table 11-2) -/

/-- The fourth byte of a frame: the NAK flag and the credit return. -/
def flagsByte (nak : Bool) (credit : Nat) : Byte := (if nak then 0x80#8 else 0#8) ||| BitVec.ofNat 8 credit

theorem flagsByte_fields (nak : Bool) {credit : Nat} (hc : credit < 16) :
    (flagsByte nak credit).msb = nak ∧ (flagsByte nak credit).setWidth 4 = BitVec.ofNat 4 credit := by
  have hall : ∀ (n : Bool) (k : Fin 16),
      (flagsByte n k.val).msb = n ∧ (flagsByte n k.val).setWidth 4 = BitVec.ofNat 4 k.val := by decide
  exact hall nak ⟨credit, hc⟩

theorem setWidth_seq (q : Seq) : (q.setWidth 8).setWidth 6 = q := by
  rw [BitVec.setWidth_setWidth_of_le _ (by decide), BitVec.setWidth_eq]

/-- The bytes of a frame before its check. -/
def frameBody (code : Byte) (seq ack : Seq) (nak : Bool) (credit : Nat) (payload : List Byte) : List Byte :=
  [code, seq.setWidth 8, ack.setWidth 8, flagsByte nak credit] ++ leBytes 2 payload.length ++ payload

section
variable (code : Byte) (seq ack : Seq) (nak : Bool) (credit : Nat) (payload : List Byte)

theorem frameBytes_eq :
    frameBytes code seq ack nak credit payload
      = frameBody code seq ack nak credit payload
        ++ leBytes 2 (crc16 (frameBody code seq ack nak credit payload)).toNat := rfl

theorem frameBody_length : (frameBody code seq ack nak credit payload).length = payload.length + 6 := by
  unfold frameBody
  simp only [List.length_append, leBytes_length, List.length_cons, List.length_nil]
  omega

theorem frameBytes_length : (frameBytes code seq ack nak credit payload).length = payload.length + 8 := by
  rw [frameBytes_eq, List.length_append, frameBody_length, leBytes_length]

theorem frameBytes_length_sub :
    (frameBytes code seq ack nak credit payload).length - 2 = (frameBody code seq ack nak credit payload).length := by
  rw [frameBytes_length, frameBody_length]
  omega

theorem take_frameBytes :
    (frameBytes code seq ack nak credit payload).take ((frameBytes code seq ack nak credit payload).length - 2)
      = frameBody code seq ack nak credit payload := by
  rw [frameBytes_length_sub, frameBytes_eq, List.take_left]

theorem leNat_drop_frameBytes :
    leNat ((frameBytes code seq ack nak credit payload).drop
        ((frameBytes code seq ack nak credit payload).length - 2))
      = (crc16 (frameBody code seq ack nak credit payload)).toNat := by
  rw [frameBytes_length_sub, frameBytes_eq, List.drop_left]
  exact leNat_leBytes_of_lt (BitVec.isLt _)

theorem drop_frameBody : (frameBody code seq ack nak credit payload).drop 6 = payload := rfl

theorem frameBody_lengthField (hl : payload.length < 65536) :
    field (frameBody code seq ack nak credit payload) 4 2 = payload.length := by
  change leNat (leBytes 2 payload.length) = payload.length
  exact leNat_leBytes_of_lt hl

theorem frameHeader_frameBytes (hc : credit < 16) :
    frameHeader (frameBytes code seq ack nak credit payload)
      = { seq := seq, ack := ack, nak := nak, credit := BitVec.ofNat 4 credit } := by
  obtain ⟨hnak, hcredit⟩ := flagsByte_fields nak hc
  change Header.mk ((seq.setWidth 8).setWidth 6) ((ack.setWidth 8).setWidth 6) (flagsByte nak credit).msb
    ((flagsByte nak credit).setWidth 4) = _
  rw [setWidth_seq, setWidth_seq, hnak, hcredit]

end

/-! ## The event (R121, R185) -/

/-- A sequenced frame with a payload that the length test lets through, else a check failure (R185). -/
def sequencedEvent (i : Port) (t : SeqType) (h : Header) (payload : List Byte) : Instr :=
  if payload.length ≤ Config.maxFramePayload then .goodSequencedFrame i t h payload else .frameCheckFail i

/-- The receive event of a frame whose check matches, by its type (Table 7-2). -/
def frameEvent (i : Port) (h : Header) (payload : List Byte) (code : Byte) : Instr :=
  match code.toNat with
  | 0x00 => if payload.length = 0 then .idleFrame i h else .frameCheckFail i
  | 0x01 => if payload.length = 0 then .linkResetFrame ⟨i, h⟩ else .frameCheckFail i
  | 0x10 => sequencedEvent i .req h payload
  | 0x11 => sequencedEvent i .data h payload
  | 0x20 => sequencedEvent i .rsp h payload
  | 0x21 => sequencedEvent i .rdata h payload
  | 0x22 => sequencedEvent i .ntf h payload
  | _ => .frameCheckFail i

/-- The bytes of a frame pass the three checks, and its type decides. -/
theorem frameCommand_frameBytes (i : Port) (code : Byte) (seq ack : Seq) (nak : Bool) {credit : Nat}
    {payload : List Byte} (hc : credit < 16) (hl : payload.length < 65536) :
    frameCommand i (frameBytes code seq ack nak credit payload)
      = frameEvent i { seq := seq, ack := ack, nak := nak, credit := BitVec.ofNat 4 credit } payload code := by
  have hlen : ¬(frameBytes code seq ack nak credit payload).length < 8 := by rw [frameBytes_length]; omega
  unfold frameCommand
  dsimp only
  rw [take_frameBytes, leNat_drop_frameBytes, frameBody_lengthField _ _ _ _ _ _ hl, drop_frameBody,
    frameHeader_frameBytes _ _ _ _ _ _ hc,
    if_neg fun hbad => hbad.elim hlen fun hbad => hbad.elim (fun hne => hne rfl) fun hne => hne rfl]
  rfl

theorem frameCommand_badCheck (i : Port) {bytes : List Byte}
    (h : leNat (bytes.drop (bytes.length - 2)) ≠ (crc16 (bytes.take (bytes.length - 2))).toNat) :
    frameCommand i bytes = .frameCheckFail i := if_pos (.inr (.inr h))

theorem frameEvent_unknown (i : Port) (h : Header) (payload : List Byte) {code : Byte}
    (hcode : code ∉ [0x00#8, 0x01, 0x10, 0x11, 0x20, 0x21, 0x22]) : frameEvent i h payload code = .frameCheckFail i := by
  have hne : ∀ k ∈ [0x00, 0x01, 0x10, 0x11, 0x20, 0x21, 0x22], code.toNat ≠ k := fun k hk heq =>
    hcode (List.mem_map.2 ⟨k, hk, by rw [← heq, BitVec.ofNat_toNat, BitVec.setWidth_eq]⟩ :
      code ∈ [0x00, 0x01, 0x10, 0x11, 0x20, 0x21, 0x22].map (BitVec.ofNat 8))
  unfold frameEvent
  split
  case h_8 => rfl
  case h_1 hk | h_2 hk | h_3 hk | h_4 hk | h_5 hk | h_6 hk | h_7 hk => exact absurd hk (hne _ (by decide))

/-- Settles O60: a frame's bytes come back as its type's event, and a check that does not match fails first. -/
theorem framesAreReceivedAsTheySpell : Obligations.FramesAreReceivedAsTheySpell := by
  intro i seq ack nak credit payload hcredit hlen h reads
  have hempty : ∀ code, reads code [] = frameEvent i h [] code := fun code =>
    frameCommand_frameBytes i code seq ack nak hcredit (by decide)
  have hreads : ∀ code, reads code payload = frameEvent i h payload code := fun code =>
    frameCommand_frameBytes i code seq ack nak hcredit (by omega)
  have hseq : ∀ t, sequencedEvent i t h payload = .goodSequencedFrame i t h payload := fun _ => if_pos hlen
  refine ⟨hempty _, hempty _, (hreads _).trans (hseq _), (hreads _).trans (hseq _), (hreads _).trans (hseq _),
    (hreads _).trans (hseq _), (hreads _).trans (hseq _), fun hne => ?_, fun code hcode => ?_,
    fun bytes _ hcheck => frameCommand_badCheck i hcheck⟩
  · have hnonzero : payload.length ≠ 0 := fun h0 => hne (List.length_eq_zero_iff.1 h0)
    exact ⟨(hreads _).trans (if_neg hnonzero), (hreads _).trans (if_neg hnonzero)⟩
  · exact (hreads code).trans (frameEvent_unknown i h payload hcode)

end Sys2Proof.Machine
end

section
/-! What stops a command (O3). -/

namespace Sys2Proof.Machine

set_option Elab.async false

/-- The completion of an access answers a next state, or the access in flight ends above DRAM (log 26). -/
theorem complete_stops (s : State) (act : Client → Option (Nat → List Byte → Part → Part)) :
    (∃ t, s.complete act = .next t)
      ∨ (s.complete act = .fault .addressOutsideDram
        ∧ ∃ a, s.part.mem.op = some (.access a) ∧ Config.dramBytes < a.addr + Config.burstBytes) := by
  unfold State.complete
  split
  · next a hop =>
    split
    · exact .inl ⟨_, rfl⟩
    · split
      · exact .inl ⟨_, rfl⟩
      · split
        · next hout => exact .inr ⟨rfl, a, hop, hout⟩
        · exact .inl ⟨_, rfl⟩
  · exact .inl ⟨_, rfl⟩

/-- Settles O3: the commands that complete an access do as `complete_stops` says, and every other answers a next state. -/
theorem commandsStopOutsideDramOnly : Obligations.CommandsStopOutsideDramOnly := by
  intro c s
  cases c with dsimp only [exec]
  | appendWriteComplete | directoryWriteComplete | deviceHeaderWriteComplete | trimCheckComplete | readBurstComplete
  | formatWritesComplete | coldStartWriteComplete | headerLoadComplete | entryLoadComplete | directoryRewriteComplete =>
    exact complete_stops s _
  | _ => exact .inl ⟨_, rfl⟩

end Sys2Proof.Machine
end

section
/-! What the arbiter chooses (O40). -/

namespace Sys2Proof.Machine

set_option Elab.async false

/-! ## Queued accesses that nothing holds back (R144) -/

/-- The access at place `i` of the queue, with no older access to its burst before it. -/
def MemEngine.free (m : MemEngine) (i : Nat) (a : Access) : Prop :=
  m.queue[i]? = some a ∧ ∀ b ∈ m.queue.take i, b.addr ≠ a.addr

variable {m : MemEngine} {i : Nat} {a : Access} {c : AccessClass}

theorem free_lt (ha : m.free i a) : i < m.queue.length := (List.getElem?_eq_some_iff.1 ha.1).1

theorem eligible_iff : m.eligible c i = true ↔ ∃ a, m.free i a ∧ a.cls = c := by
  unfold MemEngine.eligible MemEngine.free
  cases hq : m.queue[i]? with
  | none => simp
  | some a =>
    simp only [Bool.and_eq_true, decide_eq_true_eq, List.all_eq_true]
    refine ⟨fun ⟨hcls, hfree⟩ => ⟨a, ⟨rfl, hfree⟩, hcls⟩, fun ⟨b, ⟨hb, hfree⟩, hcls⟩ => ?_⟩
    cases hb
    exact ⟨hcls, hfree⟩

/-- With no directory access free, a free access is an ordinary one. -/
theorem eligible_ordinary (h : ∀ k b, m.free k b → b.cls = .ordinary) :
    m.eligible .ordinary i = true ↔ ∃ a, m.free i a :=
  eligible_iff.trans ⟨fun ⟨a, ha, _⟩ => ⟨a, ha⟩, fun ⟨a, ha⟩ => ⟨a, ha, h i a ha⟩⟩

theorem rowHitAt_free (ha : m.free i a) : m.rowHitAt i = m.rowHit a := by
  unfold MemEngine.rowHitAt
  rw [ha.1]
  rfl

theorem rowHit_iff : m.rowHit a = true ↔ (m.banks.get (bankOf a.addr)).openRow = some (a.addr / 65536) :=
  decide_eq_true_iff

/-! ## The first place of the queue that passes a test -/

/-- The first place of the queue that passes a test. -/
theorem find_place {test : Nat → Bool} (hi : i < m.queue.length) (ht : test i = true)
    (hfirst : ∀ k, k < i → ¬test k = true) : (List.range m.queue.length).find? test = some i := by
  rw [List.find?_range_eq_some]
  exact ⟨ht, List.mem_range.2 hi, fun k hk => by rw [Bool.eq_false_iff.2 (hfirst k hk)]; rfl⟩

theorem find_no_place {test : Nat → Bool} (h : ∀ k, ¬test k = true) : (List.range m.queue.length).find? test = none :=
  List.find?_eq_none.2 fun k _ => h k

/-! ## The choice among the queued accesses (R143, R145) -/

/-- The oldest directory access not held back goes first (R143). -/
theorem pick_directory (ha : m.free i a) (hcls : a.cls = .directory)
    (hfirst : ∀ k b, k < i → m.free k b → b.cls = .ordinary) : m.pick = some ⟨i, false⟩ := by
  have hfind := find_place (free_lt ha) (eligible_iff.2 ⟨a, ha, hcls⟩) fun k hk helig => by
    obtain ⟨b, hb, hdir⟩ := eligible_iff.1 helig
    rw [hfirst k b hk hb] at hdir
    cases hdir
  unfold MemEngine.pick
  rw [hfind]

section
variable (hord : ∀ k b, m.free k b → b.cls = .ordinary)
include hord

theorem pick_ordinary : m.pick = m.pickOrdinary := by
  have hfind := find_no_place (m := m) (test := m.eligible .directory) fun k helig => by
    obtain ⟨b, hb, hdir⟩ := eligible_iff.1 helig
    rw [hord k b hb] at hdir
    cases hdir
  unfold MemEngine.pick
  rw [hfind]

variable (ha : m.free i a) (hhead : ∀ k b, k < i → ¬m.free k b)
include ha hhead

/-- The head of the ordinary accesses, the oldest one not held back. -/
theorem find_head : (List.range m.queue.length).find? (m.eligible .ordinary) = some i :=
  find_place (free_lt ha) ((eligible_ordinary hord).2 ⟨a, ha⟩) fun k hk helig =>
    have ⟨b, hb⟩ := (eligible_ordinary hord).1 helig
    hhead k b hk hb

/-- The head goes first when it was passed over 4 times, finds its row open, or none of the others does (R145). -/
theorem pickOrdinary_head (hgoes : 4 ≤ a.bypass ∨ m.rowHit a = true ∨ ∀ k b, m.free k b → ¬m.rowHit b = true) :
    m.pickOrdinary = some ⟨i, false⟩ := by
  unfold MemEngine.pickOrdinary
  rw [find_head hord ha hhead]
  dsimp only
  rw [rowHitAt_free ha, ha.1]
  split
  · rfl
  · next hstays =>
    have hmiss : ∀ k b, m.free k b → ¬m.rowHit b = true :=
      (hgoes.resolve_left fun h => hstays (.inl h)).resolve_left fun h => hstays (.inr h)
    rw [find_no_place fun k hk => by
      rw [Bool.and_eq_true, eligible_ordinary hord] at hk
      obtain ⟨⟨b, hb⟩, hhit⟩ := hk
      rw [rowHitAt_free hb] at hhit
      exact hmiss k b hb hhit]

/-- Else the oldest one not held back that finds its row open passes the older ones over (R145). -/
theorem pickOrdinary_hit {r : Nat} {b : Access} (hbypass : a.bypass < 4) (hmiss : ¬m.rowHit a = true)
    (hb : m.free r b) (hhit : m.rowHit b = true) (hfirst : ∀ k c, k < r → m.free k c → ¬m.rowHit c = true) :
    m.pickOrdinary = some ⟨r, true⟩ := by
  unfold MemEngine.pickOrdinary
  rw [find_head hord ha hhead]
  dsimp only
  rw [rowHitAt_free ha, ha.1, if_neg fun h => h.elim (Nat.not_le.2 hbypass) hmiss, find_place (free_lt hb)]
  · rw [Bool.and_eq_true, eligible_ordinary hord, rowHitAt_free hb]
    exact ⟨⟨b, hb⟩, hhit⟩
  · intro k hk htest
    rw [Bool.and_eq_true, eligible_ordinary hord] at htest
    obtain ⟨⟨c, hc⟩, hchit⟩ := htest
    rw [rowHitAt_free hc] at hchit
    exact hfirst k c hk hc hchit

end

/-! ## An access taken (R145) -/

theorem take_in_order (ha : m.free i a) :
    m.take ⟨i, false⟩ = { m with queue := m.queue.eraseIdx i, op := some (.access a) } := by
  unfold MemEngine.take
  dsimp only
  rw [if_neg Bool.false_ne_true, ha.1]

/-- With no directory access free, the accesses passed over are the older ones that nothing holds back. -/
theorem passOver_eq (hord : ∀ k b, m.free k b → b.cls = .ordinary) (r : Nat) :
    m.passOver r = m.queue.mapIdx fun k c =>
      if k < r ∧ (∀ d ∈ m.queue.take k, d.addr ≠ c.addr) then { c with bypass := min 4 (c.bypass + 1) } else c := by
  refine List.mapIdx_eq_mapIdx_iff.2 fun k hk => ?_
  have hfree : m.eligible .ordinary k = true ↔ ∀ d ∈ m.queue.take k, d.addr ≠ (m.queue[k]).addr := by
    have hget := List.getElem?_eq_getElem hk
    rw [eligible_ordinary hord]
    exact ⟨fun ⟨b, hb⟩ => Option.some.inj (hb.1.symm.trans hget) ▸ hb.2, fun h => ⟨_, hget, h⟩⟩
  simp only [hfree]

theorem take_passing (hord : ∀ k b, m.free k b → b.cls = .ordinary) (ha : m.free i a) :
    m.take ⟨i, true⟩ =
      { m with
        queue :=
          (m.queue.mapIdx fun k c =>
            if k < i ∧ (∀ d ∈ m.queue.take k, d.addr ≠ c.addr) then { c with bypass := min 4 (c.bypass + 1) }
            else c).eraseIdx i
        op := some (.access a) } := by
  rw [← passOver_eq hord]
  have hplace : (m.passOver i)[i]? = some a := by
    rw [passOver_eq hord, List.getElem?_mapIdx, ha.1]
    simp
  unfold MemEngine.take
  dsimp only
  rw [if_pos rfl, hplace]

/-! ## The command path free in ACTIVE (R143) -/

section
variable {urgent : Nat} (hop : m.op = none) (hactive : m.cond = .active)
include hop hactive

theorem arbitrate_urgent (h : m.postExit = true ∨ urgent ≤ m.debt) :
    m.arbitrate urgent = { m with op := some (.refresh .urgent) } := by
  unfold MemEngine.arbitrate
  rw [if_neg (by rw [hop, hactive]; simp), if_pos h]

variable (hexit : m.postExit = false) (hdebt : m.debt < urgent)
include hexit hdebt

theorem arbitrate_takes {k : Pick} (hpick : m.pick = some k) : m.arbitrate urgent = m.take k := by
  unfold MemEngine.arbitrate
  rw [if_neg (by rw [hop, hactive]; simp), if_neg (by rw [hexit]; simp; omega), hpick]

theorem arbitrate_idle (hpick : m.pick = none) :
    m.arbitrate urgent =
      if m.entryWaiting then { m with op := some .entry, entryWaiting := false }
      else if 0 < m.debt then { m with op := some (.refresh .opportunistic) }
      else m := by
  unfold MemEngine.arbitrate
  rw [if_neg (by rw [hop, hactive]; simp), if_neg (by rw [hexit]; simp; omega), hpick]

end

theorem pick_empty (h : m.queue = []) : m.pick = none := by
  unfold MemEngine.pick MemEngine.pickOrdinary
  rw [h]
  rfl

theorem arbitrate_busy {urgent : Nat} (h : m.op ≠ none ∨ m.cond ≠ .active) : m.arbitrate urgent = m :=
  if_pos (h.imp_left Option.isSome_iff_ne_none.2)

/-- Settles O40: by the lines of Table 8-3, the choice among the queued accesses being `pick`'s. -/
theorem arbiterChooses : Obligations.ArbiterChooses := by
  intro m urgent free hit runs
  refine ⟨arbitrate_busy, fun hop hactive => ⟨arbitrate_urgent hop hactive, fun hexit hdebt => ?_⟩⟩
  have takes {k : Pick} (hpick : m.pick = some k) := arbitrate_takes hop hactive hexit hdebt hpick
  refine ⟨fun i a ha hcls hfirst => ?_,
    fun hord => ⟨fun h a ha hhead => ⟨fun hgoes => ?_, fun hbypass hmiss i b hb hhit hfirst => ?_⟩,
      fun hempty hwaits => ?_, fun hempty hwaits => ?_⟩⟩
  · rw [takes (pick_directory ha hcls hfirst)]
    exact take_in_order ha
  · have hgoes' := hgoes.imp_right (Or.imp rowHit_iff.2 fun hmiss k b hb hbhit => hmiss k b hb (rowHit_iff.1 hbhit))
    rw [takes ((pick_ordinary hord).trans (pickOrdinary_head hord ha hhead hgoes'))]
    exact take_in_order ha
  · have hpick := pickOrdinary_hit hord ha hhead hbypass (fun h => hmiss (rowHit_iff.1 h)) hb (rowHit_iff.2 hhit)
      fun k c hk hc hchit => hfirst k c hk hc (rowHit_iff.1 hchit)
    rw [takes ((pick_ordinary hord).trans hpick)]
    exact take_passing hord hb
  · rw [arbitrate_idle hop hactive hexit hdebt (pick_empty hempty)]
    exact if_pos hwaits
  · rw [arbitrate_idle hop hactive hexit hdebt (pick_empty hempty)]
    exact if_neg (ne_true_of_eq_false hwaits)

end Sys2Proof.Machine
end

section
/-! A completed access in DRAM and in the bank table (O42). -/

namespace Sys2Proof.Machine

set_option Elab.async false

/-! ## DRAM after an access (R142, R148) -/

theorem read_writeBytes {m : List Host.Cell} (hm : Memory.wf m) (start x : Nat) (bs : List Byte) :
    Memory.read (Memory.writeBytes m start bs) x =
      if start ≤ x ∧ x - start < bs.length then byteAt bs (x - start) else Memory.read m x := by
  split
  · next h =>
    have hx : x = start + (x - start) := by omega
    rw [hx, Memory.read_writeBytes_in bs hm _ _ h.2, ← hx]
    exact (List.getD_eq_getElem _ _ h.2).symm
  · next h => exact Memory.read_writeBytes_out bs m start x (by omega)

/-- One granule written, where the mask names it, with its bytes of the burst's data (R148). -/
def Memory.writeGranule (start : Nat) (mask : BitVec 8) (data : List Byte) (m : List Host.Cell) (g : Nat) :
    List Host.Cell :=
  if mask.getLsbD g then Memory.writeBytes m (start + 8 * g) ((data.drop (8 * g)).take 8) else m

section
variable {m : List Host.Cell} (hm : Memory.wf m) (start x : Nat) (mask : BitVec 8) (data : List Byte)
include hm

theorem wf_writeGranule (g : Nat) : Memory.wf (Memory.writeGranule start mask data m g) := by
  unfold Memory.writeGranule
  split
  · exact Memory.wf_writeBytes _ hm _
  · exact hm

theorem read_writeGranule (g : Nat) :
    Memory.read (Memory.writeGranule start mask data m g) x =
      if (start ≤ x ∧ x - start < data.length) ∧ (x - start) / 8 = g ∧ mask.getLsbD ((x - start) / 8) = true then
        byteAt data (x - start)
      else Memory.read m x := by
  unfold Memory.writeGranule
  split
  · next hg =>
    rw [read_writeBytes hm, List.length_take, List.length_drop]
    refine ite_congr (propext ⟨fun h => ?_, fun ⟨_, hx, _⟩ => by omega⟩) (fun ⟨h, hx, _⟩ => ?_) fun _ => rfl
    · have hx : (x - start) / 8 = g := by omega
      exact ⟨by omega, hx, hx ▸ hg⟩
    · unfold byteAt
      rw [List.getD_eq_getElem?_getD, List.getD_eq_getElem?_getD, List.getElem?_take_of_lt (by omega), List.getElem?_drop]
      congr 2
      omega
  · next hg => exact (if_neg fun ⟨_, hx, hmask⟩ => hg (hx ▸ hmask)).symm

end

theorem read_foldl_writeGranule (start x : Nat) (mask : BitVec 8) (data : List Byte) (gs : List Nat) :
    ∀ {m : List Host.Cell}, Memory.wf m →
      Memory.read (gs.foldl (Memory.writeGranule start mask data) m) x =
        if (start ≤ x ∧ x - start < data.length) ∧ (x - start) / 8 ∈ gs ∧ mask.getLsbD ((x - start) / 8) = true then
          byteAt data (x - start)
        else Memory.read m x := by
  induction gs with
  | nil => simp
  | cons g gs ih =>
    intro m hm
    rw [List.foldl_cons, ih (wf_writeGranule hm ..), read_writeGranule hm, ← ite_or]
    refine ite_congr (propext ?_) (fun _ => rfl) fun _ => rfl
    rw [List.mem_cons]
    tauto

/-- A burst written under a mask (R148). -/
theorem read_writeMasked {m : List Host.Cell} (hm : Memory.wf m) (start x : Nat) (mask : BitVec 8) (data : List Byte) :
    Memory.read (Memory.writeMasked m start mask data) x =
      if (start ≤ x ∧ x - start < data.length) ∧ x - start < 64 ∧ mask.getLsbD ((x - start) / 8) = true then
        byteAt data (x - start)
      else Memory.read m x := by
  refine (read_foldl_writeGranule start x mask data (List.range 8) hm).trans
    (ite_congr (propext ?_) (fun _ => rfl) fun _ => rfl)
  rw [List.mem_range, Nat.div_lt_iff_lt_mul (by decide)]

/-- A full write is one under the mask of all granules (R148). -/
theorem fullMask_granule {k : Nat} (h : k < 64) : (0xFF#8).getLsbD (k / 8) = true := by
  have hbit : ∀ g : Fin 8, (0xFF#8).getLsbD g.val = true := by decide
  exact hbit ⟨k / 8, by omega⟩

/-- An access leaves its own bytes in the granules that its kind writes (R142, R148). -/
theorem read_store {m : List Host.Cell} (hm : Memory.wf m) (a : Access) (x : Nat) :
    Memory.read (a.store m) x = a.leaves m x := by
  unfold Access.store Access.leaves
  cases a.kind with
  | read => simp
  | fullWrite =>
    refine (read_writeMasked hm a.addr x _ a.data).trans (ite_congr (propext ?_) (fun _ => rfl) fun _ => rfl)
    exact ⟨fun ⟨⟨hle, hlen⟩, hlt, _⟩ => ⟨hle, hlt, hlen, .inl rfl⟩,
      fun ⟨hle, hlt, hlen, _⟩ => ⟨⟨hle, hlen⟩, hlt, fullMask_granule hlt⟩⟩
  | maskedWrite =>
    refine (read_writeMasked hm a.addr x _ a.data).trans (ite_congr (propext ?_) (fun _ => rfl) fun _ => rfl)
    exact ⟨fun ⟨⟨hle, hlen⟩, hlt, hmask⟩ => ⟨hle, hlt, hlen, .inr ⟨rfl, hmask⟩⟩,
      fun ⟨hle, hlt, hlen, hmask⟩ => ⟨⟨hle, hlen⟩, hlt, (hmask.resolve_left (by decide)).2⟩⟩

/-! ## The bank table (R146, R147, R159) -/

/-- The bank after an access: open or closed by the row policy, its counters raised. -/
theorem carryOut_bank (m : MemEngine) (a : Access) (policy : RowPolicy) :
    let b := m.banks.get (bankOf a.addr)
    let hit := b.openRow = some (a.addr / 65536)
    let full := a.kind = .fullWrite ∨ (a.kind = .maskedWrite ∧ a.mask = 0xFF#8)
    (m.carryOut a policy).banks.get (bankOf a.addr) =
      { openRow := if policy = .openPage then some (a.addr / 65536) else none
        activations := if hit then b.activations else satInc b.activations
        rowHits := if hit then satInc b.rowHits else b.rowHits
        fullWrites := if full then satInc b.fullWrites else b.fullWrites
        maskedWrites := if a.kind = .maskedWrite ∧ ¬full then satInc b.maskedWrites else b.maskedWrites } := by
  intro b hit full
  have hhit : m.rowHit a = true ↔ hit := rowHit_iff
  unfold MemEngine.carryOut
  dsimp only
  rw [putAt_get_self]
  simp only [hhit, Bool.and_eq_true, Bool.or_eq_true, Bool.not_eq_true', decide_eq_true_eq, ← Bool.not_eq_true]
  cases policy with
  | openPage => rfl
  | closePage => rfl

/-- Settles O42: `read_store` for the bytes, `carryOut_bank` for the bank, and no other bank is written. -/
theorem accessesReachDram : Obligations.AccessesReachDram := by
  intro p a hm b hit full m
  exact ⟨read_store hm a, rfl, rfl, rfl, rfl, fun k hk => putAt_get_ne _ (Ne.symm hk) _, carryOut_bank p.mem a _⟩

end Sys2Proof.Machine
end

section
/-! The refresh account, and the orders of the retention controller to the DRAM (O43). -/

namespace Sys2Proof.Machine

set_option Elab.async false

variable {p : Part}

/-! ## Refreshes (R149, R150) -/

theorem refreshOwed_below (h : p.mem.debt < 8) :
    p.refreshOwed = (p.modMem fun m => { m with debt := m.debt + 1 }).arbitrate := if_pos h

theorem refreshOwed_limit (h : 8 ≤ p.mem.debt) :
    p.refreshOwed =
      (({ p with dram := Memory.writeCells p.dram (Config.lostBytes p.mem.missCount) }.modMem MemEngine.missed).raise
        causeRefreshMissed).arbitrate := if_neg (Nat.not_lt.2 h)

theorem refreshed_eq (m : MemEngine) (k : RefreshKind) :
    m.refreshed k =
      { m with
        op := none
        banks := m.banks.map fun b => { b with openRow := none }
        debt := m.debt - 1
        postExit := false
        cnt :=
          if k = .urgent then { m.cnt with urgent := satInc m.cnt.urgent }
          else { m.cnt with opportunistic := satInc m.cnt.opportunistic } } := by
  cases k with
  | urgent => rfl
  | opportunistic => rfl

theorem refreshesAreAccounted : Rules.RefreshesAreAccounted := by
  intro s hrun p m u
  refine ⟨fun htimer hdebt => ?_, fun htimer hdebt => ?_, fun k hop => ?_⟩
  · refine ends_event rfl hrun (if_pos htimer) ((refreshOwed_changes p).ret.symm ▸ hrun) ?_
    rw [refreshOwed_below hdebt]
    exact ⟨rfl, rfl, rfl⟩
  · refine ends_event rfl hrun (if_pos htimer) ((refreshOwed_changes p).ret.symm ▸ hrun) ?_
    rw [refreshOwed_limit hdebt]
    obtain ⟨-, hparams, -⟩ := raise_raised p.maint causeRefreshMissed
    refine ⟨?_, raise_pending p.maint causeRefreshMissed, rfl⟩
    exact congrArg (fun x : Params => m.missed.arbitrate x.urgent.toNat) hparams
  · refine ends_event (r := (p.modMem fun m => m.refreshed k).arbitrate) rfl hrun (by rw [hop]) hrun ⟨?_, rfl⟩
    exact congrArg (MemEngine.arbitrate · u) (refreshed_eq m k)

/-! ## Orders that no work waits for (R153, R154, R156) -/

theorem initialiseDone_alone (h : p.ctl.work ≠ .coldInit ∨ p.ctl.abandoned = true) :
    p.initialiseDone = ({ p with dram := [] }.modMem MemEngine.initialised).arbitrate :=
  if_neg fun ⟨hwork, hgoes⟩ => h.elim (· hwork) (ne_true_of_eq_false hgoes)

theorem exitComplete_alone (h : (p.ctl.work ≠ .coldExit ∧ p.ctl.work ≠ .restoreExit) ∨ p.ctl.abandoned = true) :
    p.exitComplete = ((p.modMem MemEngine.exited).modRet fun r => { r with selfRefresh := false }).arbitrate := by
  unfold Part.exitComplete
  dsimp only
  split
  · rfl
  · next hgoes =>
    obtain ⟨hcold, hrestore⟩ := h.resolve_right hgoes
    split
    · next hwork => exact absurd hwork hcold
    · next hwork => exact absurd hwork hrestore
    · rfl

theorem entryDone_alone (h : p.ret.mode = .serving ∨ (p.ret.mode = .quiescing ∧ p.ctl.drainOrdered = false)) :
    p.entryDone = p := by
  unfold Part.entryDone
  rcases h with hserving | ⟨hquiescing, hordered⟩
  · rw [hserving]
  · rw [hquiescing]
    exact if_neg (ne_true_of_eq_false hordered)

/-- The part at the end of a self-refresh entry, before the retention controller acts on it (R154). -/
def Part.inSelfRefresh (p : Part) : Part :=
  (p.modMem MemEngine.inSelfRefresh).modRet fun r => { r with selfRefresh := true }

theorem entryComplete_eq (p : Part) : p.entryComplete = p.inSelfRefresh.entryDone := rfl

theorem dramOrdersComplete : Rules.DramOrdersComplete := by
  intro s hrun p m u closed
  refine ⟨fun hop halone => ?_, fun hop halone => ?_, fun hop halone => ?_⟩
  · refine ends_event rfl hrun (if_pos hop) ?_ ?_
    · rw [initialiseDone_alone halone]; exact hrun
    · rw [initialiseDone_alone halone]; exact ⟨rfl, rfl⟩
  · refine ends_event rfl hrun (if_pos hop) ?_ ?_
    · rw [exitComplete_alone halone]; exact hrun
    · rw [exitComplete_alone halone]
      exact ⟨arbitrate_urgent (m := m.exited) (urgent := u) rfl rfl (.inl rfl), rfl, rfl⟩
  · have hdone : p.entryComplete = p.inSelfRefresh := entryDone_alone (p := p.inSelfRefresh) halone
    exact ends_event rfl hrun ((if_pos hop).trans (congrArg some hdone)) hrun ⟨rfl, rfl, rfl⟩

/-- Settles O43, by its two parts. -/
theorem refreshesAndOrdersComplete : Obligations.RefreshesAndOrdersComplete := ⟨refreshesAreAccounted, dramOrdersComplete⟩

end Sys2Proof.Machine
end

section
/-! A fall of PFAIL_N outside SERVING, and the end of the work it abandons (O50). -/

namespace Sys2Proof.Machine

set_option Elab.async false

variable {p : Part} {s : State}

/-! ## RETAINING, and the start that may follow it (R167, R173) -/

/-- The conditions under which RETAINING is left at once. -/
def Retention.startsAgain (r : Retention) : Prop :=
  r.pfailHigh = true ∧ r.retentionPower = true ∧ r.mainPower = true ∧ r.rstHigh = true

theorem retain_startsAgain (p : Part) :
    (p.retain.ret.pfailHigh && p.retain.ret.mayStart) = true ↔ p.ret.startsAgain := by
  rw [retain_ret, Bool.and_eq_true, mayStart_iff]
  exact ⟨fun ⟨hhigh, hpower, hmain, hrst, _⟩ => ⟨hhigh, hpower, hmain, hrst⟩,
    fun ⟨hhigh, hpower, hmain, hrst⟩ => ⟨hhigh, hpower, hmain, hrst, rfl⟩⟩

theorem retainOrStart_retains (h : ¬p.ret.startsAgain) : p.retainOrStart = p.retain :=
  if_neg fun hagain => h ((retain_startsAgain p).1 hagain)

theorem retainOrStart_starts (h : p.ret.startsAgain) : p.retainOrStart = p.retain.startHigh :=
  if_pos ((retain_startsAgain p).2 h)

/-- A start overwrites the mode, and keeps of the part before it its DRAM and the model's count of missed refreshes. -/
theorem startsHigh_of_retain {q : Part} (h : p.retain.startsHigh q p.retain.ret) : p.startsHigh q p.ret := by
  unfold Part.startsHigh Part.startsFresh at h ⊢
  rw [retain_ret, (retain_changes p).mem, (retain_changes p).dram] at h
  exact h

theorem retainOrStart_startsHigh (h : p.ret.startsAgain) : p.startsHigh p.retainOrStart p.ret := by
  rw [retainOrStart_starts h]
  exact startsHigh_of_retain (startHigh_startsHigh p.retain)

theorem startsHigh_running {q : Part} {r : Retention} (h : p.startsHigh q r) (hself : r.selfRefresh = true) :
    q.ret.running = true := by
  obtain ⟨-, hwarm, hcold⟩ := h
  cases hflag : r.flag with
  | true => rw [(hwarm hflag hself).1]
  | false => rw [(hcold hflag).1]

/-! ## The entry order of abandoned work (R154, R173) -/

/-- The modes in which a fall of PFAIL_N abandons the work in hand. -/
def Mode.abandons (m : Mode) : Prop := m = .initializing ∨ m = .restoring

theorem entryDone_abandoned (hmode : p.ret.mode.abandons) (h : p.ctl.abandoned = true) :
    p.entryDone = p.retainOrStart := by
  unfold Part.entryDone
  rcases hmode with hmode | hmode
  · rw [hmode]
    exact if_pos h
  · rw [hmode]
    exact if_pos h

/-- The work in hand given up (R173). -/
def Control.givenUp (c : Control) : Control :=
  { c with abandoned := true, cnt := { c.cnt with abandoned := satInc c.cnt.abandoned } }

theorem abandon_again (h : p.ctl.abandoned = true) : p.abandon = p := if_pos h

theorem abandon_first (h : p.ctl.abandoned = false) : p.abandon = (p.modCtl Control.givenUp).giveEntry :=
  if_neg (ne_true_of_eq_false h)

theorem giveEntry_active (h : p.mem.cond = .active) :
    p.giveEntry = (p.modMem fun m => { m with entryWaiting := true }).arbitrate := by
  unfold Part.giveEntry
  rw [h]

theorem giveEntry_exiting (h : p.mem.cond = .selfRefresh) (hop : p.mem.op = some .exit) :
    p.giveEntry = p.modMem fun m => { m with entryWaiting := true } := by
  unfold Part.giveEntry
  rw [h]
  exact if_pos hop

/-- Where the DRAM does not run, the order completes at once (log 13). -/
theorem giveEntry_still (h : p.mem.cond = .uninitialised ∨ (p.mem.cond = .selfRefresh ∧ p.mem.op ≠ some .exit)) :
    p.giveEntry = p.entryDone := by
  unfold Part.giveEntry
  rcases h with hcond | ⟨hcond, hop⟩
  · rw [hcond]
  · rw [hcond]
    exact if_neg hop

/-- In ACTIVE the order waits for the arbiter. -/
theorem abandon_active (ha : p.ctl.abandoned = false) (hcond : p.mem.cond = .active) :
    p.abandon = ((p.modCtl Control.givenUp).modMem fun m => { m with entryWaiting := true }).arbitrate :=
  (abandon_first ha).trans (giveEntry_active hcond)

/-- Behind an exit already chosen the order waits. -/
theorem abandon_exiting (ha : p.ctl.abandoned = false) (hcond : p.mem.cond = .selfRefresh) (hop : p.mem.op = some .exit) :
    p.abandon = (p.modCtl Control.givenUp).modMem fun m => { m with entryWaiting := true } :=
  (abandon_first ha).trans (giveEntry_exiting hcond hop)

/-- Abandoned with PFAIL_N low where the DRAM does not run, the mode becomes RETAINING at once. -/
theorem abandon_still (hmode : p.ret.mode.abandons) (ha : p.ctl.abandoned = false)
    (hstill : p.mem.cond = .uninitialised ∨ (p.mem.cond = .selfRefresh ∧ p.mem.op ≠ some .exit))
    (hlow : ¬p.ret.startsAgain) : p.abandon = (p.modCtl Control.givenUp).retain :=
  calc p.abandon = (p.modCtl Control.givenUp).giveEntry := abandon_first ha
    _ = (p.modCtl Control.givenUp).entryDone := giveEntry_still hstill
    _ = (p.modCtl Control.givenUp).retainOrStart := entryDone_abandoned hmode rfl
    _ = (p.modCtl Control.givenUp).retain := retainOrStart_retains hlow

/-! ## Events that stop the main domain, and events that do not occur -/

theorem event_stops {q : Part} {f : Part → Option Part} (hrun : p.ret.running = true) (hf : f p = some q)
    (hq : q.ret.running = false) : p.event f = q := by
  unfold Part.event
  rw [if_pos hrun, hf]
  exact if_neg (ne_true_of_eq_false hq)

theorem event_none {f : Part → Option Part} (hf : f p = none) : p.event f = p := by
  unfold Part.event
  rw [hf]
  exact ite_self _

/-! ## The fall (R163, R166, R173) -/

theorem pfailFalls_quiescing (h : p.ret.mode = .quiescing) : p.pfailFalls = p := event_none (by rw [h])

theorem pfailFalls_halted (hrun : p.ret.running = true) (h : p.ret.mode = .halted) : p.pfailFalls = p.retain :=
  event_stops hrun (by rw [h]) (retain_running p)

section
variable {q : Part} (hrun : p.ret.running = true) (hmode : p.ret.mode.abandons) (hq : p.abandon = q)
include hrun hmode hq

theorem pfailFalls_abandons (hgoes : q.ret.running = true) : p.pfailFalls = q.react :=
  event_run hrun (by rcases hmode with h | h <;> rw [h, hq]) hgoes

theorem pfailFalls_retains (hstops : q.ret.running = false) : p.pfailFalls = q :=
  event_stops hrun (by rcases hmode with h | h <;> rw [h, hq]) hstops

end

/-- The part with the low level of PFAIL_N taken. -/
def Part.lowered (p : Part) : Part := p.modRet fun r => { r with pfailHigh := false }

theorem lowered_stays (p : Part) : ¬p.lowered.ret.startsAgain := fun ⟨hhigh, _⟩ => Bool.false_ne_true hhigh

/-- A fall that is taken (R160). -/
theorem runs_pfailNFall {P : Part → Prop} {q : Part} (hpower : s.part.ret.retentionPower = true)
    (hhigh : s.part.ret.pfailHigh = true) (hq : s.part.lowered.pfailFalls = q) (hP : P q) : Runs .pfailNFall s P :=
  runs_next rfl ((if_pos (by rw [hpower, hhigh]; rfl)).trans hq) hP

theorem ends_pfailNFall {P : Part → Prop} {r : Part} (hpower : s.part.ret.retentionPower = true)
    (hhigh : s.part.ret.pfailHigh = true) (hr : s.part.lowered.pfailFalls = r.react) (hP : P r) : Ends .pfailNFall s P := by
  obtain ⟨q, hexec, hq⟩ := runs_pfailNFall (P := fun q => q = r.react) hpower hhigh hr rfl
  exact ⟨r, hq ▸ hexec, hP⟩

theorem powerFailsOutsideServing : Rules.PowerFailsOutsideServing := by
  intro s hpower hhigh p low left abandoned
  refine ⟨fun hstopped => runs_pfailNFall hpower hhigh (if_neg (ne_true_of_eq_false hstopped)) rfl, fun hrun =>
    ⟨fun hmode => runs_pfailNFall hpower hhigh (pfailFalls_quiescing hmode) rfl, fun hmode => ?_, fun hmode ha => ?_,
      fun hmode ha => ⟨fun hcond => ?_, fun hcond hop => ?_, fun hstill => ?_⟩⟩⟩
  · have hch := retain_changes p.lowered
    exact runs_pfailNFall hpower hhigh (pfailFalls_halted hrun hmode) ⟨retain_ret p.lowered, hch.dram, hch.mem⟩
  · have hfalls := pfailFalls_abandons (p := p.lowered) hrun hmode (abandon_again (p := p.lowered) ha) hrun
    exact ⟨ends_pfailNFall hpower hhigh hfalls rfl,
      runs_pfailNFall hpower hhigh hfalls (react_abandoned (p := p.lowered) ha hmode)⟩
  · exact ends_pfailNFall hpower hhigh
      (pfailFalls_abandons (p := p.lowered) hrun hmode (abandon_active (p := p.lowered) ha hcond) hrun)
      ⟨rfl, rfl, rfl, rfl⟩
  · exact ends_pfailNFall hpower hhigh
      (pfailFalls_abandons (p := p.lowered) hrun hmode (abandon_exiting (p := p.lowered) ha hcond hop) hrun)
      ⟨rfl, rfl, rfl, rfl⟩
  · have hretains := abandon_still (p := p.lowered) hmode ha hstill (lowered_stays p)
    have hch := retain_changes (p.lowered.modCtl Control.givenUp)
    exact runs_pfailNFall hpower hhigh (pfailFalls_retains (p := p.lowered) hrun hmode hretains (retain_running _))
      ⟨retain_ret _, hch.ctl, hch.dram⟩

/-! ## The completion of the entry (R154, R167, R173) -/

theorem abandonedWorkIsRetained : Rules.AbandonedWorkIsRetained := by
  intro s hrun hmode habandoned hop p r again
  have hdone : p.entryComplete = p.inSelfRefresh.retainOrStart := entryDone_abandoned (p := p.inSelfRefresh) hmode habandoned
  refine ⟨fun hno => ?_, fun hagain => ?_⟩
  · have hretains : p.entryComplete = p.inSelfRefresh.retain := hdone.trans (retainOrStart_retains hno)
    have hch := retain_changes p.inSelfRefresh
    exact runs_next rfl (event_stops hrun ((if_pos hop).trans (congrArg some hretains)) (retain_running _))
      ⟨retain_ret p.inSelfRefresh, hch.mem, hch.dram⟩
  · have hstarts := retainOrStart_startsHigh (p := p.inSelfRefresh) hagain
    rw [← hdone] at hstarts
    exact ends_event rfl hrun (if_pos hop) (startsHigh_running hstarts rfl) hstarts

/-- Settles O50, by its two parts. -/
theorem powerFailOutsideServing : Obligations.PowerFailOutsideServing :=
  ⟨powerFailsOutsideServing, abandonedWorkIsRetained⟩

end Sys2Proof.Machine
end

section
/-! The end of a quiesce (O49), and RESUME with FORMAT (O58). -/

namespace Sys2Proof.Machine

set_option Elab.async false

variable {p : Part} {s : State}

/-! ## The entry to RESTORING (R169, step 1) -/

theorem raise_modeChanged (m : Maint) : (m.raise causeModeChanged).pending.getLsbD 0 = true := by
  rw [raise_pending, BitVec.getLsbD_or]
  exact Bool.or_eq_true_iff.2 (.inr rfl)

theorem setMode_modeChanged (m : Mode) (hrun : p.ret.running = true) :
    (p.setMode m).maint.pending.getLsbD 0 = true := by
  rw [setMode_maint p m hrun]
  exact raise_modeChanged p.maint

theorem enterRestoring_ret (p : Part) : p.enterRestoring.ret = { p.ret with mode := .restoring } :=
  setMode_ret p .restoring

theorem enterRestoring_maint (p : Part) : p.enterRestoring.maint = (p.setMode .restoring).maint := rfl

theorem enterRestoring_ctl (p : Part) : p.enterRestoring.ctl =
    { p.ctl with work := .restoreExit, abandoned := false, drainOrdered := false, loaded := [], rebuilt := [] } :=
  congrArg (fun c : Control =>
    { c with work := .restoreExit, abandoned := false, drainOrdered := false, loaded := [], rebuilt := [] })
    (setMode_changes p .restoring).ctl

/-- A DRAM in self-refresh takes the exit order at once (R156). -/
theorem enterRestoring_mem (hcond : p.mem.cond = .selfRefresh) (hop : p.mem.op = none) :
    p.enterRestoring.mem = { p.mem with op := some .exit } := by
  have hmem : (p.setMode .restoring).mem = p.mem := (setMode_changes p .restoring).mem
  unfold Part.enterRestoring Part.giveExit
  rw [modMem_mem, modCtl_mem, hmem]
  exact if_pos ⟨hcond, hop⟩

/-! ## The end of a quiesce (R165) -/

/-- The retention domain when a quiesce has ended, the mode being left to the cause. -/
def Retention.quiesced (r : Retention) : Retention := { r with flag := true, cause := none }

theorem quiesceDone_low (hlow : p.ret.pfailHigh = false) : p.quiesceDone = (p.modRet Retention.quiesced).retain :=
  if_pos (by rw [hlow]; rfl)

section
variable (hhigh : p.ret.pfailHigh = true)
include hhigh

theorem quiesceDone_high : p.quiesceDone =
    if p.ret.cause = some .pfail then (p.modRet Retention.quiesced).enterRestoring
    else (p.modRet Retention.quiesced).setMode .halted := if_neg (by rw [hhigh]; decide)

theorem quiesceDone_restores (hcause : p.ret.cause = some .pfail) :
    p.quiesceDone = (p.modRet Retention.quiesced).enterRestoring := (quiesceDone_high hhigh).trans (if_pos hcause)

theorem quiesceDone_halts (hcause : p.ret.cause = some .saveAndHalt) :
    p.quiesceDone = (p.modRet Retention.quiesced).setMode .halted :=
  (quiesceDone_high hhigh).trans (if_neg (by rw [hcause]; decide))

end

theorem entryComplete_quiesced (hmode : p.ret.mode = .quiescing) (hordered : p.ctl.drainOrdered = true) :
    p.entryComplete = p.inSelfRefresh.quiesceDone := by
  have hmode' : p.inSelfRefresh.ret.mode = .quiescing := hmode
  rw [entryComplete_eq, Part.entryDone, hmode']
  exact if_pos hordered

theorem drainCheck_active (hready : p.drainReady) (hcond : p.mem.cond = .active) :
    p.drainCheck = ((p.modCtl fun c => { c with drainOrdered := true }).modMem
      fun m => { m with entryWaiting := true }).arbitrate :=
  (if_pos ((drainDue_iff p).2 hready)).trans (giveEntry_active hcond)

/-- Settles O49: the order by `drainCheck_active`, the end of the quiesce by the three ways of `quiesceDone`. -/
theorem quiesceEnds : Obligations.QuiesceEnds := by
  intro s hrun hmode p
  refine ⟨fun hready hcond => ?_, fun hordered hop => ?_⟩
  · have horder := drainCheck_active hready hcond
    exact ends_event rfl hrun ((if_pos ((drainDue_iff p).2 hready)).trans (congrArg some horder)) hrun ⟨⟨rfl, rfl⟩, rfl⟩
  intro kept
  have hdone : (if p.mem.op = some .entry then some p.entryComplete else none) = some p.inSelfRefresh.quiesceDone :=
    (if_pos hop).trans (congrArg some (entryComplete_quiesced hmode hordered))
  refine ⟨fun hlow => ?_, fun hhigh hcause => ?_, fun hhigh hcause => ?_⟩
  · rw [quiesceDone_low (p := p.inSelfRefresh) hlow] at hdone
    have hch := retain_changes (p.inSelfRefresh.modRet Retention.quiesced)
    exact runs_next rfl (event_stops hrun hdone (retain_running _)) ⟨retain_ret _, hch.mem, hch.dram⟩
  · rw [quiesceDone_halts (p := p.inSelfRefresh) hhigh hcause] at hdone
    have hch := setMode_changes (p.inSelfRefresh.modRet Retention.quiesced) .halted
    refine ends_event rfl hrun hdone ?_ ⟨setMode_ret _ _, hch.mem, setMode_modeChanged _ hrun, hch.dram⟩
    rw [setMode_running]
    exact hrun
  · rw [quiesceDone_restores (p := p.inSelfRefresh) hhigh hcause] at hdone
    have hch := enterRestoring_changes (p.inSelfRefresh.modRet Retention.quiesced)
    have hctl := enterRestoring_ctl (p.inSelfRefresh.modRet Retention.quiesced)
    refine ends_event rfl hrun hdone ?_ ⟨enterRestoring_ret _, enterRestoring_mem rfl rfl, ?_, ?_, ?_, ?_,
      setMode_modeChanged _ hrun, hch.journals, hch.links, hch.reqs, hch.dram⟩
    · rw [enterRestoring_ret]
      exact hrun
    all_goals rw [hctl]

/-! ## RESUME and FORMAT (R166, R181) -/

theorem format_refused_iff (p : Part) :
    ((allPorts.any fun i => (p.req i).session.active) || p.maint.deferred.isWaiting) = true
      ↔ (∃ i, (p.req i).session.active = true) ∨ ∃ cmd, p.maint.deferred = .waiting cmd := by
  rw [Bool.or_eq_true, isWaiting_iff, List.any_eq_true]
  exact or_congr_left ⟨fun ⟨i, _, hi⟩ => ⟨i, hi⟩, fun ⟨i, hi⟩ => ⟨i, mem_allPorts i, hi⟩⟩

/-- Settles O58: RESUME by what the entry to RESTORING leaves of each block, FORMAT by its test
(`format_refused_iff`). -/
theorem resumeAndFormat : Obligations.ResumeAndFormat := by
  intro s hrun p refused
  refine ⟨fun hmode hcond hop => ?_, fun hmode => ⟨fun hrefused => ?_, fun haccepted => ?_⟩⟩
  · obtain ⟨-, -, -, -, hresponse, hspi⟩ := setMode_raised (s.part.counted.respond .ok []) .restoring
    refine takes_run rfl hrun (by rw [hmode]; decide) rfl ?_
      ⟨enterRestoring_ret _, enterRestoring_mem hcond hop, enterRestoring_ctl _, hresponse, hspi,
        setMode_modeChanged .restoring hrun⟩
    rw [enterRestoring_ret]
    exact hrun
  · exact takes_serving rfl ⟨hrun, hmode⟩ format_changes (if_pos ((format_refused_iff s.part.counted).2 hrefused))
  · exact takes_serving rfl ⟨hrun, hmode⟩ format_changes
      (if_neg fun h => haccepted ((format_refused_iff s.part.counted).1 h))

end Sys2Proof.Machine
end

section
/-! CLEAR_COUNTERS, the attention causes, and the line ATTN_N that they drive (O54). -/

namespace Sys2Proof.Machine

set_option Elab.async false

variable {p : Part} {s : State}

/-- A maintenance command that every mode but RETAINING takes and that leaves the retention domain alone. -/
theorem takes_anyMode {c : Instr} {act : Part → Part} {Q : Part → Part → Prop} {fs : List Part.Field}
    (hc : exec c s = .next (s.onPart fun p => p.transaction anyMode act)) (hrun : s.part.ret.running = true)
    (hmode : s.part.ret.mode ≠ .retaining) (hch : ∀ q, Part.Changes fs q (act q))
    (hp : Q s.part.counted (act s.part.counted)) (hf : Part.Field.ret ∉ fs := by decide) : Takes c s Q := by
  have hany : s.part.ret.mode ∈ anyMode := by
    cases hm : s.part.ret.mode with
    | retaining => exact absurd hm hmode
    | _ => decide
  refine takes_run hc hrun hany rfl ?_ hp
  rw [(hch _).ret hf]
  exact hrun

/-! ## Counters (R182) -/

theorem clearCounters_link (p : Part) (i : Port) : p.clearCounters.link i = { p.link i with cnt := {} } :=
  get_map p.links _ i

theorem clearCounters_req (p : Part) (i : Port) : p.clearCounters.req i = { p.req i with cnt := {} } :=
  get_map p.reqs _ i

theorem clearCounters_bank (p : Part) (b : Fin 16) :
    (p.clearCounters.mem.banks.get b).list = (p.mem.banks.get b).list.map fun _ => 0 :=
  congrArg Bank.list (get_map p.mem.banks _ b)

/-- Every counter of every block is 0, block by block of 11.6; that the transaction has been counted
before does not show. -/
theorem clearCounters_counterBlock (p : Part) (block : Nat) :
    p.counted.clearCounters.counterBlock block = (p.counterBlock block).map fun _ => 0 := by
  unfold Part.counterBlock
  split
  · rw [clearCounters_link]; rfl
  split
  · rw [clearCounters_req]; rfl
  split
  · rfl
  split
  · rfl
  split
  · rfl
  split
  · rfl
  split
  · exact clearCounters_bank p.counted _
  split
  · rfl
  split
  · rfl
  split <;> rfl

/-- A response formed leaves the counters alone. -/
theorem respond_counterBlock (p : Part) (status : MaintStatus) (bytes : List Byte) (block : Nat) :
    (p.respond status bytes).counterBlock block = p.counterBlock block := rfl

theorem ackAttention_changes (p : Part) (left : BitVec 16) (bytes : List Byte) :
    Part.Changes [.maint] p ((p.modMaint fun m => { m with pending := left }).respond .ok bytes) :=
  (modMaint_changes p _).both (respond_changes _ _ _)

theorem setAttentionMask_changes (p : Part) (mask : BitVec 16) :
    Part.Changes [.maint] p ((p.modMaint fun m => { m with mask := mask }).respond .ok []) :=
  (modMaint_changes p _).both (respond_changes _ _ _)

theorem countersAndCausesAreCleared : Rules.CountersAndCausesAreCleared := by
  intro s hrun hmode p
  refine ⟨takes_anyMode rfl hrun hmode (fun q => (clearCounters_changes q).trans (respond_changes _ _ _)) ?_,
    fun mask => takes_anyMode rfl hrun hmode (fun q => ackAttention_changes q _ _) rfl,
    fun mask => takes_anyMode rfl hrun hmode (fun q => setAttentionMask_changes q _) rfl⟩
  refine ⟨fun block => ?_, rfl, rfl,
    fun i => ⟨clearCounters_link s.part.counted i, clearCounters_req s.part.counted i, rfl, rfl⟩,
    rfl, rfl, rfl, rfl, rfl, rfl, rfl⟩
  rw [respond_counterBlock, clearCounters_counterBlock]

/-! ## ATTN_N (R184) -/

theorem exists_getLsbD_of_ne_zero {w : Nat} {x : BitVec w} (h : x ≠ 0#w) : ∃ b, x.getLsbD b = true := by
  by_contra hno
  refine h (BitVec.eq_of_getLsbD_eq fun b _ => ?_)
  rw [BitVec.getLsbD_zero, Bool.eq_false_iff]
  exact fun hb => hno ⟨b, hb⟩

theorem attnLow_iff (p : Part) : p.attnLow = true ↔
    p.ret.running = true ∧ ∃ b, p.maint.pending.getLsbD b = true ∧ p.maint.mask.getLsbD b = true := by
  unfold Part.attnLow
  rw [Bool.and_eq_true, decide_eq_true_iff]
  refine and_congr_right fun _ => ⟨fun h => ?_, fun ⟨b, hpending, hmask⟩ hzero => ?_⟩
  · obtain ⟨b, hb⟩ := exists_getLsbD_of_ne_zero h
    rw [BitVec.getLsbD_and, Bool.and_eq_true] at hb
    exact ⟨b, hb⟩
  · have hb := BitVec.getLsbD_and (x := p.maint.pending) (y := p.maint.mask) (i := b)
    rw [hzero, hpending, hmask, BitVec.getLsbD_zero] at hb
    cases hb

theorem attnLow_stopped (h : p.ret.running = false) : p.attnLow = false := by
  unfold Part.attnLow
  rw [h]
  rfl

theorem attnLow_running (h : p.ret.running = true) : p.attnLow = decide (p.maint.pending &&& p.maint.mask ≠ 0) := by
  unfold Part.attnLow
  rw [h]
  rfl

theorem attnLow_raise {b : Nat} (hrun : p.ret.running = true) (hb : b < 16) (hmask : p.maint.mask.getLsbD b = true) :
    (p.raise (1#16 <<< b)).attnLow = true := by
  obtain ⟨-, -, hkeeps, -⟩ := raise_raised p.maint (1#16 <<< b)
  refine (attnLow_iff _).2 ⟨hrun, b, ?_, ?_⟩
  · rw [raise_maint, raise_pending, BitVec.getLsbD_or, BitVec.getLsbD_shiftLeft]
    simp [hb]
  · rw [raise_maint, hkeeps]
    exact hmask

theorem attentionLineFollows : Rules.AttentionLineFollows := by
  refine ⟨attnLow_iff, fun p => attnLow_stopped, fun p b => attnLow_raise, fun s => ?_⟩
  intro p
  refine ⟨fun hrun hmode mask => ⟨?_, ?_⟩, fun hrst => ?_, fun hrun hmode hpower hhigh => ?_,
    fun hrun hmode hordered hop hlow => ?_⟩
  · exact takes_anyMode rfl hrun hmode (fun q => ackAttention_changes q _ _) (attnLow_running hrun)
  · exact takes_anyMode rfl hrun hmode (fun q => setAttentionMask_changes q _) (attnLow_running hrun)
  · exact runs_next rfl (if_pos hrst) ⟨rfl, attnLow_stopped (stopMain_running p)⟩
  · refine runs_pfailNFall hpower hhigh (pfailFalls_halted hrun hmode) ⟨?_, attnLow_stopped (retain_running _)⟩
    rw [retain_ret]
  · obtain ⟨-, hends⟩ := quiesceEnds s hrun hmode
    obtain ⟨hretains, -⟩ := hends hordered hop
    obtain ⟨q, hexec, hret, -⟩ := hretains hlow
    exact ⟨q, hexec, by rw [hret], attnLow_stopped (by rw [hret])⟩

/-- Settles O54, by its two parts. -/
theorem countersAndAttention : Obligations.CountersAndAttention := ⟨countersAndCausesAreCleared, attentionLineFollows⟩

end Sys2Proof.Machine
end

section
/-! The rewrite of a lost directory, and the end of a restore (O47). -/

namespace Sys2Proof.Machine

set_option Elab.async false

variable {p : Part} {s : State}

/-! ## Copies that land outside their writers (log 25) -/

/-- The part when the access of a rewritten copy of an item has been carried out and the copy counted. -/
def Part.copyLanded (p : Part) (a : Access) (i : Item) : Part := (p.carryOut a).modDir i DirWriter.copyDone

theorem copyLanded_changes (p : Part) (a : Access) (i : Item) :
    Part.Changes [.mem, .dram, .journals, .header] p (p.copyLanded a i) :=
  ((carryOut_changes p a).trans (modDir_changes _ i _)).mono

theorem copyLanded_mem (p : Part) (a : Access) (i : Item) : (p.copyLanded a i).mem = (p.carryOut a).mem :=
  (modDir_changes (p.carryOut a) i _).mem

theorem copyLanded_dram (p : Part) (a : Access) (i : Item) : (p.copyLanded a i).dram = a.store p.dram :=
  (modDir_changes (p.carryOut a) i _).dram

theorem copyLanded_dirOf (p : Part) (a : Access) (i k : Item) :
    (p.copyLanded a i).dirOf k = if k = i then (p.dirOf k).copyDone else p.dirOf k := by
  have hcarried : (p.carryOut a).dirOf k = p.dirOf k := (carryOut_changes p a).dirOf k
  unfold Part.copyLanded
  split
  · next h => subst h; rw [dirOf_modDir_self, hcarried]
  · next h => rw [dirOf_modDir_ne _ (Ne.symm h), hcarried]

theorem carryOut_itemBytes (p : Part) (a : Access) (i : Item) (gen : W32) :
    (p.carryOut a).itemBytes i gen = p.itemBytes i gen :=
  have hch := carryOut_changes p a
  itemBytes_congr (fun j => by rw [hch.journal]) (fun j => by rw [hch.journal]) (by rw [hch.header]) hch.maint i gen

theorem copyLanded_itemBytes (p : Part) (a : Access) (i k : Item) (gen : W32) :
    (p.copyLanded a i).itemBytes k gen = p.itemBytes k gen :=
  (rewriteWith_itemBytes (p := p.carryOut a) DirWriter.copyDone i [] k gen).trans (carryOut_itemBytes p a k gen)

/-! ## The rewrite of a lost directory (R170) -/

/-- The copy of item i that lands is the last of a lost directory's entries, and the restore has not been abandoned. -/
def Part.headerFollows (p : Part) (i : Item) : Prop :=
  p.ctl.work = .entryRewrite ∧ p.ctl.abandoned = false
    ∧ ∀ k, (if k = i then (p.dirOf i).copiesLeft - 1 else (p.dirOf k).copiesLeft) = 0

theorem copyLanded_copiesLeft (p : Part) (a : Access) (i k : Item) :
    ((p.copyLanded a i).dirOf k).copiesLeft = if k = i then (p.dirOf i).copiesLeft - 1 else (p.dirOf k).copiesLeft := by
  rw [copyLanded_dirOf]
  split
  · next h => subst h; rfl
  · rfl

theorem headerFollows_iff (p : Part) (a : Access) (i : Item) :
    ((p.copyLanded a i).ctl.work = .entryRewrite ∧ (p.copyLanded a i).copiesDone = true
        ∧ (p.copyLanded a i).ctl.abandoned = false) ↔ p.headerFollows i := by
  rw [copiesDone_iff, (copyLanded_changes p a i).ctl]
  simp only [copyLanded_copiesLeft]
  exact and_congr_right fun _ => and_comm

theorem rewritten_last {a : Access} {i : Item} (h : p.headerFollows i) :
    (p.carryOut a).rewritten i
      = ((p.copyLanded a i).modCtl fun c => { c with work := .headerRewrite }).rewriteItem .rewrite .header :=
  if_pos ((headerFollows_iff p a i).2 h)

theorem rewritten_more {a : Access} {i : Item} (h : ¬p.headerFollows i) :
    (p.carryOut a).rewritten i = p.copyLanded a i := if_neg fun hlast => h ((headerFollows_iff p a i).1 hlast)

/-! ## Both copies of an item handed (log 25, log 41) -/

theorem rewriteItem_mem (client : Item → Copy → Client) (p : Part) (i : Item) :
    (p.rewriteItem client i).mem = p.memAfter (p.freshCopies client i) := by
  rw [rewriteItem_eq, rewriteWith_mem]

theorem rewriteItem_dirOf (client : Item → Copy → Client) (p : Part) (i k : Item) :
    (p.rewriteItem client i).dirOf k = if i = k then freshWriter else p.dirOf k := by
  rw [rewriteItem_eq, rewriteWith_dirOf]

/-- The accesses of a rewrite depend on the bytes of the item's live values only. -/
theorem freshCopies_congr {q : Part} (client : Item → Copy → Client) (i : Item)
    (h : ∀ gen, q.itemBytes i gen = p.itemBytes i gen) : q.freshCopies client i = p.freshCopies client i := by
  unfold Part.freshCopies
  rw [h, h]

theorem freshCopies_modCtl (client : Item → Copy → Client) (f : Control → Control) (i : Item) :
    (p.modCtl f).freshCopies client i = p.freshCopies client i := rfl

/-! ## DIRECTORY_REWRITE_COMPLETE and RESTORE_COMPLETE -/

theorem ends_rewritten {a : Access} {i : Item} {c : Copy} {P : Part → Prop} (hcomplete : s.part.completes a)
    (hclient : a.client = .rewrite i c) (hP : P ((s.part.carryOut a).rewritten i)) :
    Ends .directoryRewriteComplete s P := by
  refine ends_complete (act := fun
    | .rewrite i _ => some fun _ _ p => p.rewritten i
    | _ => none) rfl hcomplete (by rw [hclient]) ?_ hP
  rw [(rewritten_changes _ i).ret, (carryOut_changes _ a).ret]
  exact hcomplete.1

/-- Settles O47: a copy that lands by `rewritten_more` or `rewritten_last`, the end of the restore by `restoreDone`. -/
theorem restoresEnd : Obligations.RestoresEnd := by
  intro s hrun p left
  refine ⟨fun a i c hcomplete hclient => ?_, fun habandoned hmode hwork hrebuilt hclean => ?_⟩
  · intro more
    have hch := copyLanded_changes p a i
    refine ⟨fun hmore => ends_rewritten hcomplete hclient ?_, fun hmore => ends_rewritten hcomplete hclient ?_,
      fun habandoned hmode => ?_⟩
    · rw [rewritten_more hmore]
      refine ⟨copyLanded_dram p a i, copyLanded_mem p a i, hch.ret, hch.ctl, fun k hk => ?_, ?_⟩
      · rw [copyLanded_dirOf, if_neg hk]
      · rw [copyLanded_dirOf, if_pos rfl]
        rfl
    · have hrewrite := rewriteItem_changes ((p.copyLanded a i).modCtl fun c => { c with work := .headerRewrite })
        (client := .rewrite) (fun _ _ => rfl) .header
      rw [rewritten_last hmore]
      refine ⟨hrewrite.dram.trans (copyLanded_dram p a i), ?_, ?_, ?_⟩
      · rw [hrewrite.ctl, modCtl_ctl, hch.ctl]
      · exact (rewriteItem_dirOf .rewrite _ .header .header).trans (if_pos rfl)
      · rw [rewriteItem_mem, Part.memAfter, modCtl_mem, copyLanded_mem, modCtl_maint, hch.maint, freshCopies_modCtl,
          freshCopies_congr .rewrite .header (copyLanded_itemBytes p a i .header)]
        rfl
    · have hmore : ¬more := fun ⟨_, hgoes, _⟩ => ne_true_of_eq_false hgoes habandoned
      have hkeeps : (p.carryOut a).rewritten i = p.copyLanded a i := rewritten_more hmore
      have hends := ends_rewritten (P := fun q => q = p.copyLanded a i) hcomplete hclient hkeeps
      exact hends.keepsRetention habandoned hmode fun r hr => hr ▸ ⟨hch.ret, hch.ctl⟩
  · have hdue := (restoreDue_iff p).2 ⟨hmode, habandoned, hwork, hrebuilt, hclean⟩
    have hended := restoreDone_restoreEnded p hrun
    refine ends_event rfl hrun (if_pos hdue) ?_ ⟨hended, (restoreDone_changes p).ntfs⟩
    rw [hended.1]
    exact hrun

end Sys2Proof.Machine
end

section
/-! The load and the selection of the device header at a restore (O45). -/

namespace Sys2Proof.Machine

set_option Elab.async false

variable {p : Part} {s : State}

/-! ## The loads of a restore (R169) -/

/-- The controller's state with one more load kept. -/
def Control.kept (c : Control) (l : Loaded) : Control := { c with loaded := c.loaded ++ [l] }

/-- The part with one more load kept. -/
def Part.keep (p : Part) (l : Loaded) : Part := p.modCtl fun c => c.kept l

theorem loadOf_none {c : Control} {i : Item} (h : ∀ l ∈ c.loaded, l.item ≠ i) (k : Copy) : c.loadOf i k = none := by
  unfold Control.loadOf
  rw [Option.map_eq_none_iff, List.find?_eq_none]
  intro l hl
  rw [decide_eq_false (h l hl), Bool.false_and]
  exact Bool.false_ne_true

section
variable {c : Control} {i : Item} {k : Copy} {bytes other : List Byte}

theorem loadOf_kept_same (hnew : ∀ l ∈ c.loaded, l.item = i → l.copy ≠ k) :
    (c.kept ⟨i, k, bytes⟩).loadOf i k = some bytes := by
  have hnone : c.loaded.find? (fun l => decide (l.item = i) && decide (l.copy = k)) = none := by
    rw [List.find?_eq_none]
    intro l hl hfound
    rw [Bool.and_eq_true, decide_eq_true_iff, decide_eq_true_iff] at hfound
    obtain ⟨hitem, hcopy⟩ := hfound
    exact hnew l hl hitem hcopy
  unfold Control.loadOf Control.kept
  rw [List.find?_append, hnone]
  simp

theorem loadOf_kept_other {m : Copy} (h : k ≠ m) : (c.kept ⟨i, k, bytes⟩).loadOf i m = c.loadOf i m := by
  unfold Control.loadOf Control.kept
  rw [List.find?_append]
  simp [h]

/-- With the second copy of an item both are there. -/
theorem loadOf_kept_both (hnew : ∀ l ∈ c.loaded, l.item = i → l.copy ≠ k)
    (hother : c.loadOf i (if k = .a then .b else .a) = some other) :
    (c.kept ⟨i, k, bytes⟩).loadOf i .a = some (if k = .a then bytes else other)
      ∧ (c.kept ⟨i, k, bytes⟩).loadOf i .b = some (if k = .a then other else bytes) := by
  cases k with
  | a => exact ⟨loadOf_kept_same hnew, (loadOf_kept_other (by decide)).trans hother⟩
  | b => exact ⟨(loadOf_kept_other (by decide)).trans hother, loadOf_kept_same hnew⟩

/-- With the first copy of an item one is still missing. -/
theorem loadOf_kept_first (hfirst : ∀ l ∈ c.loaded, l.item ≠ i) :
    (c.kept ⟨i, k, bytes⟩).loadOf i .a = none ∨ (c.kept ⟨i, k, bytes⟩).loadOf i .b = none := by
  cases k with
  | a => exact .inr ((loadOf_kept_other (by decide)).trans (loadOf_none hfirst .b))
  | b => exact .inl ((loadOf_kept_other (by decide)).trans (loadOf_none hfirst .a))

end

theorem loadArrived_abandoned (h : p.ctl.abandoned = true) (i : Item) (k : Copy) (bytes : List Byte) :
    p.loadArrived i k bytes = p := if_pos h

theorem loadArrived_header (h : p.ctl.abandoned = false) (k : Copy) (bytes : List Byte) :
    p.loadArrived .header k bytes = (p.keep ⟨.header, k, bytes⟩).selectHeader := if_neg (ne_true_of_eq_false h)

/-- The two reads of an item that a restore hands, A before B (log 41). -/
def itemLoads (i : Item) : List Access :=
  [readAccess (.load i .a) (itemAddr i .a), readAccess (.load i .b) (itemAddr i .b)]

theorem loadItem_eq (p : Part) (i : Item) : p.loadItem i = p.handAll (itemLoads i) := rfl

theorem foldl_loadItem (l : List Item) : ∀ p : Part, l.foldl Part.loadItem p = p.handAll (l.flatMap itemLoads) := by
  induction l with
  | nil => exact fun p => rfl
  | cons i l ih =>
    intro p
    rw [List.foldl_cons, ih, List.flatMap_cons, loadItem_eq]
    exact (List.foldl_append ..).symm

/-! ## The exit of a restore (R169, step 2) -/

theorem exitComplete_loads (hwork : p.ctl.work = .restoreExit) (habandoned : p.ctl.abandoned = false) :
    p.exitComplete
      = (((p.modMem MemEngine.exited).modRet fun r => { r with selfRefresh := false }).arbitrate).loadHeader := by
  unfold Part.exitComplete
  dsimp only
  split
  · next hgone => exact absurd hgone (ne_true_of_eq_false habandoned)
  · split
    · next hcold => exact absurd (hwork.symm.trans hcold) (by decide)
    · rfl
    · next hother => exact absurd hwork hother

theorem loadHeader_ctl (p : Part) : p.loadHeader.ctl = { p.ctl with work := .headerLoad } :=
  (loadItem_changes (p.modCtl fun c => { c with work := .headerLoad }) .header).ctl

theorem loadHeader_mem (p : Part) : p.loadHeader.mem = p.memAfter (itemLoads .header) :=
  handAll_mem (itemLoads .header) (p.modCtl fun c => { c with work := .headerLoad })

/-! ## The header taken (R170) -/

/-- The part with the watermarks of a device header in its journal table. -/
def Part.withWatermarks (p : Part) (watermarks : List Byte) : Part :=
  allJournals.foldl (fun q j => q.modJournal j fun e => { e with watermark := byteAt watermarks j.val }) p

theorem withWatermarks_changes (p : Part) (watermarks : List Byte) :
    Part.Changes [.journals] p (p.withWatermarks watermarks) :=
  .foldl (fun q j => modJournal_changes q j _) allJournals p

theorem withWatermarks_journal (p : Part) (watermarks : List Byte) (j : JournalId) :
    (p.withWatermarks watermarks).journal j = { p.journal j with watermark := byteAt watermarks j.val } :=
  (foldl_modJournal_journal (fun j e => { e with watermark := byteAt watermarks j.val }) allJournals (by decide) p
    j).trans (if_pos (mem_allJournals j))

/-- The part when a valid device header has been taken, before the loads of the entries are handed. -/
def Part.headerValues (p : Part) (copy : Copy) (image : List Byte) (h : HeaderRecord) : Part :=
  (((p.withWatermarks h.watermarks).modHeader fun x =>
    { layoutGen := some h.layoutGen, dir := { x.dir with newest := copy, gen := copyGeneration image } }).modMaint
      fun m => { m with params := h.params }).modCtl fun c => { c with work := .entryLoad }

section
variable (p) (copy : Copy) (image : List Byte) (h : HeaderRecord)

theorem headerTaken_eq : p.headerTaken copy image h
    = (p.headerValues copy image h).handAll ((allJournals.map Item.journal).flatMap itemLoads) := by
  rw [← foldl_loadItem, List.foldl_map]
  rfl

theorem headerValues_journal (j : JournalId) :
    (p.headerValues copy image h).journal j = { p.journal j with watermark := byteAt h.watermarks j.val } :=
  withWatermarks_journal p h.watermarks j

theorem headerValues_header : (p.headerValues copy image h).header =
    { layoutGen := some h.layoutGen, dir := { p.header.dir with newest := copy, gen := copyGeneration image } } := by
  unfold Part.headerValues
  rw [modCtl_header, modMaint_header, modHeader_header, (withWatermarks_changes p _).header]

theorem headerValues_maint : (p.headerValues copy image h).maint = { p.maint with params := h.params } := by
  unfold Part.headerValues
  rw [modCtl_maint, modMaint_maint, modHeader_maint, (withWatermarks_changes p _).maint]

theorem headerValues_ctl : (p.headerValues copy image h).ctl = { p.ctl with work := .entryLoad } := by
  unfold Part.headerValues
  rw [modCtl_ctl, modMaint_ctl, modHeader_ctl, (withWatermarks_changes p _).ctl]

theorem headerValues_mem : (p.headerValues copy image h).mem = p.mem := by
  unfold Part.headerValues
  rw [modCtl_mem, modMaint_mem, modHeader_mem, (withWatermarks_changes p _).mem]

/-- What a header that is taken leaves. -/
theorem headerTaken_spec :
    (p.headerTaken copy image h).ctl = { p.ctl with work := .entryLoad }
      ∧ (p.headerTaken copy image h).maint = { p.maint with params := h.params }
      ∧ (p.headerTaken copy image h).header =
        { layoutGen := some h.layoutGen, dir := { p.header.dir with newest := copy, gen := copyGeneration image } }
      ∧ (∀ j, (p.headerTaken copy image h).journal j = { p.journal j with watermark := byteAt h.watermarks j.val })
      ∧ (p.headerTaken copy image h).mem =
        p.mem.handedAll h.params.urgent.toNat ((allJournals.map Item.journal).flatMap itemLoads) := by
  have hch := handAll_changes (p.headerValues copy image h) ((allJournals.map Item.journal).flatMap itemLoads)
  rw [← headerTaken_eq] at hch
  refine ⟨?_, ?_, ?_, fun j => ?_, ?_⟩
  · rw [hch.ctl, headerValues_ctl]
  · rw [hch.maint, headerValues_maint]
  · rw [hch.header, headerValues_header]
  · rw [hch.journal, headerValues_journal]
  · rw [headerTaken_eq, handAll_mem, Part.memAfter, headerValues_mem, headerValues_maint]

end

/-! ## The directory lost (R170) -/

/-- An item lost at a restore is reported and counted (R170, R171; log 22). -/
def Part.lossCounted (p : Part) : Part :=
  (p.raise causeDirectoryLost).countRet fun c => { c with itemsLost := satInc c.itemsLost }

theorem lossCounted_changes (p : Part) : Part.Changes [.maint, .ctl] p p.lossCounted :=
  (raise_changes p _).trans (countRet_changes _ _)

theorem lossCounted_maint (p : Part) : p.lossCounted.maint = p.maint.raise causeDirectoryLost := rfl

theorem lossCounted_ctl (p : Part) : p.lossCounted.ctl =
    { p.ctl with cnt := { p.ctl.cnt with itemsLost := satInc p.ctl.cnt.itemsLost } } := rfl

/-- The part when a lost directory's defaults have been taken, before the rewrites of the entries are handed. -/
def Part.lostValues (p : Part) : Part :=
  (((p.lossCounted.modJournals fun e => { e.cleared with watermark := Config.defaultWatermark }).modHeader
    fun h => { h with layoutGen := some 0 }).modMaint fun m => { m with params := {} }).modCtl
      fun c => { c with work := .entryRewrite, rebuilt := allJournals }

theorem directoryLost_eq (p : Part) :
    p.directoryLost = (allJournals.map Item.journal).foldl (Part.rewriteItem .rewrite) p.lostValues := by
  rw [List.foldl_map]
  rfl

theorem lostValues_journal (p : Part) (j : JournalId) :
    p.lostValues.journal j = { (p.journal j).cleared with watermark := Config.defaultWatermark } := by
  unfold Part.lostValues
  rw [modCtl_journal, modMaint_journal, modHeader_journal, modJournals_journal, (lossCounted_changes p).journal]

theorem DeviceHeader.eq_of_fields {x y : DeviceHeader} (hgen : x.layoutGen = y.layoutGen) (hdir : x.dir = y.dir) :
    x = y := by
  cases x
  cases y
  cases hgen
  cases hdir
  rfl

section
variable (p)

theorem lostValues_header : p.lostValues.header = { p.header with layoutGen := some 0 } := by
  unfold Part.lostValues
  rw [modCtl_header, modMaint_header, modHeader_header, (modJournals_changes _ _).header,
    (lossCounted_changes p).header]

theorem lostValues_maint : p.lostValues.maint = { p.maint.raise causeDirectoryLost with params := {} } := by
  unfold Part.lostValues
  rw [modCtl_maint, modMaint_maint, modHeader_maint, (modJournals_changes _ _).maint, lossCounted_maint]

theorem lostValues_ctl : p.lostValues.ctl =
    { p.ctl with
      work := .entryRewrite
      rebuilt := allJournals
      cnt := { p.ctl.cnt with itemsLost := satInc p.ctl.cnt.itemsLost } } := by
  unfold Part.lostValues
  rw [modCtl_ctl, modMaint_ctl, modHeader_ctl, (modJournals_changes _ _).ctl, lossCounted_ctl]

theorem lostValues_mem : p.lostValues.mem = p.mem := by
  unfold Part.lostValues
  rw [modCtl_mem, modMaint_mem, modHeader_mem, (modJournals_changes _ _).mem, (lossCounted_changes p).mem]

/-- The two writes of an UNCONFIGURED journal's entry with epoch 0. -/
def clearedWrites (j : JournalId) : List Access :=
  [directoryWrite (.rewrite (.journal j) .a) (.journal j) .a (entryBytes j { epoch := 0, conf := none } 1),
    directoryWrite (.rewrite (.journal j) .b) (.journal j) .b (entryBytes j { epoch := 0, conf := none } 0)]

theorem freshCopies_cleared {j : JournalId} (h : (p.journal j).snap = { epoch := 0, conf := none }) :
    p.freshCopies .rewrite (.journal j) = clearedWrites j := by
  unfold Part.freshCopies Part.itemBytes
  dsimp only
  rw [h]
  rfl

/-- What the loss of the directory leaves. -/
theorem directoryLost_spec :
    p.directoryLost.ctl =
        { p.ctl with
          work := .entryRewrite
          rebuilt := allJournals
          cnt := { p.ctl.cnt with itemsLost := satInc p.ctl.cnt.itemsLost } }
      ∧ p.directoryLost.maint.pending = p.maint.pending ||| 0x0004#16
      ∧ p.directoryLost.maint.params = {}
      ∧ p.directoryLost.header = { p.header with layoutGen := some 0 }
      ∧ (∀ j, p.directoryLost.journal j =
          { (p.journal j).cleared with watermark := Config.defaultWatermark, dir := freshWriter })
      ∧ p.directoryLost.mem = p.mem.handedAll 6 (allJournals.flatMap clearedWrites) := by
  obtain ⟨hmem, hdir, hmaint, hgen, hjournal⟩ :=
    foldl_rewriteWith (rewriteItem_eq .rewrite) (fun p i k as _ => freshCopies_rewriteWith .rewrite _ p i k as)
      (allJournals.map Item.journal) (by decide) p.lostValues
  have hctl : ((allJournals.map Item.journal).foldl (Part.rewriteItem .rewrite) p.lostValues).ctl = p.lostValues.ctl :=
    (Part.Changes.foldl (rewriteItem_changes (client := .rewrite) · fun _ _ => rfl) _ p.lostValues).ctl
  rw [← directoryLost_eq] at hmem hdir hmaint hgen hjournal hctl
  rw [lostValues_maint] at hmaint
  refine ⟨hctl.trans (lostValues_ctl p), ?_, congrArg Maint.params hmaint, ?_, fun j => ?_, ?_⟩
  · rw [hmaint]
    exact raise_pending p.maint causeDirectoryLost
  · have hheader : p.directoryLost.header.dir = p.lostValues.header.dir := (hdir .header).trans (if_neg (by simp))
    exact (DeviceHeader.eq_of_fields hgen hheader).trans (lostValues_header p)
  · obtain ⟨d, hd⟩ := hjournal j
    have hfresh : (p.directoryLost.journal j).dir = freshWriter :=
      (hdir (.journal j)).trans (if_pos (List.mem_map_of_mem (mem_allJournals j)))
    rw [hd] at hfresh
    rw [hd, lostValues_journal, ← hfresh]
  · rw [hmem, Part.memAfter, lostValues_mem, lostValues_maint, List.flatMap_map]
    refine congrArg (MemEngine.handedAll p.mem _) (List.flatMap_congr fun j _ => freshCopies_cleared _ ?_)
    rw [lostValues_journal]
    rfl

end

/-! ## The selection (R170) -/

theorem selectHeader_first (h : p.ctl.loadOf .header .a = none ∨ p.ctl.loadOf .header .b = none) :
    p.selectHeader = p := by
  unfold Part.selectHeader
  split
  · next ha hb => exact absurd h (by rw [ha, hb]; simp)
  · rfl

section
variable {a b : List Byte} (ha : p.ctl.loadOf .header .a = some a) (hb : p.ctl.loadOf .header .b = some b)
include ha hb

theorem selectHeader_taken {copy : Copy} {image : List Byte} {h : HeaderRecord}
    (hchosen : chooseCopy (fun bs => (headerRecord bs).isSome) a b = some (copy, image))
    (hrecord : headerRecord image = some h) : p.selectHeader = p.headerTaken copy image h := by
  unfold Part.selectHeader
  simp only [ha, hb, hchosen, hrecord]

theorem selectHeader_lost (hchosen : chooseCopy (fun bs => (headerRecord bs).isSome) a b = none) :
    p.selectHeader = p.directoryLost := by
  unfold Part.selectHeader
  simp only [ha, hb, hchosen]

end

/-! ## HEADER_LOAD_COMPLETE -/

theorem ends_headerLoad {a : Access} {k : Copy} {P : Part → Prop} (hcomplete : s.part.completes a)
    (hclient : a.client = .load .header k)
    (hP : P ((s.part.carryOut a).loadArrived .header k (Memory.readBytes s.part.dram a.addr 64))) :
    Ends .headerLoadComplete s P := by
  refine ends_complete (act := fun
    | .load .header k => some fun _ bytes p => p.loadArrived .header k bytes
    | _ => none) rfl hcomplete (by rw [hclient]) ?_ hP
  rw [(loadArrived_changes _ _ _ _).ret, (carryOut_changes _ a).ret]
  exact hcomplete.1

/-- The part when a load of a restore has been carried out and its bytes are kept. -/
def Part.loadLanded (p : Part) (a : Access) (i : Item) (k : Copy) : Part :=
  (p.carryOut a).keep ⟨i, k, Memory.readBytes p.dram a.addr 64⟩

theorem ends_selectHeader {a : Access} {k : Copy} {P : Part → Prop} (hcomplete : s.part.completes a)
    (habandoned : s.part.ctl.abandoned = false) (hclient : a.client = .load .header k)
    (hP : P (s.part.loadLanded a .header k).selectHeader) : Ends .headerLoadComplete s P :=
  ends_headerLoad hcomplete hclient
    (loadArrived_header (p := s.part.carryOut a) habandoned k (Memory.readBytes s.part.dram a.addr 64) ▸ hP)

/-- A read leaves DRAM as it was. -/
theorem store_read {a : Access} (hread : a.kind = .read) (dram : List Host.Cell) : a.store dram = dram := by
  unfold Access.store
  rw [hread]

theorem headerLoads : Rules.HeaderLoads := by
  intro s hrun habandoned p m loads journals
  refine ⟨fun hop hwork => ?_, fun a k hcomplete hread hclient => ?_⟩
  · have hload := exitComplete_loads hwork habandoned
    refine ends_event rfl hrun (if_pos hop) ?_ ?_
    · rw [hload, (loadHeader_changes _).ret]
      exact hrun
    · rw [hload]
      refine ⟨(loadHeader_changes _).ret, loadHeader_ctl _, (loadHeader_changes _).dram, (loadHeader_mem _).trans ?_⟩
      exact congrArg (MemEngine.handedAll · p.maint.params.urgent.toNat (loads .header))
        (arbitrate_urgent (m := m.exited) (urgent := p.maint.params.urgent.toNat) rfl rfl (.inl rfl))
  · intro bytes loaded mem hnew
    have hdram : (p.loadLanded a .header k).dram = p.dram := store_read hread p.dram
    refine ⟨fun hfirst => ends_selectHeader hcomplete habandoned hclient ?_, fun other hother => ?_⟩
    · rw [selectHeader_first (loadOf_kept_first hfirst)]
      exact ⟨rfl, rfl, hdram, rfl, rfl, rfl⟩
    intro chosen
    obtain ⟨ha, hb⟩ := loadOf_kept_both (bytes := bytes) hnew hother
    refine ⟨fun copy image h hchosen hrecord => ends_selectHeader hcomplete habandoned hclient ?_,
      fun hchosen => ends_selectHeader hcomplete habandoned hclient ?_⟩
    · rw [selectHeader_taken ha hb hchosen hrecord]
      obtain ⟨hctl, hmaint, hheader, hjournal, hmem⟩ := headerTaken_spec (p.loadLanded a .header k) copy image h
      exact ⟨hctl, (headerTaken_changes _ copy image h).dram.trans hdram, hmaint, hheader, hjournal, hmem⟩
    · rw [selectHeader_lost ha hb hchosen]
      have hch := (directoryLost_changes (s.part.loadLanded a .header k)).dram
      obtain ⟨hctl, hpending, hparams, hheader, hjournal, hmem⟩ := directoryLost_spec (s.part.loadLanded a .header k)
      generalize (s.part.loadLanded a .header k).directoryLost = q at hch hctl hpending hparams hheader hjournal hmem ⊢
      refine ⟨hctl, hch.trans hdram, hpending, hparams, hheader, fun j => ?_, ?_⟩
      · rw [hjournal j]
        exact ⟨rfl, rfl, rfl, rfl⟩
      · rw [hmem]
        exact congrArg (MemEngine.handedAll mem 6) (List.flatMap_map ..).symm

theorem abandonedHeaderLoads : Rules.AbandonedHeaderLoads := by
  intro a k s hcomplete habandoned hclient
  have hends : Ends .headerLoadComplete s fun q => q = s.part.carryOut a :=
    ends_headerLoad hcomplete hclient (loadArrived_abandoned (p := s.part.carryOut a) habandoned .header k _)
  have hch := carryOut_changes s.part a
  exact ⟨hends, fun hmode => hends.keepsRetention habandoned hmode fun r hr => hr ▸ ⟨hch.ret, hch.ctl⟩⟩

/-- Settles O45, by its two parts: `headerTaken_spec` and `directoryLost_spec` say what the selection leaves. -/
theorem headerIsRestored : Obligations.HeaderIsRestored := ⟨headerLoads, abandonedHeaderLoads⟩

end Sys2Proof.Machine
end

section
/-! The load, the check and the rebuilding of the journals' entries at a restore (O46). -/

namespace Sys2Proof.Machine

set_option Elab.async false

variable {p : Part} {s : State} {j : JournalId} {x : EntryRecord} {st : JournalState}

/-! ## The check of a chosen entry (R171) -/

theorem overlap_eq_false_iff {base count base' count' : Nat} :
    overlap base count base' count' = false ↔ base + count ≤ base' ∨ base' + count' ≤ base := by
  unfold overlap
  rw [Bool.and_eq_false_iff, decide_eq_false_iff_not, decide_eq_false_iff_not]
  omega

/-- The record's region shares no segment with that of a journal of a lower number rebuilt so far (log 32). -/
def Part.apart (p : Part) (j : JournalId) (x : EntryRecord) : Prop :=
  ∀ k c, k < j → k ∈ p.ctl.rebuilt → (p.journal k).conf = some c →
    x.base.toNat + x.count.toNat ≤ c.base.toNat ∨ c.base.toNat + c.count.toNat ≤ x.base.toNat

theorem overlapsRebuilt_eq_false_iff : p.overlapsRebuilt j x = false ↔ p.apart j x := by
  unfold Part.overlapsRebuilt
  rw [List.any_eq_false]
  refine ⟨fun h k c hlower hrebuilt hconf => ?_, fun h k _ hover => ?_⟩
  · have hk := h k (mem_allJournals k)
    rw [decide_eq_true hlower, decide_eq_true hrebuilt, hconf, Option.any_some, Bool.true_and, Bool.true_and,
      Bool.not_eq_true] at hk
    exact overlap_eq_false_iff.1 hk
  · rw [Bool.and_eq_true, Bool.and_eq_true, decide_eq_true_iff, decide_eq_true_iff, Option.any_eq_true] at hover
    obtain ⟨⟨hlower, hrebuilt⟩, c, hconf, hshared⟩ := hover
    rw [overlap_eq_false_iff.2 (h k c hlower hrebuilt hconf)] at hshared
    cases hshared

/-- The record's positions and sequence are those a configured journal may have. -/
def EntryRecord.placed (x : EntryRecord) : Prop :=
  x.head.toNat ≤ x.frontier.toNat ∧ x.frontier.toNat ≤ x.head.toNat + x.count.toNat * 65536
    ∧ x.head.toNat % 32 = 0 ∧ x.frontier.toNat % 32 = 0 ∧ x.frontierSeq ≠ 0 ∧ x.frontierSeq ≠ 0xFFFFFFFF#32

/-- The record passes the check of R171 with this state. -/
def Part.passes (p : Part) (j : JournalId) (x : EntryRecord) (st : JournalState) : Prop :=
  x.state = some st ∧ x.tag ≠ some 0
    ∧ (st = .unconfigured
      ∨ ((16 ≤ x.count.toNat ∧ x.count.toNat ≤ 32767 ∧ 1 ≤ x.base.toNat ∧ x.base.toNat + x.count.toNat ≤ 32768)
        ∧ p.apart j x ∧ x.placed ∧ (x.tag ≠ none ∨ st = .unassigned)))

theorem entryOk_iff (hstate : x.state = some st) : p.entryOk j x = true ↔ p.passes j x st := by
  unfold Part.entryOk Part.passes EntryRecord.placed regionOk
  simp only [hstate, Bool.and_eq_true, Bool.or_eq_true, decide_eq_true_iff, Bool.not_eq_true',
    overlapsRebuilt_eq_false_iff, Option.isSome_iff_ne_none, Config.minSegments, Config.lastSegment,
    Config.segmentBytes, Config.lastSequence, true_and, and_assoc]

/-! ## The entry rebuilt (R70, R171) -/

theorem rebuild_state (x : EntryRecord) (watermark : Byte) :
    (x.rebuild watermark).state = if x.tag = none then .unassigned else .held := by
  unfold EntryRecord.rebuild Conf.state
  cases x.tag <;> rfl

theorem rebuilt_unconfigured (e : Journal) (copy : Copy) (gen : W32) (x : EntryRecord) :
    e.rebuilt copy gen x .unconfigured = { e.cleared with dir := { newest := copy, gen := gen } } := if_pos rfl

theorem rebuilt_configured (e : Journal) (copy : Copy) (gen : W32) (x : EntryRecord) (hst : st ≠ .unconfigured) :
    e.rebuilt copy gen x st =
      { e.cleared with
        conf := some (x.rebuild e.watermark)
        epoch := x.epoch
        dir :=
          { newest := copy, gen := gen
            dirty := decide ((if x.tag = none then JournalState.unassigned else .held) ≠ st) } } := by
  rw [← rebuild_state x e.watermark]
  exact if_neg hst

/-! ## The entry lost (R171) -/

theorem journalLost_eq (p : Part) (j : JournalId) :
    p.journalLost j = (p.lossCounted.modJournal j Journal.cleared).rewriteItem .rewrite (.journal j) := rfl

theorem rewriteItem_journal (client : Item → Copy → Client) (p : Part) (j k : JournalId) :
    (p.rewriteItem client (.journal j)).journal k =
      if j = k then { p.journal k with dir := freshWriter } else p.journal k := by
  rw [rewriteItem_eq, Part.rewriteWith, (handAll_changes _ _).journal]
  split
  · next h => subst h; exact modDir_journal_self p j _
  · next h => exact modDir_journal_ne p h _

theorem rewriteItem_header (client : Item → Copy → Client) (p : Part) (j : JournalId) :
    (p.rewriteItem client (.journal j)).header = p.header := by
  rw [rewriteItem_eq, Part.rewriteWith, (handAll_changes _ _).header, (modDir_journal_changes p j _).header]

/-- What the loss of a journal leaves. -/
theorem journalLost_spec (p : Part) (j : JournalId) :
    (p.journalLost j).journal j = { (p.journal j).cleared with dir := freshWriter }
      ∧ (∀ k, k ≠ j → (p.journalLost j).journal k = p.journal k)
      ∧ (p.journalLost j).header = p.header
      ∧ (p.journalLost j).maint = p.maint.raise causeDirectoryLost
      ∧ (p.journalLost j).ctl = { p.ctl with cnt := { p.ctl.cnt with itemsLost := satInc p.ctl.cnt.itemsLost } }
      ∧ (p.journalLost j).mem = p.memAfter (clearedWrites j) := by
  have hcleared := modJournal_changes p.lossCounted j Journal.cleared
  have hrewrite := rewriteItem_changes (p.lossCounted.modJournal j Journal.cleared) (client := .rewrite)
    (fun _ _ => rfl) (.journal j)
  have hcount := lossCounted_changes p
  rw [← journalLost_eq] at hrewrite
  refine ⟨?_, fun k hk => ?_, ?_, ?_, ?_, ?_⟩
  · rw [journalLost_eq, rewriteItem_journal, if_pos rfl, modJournal_journal_self, hcount.journal]
  · rw [journalLost_eq, rewriteItem_journal, if_neg (Ne.symm hk), modJournal_journal_ne _ _ _ (Ne.symm hk),
      hcount.journal]
  · rw [journalLost_eq, rewriteItem_header, hcleared.header, hcount.header]
  · rw [hrewrite.maint, hcleared.maint, lossCounted_maint]
  · rw [hrewrite.ctl, hcleared.ctl, lossCounted_ctl]
  · obtain ⟨-, hparams, -⟩ := raise_raised p.maint causeDirectoryLost
    rw [journalLost_eq, rewriteItem_mem, freshCopies_cleared, Part.memAfter, hcleared.mem, hcleared.maint, hcount.mem,
      lossCounted_maint, hparams]
    rw [modJournal_journal_self]
    rfl

/-! ## The selection (R169, step 5) -/

/-- The journal counted among those that have been rebuilt, or lost. -/
def Part.entered (p : Part) (j : JournalId) : Part := p.modCtl fun c => { c with rebuilt := c.rebuilt ++ [j] }

theorem selectEntry_first (h : p.ctl.loadOf (.journal j) .a = none ∨ p.ctl.loadOf (.journal j) .b = none) :
    p.selectEntry j = p := by
  unfold Part.selectEntry
  split
  · next ha hb => exact absurd h (by rw [ha, hb]; simp)
  · rfl

section
variable {a b : List Byte} (ha : p.ctl.loadOf (.journal j) .a = some a) (hb : p.ctl.loadOf (.journal j) .b = some b)
include ha hb

theorem selectEntry_noCopy (hchosen : chooseCopy (copyValid (.journal j)) a b = none) :
    p.selectEntry j = (p.journalLost j).entered j := by
  unfold Part.selectEntry
  simp only [ha, hb, hchosen]
  rfl

variable {copy : Copy} {image : List Byte} (hchosen : chooseCopy (copyValid (.journal j)) a b = some (copy, image))
include hchosen

theorem selectEntry_fails (hfails : ∀ st, ¬p.passes j (entryRecord image) st) :
    p.selectEntry j = (p.journalLost j).entered j := by
  unfold Part.selectEntry
  simp only [ha, hb, hchosen]
  split
  · next st hstate =>
    rw [if_neg fun hok => hfails st ((entryOk_iff hstate).1 hok)]
    rfl
  · rfl

theorem selectEntry_passes (hpasses : p.passes j (entryRecord image) st) :
    p.selectEntry j =
      (p.modJournal j fun e => e.rebuilt copy (copyGeneration image) (entryRecord image) st).entered j := by
  obtain ⟨hstate, -⟩ := id hpasses
  unfold Part.selectEntry
  simp only [ha, hb, hchosen, hstate, (entryOk_iff hstate).2 hpasses, if_true]
  rfl

end

/-! ## ENTRY_LOAD_COMPLETE -/

theorem loadArrived_entry (h : p.ctl.abandoned = false) (j : JournalId) (k : Copy) (bytes : List Byte) :
    p.loadArrived (.journal j) k bytes = (p.keep ⟨.journal j, k, bytes⟩).selectEntry j :=
  if_neg (ne_true_of_eq_false h)

section
variable {a : Access} {k : Copy} {P : Part → Prop} (hcomplete : s.part.completes a)
  (hclient : a.client = .load (.journal j) k)
include hcomplete hclient

theorem ends_entryLoad
    (hP : P ((s.part.carryOut a).loadArrived (.journal j) k (Memory.readBytes s.part.dram a.addr 64))) :
    Ends .entryLoadComplete s P := by
  refine ends_complete (act := fun
    | .load (.journal j) k => some fun _ bytes p => p.loadArrived (.journal j) k bytes
    | _ => none) rfl hcomplete (by rw [hclient]) ?_ hP
  rw [(loadArrived_changes _ _ _ _).ret, (carryOut_changes _ a).ret]
  exact hcomplete.1

theorem ends_selectEntry (habandoned : s.part.ctl.abandoned = false)
    (hP : P ((s.part.loadLanded a (.journal j) k).selectEntry j)) : Ends .entryLoadComplete s P :=
  ends_entryLoad hcomplete hclient
    (loadArrived_entry (p := s.part.carryOut a) habandoned j k (Memory.readBytes s.part.dram a.addr 64) ▸ hP)

end

theorem firstEntryLoads : Rules.FirstEntryLoads := by
  intro j a k s hcomplete habandoned hclient hfirst p
  exact ends_selectEntry hcomplete hclient habandoned (selectEntry_first (loadOf_kept_first hfirst))

theorem entriesLoad : Rules.EntriesLoad := by
  intro j a k other s hcomplete habandoned hclient hnew hother p bytes entered chosen region apart placed passes lost
  obtain ⟨ha, hb⟩ := loadOf_kept_both (bytes := bytes) hnew hother
  have hlost (hselect : (p.loadLanded a (.journal j) k).selectEntry j
      = ((p.loadLanded a (.journal j) k).journalLost j).entered j) : lost := by
    refine ends_selectEntry hcomplete hclient habandoned ?_
    have hdram := (journalLost_changes (s.part.loadLanded a (.journal j) k) j).dram
    obtain ⟨hself, hothers, hheader, hmaint, hctl, hmem⟩ := journalLost_spec (s.part.loadLanded a (.journal j) k) j
    rw [hselect]
    generalize (s.part.loadLanded a (.journal j) k).journalLost j = q at hdram hself hothers hheader hmaint hctl hmem ⊢
    exact ⟨congrArg Journal.conf hself, congrArg Journal.epoch hself, (congrArg Journal.watermark hself).trans rfl,
      congrArg Journal.dir hself, (congrArg Maint.pending hmaint).trans (raise_pending _ _),
      congrArg (fun c : Control => { c with rebuilt := c.rebuilt ++ [j] }) hctl, hheader, hdram, hothers, hmem⟩
  refine ⟨fun hnone => hlost (selectEntry_noCopy ha hb hnone), fun copy image hchosen => ?_⟩
  intro x dir rebuilt
  have hrebuilt (st conf epoch dirty) (hpasses : passes x st)
      (hentry : (p.journal j).rebuilt copy (copyGeneration image) x st =
        { (p.journal j).cleared with conf := conf, epoch := epoch, dir := dir dirty }) : rebuilt conf epoch dirty := by
    have hselect := selectEntry_passes (p := s.part.loadLanded a (.journal j) k) ha hb hchosen hpasses
    have hself := (modJournal_journal_self (s.part.loadLanded a (.journal j) k) j
      fun e => e.rebuilt copy (copyGeneration image) x st).trans hentry
    have hothers := fun i (hi : i ≠ j) => modJournal_journal_ne (s.part.loadLanded a (.journal j) k) j
      (fun e => e.rebuilt copy (copyGeneration image) x st) (Ne.symm hi)
    refine ends_selectEntry hcomplete hclient habandoned ?_
    rw [hselect]
    exact ⟨congrArg Journal.conf hself, congrArg Journal.epoch hself, congrArg Journal.dir hself,
      (congrArg Journal.watermark hself).trans rfl, rfl, rfl, rfl, rfl, rfl, hothers⟩
  refine ⟨fun hfails => hlost (selectEntry_fails ha hb hchosen hfails), fun hpasses => ?_, fun st hst hpasses => ?_⟩
  · exact hrebuilt .unconfigured none 0 false hpasses (rebuilt_unconfigured _ copy _ x)
  · exact hrebuilt st _ x.epoch _ hpasses (rebuilt_configured _ copy _ x hst)

theorem abandonedEntryLoads : Rules.AbandonedEntryLoads := by
  intro j a k s hcomplete habandoned hclient
  have hends : Ends .entryLoadComplete s fun q => q = s.part.carryOut a :=
    ends_entryLoad hcomplete hclient (loadArrived_abandoned (p := s.part.carryOut a) habandoned (.journal j) k _)
  have hch := carryOut_changes s.part a
  exact ⟨hends, fun hmode => hends.keepsRetention habandoned hmode fun r hr => hr ▸ ⟨hch.ret, hch.ctl⟩⟩

/-- Settles O46, by its three parts: `selectEntry_passes`, `selectEntry_fails` and `selectEntry_noCopy` are the ways of a
journal whose copies are both there. -/
theorem entriesAreRestored : Obligations.EntriesAreRestored := ⟨firstEntryLoads, entriesLoad, abandonedEntryLoads⟩

end Sys2Proof.Machine
end

section
/-! READ_STATUS, READ_JOURNAL and READ_COUNTERS (O53). -/

namespace Sys2Proof.Machine

set_option Elab.async false

variable {p : Part} {s : State}

/-! ## Fields that are computed bit by bit or case by case (11.6) -/

/-- A bit joined where a condition holds is a joined byte that is zero where it does not. -/
theorem ite_or_bit (c : Prop) [Decidable c] (b bit : Byte) :
    (if c then b ||| bit else b) = b ||| if c then bit else 0 := by
  by_cases hc : c
  · rw [if_pos hc, if_pos hc]
  · rw [if_neg hc, if_neg hc]
    exact BitVec.or_zero.symm

theorem subsByte_eq (subs : List Port) :
    subsByte subs = (if decide (0 ∈ subs) = true then 1 else 0) ||| (if decide (1 ∈ subs) = true then 2 else 0)
      ||| (if decide (2 ∈ subs) = true then 4 else 0) ||| if decide (3 ∈ subs) = true then 8 else 0 := by
  unfold subsByte allPorts
  simp only [List.foldl_cons, List.foldl_nil, ite_or_bit, decide_eq_true_eq]
  rw [BitVec.zero_or]
  rfl

theorem dirFlags_eq (d : DirWriter) :
    d.flags = (if d.dirty then 1 else 0) ||| (if d.inFlight then 2 else 0)
      ||| if decide (d.newest = .b) = true then 4 else 0 := by
  unfold DirWriter.flags
  simp only [decide_eq_true_eq]
  rfl

theorem deferredBytes_eq (d : Deferred) :
    d.bytes = match d with
      | .none => [0, 0, 0, 0]
      | .waiting (.forceRelease j) => [1, 0x06, BitVec.ofNat 8 j.val, 0]
      | .waiting .format => [1, 0x09, 0, 0]
      | .done (.forceRelease j) r => [2, 0x06, BitVec.ofNat 8 j.val, r.code]
      | .done .format r => [2, 0x09, 0, r.code] := by
  cases d with
  | none => rfl
  | waiting c => cases c <;> rfl
  | done c r => cases c <;> rfl

theorem reportBytes_unconfigured {e : Journal} (hc : e.conf = none) :
    e.reportBytes = [0] ++ leBytes 4 e.epoch.toNat ++ zeros 74 ++ [e.watermark, 0, 0, e.dir.flags]
      ++ leBytes 4 e.dir.gen.toNat := by
  unfold Journal.reportBytes
  rw [hc]
  rfl

/-! ## READ_JOURNAL (R179) -/

/-- What READ_JOURNAL answers to a byte that names a journal, or none. -/
def Part.answersJournal (p : Part) : Option JournalId → Part
  | none => p.respond .badValue []
  | some j => p.respond .ok (p.journal j).reportBytes

theorem takes_readJournal {b : Byte} {j : Option JournalId} (hrun : s.part.ret.running = true)
    (hmode : s.part.ret.mode ∈ [Mode.serving, .quiescing, .halted]) (hj : journalOf b = j) :
    Takes (.readJournal b) s fun p' q => q = p'.answersJournal j := by
  subst hj
  refine takes_run rfl hrun hmode rfl ?_ rfl
  dsimp only
  split <;> exact hrun

/-! ## READ_COUNTERS (R182) -/

/-- A counted transaction shows in block 22h alone. -/
theorem counted_counterBlock {block : Nat} (hblock : block ≠ 0x22) :
    p.counted.counterBlock block = p.counterBlock block := by
  unfold Part.counterBlock
  rw [if_neg hblock, if_neg hblock]
  rfl

theorem counted_counterBlock_port :
    p.counted.counterBlock 0x22
      = [satInc p.maint.cnt.completed, p.maint.cnt.cutShort, p.maint.cnt.badCommand, p.maint.cnt.raised] := rfl

theorem counted_counterBlock_length (block : Nat) :
    (p.counted.counterBlock block).length = (p.counterBlock block).length := by
  by_cases hblock : block = 0x22
  · rw [hblock]; rfl
  · rw [counted_counterBlock hblock]

/-- What READ_COUNTERS answers to a counter, or to none. -/
def Part.answersCounter (p : Part) : Option W32 → Part
  | some v => p.respond .ok (leBytes 4 v.toNat)
  | none => p.respond .badValue []

theorem takes_readCounters {block index : Byte} {v : Option W32} (hrun : s.part.ret.running = true)
    (hmode : s.part.ret.mode ≠ .retaining) (hv : (s.part.counted.counterBlock block.toNat)[index.toNat]? = v) :
    Takes (.readCounters block index) s fun p' q => q = p'.answersCounter v := by
  subst hv
  refine takes_anyMode (fs := [.maint]) rfl hrun hmode (fun q => ?_) rfl
  split <;> exact respond_changes q _ _

/-- Settles O53: each report is what the model's own function of the part gives, field by field of 11.6. -/
theorem maintenanceReports : Obligations.MaintenanceReports := by
  intro s hrun hmode p reported flag
  refine ⟨?_, fun hmodes => ⟨fun b hb => ?_, fun b j hj => ?_⟩,
    fun block index => ⟨fun v hv hblock => ?_, fun v hblock hv => ?_, fun hnone => ?_⟩⟩
  · refine takes_anyMode rfl hrun hmode (fun q => respond_changes q _ _) (congrArg (Part.respond _ .ok) ?_)
    unfold Part.statusBytes
    rw [deferredBytes_eq]
    rfl
  · exact takes_readJournal hrun hmodes (journalOf_none hb)
  · have hreport : reported (.readJournal b) fun _ => (p.journal j).reportBytes :=
      takes_readJournal hrun hmodes (journalOf_val hj)
    constructor
    case left =>
      intro hc
      rw [reportBytes_unconfigured hc, dirFlags_eq] at hreport
      exact hreport
    case right =>
      intro c hc
      unfold Journal.reportBytes at hreport
      rw [hc] at hreport
      dsimp only at hreport
      rw [subsByte_eq, dirFlags_eq] at hreport
      exact hreport
  · exact takes_readCounters (v := some v) hrun hmode (by rw [counted_counterBlock hblock]; exact hv)
  · exact takes_readCounters (v := some v) hrun hmode (by rw [hblock]; exact hv)
  · refine takes_readCounters hrun hmode (v := none) ?_
    rw [List.getElem?_eq_none_iff] at hnone ⊢
    rwa [counted_counterBlock_length]

end Sys2Proof.Machine
end

section
/-! The bytes of a maintenance transaction, the SPI pins that bring them, and the modes of the commands (O52). -/

namespace Sys2Proof.Machine

set_option Elab.async false

variable {p : Part} {s : State}

/-! ## The command that a transaction's bytes spell (R176, Table 11-8) -/

theorem maintenanceParams_unknown {b : Byte} (hb : b = 0 ∨ 0x0E ≤ b.toNat) : maintenanceParams b = none := by
  have hrange : b.toNat = 0 ∨ 0x0E ≤ b.toNat := hb.imp_left fun h => by rw [h]; rfl
  unfold maintenanceParams
  split
  case h_14 => rfl
  all_goals omega

theorem cutShort_unknown {b : Byte} (hb : maintenanceParams b = none) (bs : List Byte) :
    cutShort (b :: bs) = false := by
  unfold cutShort
  dsimp only
  rw [hb]

theorem cutShort_known {b : Byte} {n : Nat} (hb : maintenanceParams b = some n) (bs : List Byte) :
    cutShort (b :: bs) = decide (bs.length < n) := by
  unfold cutShort
  dsimp only
  rw [hb]

theorem transactionCommand_cutShort {bs : List Byte} (h : cutShort bs = true) :
    transactionCommand bs = .spiCutShort bs :=
  if_pos h

theorem transactionCommand_unknown {b : Byte} (hb : b = 0 ∨ 0x0E ≤ b.toNat) (bs : List Byte) :
    transactionCommand (b :: bs) = .badCommand b := by
  have hrange : b.toNat = 0 ∨ 0x0E ≤ b.toNat := hb.imp_left fun h => by rw [h]; rfl
  have hfirst : byteAt (b :: bs) 0 = b := rfl
  unfold transactionCommand
  rw [cutShort_unknown (maintenanceParams_unknown hb), if_neg Bool.false_ne_true, hfirst]
  split
  case h_14 => rfl
  all_goals omega

/-- A known command byte with all its parameters is not cut short, whatever follows. -/
theorem not_cutShort {b : Byte} {bs : List Byte} (hb : maintenanceParams b = some bs.length) (rest : List Byte) :
    ¬cutShort (b :: bs ++ rest) = true := by
  change ¬cutShort (b :: (bs ++ rest)) = true
  rw [cutShort_known hb, decide_eq_true_iff, List.length_append]
  omega

theorem field_leBytes (front rest : List Byte) (n v : Nat) :
    field (front ++ leBytes n v ++ rest) front.length n = v % 256 ^ n := by
  unfold field
  rw [List.append_assoc, List.drop_left, List.take_left' (leBytes_length n v), leNat_leBytes]

/-- A parameter sent low byte first reads back. -/
theorem ofNat_field_leBytes {w n : Nat} (front rest : List Byte) (x : BitVec w) (hw : 2 ^ w = 256 ^ n) :
    BitVec.ofNat w (field (front ++ leBytes n x.toNat ++ rest) front.length n) = x := by
  rw [field_leBytes, ← hw, Nat.mod_eq_of_lt x.isLt, BitVec.ofNat_toNat, BitVec.setWidth_eq]

/-- What each command byte with its parameters spells. -/
theorem transactionsSpellTheirCommands : Rules.TransactionsSpellTheirCommands := by
  refine ⟨?_, rfl, ?_⟩
  · intro j k param journal base count value mask rest reads word
    have hword (front after : List Byte) (x : W16) :
        BitVec.ofNat 16 (field (front ++ leBytes 2 x.toNat ++ after) front.length 2) = x :=
      ofNat_field_leBytes front after x rfl
    have hmask (b : Byte) : BitVec.ofNat 24 (field (b :: leBytes 3 mask.toNat ++ rest) 1 3) = mask :=
      ofNat_field_leBytes [b] rest mask rfl
    have readStatus : reads [0x01] .readStatus := if_neg (not_cutShort (bs := []) rfl rest)
    have readJournal : reads [0x02, j] (.readJournal j) := if_neg (not_cutShort (bs := [j]) rfl rest)
    have setLayout : reads (0x03 :: j :: word base ++ word count) (.setLayout j base count) :=
      (if_neg (not_cutShort (bs := j :: word base ++ word count) rfl rest)).trans
        (congrArg₂ (Instr.setLayout j) (hword [0x03, j] (word count ++ rest) base)
          (hword (0x03 :: j :: word base) rest count))
    have clearLayout : reads [0x04, j] (.clearLayout j) := if_neg (not_cutShort (bs := [j]) rfl rest)
    have setParam : reads (0x05 :: param :: journal :: word value) (.setParam param journal value) :=
      (if_neg (not_cutShort (bs := param :: journal :: word value) rfl rest)).trans
        (congrArg (Instr.setParam param journal) (hword [0x05, param, journal] rest value))
    have forceRelease : reads [0x06, j] (.forceRelease j) := if_neg (not_cutShort (bs := [j]) rfl rest)
    have saveAndHalt : reads [0x07] .saveAndHalt := if_neg (not_cutShort (bs := []) rfl rest)
    have resume : reads [0x08] .resume := if_neg (not_cutShort (bs := []) rfl rest)
    have format : reads [0x09] .format := if_neg (not_cutShort (bs := []) rfl rest)
    have readCounters : reads [0x0A, j, k] (.readCounters j k) := if_neg (not_cutShort (bs := [j, k]) rfl rest)
    have clearCounters : reads [0x0B] .clearCounters := if_neg (not_cutShort (bs := []) rfl rest)
    have ackAttention : reads (0x0C :: leBytes 3 mask.toNat) (.ackAttention mask) :=
      (if_neg (not_cutShort (bs := leBytes 3 mask.toNat) rfl rest)).trans (congrArg Instr.ackAttention (hmask 0x0C))
    have setAttentionMask : reads (0x0D :: leBytes 3 mask.toNat) (.setAttentionMask mask) :=
      (if_neg (not_cutShort (bs := leBytes 3 mask.toNat) rfl rest)).trans
        (congrArg Instr.setAttentionMask (hmask 0x0D))
    exact ⟨readStatus, readJournal, setLayout, clearLayout, setParam, forceRelease, saveAndHalt, resume, format,
      readCounters, clearCounters, ackAttention, setAttentionMask, fun hk => transactionCommand_unknown hk rest⟩
  · intro b n got hmem hlen
    have hknown : ∀ x ∈ [(0x02#8, 1), (0x03, 5), (0x04, 1), (0x05, 4), (0x06, 1), (0x0A, 2), (0x0C, 3), (0x0D, 3)],
        maintenanceParams x.1 = some x.2 := by decide
    refine transactionCommand_cutShort ?_
    rw [cutShort_known (hknown _ hmem), decide_eq_true_iff]
    exact hlen

/-! ## The modes of the commands (R177, Table 10-1) -/

/-- The commands of Table 10-1 are transactions taken in the modes it marks. -/
theorem exec_modesOf {c : Instr} {modes : List Mode} (h : modesOf c = some modes) :
    ∃ act, ∀ s, exec c s = .next (s.onPart fun p => p.transaction modes act) := by
  cases c with
  | readStatus | readJournal | setLayout | clearLayout | setParam | forceRelease | saveAndHalt | resume | format
  | readCounters | clearCounters | ackAttention | setAttentionMask =>
    cases h
    exact ⟨_, fun _ => rfl⟩
  | _ => cases h

theorem modesAreChecked : Rules.ModesAreChecked := by
  intro s hrun p
  refine ⟨fun c modes hc hmode => ?_, fun hmode => ?_, fun b hb => ?_, fun bytes hcut => ?_⟩
  · obtain ⟨act, hexec⟩ := exec_modesOf hc
    exact takes_refused (hexec s) hrun hmode
  · refine takes_run (act := fun q =>
      if q.ret.mode = .quiescing then q.respond .busy [] else (q.respond .ok []).quiesce .saveAndHalt)
      rfl hrun ?_ rfl ?_ (if_pos hmode)
    · rw [hmode]; decide
    · exact (congrArg (fun q : Part => q.ret.running) (if_pos hmode)).trans hrun
  · refine ends_event (congrArg Host.Outcome.next (congrArg s.onPart (funext fun _ => if_neg ?_))) hrun rfl hrun rfl
    rw [hb]
    decide
  · exact ends_event (congrArg Host.Outcome.next (congrArg s.onPart (funext fun _ => if_pos hcut))) hrun rfl hrun rfl

/-! ## The byte returned for a byte clocked (R176) -/

theorem spiByte_stopped (hstopped : p.ret.running = false) (n : Nat) : p.spiByte n = 0xFF#8 := by
  unfold Part.spiByte
  rw [if_neg (ne_true_of_eq_false hstopped)]

theorem spiByte_receiving {bytes : List Byte} (hrun : p.ret.running = true) (hspi : p.maint.spi = .receiving bytes)
    (n : Nat) : p.spiByte n = 0#8 := by
  unfold Part.spiByte
  rw [if_pos hrun, hspi]

theorem spiByte_responding {k : Nat} (hrun : p.ret.running = true) (hspi : p.maint.spi = .responding k) (n : Nat) :
    p.spiByte n = p.maint.response[k]?.getD 0#8 := by
  unfold Part.spiByte
  rw [if_pos hrun, hspi]
  exact List.getD_eq_getElem?_getD

/-- Only the bytes of a transaction that is not taken are counted (log 48). -/
theorem returnByte_uncounted {b : Byte} (hbyte : s.part.spiByte s.pins.untaken = b)
    (htaken : s.part.ret.running = false ∨ s.part.maint.spi ≠ .waiting) :
    s.returnByte = { s with pins := { s.pins with out := some b } } := by
  unfold State.returnByte
  rw [hbyte, if_neg fun ⟨hrun, hwaiting⟩ => htaken.elim (fun h => by rw [hrun] at h; cases h) fun h => h hwaiting]

/-! ## What a byte and a rise do (R176) -/

section
variable {b : Byte} {got : List Byte} {k : Nat}

theorem spiClock_stopped (hstopped : s.part.ret.running = false) : s.spiClock b = .next s.returnByte :=
  if_neg (ne_true_of_eq_false hstopped)

theorem spiClock_waiting (hrun : s.part.ret.running = true) (hspi : s.part.maint.spi = .waiting) :
    s.spiClock b = .next s.returnByte := by
  unfold State.spiClock
  dsimp only
  rw [if_pos hrun, hspi]

theorem spiClock_receiving (hrun : s.part.ret.running = true) (hspi : s.part.maint.spi = .receiving got) :
    s.spiClock b = State.received { s with pins := { s.pins with out := some 0#8 } } (got ++ [b]) := by
  rw [← returnByte_uncounted (spiByte_receiving hrun hspi _) (.inr (by rw [hspi]; nofun))]
  unfold State.spiClock
  dsimp only
  rw [if_pos hrun, hspi]

theorem spiClock_responding (hrun : s.part.ret.running = true) (hspi : s.part.maint.spi = .responding k) :
    s.spiClock b = .next (State.progress
      { s with pins := { s.pins with out := some (s.part.maint.response[k]?.getD 0#8) } } (.responding (k + 1))) := by
  rw [← returnByte_uncounted (spiByte_responding hrun hspi _) (.inr (by rw [hspi]; nofun))]
  unfold State.spiClock
  dsimp only
  rw [if_pos hrun, hspi]

theorem spiRise_stopped (hstopped : s.part.ret.running = false) : s.spiRise = .next s :=
  if_neg (ne_true_of_eq_false hstopped)

theorem spiRise_waiting (hrun : s.part.ret.running = true) (hspi : s.part.maint.spi = .waiting) :
    s.spiRise = .next s := by
  unfold State.spiRise
  rw [if_pos hrun, hspi]

theorem spiRise_receiving (hrun : s.part.ret.running = true) (hspi : s.part.maint.spi = .receiving got) :
    s.spiRise = exec (.spiCutShort got) s := by
  unfold State.spiRise
  rw [if_pos hrun, hspi]

theorem spiRise_responding (hrun : s.part.ret.running = true) (hspi : s.part.maint.spi = .responding k) :
    s.spiRise = .next (s.onPart fun p => p.moved .waiting []) := by
  unfold State.spiRise
  rw [if_pos hrun, hspi]

theorem spiFall_stopped (hstopped : s.part.ret.running = false) : s.spiFall = .next s :=
  congrArg _ (if_neg (ne_true_of_eq_false hstopped))

theorem spiFall_running (hrun : s.part.ret.running = true) :
    s.spiFall = .next (s.onPart fun p => p.moved (.receiving []) []) := congrArg _ (if_pos hrun)

end

/-- On an empty queue the pins bring their next event. -/
theorem step_wire {pins : SpiPins} {e : SpiEvent} {rest : List SpiEvent} (hwire : pins.wire = e :: rest) :
    step ⟨[], p, pins⟩ = State.spiEvent ⟨[], p, { pins with wire := rest }⟩ e := by
  unfold step
  dsimp only
  rw [hwire]

/-- Each event of the pins, by the progress of the present transaction. -/
theorem pinsDriveTransactions : Rules.PinsDriveTransactions := by
  intro p pins e rest hwire m answers goes
  have hstep := step_wire (p := p) hwire
  constructor
  case left =>
    intro hstopped
    refine ⟨fun b he => ?_, fun he => ?_⟩
    · subst he
      rw [hstep]
      exact (spiClock_stopped hstopped).trans
        (congrArg Host.Outcome.next (returnByte_uncounted (spiByte_stopped hstopped _) (.inl hstopped)))
    · rw [hstep]
      obtain he | he := he <;> subst he
      · exact spiFall_stopped hstopped
      · exact spiRise_stopped hstopped
  case right =>
    intro hrun
    refine ⟨fun he => ?_, fun b got he hspi => ⟨fun hcut => ?_, fun hcut => ?_⟩, fun b k he hspi => ?_,
      fun b he hspi => ⟨p.spiByte pins.untaken, pins.untaken + 1, ?_⟩, fun got he hspi => ?_, fun k he hspi => ?_,
      fun he hspi => ?_⟩
    all_goals subst he
    · exact hstep.trans (spiFall_running hrun)
    · exact hstep.trans ((spiClock_receiving hrun hspi).trans (if_pos hcut))
    · exact hstep.trans ((spiClock_receiving hrun hspi).trans (if_neg (ne_true_of_eq_false hcut)))
    · exact hstep.trans (spiClock_responding hrun hspi)
    · refine hstep.trans ((spiClock_waiting hrun hspi).trans ?_)
      unfold State.returnByte
      rw [if_pos ⟨hrun, hspi⟩]
    · exact hstep.trans (spiRise_receiving hrun hspi)
    · exact hstep.trans (spiRise_responding hrun hspi)
    · exact hstep.trans (spiRise_waiting hrun hspi)

/-- Settles O52, by its three parts. -/
theorem maintenanceModesAreChecked : Obligations.MaintenanceModesAreChecked :=
  ⟨transactionsSpellTheirCommands, pinsDriveTransactions, modesAreChecked⟩

end Sys2Proof.Machine
end

section
/-! The copies of the directory's items, and what they read back as (O59). -/

namespace Sys2Proof.Machine

/-! ## Fields read back -/

theorem ofNat_leNat_leBytes {w : Nat} (n : Nat) (x : BitVec w) (hw : 2 ^ w = 256 ^ n) :
    BitVec.ofNat w (leNat (leBytes n x.toNat)) = x := by
  rw [leNat_leBytes, ← hw, Nat.mod_eq_of_lt x.isLt, BitVec.ofNat_toNat, BitVec.setWidth_eq]

theorem ofNat_leNat_zeros (w n : Nat) : BitVec.ofNat w (leNat (zeros n)) = 0 := by
  have hzeros : leNat (zeros n) = 0 := by
    induction n with
    | zero => rfl
    | succ n ih =>
      change 0 + 256 * leNat (zeros n) = 0
      rw [ih]
  rw [hzeros]
  rfl

/-- An owner tag reads back by its presence byte and its four bytes. -/
theorem recordedTag_eq (tag : Option W32) :
    (if presence tag.isSome = 1#8 then some (BitVec.ofNat 32 (leNat (tagBytes tag))) else none) = tag := by
  cases tag with
  | none => rfl
  | some t => exact congrArg some (ofNat_leNat_leBytes 4 t rfl)

theorem journalStateOf_code (s : JournalState) : journalStateOf s.code.toNat = some s := by cases s <;> rfl

theorem rowPolicyOf_code (r : RowPolicy) : rowPolicyOf r.code.toNat = some r := by cases r <;> rfl

/-! ## What all copies share (R186) -/

/-- The byte of a copy that names its item (Table 11-7). -/
def itemByte : Item → Byte
  | .header => 0xFF#8
  | .journal j => journalCode j

/-- A copy before its check: identity, item, the item's own 51 bytes and generation. -/
def copyBody (i : Item) (fields : List Byte) (gen : W32) : List Byte :=
  formatIdentity ++ [itemByte i] ++ fields ++ leBytes 4 gen.toNat

/-- The bytes of a journal entry that are its own, the reserved ones with them. -/
def entryFields (snap : Snapshot) : List Byte :=
  (match snap.conf with
    | none => [JournalState.unconfigured.code] ++ zeros 10 ++ leBytes 4 snap.epoch.toNat ++ zeros 20
    | some c =>
      [c.state.code, presence c.tag.isSome, 0#8] ++ leBytes 2 c.base.toNat ++ leBytes 2 c.count.toNat
        ++ tagBytes c.tag ++ leBytes 4 snap.epoch.toNat ++ leBytes 8 c.head.toNat ++ leBytes 8 c.frontier.toNat
        ++ leBytes 4 c.frontierSeq.toNat) ++ zeros 16

/-- The bytes of the device header that are its own, the reserved ones with them. -/
def headerFields (layoutGen : W32) (p : Params) (watermarks : List Byte) : List Byte :=
  [1#8, 0#8, 0#8] ++ leBytes 4 layoutGen.toNat ++ [p.idle, p.urgent, p.rowPolicy.code, 0#8] ++ leBytes 2 p.grace.toNat
    ++ zeros 2 ++ watermarks ++ zeros 28

theorem entryBytes_eq (j : JournalId) (snap : Snapshot) (gen : W32) :
    entryBytes j snap gen = withCrc32 (copyBody (.journal j) (entryFields snap) gen) := by
  obtain ⟨epoch, conf⟩ := snap
  cases conf <;> simp only [entryBytes, copyBody, entryFields, itemByte, List.append_assoc]

theorem headerBytes_eq (layoutGen : W32) (p : Params) (watermarks : List Byte) (gen : W32) :
    headerBytes layoutGen p watermarks gen
      = withCrc32 (copyBody .header (headerFields layoutGen p watermarks) gen) := by
  simp only [headerBytes, copyBody, headerFields, itemByte, List.append_assoc, List.cons_append, List.nil_append]

theorem entryFields_length (snap : Snapshot) : (entryFields snap).length = 51 := by
  unfold entryFields
  cases snap.conf <;> simp [zeros, leBytes_length, tagBytes]

theorem headerFields_length (layoutGen : W32) (p : Params) {watermarks : List Byte} (hw : watermarks.length = 8) :
    (headerFields layoutGen p watermarks).length = 51 := by
  simp [headerFields, zeros, leBytes_length, hw]

theorem copyValid_iff (i : Item) (bs : List Byte) :
    copyValid i bs = true
      ↔ field bs 60 4 = (crc32 (bs.take 60)).toNat ∧ bs.take 4 = formatIdentity ∧ byteAt bs 4 = itemByte i := by
  cases i <;> simp [copyValid, itemByte, and_assoc]

section
variable (i : Item) {fields : List Byte} (gen : W32) (hf : fields.length = 51)
include hf

theorem copyBody_length : (copyBody i fields gen).length = 60 := by
  simp [copyBody, formatIdentity, leBytes_length, hf]

theorem withCrc32_copyBody_length : (withCrc32 (copyBody i fields gen)).length = 64 := by
  rw [withCrc32, List.length_append, copyBody_length i gen hf, leBytes_length]

theorem copyValid_withCrc32 : copyValid i (withCrc32 (copyBody i fields gen)) = true := by
  have hlen := copyBody_length i gen hf
  refine (copyValid_iff _ _).2 ⟨?_, rfl, rfl⟩
  unfold withCrc32 field
  rw [List.take_left' hlen, List.drop_left' hlen, List.take_of_length_le (leBytes_length _ _).le]
  exact leNat_leBytes_of_lt (BitVec.isLt _)

theorem copyGeneration_withCrc32 : copyGeneration (withCrc32 (copyBody i fields gen)) = gen := by
  have hfront : (formatIdentity ++ [itemByte i] ++ fields).length = 56 := by simp [formatIdentity, hf]
  unfold copyGeneration withCrc32 copyBody
  rw [← hfront]
  exact ofNat_field_leBytes _ _ gen rfl

theorem withCrc32_copyBody :
    (withCrc32 (copyBody i fields gen)).length = 64 ∧ copyValid i (withCrc32 (copyBody i fields gen)) = true
      ∧ copyGeneration (withCrc32 (copyBody i fields gen)) = gen :=
  ⟨withCrc32_copyBody_length i gen hf, copyValid_withCrc32 i gen hf, copyGeneration_withCrc32 i gen hf⟩

end

/-! ## Journal entries -/

section
variable (j : JournalId) (snap : Snapshot) (epoch gen : W32)

theorem entryBytes_copy :
    (entryBytes j snap gen).length = 64 ∧ copyValid (.journal j) (entryBytes j snap gen) = true
      ∧ copyGeneration (entryBytes j snap gen) = gen := by
  rw [entryBytes_eq]
  exact withCrc32_copyBody _ gen (entryFields_length snap)

theorem entryRecord_unconfigured :
    entryRecord (entryBytes j { epoch := epoch, conf := none } gen)
      = { state := some .unconfigured, tag := none, base := 0, count := 0, epoch := epoch, head := 0, frontier := 0
          frontierSeq := 0 } := by
  rw [entryRecord, EntryRecord.mk.injEq]
  exact ⟨rfl, rfl, ofNat_leNat_zeros 16 2, ofNat_leNat_zeros 16 2, ofNat_leNat_leBytes 4 epoch rfl,
    ofNat_leNat_zeros 64 8, ofNat_leNat_zeros 64 8, ofNat_leNat_zeros 32 4⟩

theorem entryRecord_configured (c : SnapConf) :
    entryRecord (entryBytes j { epoch := epoch, conf := some c } gen)
      = { state := some c.state, tag := c.tag, base := c.base, count := c.count, epoch := epoch, head := c.head
          frontier := c.frontier, frontierSeq := c.frontierSeq } := by
  rw [entryRecord, EntryRecord.mk.injEq]
  exact ⟨journalStateOf_code c.state, recordedTag_eq c.tag, ofNat_leNat_leBytes 2 c.base rfl,
    ofNat_leNat_leBytes 2 c.count rfl, ofNat_leNat_leBytes 4 epoch rfl, ofNat_leNat_leBytes 8 c.head rfl,
    ofNat_leNat_leBytes 8 c.frontier rfl, ofNat_leNat_leBytes 4 c.frontierSeq rfl⟩

end

/-! ## The device header -/

section
variable (layout gen : W32) (p : Params) {watermarks : List Byte} (hw : watermarks.length = 8)
include hw

theorem headerBytes_copy :
    (headerBytes layout p watermarks gen).length = 64
      ∧ copyValid .header (headerBytes layout p watermarks gen) = true
      ∧ copyGeneration (headerBytes layout p watermarks gen) = gen := by
  rw [headerBytes_eq]
  exact withCrc32_copyBody _ gen (headerFields_length layout p hw)

theorem watermarks_headerBytes : ((headerBytes layout p watermarks gen).drop 20).take 8 = watermarks := by
  unfold headerBytes withCrc32
  simp only [List.append_assoc]
  exact List.take_left' hw

/-- A copy of the header reads back when the parameters that it records are in the ranges of Table 10-2. -/
theorem headerRecord_headerBytes (hidle : 1 ≤ p.idle.toNat) (hgrace : p.grace.toNat ≤ 60000)
    (hurgent : 4 ≤ p.urgent.toNat ∧ p.urgent.toNat ≤ 8)
    (hwatermarks : ∀ w ∈ watermarks, 50 ≤ w.toNat ∧ w.toNat ≤ 100) :
    headerRecord (headerBytes layout p watermarks gen)
      = some { layoutGen := layout, params := p, watermarks := watermarks } := by
  obtain ⟨-, hvalid, -⟩ := headerBytes_copy layout gen p hw
  have hwm := watermarks_headerBytes layout gen p hw
  have hversion : byteAt (headerBytes layout p watermarks gen) 5 = 1#8 := rfl
  have hlayout : BitVec.ofNat 32 (field (headerBytes layout p watermarks gen) 8 4) = layout :=
    ofNat_leNat_leBytes 4 layout rfl
  have hidleByte : byteAt (headerBytes layout p watermarks gen) 12 = p.idle := rfl
  have hidleField : field (headerBytes layout p watermarks gen) 12 1 = p.idle.toNat := rfl
  have hurgentByte : byteAt (headerBytes layout p watermarks gen) 13 = p.urgent := rfl
  have hurgentField : field (headerBytes layout p watermarks gen) 13 1 = p.urgent.toNat := rfl
  have hpolicy : rowPolicyOf (field (headerBytes layout p watermarks gen) 14 1) = some p.rowPolicy :=
    rowPolicyOf_code p.rowPolicy
  have hgraceField : field (headerBytes layout p watermarks gen) 16 2 = p.grace.toNat :=
    leNat_leBytes_of_lt (n := 2) p.grace.isLt
  have hidleRange : idleInRange p.idle.toNat = true := decide_eq_true ⟨hidle, Nat.le_of_lt_succ p.idle.isLt⟩
  have hurgentRange : urgentInRange p.urgent.toNat = true := decide_eq_true hurgent
  have hgraceRange : graceInRange p.grace.toNat = true := decide_eq_true hgrace
  have hwmRange : watermarks.all (fun b => watermarkInRange b.toNat) = true :=
    List.all_eq_true.2 fun w hmem => decide_eq_true (hwatermarks w hmem)
  unfold headerRecord
  simp only [hvalid, hversion, hlayout, hidleByte, hidleField, hurgentByte, hurgentField, hpolicy, hgraceField,
    hidleRange, hurgentRange, hgraceRange, hwm, hwmRange, decide_true, Bool.and_self, if_true,
    BitVec.ofNat_toNat, BitVec.setWidth_eq]

end

/-! ## O59 -/

/-- Settles O59: a copy closed by its check is valid for its item, and each field is read at the place it was put. -/
theorem directoryCopiesReadBack : Obligations.DirectoryCopiesReadBack := by
  refine ⟨fun j epoch gen => ?_, fun j epoch gen c => ?_,
    fun layout gen p watermarks hidle hgrace hlow hhigh hw hwatermarks => ?_⟩
  · obtain ⟨hlen, hvalid, hgen⟩ := entryBytes_copy j { epoch := epoch, conf := none } gen
    exact ⟨hlen, hvalid, hgen, entryRecord_unconfigured j epoch gen⟩
  · obtain ⟨hlen, hvalid, hgen⟩ := entryBytes_copy j { epoch := epoch, conf := some c } gen
    exact ⟨hlen, hvalid, hgen, entryRecord_configured j epoch gen c⟩
  · obtain ⟨hlen, hvalid, hgen⟩ := headerBytes_copy layout gen p hw
    exact ⟨hlen, hvalid, hgen, headerRecord_headerBytes layout gen p hw hidle hgrace ⟨hlow, hhigh⟩ hwatermarks⟩

end Sys2Proof.Machine
end

section
/-! What a step takes (O1), and that no command touches the queue or the pins (O2). -/

namespace Sys2Proof.Machine

set_option Elab.async false

/-! ## O1 -/

/-- Settles O1, by the branch of `step` for a queue that is not empty. -/
theorem stepRunsTheFrontCommand : Obligations.StepRunsTheFrontCommand := by
  intro c rest p pins
  rfl

/-! ## A command's answer differs in the part alone -/

variable {c : Instr} {s t : State}

theorem lineCommand_onPart (hl : lineCommand c = true) (s : State) : ∃ f, exec c s = .next (s.onPart f) := by
  cases c with cases hl
  | pfailNFall | pfailNRise | mainDomainStart | mainPowerOn | mainPowerLoss | rstNLow | rstNRelease
  | retentionPowerOn => exact ⟨_, rfl⟩

theorem exec_onPart (h : exec c s = .next t) : ∃ f, t = s.onPart f := by
  cases hl : lineCommand c with
  | true =>
    obtain ⟨f, hf⟩ := lineCommand_onPart hl s
    exact ⟨f, (Host.Outcome.next.inj (hf.symm.trans h)).symm⟩
  | false =>
    obtain ⟨f, ht, -⟩ := exec_eventOf hl h
    exact ⟨_, ht⟩

/-! ## O2 -/

/-- On an empty queue with nothing on the pins the part idles. -/
theorem step_idle {p : Part} {pins : SpiPins} (hwire : pins.wire = []) : step ⟨[], p, pins⟩ = .next ⟨[], p, pins⟩ := by
  unfold step
  dsimp only
  rw [hwire]

theorem emptyQueueLeavesThePins : Rules.EmptyQueueLeavesThePins :=
  fun _ _ => ⟨step_idle, fun _ _ => step_wire⟩

theorem commandsKeepTheQueue : Rules.CommandsKeepTheQueue := by
  intro c s t h
  obtain ⟨f, rfl⟩ := exec_onPart h
  exact ⟨s.onPart_pending f, s.onPart_pins f⟩

/-- Settles O2: an empty queue leaves the pins their turn, and a command answers with the part alone changed. -/
theorem queueIsTheModelsOwn : Obligations.QueueIsTheModelsOwn :=
  ⟨emptyQueueLeavesThePins, commandsKeepTheQueue⟩

end Sys2Proof.Machine
end
